-- ==== Sys2Proof/Word.lean ====
section
/-! DEFINITION. The word sizes and the numbered things of the SJX-420, and one word of exchange memory. -/

namespace Sys2Proof

/-- A word of the window, of exchange memory or of a layout: 16 bits (00_scope.md, Conventions). -/
abbrev Word := BitVec 16

/-- A tick count, start tick, deadline or arrival tick: 32 bits (R102). -/
abbrev Tick := BitVec 32

/-- An address of a station's 2048-word window (pins address 10 to 0, Table 9.3). -/
abbrev Addr := BitVec 11

/-- The generation of a slot, 0-255 (R9, R10). -/
abbrev Generation := BitVec 8

/-- The status byte of a reply (R13). -/
abbrev Status := BitVec 8

/-- A station-set word: bit n stands for station n (Table 12.2's text). -/
abbrev StationSet := BitVec 4

/-- The two sampled tick-period straps (R101). -/
abbrev StrapCode := BitVec 2

/-- Stations, and their ports, are numbered 0 to 3. -/
abbrev Station := Fin 4

/-- Slots of the exchange table, 0-47 (R1). -/
abbrev SlotNo := Fin 48

/-- Buffers of exchange memory, 0-255 (R75). -/
abbrev BufferNo := Fin 256

/-- Word offsets inside a buffer or the buffer window, 0-31 (R75, R87). -/
abbrev Offset := Fin 32

/-- Service numbers, 0-31. -/
abbrev Service := Fin 32

/-- Positions of a journal area, 0-31 (R110). -/
abbrev Position := Fin 32

/-- Payload lengths, 0-256 words (R21). -/
abbrev PayloadLen := Fin 257

/-- One word of exchange memory: its 16 data bits, and whether its parity bit agrees with them (R75).
The spec gives no parity polarity; with the data known, "agrees or not" is the same information as
the parity bit of either polarity. DESIGN CHOICE, safe (log 10). -/
structure MemWord where
  data : Word
  good : Bool
  deriving DecidableEq, Repr

end Sys2Proof
end

