-- ==== Sys2Proof/Syntax.lean ====
section
/-! DEFINITION. The commands and events of the SJX-420: one constructor per row of spec/opcode_table.json. -/

namespace Sys2Proof

/-- The input lines of one port (R140, Table 9.3), as levels: true means asserted. -/
structure BusLines where
  select      : Bool
  readStrobe  : Bool
  writeStrobe : Bool
  address     : Addr
  data        : Word
  deriving DecidableEq, Repr

/-- Select is asserted together with a strobe (R140). An access ends where this ceases: that it does not end
while either strobe is left asserted, where the spec says only "the strobe", is a DESIGN CHOICE (log 26). -/
def BusLines.asserted (l : BusLines) : Bool :=
  l.select && (l.readStrobe || l.writeStrobe)

/-- When the port takes a read of a word that has no row of its own in the table: in the event that
begins the access, or later, when nothing else is waiting. The spec leaves that moment open (R141);
here it is a choice of the environment. DESIGN CHOICE (log 2). -/
inductive ReadTiming where
  | atOnce
  | later
  deriving DecidableEq, Repr

/-- The commands and events, in the table's order. `p` is the port. The commands and the window
accesses are the TAKING of the access the port has captured: address, direction, data and parameters
come from the state (R140, R144, R145; log 3). -/
inductive Instr where
  /-- POST (R28) -/
  | post (p : Station)
  /-- REPLY (R32) -/
  | reply (p : Station)
  /-- CANCEL (R35) -/
  | cancel (p : Station)
  /-- NOTIFY (R41) -/
  | notify (p : Station)
  /-- TAKE (R52) -/
  | take (p : Station)
  /-- ACQUIRE (R81) -/
  | acquire (p : Station)
  /-- RELEASE (R85) -/
  | release (p : Station)
  /-- APPEND (R84) -/
  | append (p : Station)
  /-- SCRUB (R96) -/
  | scrub (p : Station)
  /-- SET_ROUTE (R65) -/
  | setRoute (p : Station)
  /-- CLEAR_ROUTE (R66) -/
  | clearRoute (p : Station)
  /-- SET_ADMIT (R67) -/
  | setAdmit (p : Station)
  /-- FLIP (R117) -/
  | flip (p : Station)
  /-- JOIN (R126) -/
  | join (p : Station)
  /-- LEAVE (R127) -/
  | leave (p : Station)
  /-- ACK_FAULT (R160) -/
  | ackFault (p : Station)
  /-- BAD_COMMAND (R146) -/
  | badCommand (p : Station)
  /-- WINDOW_SELECT (R86) -/
  | windowSelect (p : Station)
  /-- STEP (R86) -/
  | windowStep (p : Station)
  /-- BUFFER_WINDOW_READ (R89) -/
  | bufferWindowRead (p : Station)
  /-- BUFFER_WINDOW_WRITE (R88) -/
  | bufferWindowWrite (p : Station)
  /-- ATTENTION_CAUSE_WRITE (R156) -/
  | attentionCauseWrite (p : Station)
  /-- ATTENTION_ENABLE_WRITE (R157) -/
  | attentionEnableWrite (p : Station)
  /-- TICK_LOW_READ (R103) -/
  | tickLowRead (p : Station)
  /-- WINDOW_WORD_WRITE (R143) -/
  | windowWordWrite (p : Station)
  /-- ACCESS_BEGIN (R140): the station drives its lines to `lines`, select and a strobe asserted. -/
  | accessBegin (p : Station) (lines : BusLines) (timing : ReadTiming)
  /-- ACCESS_END (R140): the station drives its lines to `lines`, strobe or select negated (both strobes,
  where both were asserted: log 26). -/
  | accessEnd (p : Station) (lines : BusLines)
  /-- TICK (R102) -/
  | tick
  /-- EXPIRY (R106) of one due slot -/
  | expiry (slot : SlotNo)
  /-- SCRUB_COMPLETION (R97): `readBack` is what the 32 words read back as, word 0 first; it is not
  under the part's control. -/
  | scrubCompletion (readBack : Vector MemWord 32)
  /-- DRAIN_COMPLETION (R130) -/
  | drainCompletion (p : Station)
  /-- TEARDOWN (R133): the station reset input is asserted. -/
  | teardown (p : Station)
  /-- STATION_RESET_RELEASED (R135) -/
  | stationResetReleased (p : Station)
  /-- MASTER_RESET (R136) -/
  | masterReset
  /-- MASTER_RESET_ENDS (R99): `straps` are the levels of the tick-period straps (R101). -/
  | masterResetEnds (straps : StrapCode)
  /-- END_OF_INITIALISATION_PASS (R137) -/
  | endOfInitialisationPass
  /-- BAD_PARITY (R75): word `offset` of buffer `buffer` comes to hold `data` with a parity bit that
  does not agree. -/
  | badParity (buffer : BufferNo) (offset : Offset) (data : Word)
  /-- ACCESS_ENDED_EARLY (R141): the station drives its lines to `lines`, strobe or select negated
  (both strobes, where both were asserted: log 26), while its access is PENDING. -/
  | accessEndedEarly (p : Station) (lines : BusLines)
  deriving DecidableEq, Repr

end Sys2Proof
end

