-- ==== Sys2Proof/Decode.lean ====
section
/-! DEFINITION. The commands that a word spells by the table's bits. -/

namespace Sys2Proof

/-- No row of spec/opcode_table.json gives bits ("n_rows_with_fields": 0 in spec/98_reader.md), so no
word spells a command: commands reach the part as accesses and events (log 24). -/
def decodeTableWord (_nbits _w : Nat) : Option Instr := none

end Sys2Proof
end

