-- ==== Sys2Proof/Config.lean ====
section
/-! DEFINITION. The fixed numbers of the part. The spec leaves no value to the implementation and
no result open, so no uninterpreted constant stands here. -/

namespace Sys2Proof.Config

/-- Records plus reservations an inbox holds at most (R45). -/
def inboxCapacity : Nat := 32

/-- The cap on one station's open exchanges as requester (R7). -/
def requesterCap : Nat := 24

/-- The most buffers a station may come to hold through ACQUIRE (R82). -/
def heldLimit : Nat := 128

/-- The most buffers of a chain (R79). -/
def maxChain : Nat := 8

/-- Words of one buffer (R75). -/
def bufferWords : Nat := 32

/-- Words of exchange memory (R75). -/
def memoryWords : Nat := 8192

/-- "No chain" and "no buffer selected" (R21, R86). -/
def noBuffer : Word := 0xFFFF#16

/-- The step value of the window select word (R86). -/
def stepValue : Word := 0xFFFE#16

/-- The divisor of the 20 MHz reference clock that a strap code selects (Table 6.1). -/
def tickDivisor (strap : StrapCode) : Nat := 200 * 10 ^ strap.toNat

end Sys2Proof.Config
end

