-- ==== Sys2Proof/Machine/State.lean ====
section
/-! DEFINITION. The state of the SJX-420 as plain data, and its value at reset. -/

namespace Sys2Proof.Machine

/-! ## Codes -/

/-- The sixteen commands (Table 12.2). -/
inductive Command where
  | post | reply | cancel | notify | take | acquire | release | append | scrub
  | setRoute | clearRoute | setAdmit | flip | join | leave | ackFault
  deriving DecidableEq, Repr

/-- The result codes 0-22, in the order of their codes (Table 12.2). -/
inductive ResultCode where
  | done | wrongState | notOnline | noRoute | peerDown | notAdmitted | tagInUse | overCap | noSlot
  | ownFull | destFull | badLength | badChain | damaged | stale | noExchange | empty | noBuffers
  | overLimit | busy | badParam | badCommand | noneDamaged
  deriving DecidableEq, Repr

/-! ## Exchanges, records and journals -/

/-- An exchange number: slot and generation (R9). -/
structure XNum where
  slot : SlotNo
  gen  : Generation
  deriving DecidableEq, Repr

/-- The two areas of a journal (R110). -/
inductive Area where
  | a | b
  deriving DecidableEq, Repr

/-- A journal reference: area and index (R2). -/
structure JournalRef where
  area  : Area
  index : Position
  deriving DecidableEq, Repr

/-- The states of a slot (R1). -/
inductive SlotState where
  | free | opened | taken
  deriving DecidableEq, Repr

/-- An exchange slot, with the fields of Table 1.2. -/
structure Slot where
  state       : SlotState
  gen         : Generation
  requester   : Station
  tag         : Word
  service     : Service
  dest        : Station
  destService : Service
  start       : Tick
  deadline    : Tick
  wordsOut    : PayloadLen
  reqRef      : Option JournalRef
  respRef     : Option JournalRef
  deriving DecidableEq, Repr

/-- The outcomes that carry nothing from a replier (R13, Table 1.4). -/
inductive Lapse where
  | expired | cancelled | peerGone
  deriving DecidableEq, Repr

/-- What a record carries beyond source, service and arrival tick, by its kind (Table 3.1). A field a
kind does not carry does not exist in it; the view shows it as 0 or FFFFh (R55). -/
inductive RecordBody where
  | request (x : XNum) (words : List Word) (len : PayloadLen) (chain : Option BufferNo)
  | notice  (words : List Word)
  | reply   (x : XNum) (tag : Word) (status : Status) (words : List Word) (len : PayloadLen)
            (chain : Option BufferNo)
  | lapsed  (kind : Lapse) (x : XNum) (tag : Word)
  deriving DecidableEq, Repr

/-- An inbox record (R44). -/
structure Record where
  source  : Station
  service : Service
  arrival : Tick
  body    : RecordBody
  deriving DecidableEq, Repr

/-- The outcome of a closed journal record, with the reply status where the outcome is REPLIED
(Table 7.1). -/
inductive JournalOutcome where
  | replied (status : Status)
  | lapsed  (kind : Lapse)
  deriving DecidableEq, Repr

/-- The role of a journal record; only a REQUESTER record carries the tag (R111). -/
inductive JournalRole where
  | requester (tag : Word)
  | responder
  deriving DecidableEq, Repr

/-- What an opening writes (R112). -/
structure JournalHead where
  role     : JournalRole
  x        : XNum
  peer     : Station
  service  : Service
  wordsOut : PayloadLen
  start    : Tick
  deriving DecidableEq, Repr

/-- What a close writes (R15, R115). -/
structure JournalClose where
  outcome : JournalOutcome
  wordsIn : PayloadLen
  endTick : Tick
  deriving DecidableEq, Repr

/-- A journal record: EMPTY, OPEN or CLOSED (R110). -/
inductive JournalEntry where
  | empty
  | opened (head : JournalHead)
  | closed (head : JournalHead) (close : JournalClose)
  deriving DecidableEq, Repr

/-- A station's journal (R110). -/
structure Journal where
  areaA   : Vector JournalEntry 32
  areaB   : Vector JournalEntry 32
  current : Area
  nextA   : Position
  nextB   : Position
  deriving DecidableEq, Repr

/-! ## Routes and admission -/

/-- A route entry (Table 4.1): the fields a kind does not use do not exist in it. -/
inductive RouteEntry where
  | none
  | request (dest : Station) (service : Service) (timeout : Word) (maxPayload : PayloadLen)
  | notice  (members : StationSet) (service : Service)
  deriving DecidableEq, Repr

/-! ## Ports -/

/-- The port states (R123). -/
inductive PortState where
  | reset | offline | online | draining
  deriving DecidableEq, Repr

/-- An access as the port captured it: address, direction and, for a write, the data word (R140). -/
inductive Access where
  | read  (address : Addr)
  | write (address : Addr) (data : Word)
  deriving DecidableEq, Repr

/-- The access states (R140). `endedEarly` says that the negation of a PENDING access has been seen
already (R141); `driven` is the word a read drives on the data lines. -/
inductive AccessState where
  | idle
  | pending  (access : Access) (endedEarly : Bool)
  | answered (driven : Option Word)
  | abandoned
  deriving DecidableEq, Repr

/-- The kinds of a recorded fault (R159). -/
inductive FaultKind where
  | access | parity
  deriving DecidableEq, Repr

/-- A fault word that holds a record, with its MORE flag (R159); `buffer` is none for FFFFh. -/
structure FaultWord where
  kind   : FaultKind
  buffer : Option BufferNo
  offset : Offset
  more   : Bool
  deriving DecidableEq, Repr

/-- What a port and its station own (R140, R144, R147, R86, R153, R157, R159, R103, R55, R43, R60, R62,
R110). -/
structure Port where
  state         : PortState
  resetInput    : Bool
  lines         : BusLines
  readTiming    : ReadTiming
  access        : AccessState
  params        : Vector Word 16
  lastCommand   : Option Command
  result        : ResultCode
  resultParams  : Vector Word 16
  windowSelect  : Option BufferNo
  enables       : BitVec 5
  journalCause  : Bool
  peerCause     : Bool
  scrubCause    : Bool
  fault         : Option FaultWord
  tickHolding   : Word
  view          : Option Record
  inbox         : List Record
  routes        : Vector RouteEntry 32
  admits        : Vector StationSet 32
  journal       : Journal
  deriving DecidableEq, Repr

/-! ## The payload pool -/

/-- Where a buffer is, with its holder when HELD (R76, R77). -/
inductive Place where
  | free
  | held (by_ : Station)
  | attached
  | damagedListed
  | scrubbing
  | retired
  deriving DecidableEq, Repr

/-- A buffer descriptor (Table 5.1). -/
structure Descriptor where
  place   : Place
  next    : Option BufferNo
  head    : Bool
  damaged : Bool
  deriving DecidableEq, Repr

/-- The outcome of the last completed scrub (5.8). -/
inductive ScrubOutcome where
  | none | clean | retired
  deriving DecidableEq, Repr

/-- The scrub engine and the scrub status word's parts (5.8): `buffer` and `issuer` are those of the
scrub in progress while `busy`, else of the last completed one. -/
structure ScrubEngine where
  busy    : Bool
  buffer  : Option BufferNo
  outcome : ScrubOutcome
  issuer  : Station
  deriving DecidableEq, Repr

/-- Exchange memory: word addresses, strictly rising, with no entry that equals what an unlisted
address reads as. The part's smallest unit is the word (R141; log 21). -/
abbrev Memory := List (Nat × MemWord)

/-- The payload pool (R75-R79, R95). The retired set is the set of buffers whose place is `retired`,
and a station's held count is the number of its `held` buffers: no second copy is kept (log 25). -/
structure Pool where
  descs   : Vector Descriptor 256
  free    : List BufferNo
  damaged : List BufferNo
  scrub   : ScrubEngine
  mem     : Memory
  deriving DecidableEq, Repr

/-! ## The part -/

/-- Master reset asserted, the initialisation pass running, or neither (R99, R136, R137). The tick
generator runs exactly in `running` (R102). -/
inductive Phase where
  | masterReset | initPass | running
  deriving DecidableEq, Repr

/-- The whole part, and the queue of the commands and events that are waiting. -/
structure State where
  phase     : Phase
  strap     : StrapCode
  tickCount : Tick
  slots     : Vector Slot 48
  ports     : Vector Port 4
  pool      : Pool
  pending   : List Instr
  deriving DecidableEq, Repr

/-- No behaviour of the part stops the machine: ACCESS and PARITY faults are recorded in the fault
word and the station goes on (R87, R89), so no reason for a stop exists. -/
inductive Fault where
  deriving DecidableEq, Repr

/-- Why a step has no meaning. -/
inductive Refusal where
  /-- Raised by an arm of exec for a command without a meaning; safe. No arm raises it. -/
  | notModelled (mnemonic : String)
  deriving DecidableEq, Repr

/-! ## Reset values -/

/-- A FREE slot with its other fields at zero, in generation `g` (R4, R19). -/
def Slot.freeIn (g : Generation) : Slot where
  state := .free
  gen := g
  requester := 0
  tag := 0
  service := 0
  dest := 0
  destService := 0
  start := 0
  deadline := 0
  wordsOut := 0
  reqRef := none
  respRef := none

/-- A clear journal: every record EMPTY, area A current, both positions 0 (R120, R122). -/
def Journal.clear : Journal where
  areaA := Vector.replicate 32 .empty
  areaB := Vector.replicate 32 .empty
  current := .a
  nextA := 0
  nextB := 0

/-- Lines of a station that drives nothing. DESIGN CHOICE (log 7). -/
def quietLines : BusLines where
  select := false
  readStrobe := false
  writeStrobe := false
  address := 0
  data := 0

/-- A port with every item of its station cleared (R133 step 4, R136, R139, R161): port state RESET,
tables clear, inbox empty, window select FFFFh, everything else 0. The input levels are DESIGN CHOICE
(log 7). -/
def Port.cleared : Port where
  state := .reset
  resetInput := false
  lines := quietLines
  readTiming := .atOnce
  access := .idle
  params := Vector.replicate 16 0
  lastCommand := none
  result := .done
  resultParams := Vector.replicate 16 0
  windowSelect := none
  enables := 0
  journalCause := false
  peerCause := false
  scrubCause := false
  fault := none
  tickHolding := 0
  view := none
  inbox := []
  routes := Vector.replicate 32 .none
  admits := Vector.replicate 32 0
  journal := Journal.clear

/-- The descriptor of every buffer in the pool's reset condition (R99). -/
def Descriptor.reset : Descriptor where
  place := .free
  next := none
  head := false
  damaged := false

/-- The engine in the pool's reset condition (R99). -/
def ScrubEngine.reset : ScrubEngine where
  busy := false
  buffer := none
  outcome := .none
  issuer := 0

/-- The pool in its reset condition over the memory `m` (R99). -/
def Pool.resetOver (m : Memory) : Pool where
  descs := Vector.replicate 256 Descriptor.reset
  free := List.finRange 256
  damaged := []
  scrub := ScrubEngine.reset
  mem := m

/-- The machine right after reset: master reset asserted (R19, R58, R74, R99, R109, R122, R136, R139,
R161). The strap code, the input levels and the memory words, which the spec gives no value for before
the first pass, are DESIGN CHOICE (log 6, log 7, log 8). -/
def State.reset : State where
  phase := .masterReset
  strap := 0
  tickCount := 0
  slots := Vector.replicate 48 (Slot.freeIn 0)
  ports := Vector.replicate 4 Port.cleared
  pool := Pool.resetOver []
  pending := []

end Sys2Proof.Machine
end

