-- ==== Sys2Proof/Machine/Ops.lean ====
section
/-! DEFINITION. The shared operations over memory, ports, slots, buffers, inboxes and journals, and the
ending of an exchange. Where an operation meets a state that no run reaches (a chain that is not in the
state its record says, a FREE slot handed to the ending), it leaves the thing alone (log 16). -/

namespace Sys2Proof.Machine

/-! ## Exchange memory (R75) -/

/-- What an unlisted word reads as: 0 with good parity, as the initialisation pass leaves it (R75,
R99). Before the first pass this is a DESIGN CHOICE (log 8). -/
def Memory.blank : MemWord := ⟨0, true⟩

/-- The word at an address. -/
def Memory.read : Memory → Nat → MemWord
  | [], _ => Memory.blank
  | (a, w) :: rest, k => if a = k then w else Memory.read rest k

/-- Store a word at an address, keeping the canonical form. -/
def Memory.write : Memory → Nat → MemWord → Memory
  | [], k, v => if v = Memory.blank then [] else [(k, v)]
  | (a, w) :: rest, k, v =>
    if k < a then (if v = Memory.blank then (a, w) :: rest else (k, v) :: (a, w) :: rest)
    else if k = a then (if v = Memory.blank then rest else (k, v) :: rest)
    else (a, w) :: Memory.write rest k v

/-- Every entry lies at `lo` or above and below 8192, addresses rise strictly, and no entry equals what an
unlisted address reads as. -/
def Memory.wfFrom : Nat → Memory → Bool
  | _, [] => true
  | lo, (a, w) :: rest =>
    decide (lo ≤ a) && decide (a < Config.memoryWords) && decide (w ≠ Memory.blank)
      && Memory.wfFrom (a + 1) rest

/-- The canonical form of exchange memory. -/
def Memory.wf (m : Memory) : Bool := Memory.wfFrom 0 m

/-- The address of word `w` of buffer `b` (R75). -/
def wordAddress (b : BufferNo) (w : Offset) : Nat := Config.bufferWords * b.val + w.val

/-! ## Access to the parts of the state -/

def State.port (s : State) (p : Station) : Port := s.ports[p]

def State.setPort (s : State) (p : Station) (x : Port) : State :=
  { s with ports := s.ports.set p x }

def State.modPort (s : State) (p : Station) (f : Port → Port) : State :=
  s.setPort p (f (s.port p))

/-- Change every port, each by its number. -/
def State.mapPorts (s : State) (f : Station → Port → Port) : State :=
  { s with ports := #v[f 0 (s.port 0), f 1 (s.port 1), f 2 (s.port 2), f 3 (s.port 3)] }

def State.slot (s : State) (i : SlotNo) : Slot := s.slots[i]

def State.setSlot (s : State) (i : SlotNo) (x : Slot) : State :=
  { s with slots := s.slots.set i x }

def State.setPool (s : State) (x : Pool) : State := { s with pool := x }

def Pool.desc (pool : Pool) (b : BufferNo) : Descriptor := pool.descs[b]

def Pool.setDesc (pool : Pool) (b : BufferNo) (d : Descriptor) : Pool :=
  { pool with descs := pool.descs.set b d }

/-! ## The pool (R77-R79, R82, R85, R91-R93) -/

/-- The buffer is HELD by the station. -/
def Pool.holds (pool : Pool) (p : Station) (b : BufferNo) : Bool :=
  decide ((pool.desc b).place = .held p)

/-- Follow the links from a buffer, at most `fuel` buffers. -/
def Pool.walk (pool : Pool) : Nat → BufferNo → List BufferNo
  | 0, _ => []
  | fuel + 1, b =>
    b :: (match (pool.desc b).next with
      | none => []
      | some c => pool.walk fuel c)

/-- The chain a buffer heads, in chain order (R79); 256 buffers exist, so no chain is cut short. -/
def Pool.chain (pool : Pool) (b : BufferNo) : List BufferNo := pool.walk 256 b

/-- The number of buffers HELD by a station (R82). -/
def Pool.heldCount (pool : Pool) (p : Station) : Nat :=
  (List.finRange 256).countP (pool.holds p)

/-- The number of RETIRED buffers (R97). -/
def Pool.retiredCount (pool : Pool) : Nat :=
  (List.finRange 256).countP fun b => decide ((pool.desc b).place = .retired)

/-- One HELD or ATTACHED buffer leaves its chain and goes to the tail of the free list, or of the
damaged list if its damaged flag is set (R85, R92). -/
def Pool.giveBack (pool : Pool) (b : BufferNo) : Pool :=
  let d := pool.desc b
  match d.place with
  | .held _ | .attached =>
    if d.damaged then
      { pool.setDesc b ⟨.damagedListed, none, false, true⟩ with damaged := pool.damaged ++ [b] }
    else
      { pool.setDesc b ⟨.free, none, false, false⟩ with free := pool.free ++ [b] }
  | .free | .damagedListed | .scrubbing | .retired => pool

/-- A whole chain is given back in chain order, head first (R85, R92). -/
def Pool.giveBackChain (pool : Pool) (head : BufferNo) : Pool :=
  (pool.chain head).foldl Pool.giveBack pool

/-- The discard rule for the chain of a record, if it has one (R92). -/
def Pool.discard (pool : Pool) : Option BufferNo → Pool
  | none => pool
  | some head => pool.giveBackChain head

/-- The heads of the chains a station holds, in ascending order. -/
def Pool.heldHeads (pool : Pool) (p : Station) : List BufferNo :=
  (List.finRange 256).filter fun b => pool.holds p b && (pool.desc b).head

/-- Every buffer HELD by the station is released, chain by chain in ascending order of head (R93). Every
HELD buffer stands in a chain (R79), so the second pass meets none in any state a run reaches. -/
def Pool.releaseHeld (pool : Pool) (p : Station) : Pool :=
  let released := (pool.heldHeads p).foldl Pool.giveBackChain pool
  ((List.finRange 256).filter (released.holds p)).foldl Pool.giveBack released

/-- One buffer goes from HELD to ATTACHED; links and flags are kept (R91). -/
def Pool.attach (pool : Pool) (b : BufferNo) : Pool :=
  match (pool.desc b).place with
  | .held _ => pool.setDesc b { pool.desc b with place := .attached }
  | .free | .attached | .damagedListed | .scrubbing | .retired => pool

/-- The chain of a sent payload becomes ATTACHED (R91). -/
def Pool.attachChain (pool : Pool) : Option BufferNo → Pool
  | none => pool
  | some head => (pool.chain head).foldl Pool.attach pool

/-- One buffer goes from ATTACHED to HELD by the taker; links and flags are kept (R91). -/
def Pool.takeUp (p : Station) (pool : Pool) (b : BufferNo) : Pool :=
  match (pool.desc b).place with
  | .attached => pool.setDesc b { pool.desc b with place := .held p }
  | .free | .held _ | .damagedListed | .scrubbing | .retired => pool

/-- The chain of a taken record becomes HELD by the taker (R91). -/
def Pool.takeUpChain (pool : Pool) (p : Station) : Option BufferNo → Pool
  | none => pool
  | some head => (pool.chain head).foldl (Pool.takeUp p) pool

/-- The chain test of POST step 5 and REPLY step 4: head HELD by the sender and carrying the head flag,
every buffer HELD by the sender, exactly ceil(L/32) buffers (R25). -/
def Pool.chainFits (pool : Pool) (p : Station) (len : PayloadLen) (head : BufferNo) : Bool :=
  pool.holds p head && (pool.desc head).head && (pool.chain head).all (pool.holds p)
    && decide ((pool.chain head).length = (len.val + 31) / 32)

/-- Some buffer of the chain has its damaged flag set (R25). -/
def Pool.chainDamaged (pool : Pool) (head : BufferNo) : Bool :=
  (pool.chain head).any fun b => (pool.desc b).damaged

/-! ## Slots (R4-R7, R9-R12) -/

/-- The exchange number of what a slot holds (R9). -/
def State.xnum (s : State) (i : SlotNo) : XNum := ⟨i, (s.slot i).gen⟩

/-- The slot is non-FREE with this requester. -/
def Slot.requestedBy (sl : Slot) (p : Station) : Bool :=
  decide (sl.state ≠ .free) && decide (sl.requester = p)

/-- The requester count, which is the reservation count (R6, R45). -/
def State.requesterCount (s : State) (p : Station) : Nat :=
  s.slots.toList.countP fun sl => sl.requestedBy p

/-- Records plus reservations (R45). -/
def State.occupancy (s : State) (p : Station) : Nat :=
  (s.port p).inbox.length + s.requesterCount p

/-- The lowest-numbered FREE slot (R5). -/
def State.lowestFree (s : State) : Option SlotNo :=
  (List.finRange 48).find? fun i => decide ((s.slot i).state = .free)

/-- The non-FREE slot of a requester that carries a tag (R7, R12). -/
def State.findTag (s : State) (p : Station) (tag : Word) : Option SlotNo :=
  (List.finRange 48).find? fun i => (s.slot i).requestedBy p && decide ((s.slot i).tag = tag)

/-- The three-way match of a reply (R11). -/
def State.replyMatches (s : State) (p : Station) (x : XNum) : Bool :=
  decide ((s.slot x.slot).state = .taken) && decide ((s.slot x.slot).gen = x.gen)
    && decide ((s.slot x.slot).dest = p)

/-- Freeing: the generation advances modulo 256 and the other fields return to their FREE values (R4,
R10). -/
def State.freeSlot (s : State) (i : SlotNo) : State :=
  s.setSlot i (Slot.freeIn ((s.slot i).gen + 1))

/-! ## Inboxes (R43, R49) -/

/-- The chain a record carries (Table 3.1). -/
def Record.chain (r : Record) : Option BufferNo :=
  match r.body with
  | .request _ _ _ c => c
  | .notice _ => none
  | .reply _ _ _ _ _ c => c
  | .lapsed _ _ _ => none

/-- The exchange a REQUEST record stands for. -/
def Record.requestOf (r : Record) : Option XNum :=
  match r.body with
  | .request x _ _ _ => some x
  | .notice _ => none
  | .reply _ _ _ _ _ _ => none
  | .lapsed _ _ _ => none

/-- A record joins the tail of a station's inbox (R43). -/
def State.place (s : State) (p : Station) (r : Record) : State :=
  s.modPort p fun q => { q with inbox := q.inbox ++ [r] }

/-- Withdrawal: the REQUEST record of exchange `x` leaves the inbox of `p` from wherever it stands, and
its chain is discarded (R49). -/
def State.withdraw (s : State) (p : Station) (x : XNum) : State :=
  match (s.port p).inbox.find? fun r => decide (r.requestOf = some x) with
  | none => s
  | some r =>
    (s.modPort p fun q => { q with inbox := q.inbox.eraseP fun r => decide (r.requestOf = some x) }).setPool
      (s.pool.discard r.chain)

/-! ## Journals (R112, R113, R115) -/

def Journal.entry (j : Journal) (r : JournalRef) : JournalEntry :=
  match r.area with
  | .a => j.areaA[r.index]
  | .b => j.areaB[r.index]

def Journal.setEntry (j : Journal) (r : JournalRef) (e : JournalEntry) : Journal :=
  match r.area with
  | .a => { j with areaA := j.areaA.set r.index e }
  | .b => { j with areaB := j.areaB.set r.index e }

/-- The current area and its next position: where an opening writes (R112 step 1). -/
def Journal.nextRef (j : Journal) : JournalRef :=
  match j.current with
  | .a => ⟨.a, j.nextA⟩
  | .b => ⟨.b, j.nextB⟩

/-- Advance the current area's next position, from 31 to 0 (R112 step 3). -/
def Journal.advance (j : Journal) : Journal :=
  match j.current with
  | .a => { j with nextA := j.nextA + 1 }
  | .b => { j with nextB := j.nextB + 1 }

/-- An opening overwrites whatever stands at the next position (R112). -/
def Journal.opening (j : Journal) (h : JournalHead) : Journal :=
  (j.setEntry j.nextRef (.opened h)).advance

/-- A close writes only into a record that is OPEN and carries the exchange's number (R115). -/
def Journal.closing (j : Journal) (r : JournalRef) (x : XNum) (c : JournalClose) : Journal :=
  match j.entry r with
  | .opened h => if h.x = x then j.setEntry r (.closed h c) else j
  | .empty => j
  | .closed _ _ => j

/-- Open a record in a station's journal and latch JOURNAL where the position goes from 31 to 0 (R112,
R113). The reference handed to the slot is the journal's `nextRef` before the opening. -/
def State.openRecord (s : State) (p : Station) (h : JournalHead) : State :=
  s.modPort p fun q =>
    { q with
      journal := q.journal.opening h
      journalCause := q.journalCause || decide (q.journal.nextRef.index = 31) }

/-- Hand a closing to the journal of a station, if the slot holds a reference there (R15). -/
def State.closeRecord (s : State) (p : Station) (r : Option JournalRef) (x : XNum) (c : JournalClose) :
    State :=
  match r with
  | none => s
  | some r => s.modPort p fun q => { q with journal := q.journal.closing r x c }

/-! ## The ending of an exchange (R13-R16) -/

/-- What an ender gives the ending: what the replier gave, a lapse, or no outcome for the teardown of
the requester (R13). -/
inductive Ending where
  | reply (status : Status) (words : List Word) (len : PayloadLen) (chain : Option BufferNo)
  | lapsed (kind : Lapse)
  | silent
  deriving DecidableEq, Repr

/-- The outcome record of Table 1.4, none for the teardown of the requester (R14, R16). -/
def Ending.outcomeRecord (e : Ending) (sl : Slot) (x : XNum) (now : Tick) : Option Record :=
  match e with
  | .reply status words len chain =>
    some ⟨sl.dest, sl.service, now, .reply x sl.tag status words len chain⟩
  | .lapsed kind => some ⟨sl.dest, sl.service, now, .lapsed kind x sl.tag⟩
  | .silent => none

/-- The chain that becomes ATTACHED to the outcome record (R32, R91). -/
def Ending.chain : Ending → Option BufferNo
  | .reply _ _ _ chain => chain
  | .lapsed _ => none
  | .silent => none

/-- The closing values (R15, R16). -/
def Ending.close (e : Ending) (now : Tick) : JournalClose :=
  match e with
  | .reply status _ len _ => ⟨.replied status, len, now⟩
  | .lapsed kind => ⟨.lapsed kind, 0, now⟩
  | .silent => ⟨.lapsed .peerGone, 0, now⟩

/-- The requester reference is not closed at the teardown of the requester (R16). -/
def Ending.requesterRef (e : Ending) (sl : Slot) : Option JournalRef :=
  match e with
  | .reply _ _ _ _ => sl.reqRef
  | .lapsed _ => sl.reqRef
  | .silent => none

/-- Step 1: an OPEN slot's REQUEST record is withdrawn (R13). -/
def State.endWithdraw (s : State) (i : SlotNo) : State :=
  match (s.slot i).state with
  | .opened => s.withdraw (s.slot i).dest (s.xnum i)
  | .free => s
  | .taken => s

/-- Step 2: the outcome record joins the requester's inbox, and a reply's chain goes with it (R13, R14). -/
def State.endOutcome (s : State) (i : SlotNo) (e : Ending) : State :=
  match e.outcomeRecord (s.slot i) (s.xnum i) s.tickCount with
  | none => s
  | some r => (s.place (s.slot i).requester r).setPool (s.pool.attachChain e.chain)

/-- Step 3: the journal records the slot names are closed (R13, R15). -/
def State.endJournals (s : State) (i : SlotNo) (e : Ending) : State :=
  (s.closeRecord (s.slot i).requester (e.requesterRef (s.slot i)) (s.xnum i) (e.close s.tickCount)).closeRecord
    (s.slot i).dest (s.slot i).respRef (s.xnum i) (e.close s.tickCount)

/-- The ending: withdrawal, outcome, journals, freeing, in this order (R13). An ender invokes it with a
non-FREE slot; a FREE slot is left alone. -/
def State.endExchange (s : State) (i : SlotNo) (e : Ending) : State :=
  if (s.slot i).state = .free then s
  else (((s.endWithdraw i).endOutcome i e).endJournals i e).freeSlot i

/-! ## Port states (R138) -/

/-- PEER is latched at each other port that is not in RESET (R138). -/
def State.latchPeers (s : State) (p : Station) : State :=
  s.mapPorts fun q x =>
    if q = p ∨ x.state = .reset then x else { x with peerCause := true }

/-- A change of port state that latches PEER at the others (R138). -/
def State.changePortState (s : State) (p : Station) (st : PortState) : State :=
  (s.modPort p fun q => { q with state := st }).latchPeers p

end Sys2Proof.Machine
end

