-- ==== Sys2Proof/Machine/Flags.lean ====
section
/-! DEFINITION. Attention causes, the attention line, the fault word and the ready line. -/

namespace Sys2Proof.Machine

/-- The five causes as a word's low bits: INBOX, JOURNAL, PEER, SCRUB, FAULT at bits 0 to 4 (Table
12.4). -/
def causeBits (inbox journal peer scrub fault : Bool) : BitVec 5 :=
  BitVec.ofNat 5 (inbox.toNat + 2 * journal.toNat + 4 * peer.toNat + 8 * scrub.toNat + 16 * fault.toNat)

/-- The pending causes: the level causes whose conditions hold and the latched causes (R153, R154). -/
def Port.pendingCauses (q : Port) : BitVec 5 :=
  causeBits (!q.inbox.isEmpty) q.journalCause q.peerCause q.scrubCause q.fault.isSome

/-- The attention output (R152, R158). -/
def Port.attention (q : Port) : Bool :=
  decide (q.state ≠ .reset) && decide (q.pendingCauses &&& q.enables ≠ 0)

/-- The ready output: high impedance (none) unless select is asserted; asserted exactly while ANSWERED
(R140, Table 9.3). -/
def Port.ready (q : Port) : Option Bool :=
  if q.lines.select then
    some (match q.access with
      | .answered _ => true
      | .idle => false
      | .pending _ _ => false
      | .abandoned => false)
  else none

/-- The data lines: driven only while ANSWERED on a read (R140, Table 9.3). -/
def Port.dataLines (q : Port) : Option Word :=
  match q.access with
  | .answered d => d
  | .idle => none
  | .pending _ _ => none
  | .abandoned => none

/-- A write to the cause word clears each latched cause written with a one (R156). -/
def Port.clearCauses (q : Port) (w : Word) : Port :=
  { q with
    journalCause := q.journalCause && !w.getLsbD 1
    peerCause := q.peerCause && !w.getLsbD 2
    scrubCause := q.scrubCause && !w.getLsbD 3 }

/-- A fault goes into a clear fault word, or sets MORE in one that holds a record (R159). -/
def Port.recordFault (q : Port) (kind : FaultKind) (buffer : Option BufferNo) (offset : Offset) : Port :=
  match q.fault with
  | none => { q with fault := some ⟨kind, buffer, offset, false⟩ }
  | some f => { q with fault := some { f with more := true } }

end Sys2Proof.Machine
end

