-- ==== Sys2Proof/Machine/Operands.lean ====
section
/-! DEFINITION. Command and result codes, and the parameter words of every command: each used word is read
as one whole 16-bit number and tested against its field's range (R163). -/

namespace Sys2Proof.Machine

/-- The command codes (Table 12.2). -/
def Command.code : Command → Word
  | .post => 1
  | .reply => 2
  | .cancel => 3
  | .notify => 4
  | .take => 5
  | .acquire => 6
  | .release => 7
  | .append => 8
  | .scrub => 9
  | .setRoute => 10
  | .clearRoute => 11
  | .setAdmit => 12
  | .flip => 13
  | .join => 14
  | .leave => 15
  | .ackFault => 16

/-- The result codes (Table 12.2). -/
def ResultCode.code : ResultCode → Nat
  | .done => 0
  | .wrongState => 1
  | .notOnline => 2
  | .noRoute => 3
  | .peerDown => 4
  | .notAdmitted => 5
  | .tagInUse => 6
  | .overCap => 7
  | .noSlot => 8
  | .ownFull => 9
  | .destFull => 10
  | .badLength => 11
  | .badChain => 12
  | .damaged => 13
  | .stale => 14
  | .noExchange => 15
  | .empty => 16
  | .noBuffers => 17
  | .overLimit => 18
  | .busy => 19
  | .badParam => 20
  | .badCommand => 21
  | .noneDamaged => 22

/-- The values 1 to 16 are the defined command codes (R146, Table 12.2). -/
def isCommandCode (w : Word) : Bool := decide (1 ≤ w.toNat) && decide (w.toNat ≤ 16)

/-- An exchange number as one word: slot in the low byte, generation in the high byte (R9). -/
def XNum.word (x : XNum) : Word := BitVec.ofNat 16 (x.slot.val + 256 * x.gen.toNat)

/-! ## Fields -/

/-- A parameter word read as a number below `n` (R163). -/
def fieldBelow (n : Nat) (w : Word) : Option (Fin n) :=
  if h : w.toNat < n then some ⟨w.toNat, h⟩ else none

def serviceField (w : Word) : Option Service := fieldBelow 32 w

def stationField (w : Word) : Option Station := fieldBelow 4 w

def bufferField (w : Word) : Option BufferNo := fieldBelow 256 w

def lengthField (w : Word) : Option PayloadLen := fieldBelow 257 w

/-- A status word above 255 is refused, not cut down (R30). -/
def statusField (w : Word) : Option Status :=
  if w.toNat < 256 then some (w.setWidth 8) else none

/-- A station-set word with any of bits 15-4 set is refused (R163). -/
def setField (w : Word) : Option StationSet :=
  if w.toNat < 16 then some (w.setWidth 4) else none

/-- The low byte is tested against 47; the high byte is the generation, and every value is valid (R11,
R163). -/
def xnumField (w : Word) : Option XNum :=
  if h : w.toNat % 256 < 48 then some ⟨⟨w.toNat % 256, h⟩, (w >>> 8).setWidth 8⟩ else none

/-- A chain head: a buffer number, or FFFFh for no chain (R21). -/
def chainField (w : Word) : Option (Option BufferNo) :=
  if w = Config.noBuffer then some none else (bufferField w).map some

/-- The membership of a station in a station set. -/
def inSet (set : StationSet) (p : Station) : Bool := set.getLsbD p.val

/-- A payload as POST and REPLY give it; a chain is present exactly when the length is above 0 (R21). -/
structure Payload where
  len   : PayloadLen
  chain : Option BufferNo
  deriving DecidableEq, Repr

/-- The payload parameters of POST and REPLY, words 7 and 8 (R21). -/
def payloadField (len chain : Word) : Option Payload :=
  match lengthField len, chainField chain with
  | some l, some c => if decide (l.val = 0) = c.isNone then some ⟨l, c⟩ else none
  | some _, none => none
  | none, _ => none

/-- The inline count (word 2) and exactly that many words from words 3-6 (R21). -/
def inlineField (ps : Vector Word 16) : Option (List Word) :=
  if ps[2].toNat ≤ 4 then some ([ps[3], ps[4], ps[5], ps[6]].take ps[2].toNat) else none

/-! ## The parameter blocks (Table 12.3) -/

structure PostParams where
  service : Service
  tag     : Word
  words   : List Word
  payload : Payload
  deriving DecidableEq, Repr

/-- POST step 1 (R23). -/
def postParams (ps : Vector Word 16) : Option PostParams :=
  match serviceField ps[0], inlineField ps, payloadField ps[7] ps[8] with
  | some v, some ws, some pl => some ⟨v, ps[1], ws, pl⟩
  | _, _, _ => none

structure ReplyParams where
  x       : XNum
  status  : Status
  words   : List Word
  payload : Payload
  deriving DecidableEq, Repr

/-- REPLY step 1 (R30). -/
def replyParams (ps : Vector Word 16) : Option ReplyParams :=
  match xnumField ps[0], statusField ps[1], inlineField ps, payloadField ps[7] ps[8] with
  | some x, some st, some ws, some pl => some ⟨x, st, ws, pl⟩
  | _, _, _, _ => none

structure NotifyParams where
  service : Service
  words   : List Word
  deriving DecidableEq, Repr

/-- NOTIFY check 1 (R39). -/
def notifyParams (ps : Vector Word 16) : Option NotifyParams :=
  match serviceField ps[0], inlineField ps with
  | some v, some ws => some ⟨v, ws⟩
  | _, _ => none

/-- ACQUIRE step 1: a count of 1 to 8 (R80). -/
def acquireParams (ps : Vector Word 16) : Option Nat :=
  if 1 ≤ ps[0].toNat ∧ ps[0].toNat ≤ Config.maxChain then some ps[0].toNat else none

/-- APPEND step 1: two different buffers (R84). -/
def appendParams (ps : Vector Word 16) : Option (BufferNo × BufferNo) :=
  match bufferField ps[0], bufferField ps[1] with
  | some a, some b => if a = b then none else some (a, b)
  | _, _ => none

/-- The REQUEST entry of SET_ROUTE, words 2, 4, 5 and 6 (R64, Table 4.2). -/
def requestRouteParams (owner : Station) (ps : Vector Word 16) : Option RouteEntry :=
  match stationField ps[2], serviceField ps[4], lengthField ps[6] with
  | some d, some v, some m =>
    if d = owner ∨ ps[5] = 0 then none else some (.request d v ps[5] m)
  | _, _, _ => none

/-- The NOTICE entry of SET_ROUTE, words 3 and 4 (R64, Table 4.2). -/
def noticeRouteParams (owner : Station) (ps : Vector Word 16) : Option RouteEntry :=
  match setField ps[3], serviceField ps[4] with
  | some set, some v =>
    if set = 0 ∨ inSet set owner = true then none else some (.notice set v)
  | _, _ => none

/-- SET_ROUTE: the entry the parameters describe, by kind; unused words are not read (R64). -/
def setRouteParams (owner : Station) (ps : Vector Word 16) : Option (Service × RouteEntry) :=
  match serviceField ps[0] with
  | none => none
  | some v =>
    if ps[1] = 1 then (requestRouteParams owner ps).map fun e => (v, e)
    else if ps[1] = 2 then (noticeRouteParams owner ps).map fun e => (v, e)
    else none

/-- SET_ADMIT: service and admitted set, which may be empty but never holds the owner (R67). -/
def setAdmitParams (owner : Station) (ps : Vector Word 16) : Option (Service × StationSet) :=
  match serviceField ps[0], setField ps[1] with
  | some v, some set => if inSet set owner then none else some (v, set)
  | _, _ => none

end Sys2Proof.Machine
end

