-- ==== Sys2Proof/Machine/Window.lean ====
section
/-! DEFINITION. What each word of a station's window reads as (chapter 12, R143, R164). Everything here is a
view: it changes nothing. -/

namespace Sys2Proof.Machine

/-- A word built of fields, each with the position of its least significant bit; every other bit reads 0
(R164). -/
def pack (fields : List (Nat × Nat)) : Word :=
  BitVec.ofNat 16 (fields.map fun f => f.1 * 2 ^ f.2).sum

/-- The code of a port state (Table 12.4). -/
def PortState.code : PortState → Nat
  | .reset => 0
  | .offline => 1
  | .online => 2
  | .draining => 3

/-- 000h, read: result code in bits 7-0, command code in bits 12-8 (Table 12.2's text, R147). -/
def Port.resultWord (q : Port) : Word :=
  pack [(q.result.code, 0), ((match q.lastCommand with | none => 0 | some c => c.code.toNat), 8)]

/-- 001h: port state, own number and peer status (R124, Table 12.4). -/
def State.portStateWord (s : State) (p : Station) : Word :=
  pack [((s.port p).state.code, 0), (p.val, 4), ((s.port 0).state.code, 8), ((s.port 1).state.code, 10),
    ((s.port 2).state.code, 12), ((s.port 3).state.code, 14)]

/-- 004h: kind, offset and MORE (Table 12.4). -/
def Port.faultWord (q : Port) : Word :=
  match q.fault with
  | none => 0
  | some f =>
    pack [((match f.kind with | .access => 1 | .parity => 2), 0), (f.offset.val, 8), (f.more.toNat, 15)]

/-- A buffer number, or FFFFh for none. -/
def bufferWord : Option BufferNo → Word
  | none => Config.noBuffer
  | some b => BitVec.ofNat 16 b.val

/-- 005h: the buffer of the recorded fault, 0 when the fault word is clear (Table 12.4). -/
def Port.faultDetail (q : Port) : Word :=
  match q.fault with
  | none => 0
  | some f => bufferWord f.buffer

/-- 00Fh: both next positions and the current area (Table 12.4). -/
def Journal.stateWord (j : Journal) : Word :=
  pack [(j.nextA.val, 0), (j.nextB.val, 8), ((match j.current with | .a => 0 | .b => 1), 15)]

/-- 060h: buffer, engine, outcome and issuer (Table 12.4). -/
def ScrubEngine.statusWord (e : ScrubEngine) : Word :=
  pack [((match e.buffer with | none => 0 | some b => b.val), 0), (e.busy.toNat, 8),
    ((match e.outcome with | .none => 0 | .clean => 1 | .retired => 2), 9), (e.issuer.val, 12)]

/-- The low and high halves of a tick count. -/
def tickLow (t : Tick) : Word := t.setWidth 16

def tickHigh (t : Tick) : Word := (t >>> 16).setWidth 16

/-- The kind codes of the current-record view (Table 12.5). -/
def Record.kindCode (r : Record) : Word :=
  match r.body with
  | .request _ _ _ _ => 1
  | .notice _ => 2
  | .reply _ _ _ _ _ _ => 3
  | .lapsed .expired _ _ => 4
  | .lapsed .cancelled _ _ => 5
  | .lapsed .peerGone _ _ => 6

def Record.xnumWord (r : Record) : Word :=
  match r.body with
  | .request x _ _ _ => x.word
  | .notice _ => 0
  | .reply x _ _ _ _ _ => x.word
  | .lapsed _ x _ => x.word

def Record.tagWord (r : Record) : Word :=
  match r.body with
  | .request _ _ _ _ => 0
  | .notice _ => 0
  | .reply _ tag _ _ _ _ => tag
  | .lapsed _ _ tag => tag

def Record.statusWord (r : Record) : Word :=
  match r.body with
  | .request _ _ _ _ => 0
  | .notice _ => 0
  | .reply _ _ st _ _ _ => st.setWidth 16
  | .lapsed _ _ _ => 0

def Record.words (r : Record) : List Word :=
  match r.body with
  | .request _ ws _ _ => ws
  | .notice ws => ws
  | .reply _ _ _ ws _ _ => ws
  | .lapsed _ _ _ => []

def Record.lengthWord (r : Record) : Word :=
  match r.body with
  | .request _ _ len _ => BitVec.ofNat 16 len.val
  | .notice _ => 0
  | .reply _ _ _ _ len _ => BitVec.ofNat 16 len.val
  | .lapsed _ _ _ => 0

/-- Word `k` of the current-record view, 030h-03Fh (R55, Table 12.5). -/
def viewWord (view : Option Record) (k : Nat) : Word :=
  match view with
  | none => if k = 12 then Config.noBuffer else 0
  | some r =>
    match k with
    | 0 => r.kindCode
    | 1 => BitVec.ofNat 16 r.source.val
    | 2 => BitVec.ofNat 16 r.service.val
    | 3 => r.xnumWord
    | 4 => r.tagWord
    | 5 => r.statusWord
    | 6 => BitVec.ofNat 16 r.words.length
    | 7 => r.words.getD 0 0
    | 8 => r.words.getD 1 0
    | 9 => r.words.getD 2 0
    | 10 => r.words.getD 3 0
    | 11 => r.lengthWord
    | 12 => bufferWord r.chain
    | 13 => tickLow r.arrival
    | 14 => tickHigh r.arrival
    | _ => 0

/-- The outcome field of a journal record (Table 12.6). -/
def JournalOutcome.code : JournalOutcome → Nat
  | .replied _ => 1
  | .lapsed .expired => 2
  | .lapsed .cancelled => 3
  | .lapsed .peerGone => 4

/-- Words 0-7 of a journal record that is OPEN (`close` absent) or CLOSED (Table 12.6). -/
def journalRecordWord (h : JournalHead) (close : Option JournalClose) (k : Nat) : Word :=
  match k with
  | 0 => pack [(h.x.slot.val, 0), ((match close with | none => 1 | some _ => 2), 6), (h.x.gen.toNat, 8)]
  | 1 => pack [(h.service.val, 0), (h.peer.val, 5), ((match h.role with | .requester _ => 0 | .responder => 1), 7),
      ((match close with | some ⟨.replied st, _, _⟩ => st.toNat | _ => 0), 8)]
  | 2 => (match h.role with | .requester tag => tag | .responder => 0)
  | 3 => pack [(h.wordsOut.val, 0), ((match close with | none => 0 | some c => c.outcome.code), 9)]
  | 4 => (match close with | none => 0 | some c => BitVec.ofNat 16 c.wordsIn.val)
  | 5 => (match close with | none => 0 | some c => (c.endTick - h.start).setWidth 16)
  | 6 => tickLow h.start
  | 7 => tickHigh h.start
  | _ => 0

/-- Word `k` of a journal record; an EMPTY record reads 0 in every word (R121, R164). -/
def JournalEntry.word (e : JournalEntry) (k : Nat) : Word :=
  match e with
  | .empty => 0
  | .opened h => journalRecordWord h none k
  | .closed h c => journalRecordWord h (some c) k

/-- Word `k` of a route entry (R72, Table 12.7). -/
def RouteEntry.word (e : RouteEntry) (k : Nat) : Word :=
  match e, k with
  | .none, _ => 0
  | .request d v _ _, 0 => pack [(1, 0), (d.val, 4), (v.val, 8)]
  | .request _ _ _ _, 1 => 0
  | .request _ _ t _, 2 => t
  | .request _ _ _ m, 3 => BitVec.ofNat 16 m.val
  | .request _ _ _ _, _ => 0
  | .notice _ v, 0 => pack [(2, 0), (v.val, 8)]
  | .notice set _, 1 => set.setWidth 16
  | .notice _ _, _ => 0

/-- The word a read at an offset of the buffer window returns: the stored data bits where the access is
permitted, 0 where it is refused (R87, R89). -/
def State.bufferWindowWord (s : State) (p : Station) (w : Offset) : Word :=
  match (s.port p).windowSelect with
  | none => 0
  | some b => if s.pool.holds p b then (Memory.read s.pool.mem (wordAddress b w)).data else 0

/-- The head words 000h-00Fh (Table 12.1). -/
def State.headWord (s : State) (p : Station) (k : Nat) : Word :=
  match k with
  | 0 => (s.port p).resultWord
  | 1 => s.portStateWord p
  | 2 => (s.port p).pendingCauses.setWidth 16
  | 3 => (s.port p).enables.setWidth 16
  | 4 => (s.port p).faultWord
  | 5 => (s.port p).faultDetail
  | 6 => tickLow s.tickCount
  | 7 => (s.port p).tickHolding
  | 8 => BitVec.ofNat 16 (s.port p).inbox.length
  | 9 => BitVec.ofNat 16 (s.requesterCount p)
  | 10 => BitVec.ofNat 16 s.pool.free.length
  | 11 => BitVec.ofNat 16 s.pool.damaged.length
  | 12 => BitVec.ofNat 16 s.pool.retiredCount
  | 13 => BitVec.ofNat 16 (s.pool.heldCount p)
  | 14 => bufferWord (s.port p).windowSelect
  | 15 => (s.port p).journal.stateWord
  | _ => 0

/-- The word a read of a window address returns (Table 12.1, R143). -/
def State.readWord (s : State) (p : Station) (address : Addr) : Word :=
  let a := address.toNat
  let q := s.port p
  if a < 0x010 then s.headWord p a
  else if a < 0x020 then q.params.toList.getD (a - 0x010) 0
  else if a < 0x030 then q.resultParams.toList.getD (a - 0x020) 0
  else if a < 0x040 then viewWord q.view (a - 0x030)
  else if a < 0x060 then s.bufferWindowWord p (Fin.ofNat 32 (a - 0x040))
  else if a = 0x060 then s.pool.scrub.statusWord
  else if a < 0x080 then 0
  else if a < 0x100 then (q.routes.toList.getD ((a - 0x080) / 4) .none).word ((a - 0x080) % 4)
  else if a < 0x120 then (q.admits.toList.getD (a - 0x100) 0).setWidth 16
  else if a < 0x200 then 0
  else if a < 0x300 then (q.journal.areaA.toList.getD ((a - 0x200) / 8) .empty).word ((a - 0x200) % 8)
  else if a < 0x400 then (q.journal.areaB.toList.getD ((a - 0x300) / 8) .empty).word ((a - 0x300) % 8)
  else 0

/-! ## Classes of addresses (Table 9.1, Table 12.1) -/

/-- The addresses the part acts on. -/
def commandAddress : Addr := 0x000#11

def causeAddress : Addr := 0x002#11

def enableAddress : Addr := 0x003#11

def tickLowAddress : Addr := 0x006#11

def windowSelectAddress : Addr := 0x00E#11

/-- The offset of an address of the buffer window, 040h-05Fh (R151). -/
def bufferOffset (address : Addr) : Option Offset :=
  if 0x040 ≤ address.toNat ∧ address.toNat < 0x060 then some (Fin.ofNat 32 (address.toNat - 0x040)) else none

/-- The number of a parameter word, 010h-01Fh (R144). -/
def parameterIndex (address : Addr) : Option (Fin 16) :=
  if 0x010 ≤ address.toNat ∧ address.toNat < 0x020 then some (Fin.ofNat 16 (address.toNat - 0x010)) else none

/-- A read of this address has no row of its own: it returns the word and changes nothing (R143). -/
def plainRead (address : Addr) : Bool :=
  decide (address ≠ tickLowAddress) && (bufferOffset address).isNone

/-- A write to this address is a WINDOW_WORD_WRITE: a parameter word, or a status or unused word
(R143). -/
def plainWrite (address : Addr) : Bool :=
  decide (address ≠ commandAddress) && decide (address ≠ causeAddress) && decide (address ≠ enableAddress)
    && decide (address ≠ windowSelectAddress) && (bufferOffset address).isNone

end Sys2Proof.Machine
end

