-- ==== Sys2Proof/Machine/Access.lean ====
section
/-! DEFINITION. The access cycle of a port: how an access begins, is taken and is cut off, and how a command
is taken (R140-R142, R145, R147, R148). -/

namespace Sys2Proof.Machine

/-! ## Beginning -/

/-- What the port captures from its lines; with both strobes asserted it is a read (R140). -/
def captureLines (l : BusLines) : Access :=
  if l.readStrobe then .read l.address else .write l.address l.data

/-- The port is IDLE, not in RESET, and finds select asserted together with a strobe (R140). -/
def Port.mayBegin (q : Port) : Bool :=
  decide (q.access = .idle) && decide (q.state ≠ .reset) && q.lines.asserted

/-- The access state an access begins with: PENDING; or ANSWERED at once, for a read without a row of its
own whose timing is `atOnce` (R140, R141; log 2). -/
def State.beginState (s : State) (p : Station) : AccessState :=
  match captureLines (s.port p).lines with
  | .write a d => .pending (.write a d) false
  | .read a =>
    if plainRead a = true ∧ (s.port p).readTiming = .atOnce then .answered (some (s.readWord p a))
    else .pending (.read a) false

/-- An access begins where the lines as they stand ask for one: at ACCESS_BEGIN, when a port that took an
access ended early becomes IDLE (R141), and when a port leaves RESET (R142). -/
def State.settle (s : State) (p : Station) : State :=
  if (s.port p).mayBegin then s.modPort p fun q => { q with access := s.beginState p } else s

/-! ## Taking -/

/-- The captured access of a port that may take it: PENDING, not in RESET, and of the class asked for
(R141, R142). -/
def Port.taking (q : Port) (wanted : Access → Bool) : Option Access :=
  match q.access with
  | .pending a _ => if decide (q.state ≠ .reset) && wanted a then some a else none
  | .idle => none
  | .answered _ => none
  | .abandoned => none

/-- The access has been taken: the port becomes ANSWERED, or IDLE without ready where the access was ended
early, and then a strobe that is asserted again begins a new access (R140, R141). -/
def State.answer (s : State) (p : Station) (driven : Option Word) : State :=
  match (s.port p).access with
  | .pending _ false => s.modPort p fun q => { q with access := .answered driven }
  | .pending _ true => (s.modPort p fun q => { q with access := .idle }).settle p
  | .idle => s
  | .answered _ => s
  | .abandoned => s

/-- Take the port's access if it is of the wanted class: its effect, then the answer. Otherwise the event
is not taken and nothing changes (log 1). -/
def State.takeAccess (s : State) (p : Station) (wanted : Access → Bool)
    (effect : Access → State → State × Option Word) : State :=
  match (s.port p).taking wanted with
  | none => s
  | some a => (effect a s).1.answer p (effect a s).2

/-- A waiting read without a row of its own is taken (R141; log 2). -/
def State.takePlainRead (s : State) (p : Station) : State :=
  s.takeAccess p (fun a => match a with | .read addr => plainRead addr | .write _ _ => false)
    fun a s => match a with
      | .read addr => (s, some (s.readWord p addr))
      | .write _ _ => (s, none)

/-- The block idles: only waiting reads without a row are taken (log 2). -/
def State.idle (s : State) : State :=
  (((s.takePlainRead 0).takePlainRead 1).takePlainRead 2).takePlainRead 3

/-! ## Cutting off -/

/-- A teardown or master reset cuts off an access: the port becomes ABANDONED, and IDLE once the strobe or
the select line is negated, which it may be already (R142). DEDUCED (log 13); the strobe is both strobes where both were
asserted, a DESIGN CHOICE (log 26). -/
def Port.abandonAccess (q : Port) : AccessState :=
  match q.access with
  | .idle => .idle
  | .pending _ _ => if q.lines.asserted then .abandoned else .idle
  | .answered _ => if q.lines.asserted then .abandoned else .idle
  | .abandoned => if q.lines.asserted then .abandoned else .idle

/-- The port with every item of its station cleared and its access cut off; the input levels stay (R133
step 4, R136, R142). -/
def Port.toReset (q : Port) : Port :=
  { Port.cleared with
    resetInput := q.resetInput
    lines := q.lines
    readTiming := q.readTiming
    access := q.abandonAccess }

/-! ## Commands -/

/-- What a command's checks decide: refused, with a result code and result parameters, or accepted, with
the state its effect leaves and its result parameters (R148). -/
inductive Verdict where
  | refused (code : ResultCode) (params : List Word)
  | accepted (s : State) (params : List Word)

/-- The sixteen result parameters: those the command fills, and 0 in the others (R147). -/
def resultBlock (ps : List Word) : Vector Word 16 :=
  #v[ps.getD 0 0, ps.getD 1 0, ps.getD 2 0, ps.getD 3 0, ps.getD 4 0, ps.getD 5 0, ps.getD 6 0, ps.getD 7 0,
    ps.getD 8 0, ps.getD 9 0, ps.getD 10 0, ps.getD 11 0, ps.getD 12 0, ps.getD 13 0, ps.getD 14 0, ps.getD 15 0]

/-- The result word and all sixteen result parameters are written (R147). -/
def State.setResult (s : State) (p : Station) (c : Option Command) (r : ResultCode) (ps : List Word) :
    State :=
  s.modPort p fun q => { q with lastCommand := c, result := r, resultParams := resultBlock ps }

/-- The state a verdict leaves, with the command's result written; a refused command changes nothing else
(R147, R148). -/
def Verdict.apply (v : Verdict) (s : State) (p : Station) (c : Command) : State :=
  match v with
  | .refused r ps => s.setResult p (some c) r ps
  | .accepted s' ps => s'.setResult p (some c) .done ps

/-- The access writes this command's code to the command word (R145). -/
def issues (c : Command) : Access → Bool
  | .write addr d => decide (addr = commandAddress) && decide (d = c.code)
  | .read _ => false

/-- The port takes a command: its checks and, when they pass, its whole effect, in one event; then the
write is answered (R145). -/
def State.takeCommand (s : State) (p : Station) (c : Command) (verdict : State → Verdict) : State :=
  s.takeAccess p (issues c) fun _ s => ((verdict s).apply s p c, none)

/-- The port state is ONLINE or DRAINING: the state check of most commands. -/
def Port.connected (q : Port) : Bool :=
  match q.state with
  | .online => true
  | .draining => true
  | .reset => false
  | .offline => false

end Sys2Proof.Machine
end

