-- ==== Sys2Proof/Machine/Attention.lean ====
section
/-! DEFINITION. ACK_FAULT and the writes of the cause and enable words (chapter 10). -/

namespace Sys2Proof.Machine

def ackFaultVerdict (p : Station) (s : State) : Verdict :=
  .accepted (s.modPort p fun q => { q with fault := none }) []

/-- ACK_FAULT (R160). -/
def execAckFault (p : Station) (s : State) : Host.Outcome State Fault Refusal :=
  .next (s.takeCommand p .ackFault (ackFaultVerdict p))

/-- A write of a word at one address. -/
def writesTo (address : Addr) : Access → Bool
  | .write a _ => decide (a = address)
  | .read _ => false

/-- The data word a write carries; a read carries none. -/
def writtenWord : Access → Word
  | .write _ d => d
  | .read _ => 0

/-- ATTENTION_CAUSE_WRITE (R156). -/
def execAttentionCauseWrite (p : Station) (s : State) : Host.Outcome State Fault Refusal :=
  .next (s.takeAccess p (writesTo causeAddress) fun a s =>
    (s.modPort p fun q => q.clearCauses (writtenWord a), none))

/-- ATTENTION_ENABLE_WRITE: bits 4-0 are stored (R157, R164). -/
def execAttentionEnableWrite (p : Station) (s : State) : Host.Outcome State Fault Refusal :=
  .next (s.takeAccess p (writesTo enableAddress) fun a s =>
    (s.modPort p fun q => { q with enables := (writtenWord a).setWidth 5 }, none))

end Sys2Proof.Machine
end

