-- ==== Sys2Proof/Machine/Inboxes.lean ====
section
/-! DEFINITION. TAKE (section 3.4). -/

namespace Sys2Proof.Machine

/-- The taking of a REQUEST: its slot becomes TAKEN, a RESPONDER record is opened, and the slot keeps the
reference (R53). By R48 the slot is OPEN whenever its REQUEST record stands in an inbox; a slot that is
not is left alone (log 16). -/
def State.slotTaken (s : State) (p : Station) (i : SlotNo) : State :=
  match (s.slot i).state with
  | .opened =>
    (s.setSlot i { s.slot i with state := .taken, respRef := some (s.port p).journal.nextRef }).openRecord p
      ⟨.responder, s.xnum i, (s.slot i).requester, (s.slot i).destService, (s.slot i).wordsOut, (s.slot i).start⟩
  | .free => s
  | .taken => s

/-- Removal, view and chain (R52 steps 1-3). -/
def State.takeRecord (s : State) (p : Station) (r : Record) (rest : List Record) : State :=
  (s.modPort p fun q => { q with inbox := rest, view := some r }).setPool (s.pool.takeUpChain p r.chain)

/-- The acceptance of a TAKE of the head record `r` (R52, R53). -/
def State.acceptTake (s : State) (p : Station) (r : Record) (rest : List Record) : State :=
  match r.requestOf with
  | none => s.takeRecord p r rest
  | some x => (s.takeRecord p r rest).slotTaken p x.slot

def takeVerdict (p : Station) (s : State) : Verdict :=
  if (s.port p).connected = false then .refused .notOnline []
  else
    match (s.port p).inbox with
    | [] => .refused .empty []
    | r :: rest => .accepted (s.acceptTake p r rest) []

/-- TAKE (R51-R53). -/
def execTake (p : Station) (s : State) : Host.Outcome State Fault Refusal :=
  .next (s.takeCommand p .take (takeVerdict p))

end Sys2Proof.Machine
end

