-- ==== Sys2Proof/Machine/Journals.lean ====
section
/-! DEFINITION. FLIP (section 7.4). -/

namespace Sys2Proof.Machine

/-- The other area becomes current, with next position 0 and all of its records EMPTY (R117). -/
def Journal.flipped (j : Journal) : Journal :=
  match j.current with
  | .a => { j with current := .b, nextB := 0, areaB := Vector.replicate 32 .empty }
  | .b => { j with current := .a, nextA := 0, areaA := Vector.replicate 32 .empty }

def flipVerdict (p : Station) (s : State) : Verdict :=
  .accepted (s.modPort p fun q => { q with journal := q.journal.flipped }) []

/-- FLIP (R117). -/
def execFlip (p : Station) (s : State) : Host.Outcome State Fault Refusal :=
  .next (s.takeCommand p .flip (flipVerdict p))

end Sys2Proof.Machine
end

