-- ==== Sys2Proof/Machine/Life.lean ====
section
/-! DEFINITION. JOIN, LEAVE, drain completion, teardown and the resets (chapter 8). -/

namespace Sys2Proof.Machine

/-! ## JOIN and LEAVE -/

def joinVerdict (p : Station) (s : State) : Verdict :=
  match (s.port p).state with
  | .offline => .accepted (s.changePortState p .online) []
  | .online => .refused .wrongState []
  | .draining => .refused .wrongState []
  | .reset => .refused .wrongState []

/-- JOIN (R126). -/
def execJoin (p : Station) (s : State) : Host.Outcome State Fault Refusal :=
  .next (s.takeCommand p .join (joinVerdict p))

/-- The untaken requests of an inbox, in inbox order (R127). -/
def Port.untaken (q : Port) : List XNum := q.inbox.filterMap Record.requestOf

/-- Each untaken request is answered with PEER_GONE, in inbox order (R127). -/
def State.answerUntaken (s : State) (xs : List XNum) : State :=
  xs.foldl (fun s x => s.endExchange x.slot (.lapsed .peerGone)) s

def leaveVerdict (p : Station) (s : State) : Verdict :=
  match (s.port p).state with
  | .online => .accepted ((s.changePortState p .draining).answerUntaken (s.port p).untaken) []
  | .offline => .refused .wrongState []
  | .draining => .refused .wrongState []
  | .reset => .refused .wrongState []

/-- LEAVE (R127). -/
def execLeave (p : Station) (s : State) : Host.Outcome State Fault Refusal :=
  .next (s.takeCommand p .leave (leaveVerdict p))

/-! ## Drain completion -/

/-- The drain condition of a DRAINING port: requester of no non-FREE slot, destination of no TAKEN slot,
inbox empty (R129). -/
def State.drained (s : State) (p : Station) : Bool :=
  decide ((s.port p).state = .draining) && decide (s.requesterCount p = 0)
    && s.slots.toList.all (fun sl => !(decide (sl.state = .taken) && decide (sl.dest = p)))
    && (s.port p).inbox.isEmpty

/-- Drain completion, where the drain condition holds (R130). -/
def State.drainCompleted (s : State) (p : Station) : State :=
  if s.drained p then
    ((s.setPool (s.pool.releaseHeld p)).modPort p fun q => { q with view := none }).changePortState p .offline
  else s

/-- DRAIN_COMPLETION (R129, R130). -/
def execDrainCompletion (p : Station) (s : State) : Host.Outcome State Fault Refusal :=
  .next (s.drainCompleted p)

/-! ## Teardown -/

/-- Step 1 for one slot: with no outcome where the station is requester, else with PEER_GONE where it is
destination (R16, R133). -/
def State.tearSlot (p : Station) (s : State) (i : SlotNo) : State :=
  if (s.slot i).state = .free then s
  else if (s.slot i).requester = p then s.endExchange i .silent
  else if (s.slot i).dest = p then s.endExchange i (.lapsed .peerGone)
  else s

/-- Step 1: every slot that names the station, in ascending slot order (R133). -/
def State.tearSlots (s : State) (p : Station) : State :=
  (List.finRange 48).foldl (State.tearSlot p) s

/-- Step 2: the records left in the inbox are discarded in inbox order, each chain by the discard rule
(R56, R133). -/
def State.discardInbox (s : State) (p : Station) : State :=
  (s.modPort p fun q => { q with inbox := [] }).setPool
    ((s.port p).inbox.foldl (fun pool r => pool.discard r.chain) s.pool)

/-- Steps 3 to 5: held buffers released, the station's items cleared, the port in RESET, PEER latched at the
others (R133). -/
def State.tearPort (s : State) (p : Station) : State :=
  ((s.setPool (s.pool.releaseHeld p)).modPort p Port.toReset).latchPeers p

/-- The teardown of a station (R133). -/
def State.tornDown (s : State) (p : Station) : State :=
  ((s.tearSlots p).discardInbox p).tearPort p

/-- The level of the station reset input (R152). -/
def State.setResetInput (s : State) (p : Station) (level : Bool) : State :=
  s.modPort p fun q => { q with resetInput := level }

/-- TEARDOWN: the station reset input is asserted; a port already in RESET has nothing to tear down (R132,
R133). -/
def execTeardown (p : Station) (s : State) : Host.Outcome State Fault Refusal :=
  .next ((if (s.port p).state = .reset then s else s.tornDown p).setResetInput p true)

/-! ## Release of station reset -/

/-- A port in RESET, with neither master reset nor the initialisation pass, becomes OFFLINE, and an access that
was waiting begins (R135, R142). -/
def State.leaveReset (s : State) (p : Station) : State :=
  if (s.port p).state = .reset ∧ s.phase = .running then (s.changePortState p .offline).settle p else s

/-- STATION_RESET_RELEASED (R135). -/
def execStationResetReleased (p : Station) (s : State) : Host.Outcome State Fault Refusal :=
  .next ((s.setResetInput p false).leaveReset p)

/-! ## Master reset -/

/-- The whole part is cleared in one act; the memory words, the strap code and the input levels stay (R19, R58,
R74, R99, R102, R136, R142). -/
def State.masterCleared (s : State) : State :=
  { (s.mapPorts fun _ q => q.toReset) with
    phase := .masterReset
    tickCount := 0
    slots := Vector.replicate 48 (Slot.freeIn 0)
    pool := Pool.resetOver s.pool.mem }

/-- MASTER_RESET (R136). -/
def execMasterReset (s : State) : Host.Outcome State Fault Refusal :=
  .next s.masterCleared

/-- Master reset ends: the straps are sampled and the initialisation pass runs; its zeros are written here in one
act (R99, R101, R137; log 9). -/
def State.masterResetEnded (s : State) (straps : StrapCode) : State :=
  match s.phase with
  | .masterReset => { s with phase := .initPass, strap := straps, pool := { s.pool with mem := [] } }
  | .initPass => s
  | .running => s

/-- MASTER_RESET_ENDS (R99, R101, R137). -/
def execMasterResetEnds (straps : StrapCode) (s : State) : Host.Outcome State Fault Refusal :=
  .next (s.masterResetEnded straps)

/-- Every port whose station reset input is not asserted becomes OFFLINE; no PEER is latched (R137, R138). -/
def State.portsLeaveReset (s : State) : State :=
  s.mapPorts fun _ q => if q.resetInput then q else { q with state := .offline }

/-- The end of a running initialisation pass: the tick generator starts and the ports leave RESET; accesses
that were waiting begin (R137, R142). -/
def State.passEnded (s : State) : State :=
  match s.phase with
  | .initPass => (List.finRange 4).foldl State.settle { s.portsLeaveReset with phase := .running }
  | .masterReset => s
  | .running => s

/-- END_OF_INITIALISATION_PASS (R137). -/
def execEndOfInitialisationPass (s : State) : Host.Outcome State Fault Refusal :=
  .next s.passEnded

end Sys2Proof.Machine
end

