-- ==== Sys2Proof/Machine/Payloads.lean ====
section
/-! DEFINITION. ACQUIRE, RELEASE, APPEND, SCRUB, SCRUB_COMPLETION and BAD_PARITY (chapter 5). -/

namespace Sys2Proof.Machine

/-! ## ACQUIRE -/

/-- Make the buffers one chain HELD by the station, in list order; damaged flags stay (R81). -/
def Pool.linkChain (p : Station) : Bool → List BufferNo → Pool → Pool
  | _, [], pool => pool
  | isHead, b :: rest, pool =>
    Pool.linkChain p false rest (pool.setDesc b ⟨.held p, rest.head?, isHead, (pool.desc b).damaged⟩)

/-- The first `n` buffers leave the head of the free list and become a chain HELD by the station (R81). -/
def Pool.acquire (pool : Pool) (p : Station) (n : Nat) : Pool :=
  Pool.linkChain p true (pool.free.take n) { pool with free := pool.free.drop n }

/-- The checks of R80 in their order. -/
def acquireVerdict (p : Station) (s : State) : Verdict :=
  match acquireParams (s.port p).params with
  | none => .refused .badParam []
  | some n =>
    if (s.port p).connected = false then .refused .notOnline []
    else if Config.heldLimit < s.pool.heldCount p + n then .refused .overLimit []
    else if s.pool.free.length < n then .refused .noBuffers []
    else .accepted (s.setPool (s.pool.acquire p n)) ((s.pool.free.take n).map fun b => BitVec.ofNat 16 b.val)

/-- ACQUIRE (R80, R81). -/
def execAcquire (p : Station) (s : State) : Host.Outcome State Fault Refusal :=
  .next (s.takeCommand p .acquire (acquireVerdict p))

/-! ## RELEASE -/

/-- The named buffer is HELD by the station and carries the head flag (R84, R85). -/
def Pool.isHeldHead (pool : Pool) (p : Station) (b : BufferNo) : Bool :=
  pool.holds p b && (pool.desc b).head

def releaseVerdict (p : Station) (s : State) : Verdict :=
  match bufferField (s.port p).params[0] with
  | none => .refused .badParam []
  | some b =>
    if (s.port p).connected = false then .refused .notOnline []
    else if s.pool.isHeldHead p b = false then .refused .badChain []
    else .accepted (s.setPool (s.pool.giveBackChain b)) []

/-- RELEASE (R85). -/
def execRelease (p : Station) (s : State) : Host.Outcome State Fault Refusal :=
  .next (s.takeCommand p .release (releaseVerdict p))

/-! ## APPEND -/

/-- The last buffer of the first chain takes the second head as its next, and the second head's flag is
cleared (R84). -/
def Pool.join (pool : Pool) (a b : BufferNo) : Pool :=
  let last := (pool.chain a).getLastD a
  let linked := pool.setDesc last { pool.desc last with next := some b }
  linked.setDesc b { linked.desc b with head := false }

def appendVerdict (p : Station) (s : State) : Verdict :=
  match appendParams (s.port p).params with
  | none => .refused .badParam []
  | some (a, b) =>
    if (s.port p).connected = false then .refused .notOnline []
    else if s.pool.isHeldHead p a = false then .refused .badChain []
    else if s.pool.isHeldHead p b = false then .refused .badChain []
    else if Config.maxChain < (s.pool.chain a).length + (s.pool.chain b).length then .refused .badChain []
    else .accepted (s.setPool (s.pool.join a b)) []

/-- APPEND (R84). -/
def execAppend (p : Station) (s : State) : Host.Outcome State Fault Refusal :=
  .next (s.takeCommand p .append (appendVerdict p))

/-! ## SCRUB and its completion -/

/-- The head of the damaged list enters the engine; the outcome part stays (R96). -/
def Pool.startScrub (pool : Pool) (p : Station) (b : BufferNo) (rest : List BufferNo) : Pool :=
  { pool.setDesc b { pool.desc b with place := .scrubbing } with
    damaged := rest
    scrub := ⟨true, some b, pool.scrub.outcome, p⟩ }

def scrubVerdict (p : Station) (s : State) : Verdict :=
  if (s.port p).connected = false then .refused .notOnline []
  else
    match s.pool.damaged with
    | [] => .refused .noneDamaged []
    | b :: rest =>
      if s.pool.scrub.busy then .refused .busy []
      else .accepted (s.setPool (s.pool.startScrub p b rest)) [BitVec.ofNat 16 b.val]

/-- SCRUB (R96). -/
def execScrub (p : Station) (s : State) : Host.Outcome State Fault Refusal :=
  .next (s.takeCommand p .scrub (scrubVerdict p))

/-- Verification passes if every word reads back as 0 with good parity (R97). -/
def scrubPasses (readBack : Vector MemWord 32) : Bool :=
  (List.finRange 32).all fun w => decide (readBack[w] = Memory.blank)

/-- The words of the buffer are left as they were read back (R97). -/
def Memory.writeBuffer (m : Memory) (b : BufferNo) (words : Vector MemWord 32) : Memory :=
  (List.finRange 32).foldl (fun m w => Memory.write m (wordAddress b w) words[w]) m

/-- The buffer leaves the engine: to the free-list tail, or to the retired set (R97). -/
def Pool.finishScrub (pool : Pool) (b : BufferNo) (readBack : Vector MemWord 32) : Pool :=
  if scrubPasses readBack then
    { pool.setDesc b ⟨.free, none, false, false⟩ with
      free := pool.free ++ [b]
      scrub := ⟨false, some b, .clean, pool.scrub.issuer⟩
      mem := Memory.writeBuffer pool.mem b readBack }
  else
    { pool.setDesc b ⟨.retired, none, false, true⟩ with
      scrub := ⟨false, some b, .retired, pool.scrub.issuer⟩
      mem := Memory.writeBuffer pool.mem b readBack }

/-- SCRUB is latched at the issuer if its port is ONLINE or DRAINING (R97, R155). -/
def State.latchScrub (s : State) (p : Station) : State :=
  s.modPort p fun q => if q.connected then { q with scrubCause := true } else q

/-- The end of a scrub in progress; with the engine idle there is none to end (R97). -/
def State.scrubCompleted (s : State) (readBack : Vector MemWord 32) : State :=
  if s.pool.scrub.busy then
    match s.pool.scrub.buffer with
    | none => s
    | some b => (s.setPool (s.pool.finishScrub b readBack)).latchScrub s.pool.scrub.issuer
  else s

/-- SCRUB_COMPLETION (R97). -/
def execScrubCompletion (readBack : Vector MemWord 32) (s : State) : Host.Outcome State Fault Refusal :=
  .next (s.scrubCompleted readBack)

/-! ## BAD_PARITY -/

/-- The word comes to hold the given data and a parity bit that does not agree; no descriptor, list or count
changes (R75). -/
def State.disturb (s : State) (b : BufferNo) (w : Offset) (data : Word) : State :=
  s.setPool { s.pool with mem := Memory.write s.pool.mem (wordAddress b w) ⟨data, false⟩ }

/-- BAD_PARITY (R75). -/
def execBadParity (b : BufferNo) (w : Offset) (data : Word) (s : State) : Host.Outcome State Fault Refusal :=
  .next (s.disturb b w data)

end Sys2Proof.Machine
end

