-- ==== Sys2Proof/Machine/Requests.lean ====
section
/-! DEFINITION. POST, REPLY, CANCEL and NOTIFY (chapter 2). -/

namespace Sys2Proof.Machine

/-- The chain steps pass at once where there is no chain (R25). -/
def Pool.payloadFits (pool : Pool) (p : Station) (pl : Payload) : Bool :=
  match pl.chain with
  | none => true
  | some head => pool.chainFits p pl.len head

def Pool.payloadDamaged (pool : Pool) (pl : Payload) : Bool :=
  match pl.chain with
  | none => false
  | some head => pool.chainDamaged head

/-- Records plus reservations are below 32 (R45). -/
def State.hasRoom (s : State) (p : Station) : Bool :=
  decide (s.occupancy p < Config.inboxCapacity)

/-- The station is admitted to a service of another (R62). -/
def State.admitted (s : State) (p d : Station) (v : Service) : Bool :=
  inSet (s.port d).admits[v] p

/-! ## POST -/

/-- What a POST that has passed its checks works with. -/
structure PostPlan where
  params  : PostParams
  dest    : Station
  service : Service
  timeout : Word
  slot    : SlotNo
  deriving DecidableEq, Repr

/-- Steps 7 to 13 of Table 2.1, for a route to service `v` of station `d` (R26, R27). -/
def State.postCapacity (s : State) (p : Station) (ps : PostParams) (d : Station) (v : Service)
    (t : Word) : Except ResultCode PostPlan :=
  if (s.findTag p ps.tag).isSome then .error .tagInUse
  else if (s.port d).state ≠ .online then .error .peerDown
  else if s.admitted p d v = false then .error .notAdmitted
  else if Config.requesterCap ≤ s.requesterCount p then .error .overCap
  else
    match s.lowestFree with
    | none => .error .noSlot
    | some i =>
      if s.hasRoom p = false then .error .ownFull
      else if s.hasRoom d = false then .error .destFull
      else .ok ⟨ps, d, v, t, i⟩

/-- The thirteen checks of Table 2.1 in their order (R23). -/
def State.postCheck (s : State) (p : Station) : Except ResultCode PostPlan :=
  match postParams (s.port p).params with
  | none => .error .badParam
  | some ps =>
    if (s.port p).state ≠ .online then .error .notOnline
    else
      match (s.port p).routes[ps.service] with
      | .none => .error .noRoute
      | .notice _ _ => .error .noRoute
      | .request d v t m =>
        if m < ps.payload.len then .error .badLength
        else if s.pool.payloadFits p ps.payload = false then .error .badChain
        else if s.pool.payloadDamaged ps.payload then .error .damaged
        else s.postCapacity p ps d v t

/-- The slot an accepted POST writes (R5, R104). -/
def State.postSlot (s : State) (p : Station) (plan : PostPlan) : Slot where
  state := .opened
  gen := (s.slot plan.slot).gen
  requester := p
  tag := plan.params.tag
  service := plan.params.service
  dest := plan.dest
  destService := plan.service
  start := s.tickCount
  deadline := s.tickCount + plan.timeout.setWidth 32
  wordsOut := plan.params.payload.len
  reqRef := some (s.port p).journal.nextRef
  respRef := none

/-- The REQUEST record (R28 step 2). -/
def State.postRecord (s : State) (p : Station) (plan : PostPlan) : Record :=
  ⟨p, plan.service, s.tickCount,
    .request (s.xnum plan.slot) plan.params.words plan.params.payload.len plan.params.payload.chain⟩

/-- The REQUESTER journal record (R28 step 4, R112). -/
def State.postJournalHead (s : State) (plan : PostPlan) : JournalHead :=
  ⟨.requester plan.params.tag, s.xnum plan.slot, plan.dest, plan.params.service, plan.params.payload.len,
    s.tickCount⟩

/-- The acceptance of a POST: slot, record, chain, journal (R28). -/
def State.acceptPost (s : State) (p : Station) (plan : PostPlan) : State :=
  (((s.setSlot plan.slot (s.postSlot p plan)).place plan.dest (s.postRecord p plan)).setPool
    (s.pool.attachChain plan.params.payload.chain)).openRecord p (s.postJournalHead plan)

def postVerdict (p : Station) (s : State) : Verdict :=
  match s.postCheck p with
  | .error r => .refused r []
  | .ok plan => .accepted (s.acceptPost p plan) [(s.xnum plan.slot).word]

/-- POST (R23-R28). -/
def execPost (p : Station) (s : State) : Host.Outcome State Fault Refusal :=
  .next (s.takeCommand p .post (postVerdict p))

/-! ## REPLY -/

/-- The five checks of Table 2.2 in their order (R30). -/
def State.replyCheck (s : State) (p : Station) : Except ResultCode ReplyParams :=
  match replyParams (s.port p).params with
  | none => .error .badParam
  | some ps =>
    if (s.port p).connected = false then .error .notOnline
    else if s.replyMatches p ps.x = false then .error .stale
    else if s.pool.payloadFits p ps.payload = false then .error .badChain
    else if s.pool.payloadDamaged ps.payload then .error .damaged
    else .ok ps

def replyVerdict (p : Station) (s : State) : Verdict :=
  match s.replyCheck p with
  | .error r => .refused r []
  | .ok ps =>
    .accepted (s.endExchange ps.x.slot (.reply ps.status ps.words ps.payload.len ps.payload.chain)) []

/-- REPLY (R30-R33). -/
def execReply (p : Station) (s : State) : Host.Outcome State Fault Refusal :=
  .next (s.takeCommand p .reply (replyVerdict p))

/-! ## CANCEL -/

def cancelVerdict (p : Station) (s : State) : Verdict :=
  if (s.port p).connected = false then .refused .notOnline []
  else
    match s.findTag p (s.port p).params[1] with
    | none => .refused .noExchange []
    | some i => .accepted (s.endExchange i (.lapsed .cancelled)) []

/-- CANCEL (R35-R37). -/
def execCancel (p : Station) (s : State) : Host.Outcome State Fault Refusal :=
  .next (s.takeCommand p .cancel (cancelVerdict p))

/-! ## NOTIFY -/

/-- The members of a station set in ascending station number (R40). -/
def membersOf (set : StationSet) : List Station := (List.finRange 4).filter (inSet set)

/-- The three checks on one member (R40). -/
def State.memberCheck (s : State) (p : Station) (v : Service) (m : Station) : Option ResultCode :=
  if (s.port m).state ≠ .online then some .peerDown
  else if s.admitted p m v = false then some .notAdmitted
  else if s.hasRoom m = false then some .destFull
  else none

/-- The first failure on any member, with the member's number (R40). -/
def State.firstRefusal (s : State) (p : Station) (v : Service) : List Station → Option (ResultCode × Station)
  | [] => none
  | m :: rest =>
    match s.memberCheck p v m with
    | some r => some (r, m)
    | none => s.firstRefusal p v rest

/-- The NOTICE record, the same for every member (R41). -/
def State.noticeRecord (s : State) (p : Station) (v : Service) (ws : List Word) : Record :=
  ⟨p, v, s.tickCount, .notice ws⟩

/-- One NOTICE record joins each member's inbox (R41). -/
def State.placeNotices (s : State) (r : Record) (members : List Station) : State :=
  members.foldl (fun s m => s.place m r) s

def notifyVerdict (p : Station) (s : State) : Verdict :=
  match notifyParams (s.port p).params with
  | none => .refused .badParam []
  | some ps =>
    if (s.port p).state ≠ .online then .refused .notOnline []
    else
      match (s.port p).routes[ps.service] with
      | .none => .refused .noRoute []
      | .request _ _ _ _ => .refused .noRoute []
      | .notice set v =>
        match s.firstRefusal p v (membersOf set) with
        | some (r, m) => .refused r [BitVec.ofNat 16 m.val]
        | none => .accepted (s.placeNotices (s.noticeRecord p v ps.words) (membersOf set)) []

/-- NOTIFY (R39-R41). -/
def execNotify (p : Station) (s : State) : Host.Outcome State Fault Refusal :=
  .next (s.takeCommand p .notify (notifyVerdict p))

end Sys2Proof.Machine
end

