-- ==== Sys2Proof/Machine/Tables.lean ====
section
/-! DEFINITION. SET_ROUTE, CLEAR_ROUTE and SET_ADMIT (section 4.3). -/

namespace Sys2Proof.Machine

def State.setRoute (s : State) (p : Station) (v : Service) (e : RouteEntry) : State :=
  s.modPort p fun q => { q with routes := q.routes.set v e }

def State.setAdmit (s : State) (p : Station) (v : Service) (set : StationSet) : State :=
  s.modPort p fun q => { q with admits := q.admits.set v set }

def setRouteVerdict (p : Station) (s : State) : Verdict :=
  match setRouteParams p (s.port p).params with
  | none => .refused .badParam []
  | some (v, e) => .accepted (s.setRoute p v e) []

/-- SET_ROUTE (R64, R65). -/
def execSetRoute (p : Station) (s : State) : Host.Outcome State Fault Refusal :=
  .next (s.takeCommand p .setRoute (setRouteVerdict p))

def clearRouteVerdict (p : Station) (s : State) : Verdict :=
  match serviceField (s.port p).params[0] with
  | none => .refused .badParam []
  | some v => .accepted (s.setRoute p v .none) []

/-- CLEAR_ROUTE (R66). -/
def execClearRoute (p : Station) (s : State) : Host.Outcome State Fault Refusal :=
  .next (s.takeCommand p .clearRoute (clearRouteVerdict p))

def setAdmitVerdict (p : Station) (s : State) : Verdict :=
  match setAdmitParams p (s.port p).params with
  | none => .refused .badParam []
  | some (v, set) => .accepted (s.setAdmit p v set) []

/-- SET_ADMIT (R67). -/
def execSetAdmit (p : Station) (s : State) : Host.Outcome State Fault Refusal :=
  .next (s.takeCommand p .setAdmit (setAdmitVerdict p))

end Sys2Proof.Machine
end

