-- ==== Sys2Proof/Machine/Ticks.lean ====
section
/-! DEFINITION. TICK and EXPIRY (chapter 6). -/

namespace Sys2Proof.Machine

/-- A slot is due when it is non-FREE and its deadline equals the tick count (R105). -/
def State.due (s : State) (i : SlotNo) : Bool :=
  decide ((s.slot i).state ≠ .free) && decide ((s.slot i).deadline = s.tickCount)

/-- A due slot is ended with EXPIRED (R106). -/
def State.expireIfDue (s : State) (i : SlotNo) : State :=
  if s.due i then s.endExchange i (.lapsed .expired) else s

/-- The tick: the count rises by one, modulo 2^32, and every due slot expires, in ascending slot order, all
in one event; the generator runs only after an initialisation pass has ended (R102, R105). -/
def State.ticked (s : State) : State :=
  match s.phase with
  | .running => (List.finRange 48).foldl State.expireIfDue { s with tickCount := s.tickCount + 1 }
  | .masterReset => s
  | .initPass => s

/-- TICK (R102, R105). -/
def execTick (s : State) : Host.Outcome State Fault Refusal :=
  .next s.ticked

/-- EXPIRY of one slot, which must be due (R106; log 4). -/
def execExpiry (i : SlotNo) (s : State) : Host.Outcome State Fault Refusal :=
  .next (s.expireIfDue i)

end Sys2Proof.Machine
end

