-- ==== Sys2Proof/Machine/Windows.lean ====
section
/-! DEFINITION. Window select, the buffer window, the tick low word, the remaining window writes, the undefined
command, and the bus events of a port (R86-R89, R103, R140, R141, R143, R146). -/

namespace Sys2Proof.Machine

/-! ## Undefined commands -/

/-- A write to the command word of a value that is no command code (R146). -/
def issuesUndefined : Access → Bool
  | .write a d => decide (a = commandAddress) && !isCommandCode d
  | .read _ => false

/-- BAD_COMMAND: command part 0, result 21, result parameters 0 (R146, R147). -/
def execBadCommand (p : Station) (s : State) : Host.Outcome State Fault Refusal :=
  .next (s.takeAccess p issuesUndefined fun _ s => (s.setResult p none .badCommand [], none))

/-! ## Window select -/

/-- A write to the window select word of a value other than the step value (R86). -/
def selects : Access → Bool
  | .write a d => decide (a = windowSelectAddress) && decide (d ≠ Config.stepValue)
  | .read _ => false

/-- A write of the step value (R86). -/
def selectsStep : Access → Bool
  | .write a d => decide (a = windowSelectAddress) && decide (d = Config.stepValue)
  | .read _ => false

def State.setWindowSelect (s : State) (p : Station) (b : Option BufferNo) : State :=
  s.modPort p fun q => { q with windowSelect := b }

/-- WINDOW_SELECT: 0 to 255 are taken; FFFFh and every other value but the step value become FFFFh (R86). -/
def execWindowSelect (p : Station) (s : State) : Host.Outcome State Fault Refusal :=
  .next (s.takeAccess p selects fun a s => (s.setWindowSelect p (bufferField (writtenWord a)), none))

/-- The next buffer of the chain, where the selected buffer is HELD by this station and has one (R86). -/
def State.steppedSelect (s : State) (p : Station) : Option BufferNo :=
  match (s.port p).windowSelect with
  | none => none
  | some b => if s.pool.holds p b then (s.pool.desc b).next else none

/-- STEP (R86). -/
def execWindowStep (p : Station) (s : State) : Host.Outcome State Fault Refusal :=
  .next (s.takeAccess p selectsStep fun _ s => (s.setWindowSelect p (s.steppedSelect p), none))

/-! ## The buffer window -/

/-- The offset of a read in the buffer window. -/
def readOffset : Access → Option Offset
  | .read a => bufferOffset a
  | .write _ _ => none

/-- The offset of a write in the buffer window. -/
def writeOffset : Access → Option Offset
  | .write a _ => bufferOffset a
  | .read _ => none

/-- The selected buffer, where the access to it is permitted (R87). -/
def State.permitted (s : State) (p : Station) : Option BufferNo :=
  match (s.port p).windowSelect with
  | none => none
  | some b => if s.pool.holds p b then some b else none

/-- An access refused as an ACCESS fault (R87, R159). -/
def State.accessFault (s : State) (p : Station) (w : Offset) : State :=
  s.modPort p fun q => q.recordFault .access q.windowSelect w

/-- A read that finds bad parity: the damaged flag is set and a PARITY fault is recorded (R89, R159). -/
def State.parityFault (s : State) (p : Station) (b : BufferNo) (w : Offset) : State :=
  (s.setPool (s.pool.setDesc b { s.pool.desc b with damaged := true })).modPort p fun q =>
    q.recordFault .parity (some b) w

/-- The effect of a buffer-window read at offset `w` (R87, R89). -/
def State.bufferRead (s : State) (p : Station) (w : Offset) : State :=
  match s.permitted p with
  | none => s.accessFault p w
  | some b => if (Memory.read s.pool.mem (wordAddress b w)).good then s else s.parityFault p b w

/-- The effect of a buffer-window write at offset `w` (R87, R88). -/
def State.bufferWrite (s : State) (p : Station) (w : Offset) (d : Word) : State :=
  match s.permitted p with
  | none => s.accessFault p w
  | some b => s.setPool { s.pool with mem := Memory.write s.pool.mem (wordAddress b w) ⟨d, true⟩ }

/-- BUFFER_WINDOW_READ (R87, R89, R151). -/
def execBufferWindowRead (p : Station) (s : State) : Host.Outcome State Fault Refusal :=
  .next (s.takeAccess p (fun a => (readOffset a).isSome) fun a s =>
    match readOffset a with
    | none => (s, none)
    | some w => (s.bufferRead p w, some (s.bufferWindowWord p w)))

/-- BUFFER_WINDOW_WRITE (R87, R88, R151). -/
def execBufferWindowWrite (p : Station) (s : State) : Host.Outcome State Fault Refusal :=
  .next (s.takeAccess p (fun a => (writeOffset a).isSome) fun a s =>
    match writeOffset a with
    | none => (s, none)
    | some w => (s.bufferWrite p w (writtenWord a), none))

/-! ## The tick low word -/

/-- TICK_LOW_READ: bits 0-15 are returned and bits 16-31 of the same count go into this port's holding word
(R103). -/
def execTickLowRead (p : Station) (s : State) : Host.Outcome State Fault Refusal :=
  .next (s.takeAccess p (fun a => decide (a = .read tickLowAddress)) fun _ s =>
    (s.modPort p fun q => { q with tickHolding := tickHigh s.tickCount }, some (tickLow s.tickCount)))

/-! ## The remaining writes -/

/-- A write to a parameter word, or to a status or unused word (R143). -/
def writesPlain : Access → Bool
  | .write a _ => plainWrite a
  | .read _ => false

/-- A parameter word stores the value; a status or unused word ignores it (R143, R144). -/
def State.writeWord (s : State) (p : Station) : Access → State
  | .write a d =>
    match parameterIndex a with
    | none => s
    | some k => s.modPort p fun q => { q with params := q.params.set k d }
  | .read _ => s

/-- WINDOW_WORD_WRITE (R143, R144). -/
def execWindowWordWrite (p : Station) (s : State) : Host.Outcome State Fault Refusal :=
  .next (s.takeAccess p writesPlain fun a s => (s.writeWord p a, none))

/-! ## Bus events -/

/-- ACCESS_BEGIN: the lines take the station's levels, and where the port is IDLE and not in RESET an access begins.
In RESET it waits; while an earlier access is under way the lines are only recorded (R140-R142; log 19). -/
def execAccessBegin (p : Station) (lines : BusLines) (timing : ReadTiming) (s : State) :
    Host.Outcome State Fault Refusal :=
  .next (if lines.asserted then
    (s.modPort p fun q => { q with lines := lines, readTiming := timing }).settle p else s)

/-- The port after the strobe or the select line of a finished access is negated: ready and the data lines are
released and the port is IDLE (R140, R142). While PENDING the negation is ACCESS_ENDED_EARLY instead. -/
def Port.ended (q : Port) (lines : BusLines) : Port :=
  match q.access with
  | .pending _ _ => q
  | .answered _ => { q with lines := lines, access := .idle }
  | .abandoned => { q with lines := lines, access := .idle }
  | .idle => { q with lines := lines }

/-- ACCESS_END (R140, R142; log 19). With select and one of the strobes left asserted it is not taken (DESIGN CHOICE,
log 26). -/
def execAccessEnd (p : Station) (lines : BusLines) (s : State) : Host.Outcome State Fault Refusal :=
  .next (if lines.asserted then s else s.modPort p fun q => q.ended lines)

/-- The port after the negation of a PENDING access: it notes that the negation has been seen (R141). -/
def Port.endedEarly (q : Port) (lines : BusLines) : Port :=
  match q.access with
  | .pending a _ => { q with lines := lines, access := .pending a true }
  | .answered _ => q
  | .abandoned => q
  | .idle => q

/-- ACCESS_ENDED_EARLY (R141). With select and one of the strobes left asserted it is not taken (DESIGN CHOICE,
log 26). -/
def execAccessEndedEarly (p : Station) (lines : BusLines) (s : State) : Host.Outcome State Fault Refusal :=
  .next (if lines.asserted then s else s.modPort p fun q => q.endedEarly lines)

end Sys2Proof.Machine
end

