-- ==== Sys2Proof/Machine/Dispatch.lean ====
section
/-! DEFINITION. One arm per command or event of the opcode table. -/

namespace Sys2Proof.Machine

def exec (i : Instr) (s : State) : Host.Outcome State Fault Refusal :=
  match i with
  | .post p => Sys2Proof.Machine.execPost p s
  | .reply p => Sys2Proof.Machine.execReply p s
  | .cancel p => Sys2Proof.Machine.execCancel p s
  | .notify p => Sys2Proof.Machine.execNotify p s
  | .take p => Sys2Proof.Machine.execTake p s
  | .acquire p => Sys2Proof.Machine.execAcquire p s
  | .release p => Sys2Proof.Machine.execRelease p s
  | .append p => Sys2Proof.Machine.execAppend p s
  | .scrub p => Sys2Proof.Machine.execScrub p s
  | .setRoute p => Sys2Proof.Machine.execSetRoute p s
  | .clearRoute p => Sys2Proof.Machine.execClearRoute p s
  | .setAdmit p => Sys2Proof.Machine.execSetAdmit p s
  | .flip p => Sys2Proof.Machine.execFlip p s
  | .join p => Sys2Proof.Machine.execJoin p s
  | .leave p => Sys2Proof.Machine.execLeave p s
  | .ackFault p => Sys2Proof.Machine.execAckFault p s
  | .badCommand p => Sys2Proof.Machine.execBadCommand p s
  | .windowSelect p => Sys2Proof.Machine.execWindowSelect p s
  | .windowStep p => Sys2Proof.Machine.execWindowStep p s
  | .bufferWindowRead p => Sys2Proof.Machine.execBufferWindowRead p s
  | .bufferWindowWrite p => Sys2Proof.Machine.execBufferWindowWrite p s
  | .attentionCauseWrite p => Sys2Proof.Machine.execAttentionCauseWrite p s
  | .attentionEnableWrite p => Sys2Proof.Machine.execAttentionEnableWrite p s
  | .tickLowRead p => Sys2Proof.Machine.execTickLowRead p s
  | .windowWordWrite p => Sys2Proof.Machine.execWindowWordWrite p s
  | .accessBegin p lines timing => Sys2Proof.Machine.execAccessBegin p lines timing s
  | .accessEnd p lines => Sys2Proof.Machine.execAccessEnd p lines s
  | .tick => Sys2Proof.Machine.execTick s
  | .expiry slot => Sys2Proof.Machine.execExpiry slot s
  | .scrubCompletion readBack => Sys2Proof.Machine.execScrubCompletion readBack s
  | .drainCompletion p => Sys2Proof.Machine.execDrainCompletion p s
  | .teardown p => Sys2Proof.Machine.execTeardown p s
  | .stationResetReleased p => Sys2Proof.Machine.execStationResetReleased p s
  | .masterReset => Sys2Proof.Machine.execMasterReset s
  | .masterResetEnds straps => Sys2Proof.Machine.execMasterResetEnds straps s
  | .endOfInitialisationPass => Sys2Proof.Machine.execEndOfInitialisationPass s
  | .badParity buffer offset data => Sys2Proof.Machine.execBadParity buffer offset data s
  | .accessEndedEarly p lines => Sys2Proof.Machine.execAccessEndedEarly p lines s

end Sys2Proof.Machine
end

