-- ==== Sys2Proof/Machine/Step.lean ====
section
/-! DEFINITION. One step of the block: the command or event at the front of the queue. -/

namespace Sys2Proof.Machine

/-- Take the command at the front of the queue and run it with the queue's rest; on an empty queue the block
idles (log 2, log 15). -/
def step (s : State) : Host.Outcome State Fault Refusal :=
  match s.pending with
  | [] => .next s.idle
  | c :: rest => exec c { s with pending := rest }

/-- The state with the command that the word spells put at the front of its queue; no word spells one
(log 24). -/
def State.withFetchWord (s : State) (nbits w : Nat) : State :=
  match decodeTableWord nbits w with
  | none => s
  | some c => { s with pending := c :: s.pending }

end Sys2Proof.Machine
end

