-- ==== Sys2Proof/WellFormed.lean ====
section
/-! DEFINITION. Which terms of Instr are commands or events at all. The operand types bound every
number already; what is left is the level of the strobe and select lines in the three bus events. -/

namespace Sys2Proof

/-- ACCESS_BEGIN needs select asserted together with a strobe; ACCESS_END and ACCESS_ENDED_EARLY need
the strobe or the select line negated (R140, R141), which is here the select line or both strobes (DESIGN
CHOICE, log 26). Every other term is well formed. -/
def Instr.wellFormed : Instr → Bool
  | .accessBegin _ lines _ => lines.asserted
  | .accessEnd _ lines => !lines.asserted
  | .accessEndedEarly _ lines => !lines.asserted
  | .post _ | .reply _ | .cancel _ | .notify _ | .take _ | .acquire _ | .release _ | .append _
  | .scrub _ | .setRoute _ | .clearRoute _ | .setAdmit _ | .flip _ | .join _ | .leave _
  | .ackFault _ | .badCommand _ | .windowSelect _ | .windowStep _ | .bufferWindowRead _
  | .bufferWindowWrite _ | .attentionCauseWrite _ | .attentionEnableWrite _ | .tickLowRead _
  | .windowWordWrite _ | .tick | .expiry _ | .scrubCompletion _ | .drainCompletion _ | .teardown _
  | .stationResetReleased _ | .masterReset | .masterResetEnds _ | .endOfInitialisationPass
  | .badParity _ _ _ => true

end Sys2Proof
end

