-- ==== Sys2Proof/Safety.lean ====
section
/-! DEFINITION. What claims are stated in: which access a command takes, and the properties the part keeps
(00_scope.md, "Properties the Part Keeps"). -/

namespace Sys2Proof.Machine

/-! ## Commands and accesses -/

/-- A step goes on: it neither faults nor is refused. -/
def StepGoesOn (s : State) : Prop := ∃ t, step s = .next t

/-- The port has captured access `a`, has not yet taken it, and may take it: it is not in RESET. -/
def Awaits (s : State) (p : Station) (a : Access) : Prop :=
  (s.port p).state ≠ .reset ∧ ∃ early, (s.port p).access = .pending a early

/-- Command `c` waits to be taken at port `p` (R145). -/
def Issued (s : State) (p : Station) (c : Command) : Prop :=
  Awaits s p (.write commandAddress c.code)

/-- The port at which a row takes an access, for the rows that are the taking of one. -/
def takenAt : Instr → Option Station
  | .post p | .reply p | .cancel p | .notify p | .take p | .acquire p | .release p | .append p
  | .scrub p | .setRoute p | .clearRoute p | .setAdmit p | .flip p | .join p | .leave p
  | .ackFault p | .badCommand p | .windowSelect p | .windowStep p | .bufferWindowRead p
  | .bufferWindowWrite p | .attentionCauseWrite p | .attentionEnableWrite p | .tickLowRead p
  | .windowWordWrite p => some p
  | .accessBegin _ _ _ | .accessEnd _ _ | .tick | .expiry _ | .scrubCompletion _
  | .drainCompletion _ | .teardown _ | .stationResetReleased _ | .masterReset | .masterResetEnds _
  | .endOfInitialisationPass | .badParity _ _ _ | .accessEndedEarly _ _ => none

/-- The command of a row and its port, for the sixteen command rows (Table 12.2). -/
def commandOf : Instr → Option (Command × Station)
  | .post p => some (.post, p)
  | .reply p => some (.reply, p)
  | .cancel p => some (.cancel, p)
  | .notify p => some (.notify, p)
  | .take p => some (.take, p)
  | .acquire p => some (.acquire, p)
  | .release p => some (.release, p)
  | .append p => some (.append, p)
  | .scrub p => some (.scrub, p)
  | .setRoute p => some (.setRoute, p)
  | .clearRoute p => some (.clearRoute, p)
  | .setAdmit p => some (.setAdmit, p)
  | .flip p => some (.flip, p)
  | .join p => some (.join, p)
  | .leave p => some (.leave, p)
  | .ackFault p => some (.ackFault, p)
  | .badCommand _ | .windowSelect _ | .windowStep _ | .bufferWindowRead _ | .bufferWindowWrite _
  | .attentionCauseWrite _ | .attentionEnableWrite _ | .tickLowRead _ | .windowWordWrite _
  | .accessBegin _ _ _ | .accessEnd _ _ | .tick | .expiry _ | .scrubCompletion _
  | .drainCompletion _ | .teardown _ | .stationResetReleased _ | .masterReset | .masterResetEnds _
  | .endOfInitialisationPass | .badParity _ _ _ | .accessEndedEarly _ _ => none

/-- The accesses a row takes, by the class of the word addressed (Table 9.1). -/
def takes : Instr → Access → Bool
  | .badCommand _, a => issuesUndefined a
  | .windowSelect _, a => selects a
  | .windowStep _, a => selectsStep a
  | .bufferWindowRead _, a => (readOffset a).isSome
  | .bufferWindowWrite _, a => (writeOffset a).isSome
  | .attentionCauseWrite _, a => writesTo causeAddress a
  | .attentionEnableWrite _, a => writesTo enableAddress a
  | .tickLowRead _, a => decide (a = .read tickLowAddress)
  | .windowWordWrite _, a => writesPlain a
  | i, a =>
    match commandOf i with
    | some (c, _) => issues c a
    | none => false

/-- `t` is `s` but for the access state of port `p`, and for `f` applied to that port. -/
def PortBecomes (s t : State) (p : Station) (f : Port → Port) : Prop :=
  ∃ a, t = s.modPort p fun q => { f q with access := a }

/-- The result word and result parameters a command leaves (R147). -/
def withResult (c : Option Command) (r : ResultCode) (ps : List Word) (q : Port) : Port :=
  { q with lastCommand := c, result := r, resultParams := resultBlock ps }

/-- Row `i` is the command `c` at port `p` and is refused: nothing changes but the port's result word and result
parameters, and its access is answered (R148). -/
def RefusedWith (s : State) (i : Instr) (c : Command) (p : Station) (r : ResultCode) (ps : List Word) : Prop :=
  ∃ t, exec i s = .next t ∧ PortBecomes s t p (withResult (some c) r ps)

/-- A read that was not ended early is answered with this word on the data lines (R140). -/
def Drives (s t : State) (p : Station) (w : Word) : Prop :=
  ∀ a, (s.port p).access = .pending a false → (t.port p).access = .answered (some w)

/-- The access state in which an access begins from these lines: PENDING with what the port captures, a read winning
over a write (R140); a read without a row of its own whose timing is `atOnce` is ANSWERED in the same event with the
word addressed (the model's choice, log 2). -/
def BeginsFrom (lines : BusLines) (timing : ReadTiming) (word : Addr → Word) (a : AccessState) : Prop :=
  (lines.readStrobe = false → a = .pending (.write lines.address lines.data) false)
  ∧ (lines.readStrobe = true → (plainRead lines.address = false ∨ timing = .later) →
      a = .pending (.read lines.address) false)
  ∧ (lines.readStrobe = true → plainRead lines.address = true → timing = .atOnce →
      a = .answered (some (word lines.address)))

/-- The two outputs that an access drives (R140, Table 9.3): ready is high impedance unless select is asserted, and then
asserted exactly while the port is ANSWERED; the data lines carry a word exactly while it is ANSWERED on a read. -/
def Port.OutputsFollowAccess (q : Port) : Prop :=
  (q.lines.select = false → q.ready = none)
  ∧ (q.lines.select = true → (∃ d, q.access = .answered d) → q.ready = some true)
  ∧ (q.lines.select = true → (∀ d, q.access ≠ .answered d) → q.ready = some false)
  ∧ ∀ w, q.dataLines = some w ↔ q.access = .answered (some w)

/-- Phase, strap code, tick count and queue are the same. -/
def SameClock (s t : State) : Prop :=
  t.phase = s.phase ∧ t.strap = s.strap ∧ t.tickCount = s.tickCount ∧ t.pending = s.pending

/-- A port of station `q` with PEER latched for a change at port `p` (R138). -/
def peerLatched (p q : Station) (x : Port) : Port :=
  if q = p ∨ x.state = .reset then x else { x with peerCause := true }

/-- A list of checks in order: the first that does not hold gives the result (R23). -/
def firstFailing : List (Bool × ResultCode) → Option ResultCode
  | [] => none
  | (holds, code) :: rest => if holds then firstFailing rest else some code

/-- Steps 4 to 13 of Table 2.1, for well-formed parameters and a REQUEST route to service `v` of station `d`. -/
def State.postChecks (s : State) (p : Station) (ps : PostParams) (d : Station) (v : Service) (m : PayloadLen) :
    List (Bool × ResultCode) :=
  [(decide (ps.payload.len ≤ m), .badLength),
   (s.pool.payloadFits p ps.payload, .badChain),
   (!s.pool.payloadDamaged ps.payload, .damaged),
   (decide (∀ i : SlotNo, (s.slot i).requestedBy p = true → (s.slot i).tag ≠ ps.tag), .tagInUse),
   (decide ((s.port d).state = .online), .peerDown),
   (inSet (s.port d).admits[v] p, .notAdmitted),
   (decide (s.requesterCount p < 24), .overCap),
   (decide (∃ i : SlotNo, (s.slot i).state = .free), .noSlot),
   (decide (s.occupancy p < 32), .ownFull),
   (decide (s.occupancy d < 32), .destFull)]

/-- The three checks of NOTIFY on one member (R40). -/
def State.memberChecks (s : State) (p : Station) (v : Service) (m : Station) : List (Bool × ResultCode) :=
  [(decide ((s.port m).state = .online), .peerDown),
   (inSet (s.port m).admits[v] p, .notAdmitted),
   (decide (s.occupancy m < 32), .destFull)]

/-! ## Parameter words (Table 12.3, R163)

A parameter word is read as one whole number: `ps[k]` of the block `ps` is word k. -/

/-- Words 2 to 6 give these inline words: the count is at most 4, and as many words are taken from the first
positions (R21). -/
def InlineGiven (ps : Vector Word 16) (ws : List Word) : Prop :=
  ps[2].toNat ≤ 4 ∧ ws = [ps[3], ps[4], ps[5], ps[6]].take ps[2].toNat

/-- Words 7 and 8 give this payload: a length of 0 with FFFFh, or a length of 1 to 256 with a buffer number
(R21). -/
def PayloadGiven (ps : Vector Word 16) (pl : Payload) : Prop :=
  ps[7].toNat = pl.len.val
  ∧ match pl.chain with
    | none => pl.len.val = 0 ∧ ps[8] = 0xFFFF
    | some b => 1 ≤ pl.len.val ∧ ps[8].toNat = b.val

/-- The four payload forms that the parameter step refuses (R21). -/
def PayloadMalformed (ps : Vector Word 16) : Prop :=
  256 < ps[7].toNat ∨ (255 < ps[8].toNat ∧ ps[8] ≠ 0xFFFF)
  ∨ (ps[7].toNat = 0 ∧ ps[8].toNat ≤ 255) ∨ (0 < ps[7].toNat ∧ ps[8] = 0xFFFF)

/-- The words of a well-formed POST (R23 step 1). -/
def PostGiven (ps : Vector Word 16) (given : PostParams) : Prop :=
  ps[0].toNat = given.service.val ∧ ps[1] = given.tag ∧ InlineGiven ps given.words ∧ PayloadGiven ps given.payload

/-- The words of a POST that step 1 refuses (R23). -/
def PostMalformed (ps : Vector Word 16) : Prop :=
  31 < ps[0].toNat ∨ 4 < ps[2].toNat ∨ PayloadMalformed ps

/-- The words of a well-formed REPLY: the exchange number has the slot in its low byte and the generation in its
high byte (R9, R30 step 1). -/
def ReplyGiven (ps : Vector Word 16) (given : ReplyParams) : Prop :=
  ps[0].toNat = given.x.slot.val + 256 * given.x.gen.toNat ∧ ps[1].toNat = given.status.toNat
  ∧ InlineGiven ps given.words ∧ PayloadGiven ps given.payload

/-- The words of a REPLY that step 1 refuses (R30). -/
def ReplyMalformed (ps : Vector Word 16) : Prop :=
  47 < ps[0].toNat % 256 ∨ 255 < ps[1].toNat ∨ 4 < ps[2].toNat ∨ PayloadMalformed ps

/-- The words of a well-formed NOTIFY (R39 check 1). -/
def NotifyGiven (ps : Vector Word 16) (given : NotifyParams) : Prop :=
  ps[0].toNat = given.service.val ∧ InlineGiven ps given.words

/-- The words of a NOTIFY that check 1 refuses (R39). -/
def NotifyMalformed (ps : Vector Word 16) : Prop := 31 < ps[0].toNat ∨ 4 < ps[2].toNat

/-- The words of a SET_ROUTE that write this entry for service `v` of the owner's table: kind 1 with words 2, 4, 5
and 6, or kind 2 with words 3 and 4 (R64, section 12.3). -/
def RouteGiven (owner : Station) (ps : Vector Word 16) (v : Service) : RouteEntry → Prop
  | .none => False
  | .request d w timeout m =>
    ps[0].toNat = v.val ∧ ps[1].toNat = 1 ∧ ps[2].toNat = d.val ∧ d ≠ owner ∧ ps[4].toNat = w.val
    ∧ ps[5] = timeout ∧ timeout ≠ 0 ∧ ps[6].toNat = m.val
  | .notice set w =>
    ps[0].toNat = v.val ∧ ps[1].toNat = 2 ∧ ps[3].toNat = set.toNat ∧ set ≠ 0 ∧ set.getLsbD owner.val = false
    ∧ ps[4].toNat = w.val

/-- The cases of Table 4.2, with the words of section 12.3 (R64). -/
def RouteMalformed (owner : Station) (ps : Vector Word 16) : Prop :=
  31 < ps[0].toNat
  ∨ (ps[1].toNat ≠ 1 ∧ ps[1].toNat ≠ 2)
  ∨ (ps[1].toNat = 1 ∧ (3 < ps[2].toNat ∨ ps[2].toNat = owner.val ∨ 31 < ps[4].toNat ∨ ps[5].toNat = 0
      ∨ 256 < ps[6].toNat))
  ∨ (ps[1].toNat = 2 ∧ (15 < ps[3].toNat ∨ ps[3].toNat = 0 ∨ ps[3].getLsbD owner.val = true
      ∨ 31 < ps[4].toNat))

/-! ## What the window shows (chapter 12)

`2 ^ k * n` is field `n` with its least significant bit at bit k. -/

/-- The codes of commands (1 to 16), results (0 to 22) and port states (0 to 3), each list in the order of its codes
(Tables 12.2 and 12.4). -/
def CodesAsTabled : Prop :=
  [Command.post, .reply, .cancel, .notify, .take, .acquire, .release, .append, .scrub, .setRoute, .clearRoute,
      .setAdmit, .flip, .join, .leave, .ackFault].map (fun c => c.code.toNat)
    = List.range' 1 16
  ∧ [ResultCode.done, .wrongState, .notOnline, .noRoute, .peerDown, .notAdmitted, .tagInUse, .overCap, .noSlot,
      .ownFull, .destFull, .badLength, .badChain, .damaged, .stale, .noExchange, .empty, .noBuffers, .overLimit,
      .busy, .badParam, .badCommand, .noneDamaged].map ResultCode.code
    = List.range 23
  ∧ [PortState.reset, .offline, .online, .draining].map PortState.code = [0, 1, 2, 3]

/-- A buffer number, or FFFFh where there is none. -/
def shownBuffer : Option BufferNo → Word
  | none => 0xFFFF
  | some b => BitVec.ofNat 16 b.val

/-- An exchange number: slot in bits 7-0, generation in bits 15-8 (R9). -/
def shownXNum (x : XNum) : Word := BitVec.ofNat 16 (x.slot.val + 2 ^ 8 * x.gen.toNat)

/-- The packed status words 000h to 005h, 00Eh, 00Fh and 060h (Table 12.2's text, Table 12.4). -/
def ShowsStatusWords (s : State) (p : Station) : Prop :=
  s.readWord p 0x000 = BitVec.ofNat 16
      ((s.port p).result.code + 2 ^ 8 * match (s.port p).lastCommand with | none => 0 | some c => c.code.toNat)
  ∧ s.readWord p 0x001 = BitVec.ofNat 16
      ((s.port p).state.code + 2 ^ 4 * p.val + 2 ^ 8 * (s.port 0).state.code + 2 ^ 10 * (s.port 1).state.code
        + 2 ^ 12 * (s.port 2).state.code + 2 ^ 14 * (s.port 3).state.code)
  ∧ s.readWord p 0x002 = BitVec.ofNat 16
      ((decide ((s.port p).inbox ≠ [])).toNat + 2 ^ 1 * (s.port p).journalCause.toNat
        + 2 ^ 2 * (s.port p).peerCause.toNat + 2 ^ 3 * (s.port p).scrubCause.toNat
        + 2 ^ 4 * (decide ((s.port p).fault ≠ none)).toNat)
  ∧ s.readWord p 0x003 = (s.port p).enables.setWidth 16
  ∧ ((s.port p).fault = none → s.readWord p 0x004 = 0 ∧ s.readWord p 0x005 = 0)
  ∧ (∀ f, (s.port p).fault = some f →
      s.readWord p 0x004 = BitVec.ofNat 16
        ((match f.kind with | .access => 1 | .parity => 2) + 2 ^ 8 * f.offset.val + 2 ^ 15 * f.more.toNat)
      ∧ s.readWord p 0x005 = shownBuffer f.buffer)
  ∧ s.readWord p 0x00E = shownBuffer (s.port p).windowSelect
  ∧ s.readWord p 0x00F = BitVec.ofNat 16
      ((s.port p).journal.nextA.val + 2 ^ 8 * (s.port p).journal.nextB.val
        + 2 ^ 15 * match (s.port p).journal.current with | .a => 0 | .b => 1)
  ∧ s.readWord p 0x060 = BitVec.ofNat 16
      ((match s.pool.scrub.buffer with | none => 0 | some b => b.val) + 2 ^ 8 * s.pool.scrub.busy.toNat
        + 2 ^ 9 * (match s.pool.scrub.outcome with | .none => 0 | .clean => 1 | .retired => 2)
        + 2 ^ 12 * s.pool.scrub.issuer.val)

/-- Words 3 to 6, 11 and 12 of the current-record view and its inline words: what a kind does not carry reads 0,
the chain head FFFFh (R164). -/
def ShowsRecordFields (word : Nat → Word) (x tag status : Word) (ws : List Word) (len : Nat)
    (chain : Option BufferNo) : Prop :=
  word 3 = x ∧ word 4 = tag ∧ word 5 = status ∧ word 6 = BitVec.ofNat 16 ws.length
  ∧ (∀ k, k < 4 → word (7 + k) = ws.getD k 0)
  ∧ word 11 = BitVec.ofNat 16 len ∧ word 12 = shownBuffer chain

/-- The sixteen words of the current-record view of a record (R55, Table 12.5). -/
def ShowsRecord (word : Nat → Word) (r : Record) : Prop :=
  word 1 = BitVec.ofNat 16 r.source.val ∧ word 2 = BitVec.ofNat 16 r.service.val
  ∧ word 13 = r.arrival.extractLsb' 0 16 ∧ word 14 = r.arrival.extractLsb' 16 16 ∧ word 15 = 0
  ∧ match r.body with
    | .request x ws len chain => word 0 = 1 ∧ ShowsRecordFields word (shownXNum x) 0 0 ws len.val chain
    | .notice ws => word 0 = 2 ∧ ShowsRecordFields word 0 0 0 ws 0 none
    | .reply x tag st ws len chain =>
      word 0 = 3 ∧ ShowsRecordFields word (shownXNum x) tag (st.setWidth 16) ws len.val chain
    | .lapsed kind x tag =>
      word 0 = (match kind with | .expired => 4 | .cancelled => 5 | .peerGone => 6)
      ∧ ShowsRecordFields word (shownXNum x) tag 0 [] 0 none

/-- The four words of a route entry (R72, Table 12.7). -/
def ShowsRoute (word : Nat → Word) : RouteEntry → Prop
  | .none => word 0 = 0 ∧ word 1 = 0 ∧ word 2 = 0 ∧ word 3 = 0
  | .request d v timeout m =>
    word 0 = BitVec.ofNat 16 (1 + 2 ^ 4 * d.val + 2 ^ 8 * v.val) ∧ word 1 = 0 ∧ word 2 = timeout
    ∧ word 3 = BitVec.ofNat 16 m.val
  | .notice set v =>
    word 0 = BitVec.ofNat 16 (2 + 2 ^ 8 * v.val) ∧ word 1 = set.setWidth 16 ∧ word 2 = 0 ∧ word 3 = 0

/-- What an OPEN or CLOSED journal record shows of its opening, with its state, reply status and outcome codes
(Table 12.6). -/
def ShowsJournalHead (word : Nat → Word) (h : JournalHead) (state status outcome : Nat) : Prop :=
  word 0 = BitVec.ofNat 16 (h.x.slot.val + 2 ^ 6 * state + 2 ^ 8 * h.x.gen.toNat)
  ∧ word 1 = BitVec.ofNat 16 (h.service.val + 2 ^ 5 * h.peer.val
      + 2 ^ 7 * (match h.role with | .requester _ => 0 | .responder => 1) + 2 ^ 8 * status)
  ∧ word 2 = (match h.role with | .requester tag => tag | .responder => 0)
  ∧ word 3 = BitVec.ofNat 16 (h.wordsOut.val + 2 ^ 9 * outcome)
  ∧ word 6 = h.start.extractLsb' 0 16 ∧ word 7 = h.start.extractLsb' 16 16

/-- The eight words of a journal record (R121, Table 12.6). -/
def ShowsJournalEntry (word : Nat → Word) : JournalEntry → Prop
  | .empty => ∀ k, k < 8 → word k = 0
  | .opened h => ShowsJournalHead word h 1 0 0 ∧ word 4 = 0 ∧ word 5 = 0
  | .closed h c =>
    (match c.outcome with
      | .replied st => ShowsJournalHead word h 2 st.toNat 1
      | .lapsed .expired => ShowsJournalHead word h 2 0 2
      | .lapsed .cancelled => ShowsJournalHead word h 2 0 3
      | .lapsed .peerGone => ShowsJournalHead word h 2 0 4)
    ∧ word 4 = BitVec.ofNat 16 c.wordsIn.val ∧ word 5 = (c.endTick - h.start).extractLsb' 0 16

/-- The words of a station's window from an address on. -/
def State.wordsFrom (s : State) (p : Station) (base : Nat) (k : Nat) : Word :=
  s.readWord p (BitVec.ofNat 11 (base + k))

/-! ## Chains -/

/-- The chain a record or a payload names, in chain order; no buffer where it names none. -/
def Pool.chainOf (pool : Pool) : Option BufferNo → List BufferNo
  | none => []
  | some b => pool.chain b

/-- The buffers go to a new place with their links and flags; nothing else of the pool changes (R91). -/
def Pool.Moved (before after : Pool) (bs : List BufferNo) (place : Place) : Prop :=
  (∀ b, after.desc b = if b ∈ bs then { before.desc b with place := place } else before.desc b)
  ∧ after.free = before.free ∧ after.damaged = before.damaged ∧ after.scrub = before.scrub
  ∧ after.mem = before.mem

/-- The buffers leave their chains in this order, each to the tail of the free list or, with its damaged flag
set, of the damaged list; nothing else of the pool changes (R85, R92, R93). -/
def Pool.Returned (before after : Pool) (bs : List BufferNo) : Prop :=
  (∀ b, after.desc b = if b ∈ bs then
      ⟨if (before.desc b).damaged then .damagedListed else .free, none, false, (before.desc b).damaged⟩
    else before.desc b)
  ∧ after.free = before.free ++ bs.filter (fun b => !(before.desc b).damaged)
  ∧ after.damaged = before.damaged ++ bs.filter (fun b => (before.desc b).damaged)
  ∧ after.scrub = before.scrub ∧ after.mem = before.mem

/-- The buffer stands in a chain: it is HELD or ATTACHED. -/
def Place.inChain : Place → Bool
  | .held _ => true
  | .attached => true
  | .free => false
  | .damagedListed => false
  | .scrubbing => false
  | .retired => false

/-! ## The ending of an exchange -/

/-- A closing handed to the journal where the slot holds a reference (R15). -/
def Journal.closedAt (j : Journal) (r : Option JournalRef) (x : XNum) (c : JournalClose) : Journal :=
  match r with
  | none => j
  | some r => j.closing r x c

/-- The inbox of station `q` after slot `i` is ended: an untaken REQUEST record leaves the destination's, and what
the requester is told joins the requester's (R13). -/
def State.inboxAfterEnding (s : State) (i : SlotNo) (told : Option Record) (q : Station) : List Record :=
  (if (s.slot i).state = .opened ∧ (s.slot i).dest = q then
      (s.port q).inbox.eraseP fun r => decide (r.requestOf = some (s.xnum i))
    else (s.port q).inbox)
  ++ (if (s.slot i).requester = q then told.toList else [])

/-- The journal of station `q` after slot `i` is ended; at the teardown of the requester its own record is not
closed (R15, R16). -/
def State.journalAfterEnding (s : State) (i : SlotNo) (closesRequester : Bool) (c : JournalClose) (q : Station) :
    Journal :=
  if (s.slot i).requester = q then
    (if closesRequester then (s.port q).journal.closedAt (s.slot i).reqRef (s.xnum i) c else (s.port q).journal)
  else if (s.slot i).dest = q then (s.port q).journal.closedAt (s.slot i).respRef (s.xnum i) c
  else (s.port q).journal

/-- From `s` to `t` the exchange in slot `i` has ended: its requester is told `told`, the journal records its
references name are closed with `c`, the slot is FREE in the next generation, and no other slot, no other item of a
port and no memory word changes (R13). -/
def EndsExchange (s t : State) (i : SlotNo) (told : Option Record) (closesRequester : Bool) (c : JournalClose) :
    Prop :=
  t.slot i = Slot.freeIn ((s.slot i).gen + 1)
  ∧ (∀ j, j ≠ i → t.slot j = s.slot j)
  ∧ (∀ q, t.port q = { s.port q with
      inbox := s.inboxAfterEnding i told q
      journal := s.journalAfterEnding i closesRequester c q })
  ∧ t.pool.mem = s.pool.mem ∧ SameClock s t

/-- The slots that name a station, in ascending slot order. -/
def State.slotsNaming (s : State) (p : Station) : List SlotNo :=
  (List.finRange 48).filter fun i =>
    decide ((s.slot i).state ≠ .free ∧ ((s.slot i).requester = p ∨ (s.slot i).dest = p))

/-- Every slot that names the station is ended, one at a time: without an outcome where the station is its
requester, else with PEER_GONE (R133 step 1). -/
def State.namedSlotsEnded (s : State) (p : Station) : State :=
  (s.slotsNaming p).foldl
    (fun u i => u.endExchange i (if (s.slot i).requester = p then .silent else .lapsed .peerGone)) s

/-- The buffers that a teardown gives back, in their order: the chains of the untaken requests that name the
station, in slot order (R133 step 1, R92); those of the station's other records, in inbox order (step 2, R56); those
it holds, in ascending order of heads (step 3, R93). -/
def State.buffersTornDown (s : State) (p : Station) : List BufferNo :=
  ((s.slotsNaming p).flatMap fun i =>
      ((s.port (s.slot i).dest).inbox.filter fun r => decide (r.requestOf = some (s.xnum i))).flatMap fun r =>
        s.pool.chainOf r.chain)
  ++ (((s.port p).inbox.filter fun r => decide (r.requestOf = none)).flatMap fun r => s.pool.chainOf r.chain)
  ++ ((List.finRange 256).filter fun b =>
      decide ((s.pool.desc b).place = .held p) && (s.pool.desc b).head).flatMap s.pool.chain

/-- The exchange whose outcome a record is. -/
def Record.outcomeOf (r : Record) : Option XNum :=
  match r.body with
  | .request _ _ _ _ => none
  | .notice _ => none
  | .reply x _ _ _ _ _ => some x
  | .lapsed _ x _ => some x

/-- How many outcome records of an exchange stand in an inbox. -/
def outcomesFor (q : Port) (x : XNum) : Nat :=
  q.inbox.countP fun r => decide (r.outcomeOf = some x)

/-! ## Runs -/

/-- The commands and events, taken one after the other, lead from `s` to `t`. -/
def Runs : List Instr → State → State → Prop
  | [], s, t => t = s
  | c :: cs, s, t => ∃ u, exec c s = .next u ∧ Runs cs u t

/-- How many of them are ticks. -/
def ticksIn (cs : List Instr) : Nat := cs.countP fun c => decide (c = .tick)

/-! ## What the part keeps -/

/-- Exchange memory keeps its canonical form. -/
def MemoryCanonical (s : State) : Prop := Memory.wf s.pool.mem = true

/-- The values a slot may hold: a FREE slot is at its FREE values (R4); a non-FREE slot names two different
stations (R3), holds a requester reference, and holds a responder reference exactly when it is TAKEN (R2). -/
def Slot.Sound (sl : Slot) : Prop :=
  (sl.state = .free → sl = Slot.freeIn sl.gen)
  ∧ (sl.state ≠ .free → sl.dest ≠ sl.requester ∧ sl.reqRef.isSome)
  ∧ (sl.state = .opened → sl.respRef = none)
  ∧ (sl.state = .taken → sl.respRef.isSome)

/-- The values a route entry may hold (R60): a REQUEST entry never names its owner and never has a timeout of
0; a NOTICE entry has a set that is not empty and does not hold the owner. -/
def RouteEntry.Sound (owner : Station) : RouteEntry → Prop
  | .none => True
  | .request d _ t _ => d ≠ owner ∧ t ≠ 0
  | .notice set _ => set ≠ 0 ∧ inSet set owner = false

/-- Every route entry of every station is sound (R60), and no admission set holds its owner (R62). -/
def TablesSound (s : State) : Prop :=
  ∀ p : Station, (∀ v : Service, ((s.port p).routes[v]).Sound p)
    ∧ ∀ v : Service, inSet (s.port p).admits[v] p = false

/-- Every slot is sound. -/
def SlotsSound (s : State) : Prop := ∀ i : SlotNo, (s.slot i).Sound

/-- Records plus reservations never exceed 32 at any station (R45). -/
def RoomKept (s : State) : Prop := ∀ p : Station, s.occupancy p ≤ Config.inboxCapacity

/-- No station is requester of more than 24 non-FREE slots, and no two of one requester carry the same tag
(R7). -/
def CapsKept (s : State) : Prop :=
  (∀ p : Station, s.requesterCount p ≤ Config.requesterCap)
  ∧ ∀ (p : Station) (i j : SlotNo), (s.slot i).requestedBy p = true → (s.slot j).requestedBy p = true →
      (s.slot i).tag = (s.slot j).tag → i = j

/-- Every non-FREE slot's deadline lies 1 to 65535 ticks ahead of the count (R105). -/
def DeadlinesAhead (s : State) : Prop :=
  ∀ i : SlotNo, (s.slot i).state ≠ .free →
    1 ≤ ((s.slot i).deadline - s.tickCount).toNat ∧ ((s.slot i).deadline - s.tickCount).toNat ≤ 65535

/-- The lists and the engine agree with the descriptors, and so does the damaged flag (R76-R78, R94, R95,
R97). -/
def PoolSound (pool : Pool) : Prop :=
  pool.free.Nodup ∧ pool.damaged.Nodup
  ∧ (∀ b, b ∈ pool.free ↔ (pool.desc b).place = .free)
  ∧ (∀ b, b ∈ pool.damaged ↔ (pool.desc b).place = .damagedListed)
  ∧ (∀ b, (pool.desc b).place = .scrubbing ↔ pool.scrub.busy = true ∧ pool.scrub.buffer = some b)
  ∧ (pool.scrub.busy = true → pool.scrub.buffer.isSome)
  ∧ (∀ b, (pool.desc b).place = .free ∨ (pool.desc b).place = .attached → (pool.desc b).damaged = false)
  ∧ ∀ b, (pool.desc b).place = .damagedListed ∨ (pool.desc b).place = .scrubbing
      ∨ (pool.desc b).place = .retired → (pool.desc b).damaged = true

/-- Every chain is 1 to 8 buffers linked from a head, all in one place; no buffer stands in two chains, and every
HELD or ATTACHED buffer stands in one (R79). -/
def ChainsSound (pool : Pool) : Prop :=
  (∀ b c, (pool.desc b).next = some c →
    (pool.desc b).place.inChain = true ∧ (pool.desc c).place = (pool.desc b).place ∧ (pool.desc c).head = false)
  ∧ (∀ a b c, (pool.desc a).next = some c → (pool.desc b).next = some c → a = b)
  ∧ (∀ b, (pool.desc b).head = true →
      (pool.desc b).place.inChain = true ∧ (pool.chain b).length ≤ Config.maxChain)
  ∧ ∀ b, (pool.desc b).place.inChain = true → ∃ h, (pool.desc h).head = true ∧ b ∈ pool.chain h

/-- How many inbox records of the whole part carry the chain headed by `b`. -/
def State.carriers (s : State) (b : BufferNo) : Nat :=
  ((List.finRange 4).map fun p => (s.port p).inbox.countP fun r => decide (r.chain = some b)).sum

/-- A chain is ATTACHED exactly when one inbox record carries it; then it is one only (R77, R79). -/
def ChainsCarried (s : State) : Prop :=
  ∀ b, s.carriers b = if (s.pool.desc b).place = .attached ∧ (s.pool.desc b).head = true then 1 else 0

/-- How many REQUEST records of a slot stand in an inbox. -/
def requestsFor (q : Port) (i : SlotNo) : Nat :=
  q.inbox.countP fun r => decide (r.requestOf.map XNum.slot = some i)

/-- A REQUEST record for a slot exists exactly when the slot is OPEN; then there is one, it stands in the
destination's inbox and carries the slot's generation (R48). -/
def RequestsMatchOpen (s : State) : Prop :=
  (∀ (i : SlotNo) (p : Station),
    requestsFor (s.port p) i = if (s.slot i).state = .opened ∧ (s.slot i).dest = p then 1 else 0)
  ∧ ∀ (p : Station) (r : Record) (x : XNum), r ∈ (s.port p).inbox → r.requestOf = some x →
      x.gen = (s.slot x.slot).gen

/-- A port in RESET takes no access: its access state is IDLE or ABANDONED, and its enables are 0, so that
its attention line is negated (R142, R161). While master reset is asserted or the pass runs every port is in
RESET (R136, R137). -/
def ResetPortsQuiet (s : State) : Prop :=
  (∀ p : Station, (s.port p).state = .reset →
    ((s.port p).access = .idle ∨ (s.port p).access = .abandoned) ∧ (s.port p).enables = 0)
  ∧ (s.phase ≠ .running → ∀ p : Station, (s.port p).state = .reset)

/-- A port in RESET or OFFLINE has an empty inbox, no reservations, no current record and no held buffer, and
is neither requester nor destination of any non-FREE slot (R125); the destination of an OPEN slot is ONLINE
(R46, R127). -/
def DisconnectedEmpty (s : State) : Prop :=
  (∀ p : Station, (s.port p).state = .reset ∨ (s.port p).state = .offline →
    (s.port p).inbox = [] ∧ (s.port p).view = none ∧ s.pool.heldCount p = 0
    ∧ ∀ i : SlotNo, (s.slot i).state ≠ .free → (s.slot i).requester ≠ p ∧ (s.slot i).dest ≠ p)
  ∧ ∀ i : SlotNo, (s.slot i).state = .opened → (s.port (s.slot i).dest).state = .online

end Sys2Proof.Machine
end

