-- ==== Sys2Proof/Certificates/Slice0/Obligations.lean ====
section
/-! DEFINITION. The statements for the provers: each a Prop, named by what it states. -/

open Sys2Proof Sys2Proof.Machine

/-! ## Steps and accesses -/

/-- With a command or event at the front of the queue, a step is exec of it with the queue's rest. -/
def Obligations.StepRunsFrontCommand : Prop :=
  ∀ (s : State) (c : Instr) (rest : List Instr),
    step { s with pending := c :: rest } = exec c { s with pending := rest }

/-- On an empty queue a step takes the waiting reads that have no row of their own, which are the reads of every address
but 006h and 040h to 05Fh, and does nothing else (the model's choice, log 2): of each port only the access state may
change; such a read is answered with the word addressed; one that was ended early is taken without ready, and the port
is IDLE afterwards or, where the lines ask for an access again by then, that new access has begun from the lines as they
stand, in the same event (log 14); a port with no such read waiting is as before. -/
def Obligations.EmptyQueueTakesWaitingReads : Prop :=
  (∀ a : Addr, plainRead a = true ↔ a.toNat ≠ 0x006 ∧ ¬ (0x040 ≤ a.toNat ∧ a.toNat < 0x060))
  ∧ ∀ s : State, s.pending = [] →
    ∃ t, step s = .next t ∧ t = { s with ports := t.ports }
      ∧ ∀ p, t.port p = { s.port p with access := (t.port p).access }
        ∧ (∀ a, (s.port p).state ≠ .reset → (s.port p).access = .pending (.read a) false → plainRead a = true →
            (t.port p).access = .answered (some (s.readWord p a)))
        ∧ (∀ a, (s.port p).state ≠ .reset → (s.port p).access = .pending (.read a) true → plainRead a = true →
            ((s.port p).lines.asserted = false → (t.port p).access = .idle)
            ∧ ((s.port p).lines.asserted = true →
                BeginsFrom (s.port p).lines (s.port p).readTiming (s.readWord p) (t.port p).access))
        ∧ ((∀ a early, (s.port p).access = .pending (.read a) early → plainRead a = true →
            (s.port p).state = .reset) → t.port p = s.port p)

/-- No step of the block faults or is refused, whatever the state and the queue. ACCESS and PARITY faults are recorded
and the station goes on. That a step also goes on where the event at the front of the queue is not one that happens in
this state (it is then not taken), and where the queue is empty, is the model's choice (log 1, DESIGN CHOICE; log 2,
DESIGN CHOICE), which no rule of the spec gives. -/
def Obligations.EveryStepGoesOn : Prop := ∀ s : State, StepGoesOn s

/-- A row that takes an access answers it: a port that is PENDING, not in RESET and not ended early, with an access
of the row's class, is ANSWERED afterwards; with select asserted it asserts ready, and the data lines carry the word
of a read and are not driven for a write. At every port ready and the data lines follow the access state: ready is high
impedance without select, asserted while ANSWERED and negated otherwise, and the data lines carry a word exactly while
ANSWERED on a read. -/
def Obligations.TakenAccessIsAnswered : Prop :=
  (∀ q : Port, q.OutputsFollowAccess)
  ∧ ∀ (s : State) (c : Instr) (p : Station) (a : Access), takenAt c = some p → takes c a = true →
    (s.port p).state ≠ .reset → (s.port p).access = .pending a false →
    ∃ t d, exec c s = .next t ∧ (t.port p).access = .answered d
      ∧ ((s.port p).lines.select = true → (t.port p).ready = some true) ∧ (t.port p).dataLines = d
      ∧ (∀ address, a = .read address → ∃ w, d = some w)
      ∧ ∀ address w, a = .write address w → d = none

/-- A row that takes an access ended early gives no ready for it: the port is IDLE afterwards; or, where the lines ask
for an access again by then, that new access has begun from the lines as they stand, in the same event (log 14; a read
without a row of its own may be answered at once, log 2). -/
def Obligations.EarlyEndedAccessGivesNoReady : Prop :=
  ∀ (s : State) (c : Instr) (p : Station) (a : Access), takenAt c = some p → takes c a = true →
    (s.port p).state ≠ .reset → (s.port p).access = .pending a true →
    ∃ t, exec c s = .next t
      ∧ ((s.port p).lines.asserted = false → (t.port p).access = .idle)
      ∧ ((s.port p).lines.asserted = true →
          BeginsFrom (s.port p).lines (s.port p).readTiming (t.readWord p) (t.port p).access)

/-- A row that takes an access is not taken, and nothing changes, unless its port has such an access PENDING; a
port in RESET takes none (R142; the model's choice for the others, log 1). -/
def Obligations.AccessNotTakenChangesNothing : Prop :=
  ∀ (s : State) (c : Instr) (p : Station), takenAt c = some p →
    ((s.port p).state = .reset ∨ ∀ a early, (s.port p).access = .pending a early → takes c a = false) →
    exec c s = .next s

/-- ACCESS_BEGIN: an IDLE port that is not in RESET captures address, direction and data and becomes PENDING, a read
winning over a write; a read without a row of its own whose timing is `atOnce` is answered in the same event (the
model's choice, log 2). In RESET, and while an earlier access is under way, no access begins and the lines stand as
they are driven. -/
def Obligations.AccessBegins : Prop :=
  ∀ (s : State) (p : Station) (lines : BusLines) (timing : ReadTiming), lines.asserted = true →
    ∃ a, exec (.accessBegin p lines timing) s
        = .next (s.modPort p fun q => { q with lines := lines, readTiming := timing, access := a })
      ∧ ((s.port p).state ≠ .reset → (s.port p).access = .idle → BeginsFrom lines timing (s.readWord p) a)
      ∧ (((s.port p).state = .reset ∨ (s.port p).access ≠ .idle) → a = (s.port p).access)

/-- ACCESS_END: the negation of the strobe or the select line takes an ANSWERED or ABANDONED port to IDLE, with ready
and the data lines released, and an IDLE port stays IDLE (the last is the model's reading, log 19). The negation is
that of the select line or of every strobe: of the two strobes, that none may be left asserted is the model's choice
(log 26). -/
def Obligations.AccessEnds : Prop :=
  ∀ (s : State) (p : Station) (lines : BusLines), lines.asserted = false →
    (∀ a early, (s.port p).access ≠ .pending a early) →
    ∃ t, exec (.accessEnd p lines) s = .next t
      ∧ t = s.modPort p (fun q => { q with lines := lines, access := .idle })
      ∧ (t.port p).ready ≠ some true ∧ (t.port p).dataLines = none

/-- ACCESS_ENDED_EARLY: a PENDING access stays PENDING with what the port captured, and the port notes that the
negation has been seen. The negation is that of the select line or of every strobe (the last is the model's choice,
log 26). -/
def Obligations.AccessEndsEarly : Prop :=
  ∀ (s : State) (p : Station) (lines : BusLines) (a : Access) (early : Bool), lines.asserted = false →
    (s.port p).access = .pending a early →
    exec (.accessEndedEarly p lines) s
      = .next (s.modPort p fun q => { q with lines := lines, access := .pending a true })

/-- A refused command, undefined ones among them, changes nothing but the issuing port's result word and result
parameters; its access is answered. A command is refused when the result it leaves is not DONE. -/
def Obligations.RefusedCommandChangesOnlyItsResult : Prop :=
  ∀ (s t : State) (i : Instr) (p : Station),
    ((∃ c, commandOf i = some (c, p) ∧ Issued s p c)
      ∨ i = .badCommand p ∧ ∃ w, Awaits s p (.write 0x000 w) ∧ (w.toNat = 0 ∨ 16 < w.toNat)) →
    exec i s = .next t → (t.port p).result ≠ .done →
    ∃ c ps, PortBecomes s t p (withResult c (t.port p).result ps)

/-! ## Requests, replies and notices -/

/-- POST: when its parameter words give a well-formed POST and its other twelve checks pass, slot `i`, the lowest FREE
one, is allocated with its fields written, the REQUEST record joins the destination's inbox, each buffer of the chain
becomes ATTACHED, a REQUESTER record is opened in the poster's journal (JOURNAL is latched where the position wraps),
and the result is DONE with the exchange number; nothing else changes. -/
def Obligations.PostOpensExchange : Prop :=
  ∀ (s : State) (p : Station) (ps : PostParams) (d : Station) (v : Service) (timeout : Word) (m : PayloadLen)
    (i : SlotNo),
    Issued s p .post → PostGiven (s.port p).params ps → (s.port p).state = .online →
    (s.port p).routes[ps.service] = .request d v timeout m → d ≠ p →
    (∀ check ∈ s.postChecks p ps d v m, check.1 = true) →
    (s.slot i).state = .free → (∀ j, j < i → (s.slot j).state ≠ .free) →
    ∃ t a, exec (.post p) s = .next t ∧ SameClock s t
      ∧ t.slot i =
        { state := .opened, gen := (s.slot i).gen, requester := p, tag := ps.tag, service := ps.service,
          dest := d, destService := v, start := s.tickCount, deadline := s.tickCount + timeout.setWidth 32,
          wordsOut := ps.payload.len, reqRef := some (s.port p).journal.nextRef, respRef := none }
      ∧ (∀ j, j ≠ i → t.slot j = s.slot j)
      ∧ s.pool.Moved t.pool (s.pool.chainOf ps.payload.chain) .attached
      ∧ t.port p = { s.port p with
          journal := (s.port p).journal.opening
            ⟨.requester ps.tag, ⟨i, (s.slot i).gen⟩, d, ps.service, ps.payload.len, s.tickCount⟩
          journalCause := (s.port p).journalCause || decide ((s.port p).journal.nextRef.index = 31)
          lastCommand := some .post
          result := .done
          resultParams := resultBlock [XNum.word ⟨i, (s.slot i).gen⟩]
          access := a }
      ∧ t.port d = { s.port d with inbox := (s.port d).inbox ++
          [⟨p, v, s.tickCount, .request ⟨i, (s.slot i).gen⟩ ps.words ps.payload.len ps.payload.chain⟩] }
      ∧ ∀ q, q ≠ p → q ≠ d → t.port q = s.port q

/-- POST is refused by the first of its checks that fails, in the order of Table 2.1. The parameters are malformed
where the service word is above 31, the inline count above 4 or the length above 256, and where the chain head is no
buffer number and not FFFFh, a buffer number with length 0, or FFFFh with a length above 0. -/
def Obligations.PostRefusedByFirstFailingCheck : Prop :=
  ∀ (s : State) (p : Station), Issued s p .post →
    (PostMalformed (s.port p).params → RefusedWith s (.post p) .post p .badParam [])
    ∧ ∀ ps, PostGiven (s.port p).params ps →
      ((s.port p).state ≠ .online → RefusedWith s (.post p) .post p .notOnline [])
      ∧ ((s.port p).state = .online →
        ((∀ d v timeout m, (s.port p).routes[ps.service] ≠ .request d v timeout m) →
          RefusedWith s (.post p) .post p .noRoute [])
        ∧ ∀ d v timeout m r, (s.port p).routes[ps.service] = .request d v timeout m →
          firstFailing (s.postChecks p ps d v m) = some r → RefusedWith s (.post p) .post p r [])

/-- REPLY: when its parameter words give a well-formed REPLY and its other four checks pass, the exchange is ended:
the REPLY record with what the replier gave joins the requester's inbox, both journal records close with REPLIED, the
slot is FREE in its next generation, each buffer of the reply chain becomes ATTACHED, and the result is DONE with
parameters 0; nothing else changes. -/
def Obligations.ReplyEndsExchange : Prop :=
  ∀ (s : State) (p : Station) (ps : ReplyParams), Issued s p .reply → ReplyGiven (s.port p).params ps →
    (s.port p).connected = true →
    (s.slot ps.x.slot).state = .taken → (s.slot ps.x.slot).gen = ps.x.gen → (s.slot ps.x.slot).dest = p →
    (s.slot ps.x.slot).requester ≠ p →
    s.pool.payloadFits p ps.payload = true → s.pool.payloadDamaged ps.payload = false →
    ∃ t u, exec (.reply p) s = .next t
      ∧ EndsExchange s u ps.x.slot
          (some ⟨p, (s.slot ps.x.slot).service, s.tickCount,
            .reply ps.x (s.slot ps.x.slot).tag ps.status ps.words ps.payload.len ps.payload.chain⟩)
          true ⟨.replied ps.status, ps.payload.len, s.tickCount⟩
      ∧ s.pool.Moved u.pool (s.pool.chainOf ps.payload.chain) .attached
      ∧ PortBecomes u t p (withResult (some .reply) .done [])

/-- REPLY is refused by the first of its checks that fails: parameters, port state, the three-way match (a slot that
is not TAKEN, another generation, another destination: STALE), the chain, damage. The parameters are malformed where
the low byte of word 0 is above 47, the status word above 255 or the inline count above 4, and for the payload as at
POST. -/
def Obligations.ReplyRefusedByFirstFailingCheck : Prop :=
  ∀ (s : State) (p : Station), Issued s p .reply →
    (ReplyMalformed (s.port p).params → RefusedWith s (.reply p) .reply p .badParam [])
    ∧ ∀ ps r, ReplyGiven (s.port p).params ps →
      firstFailing
        [((s.port p).connected, .notOnline),
         (decide ((s.slot ps.x.slot).state = .taken ∧ (s.slot ps.x.slot).gen = ps.x.gen
            ∧ (s.slot ps.x.slot).dest = p), .stale),
         (s.pool.payloadFits p ps.payload, .badChain),
         (!s.pool.payloadDamaged ps.payload, .damaged)] = some r →
      RefusedWith s (.reply p) .reply p r []

/-- CANCEL: refused with NOT_ONLINE, or with NO_EXCHANGE where no non-FREE slot of the issuer carries the tag;
otherwise the exchange in the one slot that does is ended: the CANCELLED record joins the issuer's inbox, the journal
records close with CANCELLED, words in 0 and the tick count, the slot is FREE in its next generation, and the result
is DONE with parameters 0. Of a TAKEN slot no buffer moves. -/
def Obligations.CancelEndsOwnExchange : Prop :=
  ∀ (s : State) (p : Station), Issued s p .cancel →
    ((s.port p).connected = false → RefusedWith s (.cancel p) .cancel p .notOnline [])
    ∧ ((s.port p).connected = true →
      ((∀ i, (s.slot i).requestedBy p = true → (s.slot i).tag ≠ (s.port p).params[1]) →
        RefusedWith s (.cancel p) .cancel p .noExchange [])
      ∧ ∀ i, (s.slot i).requestedBy p = true → (s.slot i).tag = (s.port p).params[1] →
        (∀ j, (s.slot j).requestedBy p = true → (s.slot j).tag = (s.port p).params[1] → j = i) →
        (s.slot i).dest ≠ p →
        ∃ t, exec (.cancel p) s = .next t
          ∧ PortBecomes (s.endExchange i (.lapsed .cancelled)) t p (withResult (some .cancel) .done [])
          ∧ EndsExchange s (s.endExchange i (.lapsed .cancelled)) i
              (some ⟨(s.slot i).dest, (s.slot i).service, s.tickCount,
                .lapsed .cancelled ⟨i, (s.slot i).gen⟩ (s.slot i).tag⟩)
              true ⟨.lapsed .cancelled, 0, s.tickCount⟩
          ∧ ((s.slot i).state = .taken → t.pool = s.pool))

/-- The ending of an exchange in a slot whose two stations differ: withdrawal, outcome record, journals and freeing,
for REPLY, for EXPIRED, CANCELLED and PEER_GONE, and without an outcome at the teardown of the requester. -/
def Obligations.EndingDoesItsFourSteps : Prop :=
  ∀ (s : State) (i : SlotNo), (s.slot i).state ≠ .free → (s.slot i).dest ≠ (s.slot i).requester →
    (∀ st ws len chain, EndsExchange s (s.endExchange i (.reply st ws len chain)) i
      (some ⟨(s.slot i).dest, (s.slot i).service, s.tickCount,
        .reply ⟨i, (s.slot i).gen⟩ (s.slot i).tag st ws len chain⟩)
      true ⟨.replied st, len, s.tickCount⟩)
    ∧ (∀ kind, EndsExchange s (s.endExchange i (.lapsed kind)) i
      (some ⟨(s.slot i).dest, (s.slot i).service, s.tickCount, .lapsed kind ⟨i, (s.slot i).gen⟩ (s.slot i).tag⟩)
      true ⟨.lapsed kind, 0, s.tickCount⟩)
    ∧ EndsExchange s (s.endExchange i .silent) i none false ⟨.lapsed .peerGone, 0, s.tickCount⟩

/-- The ending of an OPEN slot gives the withdrawn record's chain back in chain order, undamaged buffers to the
free-list tail and damaged ones to the damaged-list tail; the ending of a TAKEN slot without a reply moves no
buffer. -/
def Obligations.EndingDiscardsWithdrawnChain : Prop :=
  ∀ (s : State) (i : SlotNo) (e : Ending), e.chain = none →
    ((s.slot i).state = .taken → (s.endExchange i e).pool = s.pool)
    ∧ ∀ (ahead behind : List Record) (r : Record), (s.slot i).state = .opened →
      (s.port (s.slot i).dest).inbox = ahead ++ r :: behind → r.requestOf = some (s.xnum i) →
      (∀ r' ∈ ahead, r'.requestOf ≠ some (s.xnum i)) →
      (s.pool.chainOf r.chain).Nodup → (∀ b ∈ s.pool.chainOf r.chain, (s.pool.desc b).place = .attached) →
      s.pool.Returned (s.endExchange i e).pool (s.pool.chainOf r.chain)

/-- NOTIFY: when every member of the route's set passes its three checks, the same NOTICE record joins the tail of
each member's inbox, the result is DONE with parameters 0, and nothing else changes. -/
def Obligations.NotifyReachesEveryMember : Prop :=
  ∀ (s : State) (p : Station) (ps : NotifyParams) (set : StationSet) (v : Service), Issued s p .notify →
    NotifyGiven (s.port p).params ps → (s.port p).state = .online →
    (s.port p).routes[ps.service] = .notice set v →
    (∀ m, inSet set m = true → ∀ check ∈ s.memberChecks p v m, check.1 = true) →
    ∃ t, exec (.notify p) s = .next t
      ∧ PortBecomes (s.mapPorts fun q x =>
          if inSet set q then { x with inbox := x.inbox ++ [⟨p, v, s.tickCount, .notice ps.words⟩] } else x)
        t p (withResult (some .notify) .done [])

/-- NOTIFY is refused by the first check that fails: parameters (a service word above 31 or an inline count above 4),
port state, route, then the members in ascending
order, each with its three checks; a member's refusal names the member, and no member receives the notice. -/
def Obligations.NotifyRefusedByFirstFailingCheck : Prop :=
  ∀ (s : State) (p : Station), Issued s p .notify →
    (NotifyMalformed (s.port p).params → RefusedWith s (.notify p) .notify p .badParam [])
    ∧ ∀ ps, NotifyGiven (s.port p).params ps →
      ((s.port p).state ≠ .online → RefusedWith s (.notify p) .notify p .notOnline [])
      ∧ ((s.port p).state = .online →
        ((∀ set v, (s.port p).routes[ps.service] ≠ .notice set v) →
          RefusedWith s (.notify p) .notify p .noRoute [])
        ∧ ∀ set v m r, (s.port p).routes[ps.service] = .notice set v → inSet set m = true →
          (∀ l, l < m → inSet set l = true → firstFailing (s.memberChecks p v l) = none) →
          firstFailing (s.memberChecks p v m) = some r →
          RefusedWith s (.notify p) .notify p r [BitVec.ofNat 16 m.val])

/-! ## Inboxes and journals -/

/-- TAKE: refused with NOT_ONLINE or EMPTY; otherwise the head record leaves the inbox into the current-record view,
each buffer of its chain becomes HELD by the taker, and the result is DONE with parameters 0. A REQUEST also moves its
slot from OPEN to TAKEN and opens a RESPONDER record, which the slot names; any other record changes no slot and no
journal. -/
def Obligations.TakeRemovesHeadRecord : Prop :=
  ∀ (s : State) (p : Station), Issued s p .take →
    ((s.port p).connected = false → RefusedWith s (.take p) .take p .notOnline [])
    ∧ ((s.port p).connected = true → (s.port p).inbox = [] → RefusedWith s (.take p) .take p .empty [])
    ∧ ∀ r rest, (s.port p).connected = true → (s.port p).inbox = r :: rest →
      (∀ b ∈ s.pool.chainOf r.chain, (s.pool.desc b).place = .attached) →
      (r.requestOf = none →
        ∃ t, exec (.take p) s = .next t ∧ s.pool.Moved t.pool (s.pool.chainOf r.chain) (.held p)
          ∧ PortBecomes { s with pool := t.pool } t p fun q =>
              withResult (some .take) .done [] { q with inbox := rest, view := some r })
      ∧ ∀ x, r.requestOf = some x → (s.slot x.slot).state = .opened → (s.slot x.slot).gen = x.gen →
        ∃ t, exec (.take p) s = .next t ∧ s.pool.Moved t.pool (s.pool.chainOf r.chain) (.held p)
          ∧ PortBecomes
              { s with
                pool := t.pool
                slots := s.slots.set x.slot
                  { s.slot x.slot with state := .taken, respRef := some (s.port p).journal.nextRef } }
              t p fun q =>
                withResult (some .take) .done [] { q with
                  inbox := rest
                  view := some r
                  journal := q.journal.opening ⟨.responder, x, (s.slot x.slot).requester,
                    (s.slot x.slot).destService, (s.slot x.slot).wordsOut, (s.slot x.slot).start⟩
                  journalCause := q.journalCause || decide (q.journal.nextRef.index = 31) }

/-- An opening writes an OPEN record at the next position of the current area, over whatever stood there, and advances
that position, from 31 to 0; every other record, the current area and the other area's position stay. -/
def Obligations.JournalOpeningWritesNextPosition : Prop :=
  ∀ (j : Journal) (h : JournalHead),
    (j.opening h).entry j.nextRef = .opened h
    ∧ (∀ r, r ≠ j.nextRef → (j.opening h).entry r = j.entry r)
    ∧ (j.opening h).current = j.current
    ∧ (j.opening h).nextRef.index.val = (if j.nextRef.index.val = 31 then 0 else j.nextRef.index.val + 1)
    ∧ (j.current = .a → (j.opening h).nextB = j.nextB)
    ∧ (j.current = .b → (j.opening h).nextA = j.nextA)

/-- A close makes the record at the reference CLOSED if it is OPEN and carries the exchange's number; otherwise the
journal is as before. No other record, no position and no current area changes. -/
def Obligations.JournalCloseWritesOwnOpenRecord : Prop :=
  ∀ (j : Journal) (r : JournalRef) (x : XNum) (c : JournalClose),
    (∀ h, j.entry r = .opened h → h.x = x →
      (j.closing r x c).entry r = .closed h c
      ∧ (∀ r', r' ≠ r → (j.closing r x c).entry r' = j.entry r')
      ∧ (j.closing r x c).current = j.current ∧ (j.closing r x c).nextA = j.nextA
      ∧ (j.closing r x c).nextB = j.nextB)
    ∧ ((∀ h, j.entry r = .opened h → h.x ≠ x) → j.closing r x c = j)

/-- FLIP is always accepted: the other area becomes current, with next position 0 and all 32 records EMPTY; the area
left behind keeps its records and position; the JOURNAL cause and everything else stay. -/
def Obligations.FlipMakesOtherAreaCurrent : Prop :=
  ∀ (s : State) (p : Station), Issued s p .flip →
    ∃ t, exec (.flip p) s = .next t
      ∧ PortBecomes s t p fun q => withResult (some .flip) .done [] { q with journal :=
          match q.journal.current with
          | .a => ⟨q.journal.areaA, Vector.replicate 32 .empty, .b, q.journal.nextA, 0⟩
          | .b => ⟨Vector.replicate 32 .empty, q.journal.areaB, .a, 0, q.journal.nextB⟩ }

/-! ## Routes and admission -/

/-- SET_ROUTE replaces the whole named entry by the one its parameter words describe: word 0 the service, word 1 the
kind (1 REQUEST, 2 NOTICE); of a REQUEST word 2 the destination station, 4 its service, 5 the timeout, 6 the maximum
payload; of a NOTICE word 3 the station set, 4 the service; the other words are not read. It is refused with BAD_PARAM
in the cases of Table 4.2. CLEAR_ROUTE makes the entry NONE, or is refused with BAD_PARAM where the service is above
31. Nothing else changes. -/
def Obligations.RouteCommandsReplaceOneEntry : Prop :=
  ∀ (s : State) (p : Station),
    (Issued s p .setRoute → RouteMalformed p (s.port p).params →
      RefusedWith s (.setRoute p) .setRoute p .badParam [])
    ∧ (∀ v e, Issued s p .setRoute → RouteGiven p (s.port p).params v e →
      ∃ t, exec (.setRoute p) s = .next t
        ∧ PortBecomes s t p fun q => withResult (some .setRoute) .done [] { q with routes := q.routes.set v e })
    ∧ (Issued s p .clearRoute → 31 < (s.port p).params[0].toNat →
      RefusedWith s (.clearRoute p) .clearRoute p .badParam [])
    ∧ ∀ v : Service, Issued s p .clearRoute → (s.port p).params[0].toNat = v.val →
      ∃ t, exec (.clearRoute p) s = .next t
        ∧ PortBecomes s t p fun q =>
            withResult (some .clearRoute) .done [] { q with routes := q.routes.set v .none }

/-- SET_ADMIT: refused with BAD_PARAM where the service is above 31, the set word has a bit above 3 or the set holds
the issuer; otherwise the entry becomes the set given, and nothing else changes. -/
def Obligations.SetAdmitReplacesOneEntry : Prop :=
  ∀ (s : State) (p : Station), Issued s p .setAdmit →
    ((31 < (s.port p).params[0].toNat ∨ 15 < (s.port p).params[1].toNat
        ∨ (s.port p).params[1].getLsbD p.val = true) →
      RefusedWith s (.setAdmit p) .setAdmit p .badParam [])
    ∧ ∀ (v : Service) (set : StationSet), (s.port p).params[0].toNat = v.val →
      (s.port p).params[1] = set.setWidth 16 → set.getLsbD p.val = false →
      ∃ t, exec (.setAdmit p) s = .next t
        ∧ PortBecomes s t p fun q => withResult (some .setAdmit) .done [] { q with admits := q.admits.set v set }

/-! ## The payload pool -/

/-- ACQUIRE: refused by the first of its four checks that fails; otherwise the first `n` buffers of the free list
become one chain HELD by the station, in list order, the first with its head flag set and each linked to the next; the
result is DONE with their numbers; no other buffer, list or word changes. -/
def Obligations.AcquireTakesFreeListHead : Prop :=
  ∀ (s : State) (p : Station), Issued s p .acquire →
    (¬ (1 ≤ (s.port p).params[0].toNat ∧ (s.port p).params[0].toNat ≤ 8) →
      RefusedWith s (.acquire p) .acquire p .badParam [])
    ∧ ∀ n, (s.port p).params[0].toNat = n → 1 ≤ n → n ≤ 8 →
      (∀ r, firstFailing
          [((s.port p).connected, .notOnline), (decide (s.pool.heldCount p + n ≤ 128), .overLimit),
           (decide (n ≤ s.pool.free.length), .noBuffers)] = some r →
        RefusedWith s (.acquire p) .acquire p r [])
      ∧ ((s.port p).connected = true → s.pool.heldCount p + n ≤ 128 → n ≤ s.pool.free.length →
        s.pool.free.Nodup →
        ∃ t, exec (.acquire p) s = .next t
          ∧ PortBecomes { s with pool := t.pool } t p (withResult (some .acquire) .done
              ((s.pool.free.take n).map fun b => BitVec.ofNat 16 b.val))
          ∧ t.pool.free = s.pool.free.drop n
          ∧ (∀ k (h : k < n), ∃ b, (s.pool.free.take n)[k]? = some b
              ∧ t.pool.desc b = ⟨.held p, (s.pool.free.take n)[k + 1]?, decide (k = 0), (s.pool.desc b).damaged⟩)
          ∧ (∀ b, b ∉ s.pool.free.take n → t.pool.desc b = s.pool.desc b)
          ∧ t.pool.damaged = s.pool.damaged ∧ t.pool.scrub = s.pool.scrub ∧ t.pool.mem = s.pool.mem)

/-- RELEASE: refused with BAD_PARAM, NOT_ONLINE or BAD_CHAIN, in this order; otherwise every buffer of the chain
leaves it, head first, to the tail of the free list or, if damaged, of the damaged list; the result is DONE with
parameters 0. -/
def Obligations.ReleaseGivesChainBack : Prop :=
  ∀ (s : State) (p : Station), Issued s p .release →
    (255 < (s.port p).params[0].toNat → RefusedWith s (.release p) .release p .badParam [])
    ∧ ∀ b : BufferNo, (s.port p).params[0].toNat = b.val →
      (∀ r, firstFailing
          [((s.port p).connected, .notOnline),
           (decide ((s.pool.desc b).place = .held p ∧ (s.pool.desc b).head = true), .badChain)] = some r →
        RefusedWith s (.release p) .release p r [])
      ∧ ((s.port p).connected = true → (s.pool.desc b).head = true → (s.pool.chain b).Nodup →
        (∀ c ∈ s.pool.chain b, (s.pool.desc c).place = .held p) →
        ∃ t, exec (.release p) s = .next t ∧ s.pool.Returned t.pool (s.pool.chain b)
          ∧ PortBecomes { s with pool := t.pool } t p (withResult (some .release) .done []))

/-- APPEND: refused with BAD_PARAM, NOT_ONLINE or BAD_CHAIN, in this order; otherwise the last buffer of the first
chain takes the second head as its next, the second head's flag is cleared, and no other descriptor, list or word
changes; the result is DONE with parameters 0. -/
def Obligations.AppendJoinsTwoChains : Prop :=
  ∀ (s : State) (p : Station), Issued s p .append →
    ((255 < (s.port p).params[0].toNat ∨ 255 < (s.port p).params[1].toNat
        ∨ (s.port p).params[0] = (s.port p).params[1]) → RefusedWith s (.append p) .append p .badParam [])
    ∧ ∀ a b : BufferNo, (s.port p).params[0].toNat = a.val → (s.port p).params[1].toNat = b.val → a ≠ b →
      (∀ r, firstFailing
          [((s.port p).connected, .notOnline),
           (decide (((s.pool.desc a).place = .held p ∧ (s.pool.desc a).head = true)
              ∧ ((s.pool.desc b).place = .held p ∧ (s.pool.desc b).head = true)
              ∧ (s.pool.chain a).length + (s.pool.chain b).length ≤ 8), .badChain)] = some r →
        RefusedWith s (.append p) .append p r [])
      ∧ ∀ front last, (s.port p).connected = true →
        (s.pool.desc a).place = .held p → (s.pool.desc a).head = true →
        (s.pool.desc b).place = .held p → (s.pool.desc b).head = true →
        (s.pool.chain a).length + (s.pool.chain b).length ≤ 8 →
        s.pool.chain a = front ++ [last] → last ≠ b →
        ∃ t, exec (.append p) s = .next t
          ∧ t.pool.desc last = { s.pool.desc last with next := some b }
          ∧ t.pool.desc b = { s.pool.desc b with head := false }
          ∧ (∀ c, c ≠ last → c ≠ b → t.pool.desc c = s.pool.desc c)
          ∧ PortBecomes { s with pool := { s.pool with descs := t.pool.descs } } t p
              (withResult (some .append) .done [])

/-- SCRUB: refused with NOT_ONLINE, NONE_DAMAGED or BUSY, in this order; otherwise the head of the damaged list enters
the engine, which becomes busy with it and the issuer; the outcome part stays; the result is DONE with the buffer
number. -/
def Obligations.ScrubStartsEngine : Prop :=
  ∀ (s : State) (p : Station), Issued s p .scrub →
    (∀ r, firstFailing
        [((s.port p).connected, .notOnline), (!s.pool.damaged.isEmpty, .noneDamaged),
         (!s.pool.scrub.busy, .busy)] = some r →
      RefusedWith s (.scrub p) .scrub p r [])
    ∧ ∀ b rest, (s.port p).connected = true → s.pool.damaged = b :: rest → s.pool.scrub.busy = false →
      ∃ t, exec (.scrub p) s = .next t
        ∧ PortBecomes
            { s with pool := { s.pool with
                descs := s.pool.descs.set b { s.pool.desc b with place := .scrubbing }
                damaged := rest
                scrub := ⟨true, some b, s.pool.scrub.outcome, p⟩ } }
            t p (withResult (some .scrub) .done [BitVec.ofNat 16 b.val])

/-- SCRUB_COMPLETION: with a scrub in progress, the buffer goes to the free-list tail with its flag cleared and the
outcome CLEAN where all 32 words read back as 0 with good parity, else to the retired set with its flag set and the
outcome RETIRED; its words are left as they were read, the engine is idle, and SCRUB is latched at the issuer if its
port is ONLINE or DRAINING. The read-back is the environment's (log 12). With the engine idle nothing happens
(log 1). -/
def Obligations.ScrubCompletionFreesOrRetires : Prop :=
  ∀ (s : State) (readBack : Vector MemWord 32),
    (s.pool.scrub.busy = false → exec (.scrubCompletion readBack) s = .next s)
    ∧ ∀ b, s.pool.scrub.busy = true → s.pool.scrub.buffer = some b →
      ∃ t, exec (.scrubCompletion readBack) s = .next t
        ∧ ((∀ w : Offset, readBack[w] = ⟨0, true⟩) →
            t.pool.desc b = ⟨.free, none, false, false⟩ ∧ t.pool.free = s.pool.free ++ [b]
            ∧ t.pool.scrub = ⟨false, some b, .clean, s.pool.scrub.issuer⟩)
        ∧ ((∃ w : Offset, readBack[w] ≠ ⟨0, true⟩) →
            t.pool.desc b = ⟨.retired, none, false, true⟩ ∧ t.pool.free = s.pool.free
            ∧ t.pool.scrub = ⟨false, some b, .retired, s.pool.scrub.issuer⟩)
        ∧ (∀ c, c ≠ b → t.pool.desc c = s.pool.desc c) ∧ t.pool.damaged = s.pool.damaged
        ∧ (MemoryCanonical s → ∀ (c : BufferNo) (w : Offset), Memory.read t.pool.mem (32 * c.val + w.val)
            = if c = b then readBack[w] else Memory.read s.pool.mem (32 * c.val + w.val))
        ∧ (∀ q, t.port q = if q = s.pool.scrub.issuer ∧ (s.port q).connected = true then
              { s.port q with scrubCause := true } else s.port q)
        ∧ t.slots = s.slots ∧ SameClock s t

/-- BAD_PARITY: one word of one buffer comes to hold the given data with a parity bit that does not agree; no other
word, no descriptor, no list and no other state changes (the row's operands are the model's, log 11). -/
def Obligations.BadParityChangesOneWord : Prop :=
  ∀ (s : State) (b : BufferNo) (w : Offset) (d : Word),
    ∃ mem, exec (.badParity b w d) s = .next { s with pool := { s.pool with mem := mem } }
      ∧ (MemoryCanonical s → ∀ (c : BufferNo) (o : Offset), Memory.read mem (32 * c.val + o.val)
          = if c = b ∧ o = w then ⟨d, false⟩ else Memory.read s.pool.mem (32 * c.val + o.val))

/-- A write to the window select word: 0 to 255 and FFFFh are taken, the step value follows the next field of a buffer
that this station holds, and every other value and every other step gives FFFFh. Nothing else changes. -/
def Obligations.WindowSelectTakesOrSteps : Prop :=
  ∀ (s : State) (p : Station) (w : Word), Awaits s p (.write 0x00E w) →
    (∀ b : BufferNo, w.toNat = b.val → ∃ t, exec (.windowSelect p) s = .next t
      ∧ PortBecomes s t p fun q => { q with windowSelect := some b })
    ∧ (255 < w.toNat → w ≠ 0xFFFE → ∃ t, exec (.windowSelect p) s = .next t
      ∧ PortBecomes s t p fun q => { q with windowSelect := none })
    ∧ (w = 0xFFFE → ∃ t next, exec (.windowStep p) s = .next t
      ∧ PortBecomes s t p (fun q => { q with windowSelect := next })
      ∧ (∀ b, (s.port p).windowSelect = some b → (s.pool.desc b).place = .held p →
          next = (s.pool.desc b).next)
      ∧ ((∀ b, (s.port p).windowSelect = some b → (s.pool.desc b).place ≠ .held p) → next = none))

/-- A permitted read of the buffer window drives the stored data bits. With good parity nothing else happens; with bad
parity the buffer's damaged flag is set and a PARITY fault is recorded, in a clear fault word or as MORE. -/
def Obligations.PermittedReadChecksParity : Prop :=
  ∀ (s : State) (p : Station) (w : Offset) (b : BufferNo),
    Awaits s p (.read (BitVec.ofNat 11 (0x40 + w.val))) → (s.port p).windowSelect = some b →
    (s.pool.desc b).place = .held p →
    ∃ t, exec (.bufferWindowRead p) s = .next t
      ∧ Drives s t p (Memory.read s.pool.mem (32 * b.val + w.val)).data
      ∧ ((Memory.read s.pool.mem (32 * b.val + w.val)).good = true → PortBecomes s t p id)
      ∧ ((Memory.read s.pool.mem (32 * b.val + w.val)).good = false →
          PortBecomes
            { s with pool := { s.pool with descs := s.pool.descs.set b { s.pool.desc b with damaged := true } } }
            t p fun q => { q with fault :=
              match q.fault with
              | none => some ⟨.parity, some b, w, false⟩
              | some f => some { f with more := true } })

/-- A permitted write of the buffer window stores the word with agreeing parity and leaves the damaged flag, every
other word and everything else as it was. -/
def Obligations.PermittedWriteStoresWord : Prop :=
  ∀ (s : State) (p : Station) (w : Offset) (b : BufferNo) (d : Word),
    Awaits s p (.write (BitVec.ofNat 11 (0x40 + w.val)) d) → (s.port p).windowSelect = some b →
    (s.pool.desc b).place = .held p →
    ∃ t mem, exec (.bufferWindowWrite p) s = .next t
      ∧ PortBecomes { s with pool := { s.pool with mem := mem } } t p id
      ∧ (MemoryCanonical s → ∀ (c : BufferNo) (o : Offset), Memory.read mem (32 * c.val + o.val)
          = if c = b ∧ o = w then ⟨d, true⟩ else Memory.read s.pool.mem (32 * c.val + o.val))

/-- A buffer-window access without a selected buffer, or to one that the station does not hold, is an ACCESS fault: a
read drives 0, no word and no descriptor changes, and the fault is recorded with the selected buffer and the offset,
in a clear fault word or as MORE. -/
def Obligations.RefusedWindowAccessRecordsFault : Prop :=
  ∀ (s : State) (p : Station) (w : Offset),
    (∀ b, (s.port p).windowSelect = some b → (s.pool.desc b).place ≠ .held p) →
    (Awaits s p (.read (BitVec.ofNat 11 (0x40 + w.val))) →
      ∃ t, exec (.bufferWindowRead p) s = .next t ∧ Drives s t p 0
        ∧ PortBecomes s t p fun q => { q with fault :=
            match q.fault with
            | none => some ⟨.access, q.windowSelect, w, false⟩
            | some f => some { f with more := true } })
    ∧ ∀ d, Awaits s p (.write (BitVec.ofNat 11 (0x40 + w.val)) d) →
      ∃ t, exec (.bufferWindowWrite p) s = .next t
        ∧ PortBecomes s t p fun q => { q with fault :=
            match q.fault with
            | none => some ⟨.access, q.windowSelect, w, false⟩
            | some f => some { f with more := true } }

/-! ## Ticks -/

/-- A read of the tick low word drives bits 0 to 15 of the count and copies bits 16 to 31 of the same count into this
port's holding word; nothing else changes. -/
def Obligations.TickLowReadLatchesHighHalf : Prop :=
  ∀ (s : State) (p : Station), Awaits s p (.read 0x006) →
    ∃ t, exec (.tickLowRead p) s = .next t ∧ Drives s t p (s.tickCount.extractLsb' 0 16)
      ∧ PortBecomes s t p fun q => { q with tickHolding := s.tickCount.extractLsb' 16 16 }

/-- TICK: while the generator runs, the count rises by one, modulo 2^32, and in the same event every non-FREE slot whose
deadline equals the new count is ended with EXPIRED, in ascending slot order; without a due slot only the count
changes. Before the generator runs no tick is taken. -/
def Obligations.TickCountsAndExpires : Prop :=
  ∀ s : State,
    (s.phase ≠ .running → exec .tick s = .next s)
    ∧ (s.phase = .running → exec .tick s = .next
        (((List.finRange 48).filter fun i =>
            decide ((s.slot i).state ≠ .free ∧ (s.slot i).deadline = s.tickCount + 1)).foldl
          (fun u i => u.endExchange i (.lapsed .expired)) { s with tickCount := s.tickCount + 1 }))

/-- EXPIRY of a slot that is due ends it: the EXPIRED record joins the requester's inbox, the journal records close
with EXPIRED, words in 0 and the tick count, and the slot is FREE in its next generation. Of a slot that is not due it
does nothing (the model's reading of the row, log 4). -/
def Obligations.ExpiryEndsDueSlot : Prop :=
  ∀ (s : State) (i : SlotNo),
    ((s.slot i).state ≠ .free → (s.slot i).deadline = s.tickCount →
      (s.slot i).dest ≠ (s.slot i).requester →
      ∃ t, exec (.expiry i) s = .next t ∧ t = s.endExchange i (.lapsed .expired)
        ∧ EndsExchange s t i
            (some ⟨(s.slot i).dest, (s.slot i).service, s.tickCount,
              .lapsed .expired ⟨i, (s.slot i).gen⟩ (s.slot i).tag⟩)
            true ⟨.lapsed .expired, 0, s.tickCount⟩)
    ∧ (((s.slot i).state = .free ∨ (s.slot i).deadline ≠ s.tickCount) → exec (.expiry i) s = .next s)

/-! ## Station life -/

/-- JOIN: in OFFLINE the port becomes ONLINE, PEER is latched at every other port that is not in RESET, and the result
is DONE with parameters 0; in ONLINE and DRAINING it is refused with WRONG_STATE. Nothing else changes. -/
def Obligations.JoinBringsPortOnline : Prop :=
  ∀ (s : State) (p : Station), Issued s p .join →
    ((s.port p).state = .offline → ∃ t, exec (.join p) s = .next t
      ∧ PortBecomes (s.mapPorts (peerLatched p)) t p fun q =>
          withResult (some .join) .done [] { q with state := .online })
    ∧ ((s.port p).state ≠ .offline → RefusedWith s (.join p) .join p .wrongState [])

/-- LEAVE: in ONLINE the port becomes DRAINING, PEER is latched at every other port that is not in RESET, and the
exchange of each REQUEST record in the inbox is ended with PEER_GONE, in inbox order; the result is DONE with
parameters 0. Afterwards every OPEN slot that named the station as destination is FREE in its next generation, and
every other slot is as before. In OFFLINE and DRAINING LEAVE is refused with WRONG_STATE. -/
def Obligations.LeaveAnswersUntakenRequests : Prop :=
  ∀ (s : State) (p : Station), Issued s p .leave →
    ((s.port p).state ≠ .online → RefusedWith s (.leave p) .leave p .wrongState [])
    ∧ ((s.port p).state = .online →
      ∃ t, exec (.leave p) s = .next t
        ∧ PortBecomes
            (((s.port p).inbox.filterMap Record.requestOf).foldl
              (fun u x => u.endExchange x.slot (.lapsed .peerGone))
              ((s.mapPorts (peerLatched p)).modPort p fun q => { q with state := .draining }))
            t p (withResult (some .leave) .done [])
        ∧ (RequestsMatchOpen s → ∀ i, t.slot i =
            if (s.slot i).state = .opened ∧ (s.slot i).dest = p then Slot.freeIn ((s.slot i).gen + 1)
            else s.slot i))

/-- DRAIN_COMPLETION: where the drain condition holds, every chain the station holds is released, in ascending order of
heads, the current record is cleared, the port becomes OFFLINE, PEER is latched at every other port that is not in
RESET, and nothing else changes. -/
def Obligations.DrainCompletionTakesPortOffline : Prop :=
  ∀ (s : State) (p : Station) (bs : List BufferNo),
    (s.port p).state = .draining → (∀ i, (s.slot i).requestedBy p = false) →
    (∀ i, ¬ ((s.slot i).state = .taken ∧ (s.slot i).dest = p)) → (s.port p).inbox = [] →
    bs = ((List.finRange 256).filter fun b =>
        decide ((s.pool.desc b).place = .held p) && (s.pool.desc b).head).flatMap s.pool.chain →
    bs.Nodup → (∀ b, b ∈ bs ↔ (s.pool.desc b).place = .held p) →
    ∃ t, exec (.drainCompletion p) s = .next t
      ∧ t = { (s.mapPorts (peerLatched p)).modPort p (fun q => { q with state := .offline, view := none }) with
          pool := t.pool }
      ∧ s.pool.Returned t.pool bs ∧ t.pool.heldCount p = 0

/-- TEARDOWN of a station whose port is not in RESET. Every slot that names it is ended, in ascending slot order,
without an outcome where the station is the requester and with PEER_GONE where it is the destination: such a slot is
FREE in its next generation and no other slot changes. Of every other port, the inbox and the journal are as these
endings leave them, PEER is latched unless the port is in RESET, and nothing else changes; so the untaken requests of
the station leave the other inboxes, each requester other than the station receives its PEER_GONE records in ascending
slot order, and the journal record of each other station that a named slot's reference names is closed with PEER_GONE,
words in 0 and the tick count. The port is in RESET with every item cleared, its access cut off and its reset input
asserted, and the station holds no buffer. In a state with sound slots, requests and chains, the chains of the
requests withdrawn, in slot order, those of the other records of its inbox, in inbox order, and those it held, in
ascending order of heads, go back in this order, each buffer to the tail of its list, and every other buffer stays,
those another station holds among them. The memory words, the engine, the tick count and the strap code stay. In RESET
there is nothing to tear down. An access whose strobe or select line is negated by then leaves the port IDLE (the
model's reading, log 13). -/
def Obligations.TeardownClearsStation : Prop :=
  ∀ (s : State) (p : Station),
    ((s.port p).state = .reset →
      exec (.teardown p) s = .next (s.modPort p fun q => { q with resetInput := true }))
    ∧ ((s.port p).state ≠ .reset →
      ∃ t a, exec (.teardown p) s = .next t
        ∧ t.slots = (s.namedSlotsEnded p).slots
        ∧ (∀ i, t.slot i =
            if (s.slot i).state ≠ .free ∧ ((s.slot i).requester = p ∨ (s.slot i).dest = p) then
              Slot.freeIn ((s.slot i).gen + 1)
            else s.slot i)
        ∧ t.port p = { Port.cleared with
            resetInput := true
            lines := (s.port p).lines
            readTiming := (s.port p).readTiming
            access := a }
        ∧ ((s.port p).access = .idle → a = .idle)
        ∧ ((s.port p).access ≠ .idle → (s.port p).lines.asserted = true → a = .abandoned)
        ∧ ((s.port p).access ≠ .idle → (s.port p).lines.asserted = false → a = .idle)
        ∧ (∀ q, q ≠ p → t.port q = peerLatched p q ((s.namedSlotsEnded p).port q))
        ∧ (∀ q, q ≠ p → t.port q = { peerLatched p q (s.port q) with
            inbox := (t.port q).inbox, journal := (t.port q).journal })
        ∧ (SlotsSound s → ∀ q, q ≠ p → (t.port q).journal =
            (s.slotsNaming p).foldl
              (fun j i =>
                if (s.slot i).requester = q then
                  j.closedAt (s.slot i).reqRef (s.xnum i) ⟨.lapsed .peerGone, 0, s.tickCount⟩
                else if (s.slot i).dest = q then
                  j.closedAt (s.slot i).respRef (s.xnum i) ⟨.lapsed .peerGone, 0, s.tickCount⟩
                else j)
              (s.port q).journal)
        ∧ (SlotsSound s → RequestsMatchOpen s → ∀ q, q ≠ p → (t.port q).inbox =
            ((s.port q).inbox.filter fun r =>
              match r.requestOf with
              | none => true
              | some x => decide ((s.slot x.slot).requester ≠ p))
            ++ (List.finRange 48).filterMap fun i =>
              if (s.slot i).state ≠ .free ∧ (s.slot i).requester = q ∧ (s.slot i).dest = p then
                some ⟨p, (s.slot i).service, s.tickCount, .lapsed .peerGone (s.xnum i) (s.slot i).tag⟩
              else none)
        ∧ t.pool.heldCount p = 0
        ∧ (SlotsSound s → RequestsMatchOpen s → ChainsSound s.pool → ChainsCarried s →
            s.pool.Returned t.pool (s.buffersTornDown p)
            ∧ ∀ b q, q ≠ p → (s.pool.desc b).place = .held q → t.pool.desc b = s.pool.desc b)
        ∧ (∀ b, (s.pool.desc b).place.inChain = false → t.pool.desc b = s.pool.desc b)
        ∧ t.pool.mem = s.pool.mem ∧ t.pool.scrub = s.pool.scrub ∧ SameClock s t)

/-- STATION_RESET_RELEASED: a port in RESET becomes OFFLINE while neither master reset nor the pass holds it, PEER is
latched at every other port that is not in RESET, and an access that was waiting begins in the same event from the
lines as they stand (log 14; a read without a row of its own may be answered at once, log 2); otherwise only the input
changes (log 20). -/
def Obligations.ReleaseTakesPortOffline : Prop :=
  ∀ (s : State) (p : Station),
    ((s.port p).state = .reset → s.phase = .running →
      ∃ t, exec (.stationResetReleased p) s = .next t
        ∧ PortBecomes (s.mapPorts (peerLatched p)) t p (fun q => { q with state := .offline, resetInput := false })
        ∧ ((s.port p).lines.asserted = false ∨ (s.port p).access ≠ .idle →
            (t.port p).access = (s.port p).access)
        ∧ ((s.port p).access = .idle → (s.port p).lines.asserted = true →
            BeginsFrom (s.port p).lines (s.port p).readTiming (t.readWord p) (t.port p).access))
    ∧ (((s.port p).state ≠ .reset ∨ s.phase ≠ .running) →
        exec (.stationResetReleased p) s = .next (s.modPort p fun q => { q with resetInput := false }))

/-- MASTER_RESET clears the whole part in one act: every slot FREE in generation 0, every port in RESET with every item
cleared and its access cut off, the pool in its reset condition, the count 0 and the generator stopped. The memory
words, the strap code and the input levels stay (log 22 for the words). An access cut off leaves its port ABANDONED, and
IDLE where the strobe or select line is negated by then (the model's reading, log 13). -/
def Obligations.MasterResetClearsPart : Prop :=
  ∀ s : State, ∃ t, exec .masterReset s = .next t ∧ t.phase = .masterReset ∧ t.tickCount = 0
    ∧ (∀ i, t.slot i = Slot.freeIn 0)
    ∧ (∀ b, t.pool.desc b = ⟨.free, none, false, false⟩) ∧ t.pool.free = List.finRange 256 ∧ t.pool.damaged = []
    ∧ t.pool.scrub = ⟨false, none, .none, 0⟩ ∧ t.pool.mem = s.pool.mem
    ∧ (∀ p, t.port p = { Port.cleared with
        resetInput := (s.port p).resetInput
        lines := (s.port p).lines
        readTiming := (s.port p).readTiming
        access := (t.port p).access })
    ∧ (∀ p, (s.port p).access = .idle → (t.port p).access = .idle)
    ∧ (∀ p, (s.port p).access ≠ .idle → (s.port p).lines.asserted = true → (t.port p).access = .abandoned)
    ∧ (∀ p, (s.port p).access ≠ .idle → (s.port p).lines.asserted = false → (t.port p).access = .idle)
    ∧ t.strap = s.strap ∧ t.pending = s.pending

/-- MASTER_RESET_ENDS, while master reset is asserted: the straps are sampled, the pass begins, and every word is 0 with
good parity (written in one act here, log 9); nothing else changes. At any other time nothing happens (log 1). -/
def Obligations.MasterResetEndSamplesStraps : Prop :=
  ∀ (s : State) (straps : StrapCode),
    (s.phase = .masterReset →
      ∃ t, exec (.masterResetEnds straps) s = .next t
        ∧ t = { s with phase := .initPass, strap := straps, pool := { s.pool with mem := t.pool.mem } }
        ∧ ∀ k, Memory.read t.pool.mem k = ⟨0, true⟩)
    ∧ (s.phase ≠ .masterReset → exec (.masterResetEnds straps) s = .next s)

/-- END_OF_INITIALISATION_PASS, while the pass runs: the generator starts, every port whose reset input is not
asserted becomes OFFLINE and every other one stays as it is; PEER is latched nowhere; of a port that becomes OFFLINE
nothing else changes, but that an access that was waiting begins in the same event, PENDING with what the port
captures from the lines as they stand (log 14; a read without a row of its own may be answered at once, log 2). At any
other time nothing happens (log 1). -/
def Obligations.EndOfPassStartsPart : Prop :=
  ∀ s : State,
    (s.phase = .initPass → (∀ p, (s.port p).state = .reset) →
      ∃ t, exec .endOfInitialisationPass s = .next t
        ∧ t = { s with phase := .running, ports := t.ports }
        ∧ (∀ p, (s.port p).resetInput = true → t.port p = s.port p)
        ∧ ∀ p, (s.port p).resetInput = false →
            t.port p = { s.port p with state := .offline, access := (t.port p).access }
            ∧ ((s.port p).lines.asserted = false ∨ (s.port p).access ≠ .idle →
                (t.port p).access = (s.port p).access)
            ∧ ((s.port p).access = .idle → (s.port p).lines.asserted = true →
                BeginsFrom (s.port p).lines (s.port p).readTiming (t.readWord p) (t.port p).access))
    ∧ (s.phase ≠ .initPass → exec .endOfInitialisationPass s = .next s)

/-! ## The port, attention and faults -/

/-- A command word write whose data word is not 1 to 16 is refused with BAD_COMMAND: the command part shows 0, the
result parameters are 0, and nothing else changes. -/
def Obligations.UndefinedCommandIsRefused : Prop :=
  ∀ (s : State) (p : Station) (w : Word), Awaits s p (.write 0x000 w) → (w.toNat = 0 ∨ 16 < w.toNat) →
    ∃ t, exec (.badCommand p) s = .next t ∧ PortBecomes s t p (withResult none .badCommand [])

/-- A write to a parameter word stores the value given, whatever it is; a write to a status or unused word is ignored.
Nothing else changes. -/
def Obligations.WindowWordWriteStoresParameter : Prop :=
  ∀ (s : State) (p : Station) (w : Word),
    (∀ k : Fin 16, Awaits s p (.write (BitVec.ofNat 11 (0x10 + k.val)) w) →
      ∃ t, exec (.windowWordWrite p) s = .next t
        ∧ PortBecomes s t p fun q => { q with params := q.params.set k w })
    ∧ ∀ address : Addr, Awaits s p (.write address w) →
      (0x20 ≤ address.toNat ∧ address.toNat < 0x40 ∨ 0x60 ≤ address.toNat
        ∨ address.toNat = 1 ∨ 4 ≤ address.toNat ∧ address.toNat < 0x10 ∧ address.toNat ≠ 0xE) →
      ∃ t, exec (.windowWordWrite p) s = .next t ∧ PortBecomes s t p id

/-- A write to the cause word clears JOURNAL, PEER and SCRUB where bits 1, 2 and 3 of the word are ones and changes
nothing else; a write to the enable word sets the five enables to bits 0 to 4 and changes nothing else. -/
def Obligations.AttentionWritesClearAndEnable : Prop :=
  ∀ (s : State) (p : Station) (w : Word),
    (Awaits s p (.write 0x002 w) →
      ∃ t, exec (.attentionCauseWrite p) s = .next t
        ∧ PortBecomes s t p fun q => { q with
            journalCause := q.journalCause && !w.getLsbD 1
            peerCause := q.peerCause && !w.getLsbD 2
            scrubCause := q.scrubCause && !w.getLsbD 3 })
    ∧ (Awaits s p (.write 0x003 w) →
      ∃ t, exec (.attentionEnableWrite p) s = .next t
        ∧ PortBecomes s t p fun q => { q with enables := w.extractLsb' 0 5 })

/-- ACK_FAULT is always accepted: the fault word is cleared, record and MORE, and the result is DONE with parameters 0;
nothing else changes. -/
def Obligations.AckFaultClearsFaultWord : Prop :=
  ∀ (s : State) (p : Station), Issued s p .ackFault →
    ∃ t, exec (.ackFault p) s = .next t
      ∧ PortBecomes s t p fun q => withResult (some .ackFault) .done [] { q with fault := none }

/-- The attention line is asserted if and only if the port is not in RESET and a pending cause is enabled: INBOX while
the inbox holds a record, JOURNAL, PEER and SCRUB while latched, FAULT while the fault word holds a record. -/
def Obligations.AttentionLineFollowsEnabledCauses : Prop :=
  ∀ q : Port, q.attention = true ↔ q.state ≠ .reset
    ∧ (q.inbox ≠ [] ∧ q.enables.getLsbD 0 = true ∨ q.journalCause = true ∧ q.enables.getLsbD 1 = true
      ∨ q.peerCause = true ∧ q.enables.getLsbD 2 = true ∨ q.scrubCause = true ∧ q.enables.getLsbD 3 = true
      ∨ q.fault ≠ none ∧ q.enables.getLsbD 4 = true)

/-- What a station's window shows, word by word: the result word, port states, causes, enables, fault word and detail,
window select, journal state and scrub status, each field at its bits; the counts, the tick count and the holding
word; the parameter block and the result parameters; the current record of every kind, and the empty view; the buffer
window; the route, admission and journal views. What a kind, role or state does not carry reads 0, an absent chain
head FFFFh, and an unused address reads 0. -/
def Obligations.WindowShowsStateAsItStands : Prop :=
  CodesAsTabled ∧ ∀ (s : State) (p : Station),
    ShowsStatusWords s p
    ∧ s.readWord p 0x008 = BitVec.ofNat 16 (s.port p).inbox.length
    ∧ s.readWord p 0x009 = BitVec.ofNat 16 (s.requesterCount p)
    ∧ s.readWord p 0x00A = BitVec.ofNat 16 s.pool.free.length
    ∧ s.readWord p 0x00B = BitVec.ofNat 16 s.pool.damaged.length
    ∧ s.readWord p 0x00C = BitVec.ofNat 16 s.pool.retiredCount
    ∧ s.readWord p 0x00D = BitVec.ofNat 16 (s.pool.heldCount p)
    ∧ s.readWord p 0x006 = s.tickCount.extractLsb' 0 16 ∧ s.readWord p 0x007 = (s.port p).tickHolding
    ∧ (∀ k : Fin 16, s.readWord p (BitVec.ofNat 11 (0x10 + k.val)) = (s.port p).params[k]
        ∧ s.readWord p (BitVec.ofNat 11 (0x20 + k.val)) = (s.port p).resultParams[k])
    ∧ ((s.port p).view = none → ∀ k : Fin 16, s.readWord p (BitVec.ofNat 11 (0x30 + k.val))
        = if k.val = 12 then 0xFFFF else 0)
    ∧ (∀ r, (s.port p).view = some r → ShowsRecord (s.wordsFrom p 0x030) r)
    ∧ (∀ (w : Offset) (b : BufferNo), (s.port p).windowSelect = some b → (s.pool.desc b).place = .held p →
        s.wordsFrom p 0x040 w.val = (Memory.read s.pool.mem (32 * b.val + w.val)).data)
    ∧ (∀ w : Offset, (∀ b, (s.port p).windowSelect = some b → (s.pool.desc b).place ≠ .held p) →
        s.wordsFrom p 0x040 w.val = 0)
    ∧ (∀ v : Service, ShowsRoute (s.wordsFrom p (0x080 + 4 * v.val)) (s.port p).routes[v]
        ∧ s.wordsFrom p 0x100 v.val = ((s.port p).admits[v]).setWidth 16)
    ∧ (∀ k : Position, ShowsJournalEntry (s.wordsFrom p (0x200 + 8 * k.val)) (s.port p).journal.areaA[k]
        ∧ ShowsJournalEntry (s.wordsFrom p (0x300 + 8 * k.val)) (s.port p).journal.areaB[k])
    ∧ ∀ address : Addr, (0x061 ≤ address.toNat ∧ address.toNat < 0x080
        ∨ 0x120 ≤ address.toNat ∧ address.toNat < 0x200 ∨ 0x400 ≤ address.toNat) → s.readWord p address = 0

/-! ## What the part keeps -/

/-- The state after reset meets every invariant stated below. -/
def Obligations.ResetMeetsInvariants : Prop :=
  MemoryCanonical State.reset ∧ SlotsSound State.reset ∧ TablesSound State.reset ∧ CapsKept State.reset
  ∧ RoomKept State.reset ∧ DeadlinesAhead State.reset ∧ PoolSound State.reset.pool ∧ ChainsSound State.reset.pool
  ∧ ChainsCarried State.reset ∧ RequestsMatchOpen State.reset ∧ ResetPortsQuiet State.reset
  ∧ DisconnectedEmpty State.reset

/-- Every step keeps the canonical form in which the model holds exchange memory: addresses below 8192, rising
strictly, and no entry that equals what an unlisted word reads as. The form is the model's own representation (log 21,
DEDUCED), not the spec's; section 5.1 gives the 8192 words that it holds. -/
def Obligations.StepKeepsMemoryCanonical : Prop :=
  ∀ s t : State, MemoryCanonical s → step s = .next t → MemoryCanonical t

/-- Every step keeps the slots and the tables sound, the cap of 24 and the uniqueness of tags. -/
def Obligations.StepKeepsSlotsTablesAndCaps : Prop :=
  ∀ s t : State, SlotsSound s → TablesSound s → CapsKept s → step s = .next t →
    SlotsSound t ∧ TablesSound t ∧ CapsKept t

/-- Every step keeps each station's records plus reservations at 32 or below, and each deadline 1 to 65535 ticks
ahead. -/
def Obligations.StepKeepsRoomAndDeadlines : Prop :=
  ∀ s t : State, RoomKept s → DeadlinesAhead s → TablesSound s → step s = .next t →
    RoomKept t ∧ DeadlinesAhead t

/-- Every step keeps each buffer in exactly one place: the lists and the engine agree with the descriptors, damaged
buffers stay confined, chains stay whole and disjoint, and each ATTACHED chain is carried by exactly one inbox
record. -/
def Obligations.StepKeepsBufferWhereabouts : Prop :=
  ∀ s t : State, PoolSound s.pool → ChainsSound s.pool → ChainsCarried s → step s = .next t →
    PoolSound t.pool ∧ ChainsSound t.pool ∧ ChainsCarried t

/-- Every step keeps the one-to-one link between OPEN slots and REQUEST records, the quiet of a port in RESET and the
empty condition of a port that is not connected. -/
def Obligations.StepKeepsRequestLinkAndDisconnection : Prop :=
  ∀ s t : State, RequestsMatchOpen s → ResetPortsQuiet s → DisconnectedEmpty s → step s = .next t →
    RequestsMatchOpen t ∧ ResetPortsQuiet t ∧ DisconnectedEmpty t

/-- When a command or event frees a slot, the slot is in its next generation and its requester's inbox has one more
outcome record of that exchange, except at master reset and at the teardown of the requester; while the slot stays in
use no outcome record of its exchange is placed. -/
def Obligations.EveryExchangeBringsOneOutcome : Prop :=
  ∀ (s t : State) (c : Instr) (i : SlotNo), exec c s = .next t → (s.slot i).state ≠ .free →
    ((t.slot i).state = .free →
      c = .masterReset
      ∨ t.slot i = Slot.freeIn ((s.slot i).gen + 1)
        ∧ (c = .teardown (s.slot i).requester
          ∨ outcomesFor (t.port (s.slot i).requester) (s.xnum i)
              = outcomesFor (s.port (s.slot i).requester) (s.xnum i) + 1))
    ∧ ((t.slot i).state ≠ .free →
      ∀ p, outcomesFor (t.port p) (s.xnum i) ≤ outcomesFor (s.port p) (s.xnum i))

/-- However commands and events follow one another, a slot that is not FREE becomes FREE no later than the tick at which
the count equals its deadline. -/
def Obligations.ExchangeEndsByItsDeadline : Prop :=
  ∀ (s t : State) (cs : List Instr) (i : SlotNo), s.phase = .running → (s.slot i).state ≠ .free →
    1 ≤ ((s.slot i).deadline - s.tickCount).toNat →
    ((s.slot i).deadline - s.tickCount).toNat ≤ ticksIn cs → Runs cs s t →
    ∃ ahead behind u, cs = ahead ++ behind ∧ Runs ahead s u ∧ (u.slot i).state = .free
end

