-- ==== Sys2Proof/Laws/State.lean ====
section
/-! SUPPORT. One lemma per field and update of the state: no later proof unfolds a record update. -/

namespace Sys2Proof.Machine

/-- What every step of a fold keeps, the fold keeps. -/
theorem foldl_keeps {α β : Type} (P : β → Prop) {f : β → α → β} {l : List α} {b : β} (hb : P b)
    (hf : ∀ b a, a ∈ l → P b → P (f b a)) : P (l.foldl f b) := by
  induction l generalizing b with
  | nil => exact hb
  | cons a rest ih =>
    exact ih (hf b a (List.mem_cons_self ..) hb) fun b a' h => hf b a' (List.mem_cons_of_mem _ h)

/-! ## Ports -/

@[simp] theorem port_setPort_self (s : State) (p : Station) (x : Port) : (s.setPort p x).port p = x := by
  simp [State.port, State.setPort]

theorem port_setPort_ne (s : State) {p q : Station} (x : Port) (h : q ≠ p) :
    (s.setPort p x).port q = s.port q := by
  have h' : p.val ≠ q.val := fun e => h (Fin.ext e.symm)
  simp [State.port, State.setPort, h']

theorem port_setPort (s : State) (p q : Station) (x : Port) :
    (s.setPort p x).port q = if q = p then x else s.port q := by
  split
  · next h => subst h; simp
  · next h => exact port_setPort_ne s x h

@[simp] theorem port_modPort_self (s : State) (p : Station) (f : Port → Port) :
    (s.modPort p f).port p = f (s.port p) := by simp [State.modPort]

theorem port_modPort_ne (s : State) {p q : Station} (f : Port → Port) (h : q ≠ p) :
    (s.modPort p f).port q = s.port q := port_setPort_ne s _ h

theorem port_modPort (s : State) (p q : Station) (f : Port → Port) :
    (s.modPort p f).port q = if q = p then f (s.port q) else s.port q := by
  split
  · next h => subst h; simp
  · next h => exact port_modPort_ne s f h

@[simp] theorem port_mapPorts (s : State) (f : Station → Port → Port) (q : Station) :
    (s.mapPorts f).port q = f q (s.port q) := by
  fin_cases q <;> rfl

@[simp] theorem port_setSlot (s : State) (i : SlotNo) (x : Slot) (q : Station) :
    (s.setSlot i x).port q = s.port q := rfl
@[simp] theorem port_setPool (s : State) (x : Pool) (q : Station) : (s.setPool x).port q = s.port q := rfl

/-! ## Slots -/

@[simp] theorem slot_setSlot_self (s : State) (i : SlotNo) (x : Slot) : (s.setSlot i x).slot i = x := by
  simp [State.slot, State.setSlot]

theorem slot_setSlot_ne (s : State) {i j : SlotNo} (x : Slot) (h : j ≠ i) :
    (s.setSlot i x).slot j = s.slot j := by
  have h' : i.val ≠ j.val := fun e => h (Fin.ext e.symm)
  simp [State.slot, State.setSlot, h']

theorem slot_setSlot (s : State) (i j : SlotNo) (x : Slot) :
    (s.setSlot i x).slot j = if j = i then x else s.slot j := by
  split
  · next h => subst h; simp
  · next h => exact slot_setSlot_ne s x h

@[simp] theorem slot_setPort (s : State) (p : Station) (x : Port) (i : SlotNo) :
    (s.setPort p x).slot i = s.slot i := rfl
@[simp] theorem slot_modPort (s : State) (p : Station) (f : Port → Port) (i : SlotNo) :
    (s.modPort p f).slot i = s.slot i := rfl
@[simp] theorem slot_mapPorts (s : State) (f : Station → Port → Port) (i : SlotNo) :
    (s.mapPorts f).slot i = s.slot i := rfl
@[simp] theorem slot_setPool (s : State) (x : Pool) (i : SlotNo) : (s.setPool x).slot i = s.slot i := rfl

/-! ## The other fields -/

@[simp] theorem setPort_slots (s : State) (p : Station) (x : Port) : (s.setPort p x).slots = s.slots := rfl
@[simp] theorem setPort_pool (s : State) (p : Station) (x : Port) : (s.setPort p x).pool = s.pool := rfl
@[simp] theorem setPort_tickCount (s : State) (p : Station) (x : Port) :
    (s.setPort p x).tickCount = s.tickCount := rfl
@[simp] theorem setPort_phase (s : State) (p : Station) (x : Port) : (s.setPort p x).phase = s.phase := rfl
@[simp] theorem setPort_strap (s : State) (p : Station) (x : Port) : (s.setPort p x).strap = s.strap := rfl
@[simp] theorem setPort_pending (s : State) (p : Station) (x : Port) :
    (s.setPort p x).pending = s.pending := rfl

@[simp] theorem modPort_slots (s : State) (p : Station) (f : Port → Port) :
    (s.modPort p f).slots = s.slots := rfl
@[simp] theorem modPort_pool (s : State) (p : Station) (f : Port → Port) :
    (s.modPort p f).pool = s.pool := rfl
@[simp] theorem modPort_tickCount (s : State) (p : Station) (f : Port → Port) :
    (s.modPort p f).tickCount = s.tickCount := rfl
@[simp] theorem modPort_phase (s : State) (p : Station) (f : Port → Port) :
    (s.modPort p f).phase = s.phase := rfl
@[simp] theorem modPort_strap (s : State) (p : Station) (f : Port → Port) :
    (s.modPort p f).strap = s.strap := rfl
@[simp] theorem modPort_pending (s : State) (p : Station) (f : Port → Port) :
    (s.modPort p f).pending = s.pending := rfl

@[simp] theorem mapPorts_slots (s : State) (f : Station → Port → Port) :
    (s.mapPorts f).slots = s.slots := rfl
@[simp] theorem mapPorts_pool (s : State) (f : Station → Port → Port) :
    (s.mapPorts f).pool = s.pool := rfl
@[simp] theorem mapPorts_tickCount (s : State) (f : Station → Port → Port) :
    (s.mapPorts f).tickCount = s.tickCount := rfl
@[simp] theorem mapPorts_phase (s : State) (f : Station → Port → Port) :
    (s.mapPorts f).phase = s.phase := rfl
@[simp] theorem mapPorts_strap (s : State) (f : Station → Port → Port) :
    (s.mapPorts f).strap = s.strap := rfl
@[simp] theorem mapPorts_pending (s : State) (f : Station → Port → Port) :
    (s.mapPorts f).pending = s.pending := rfl

@[simp] theorem setSlot_ports (s : State) (i : SlotNo) (x : Slot) : (s.setSlot i x).ports = s.ports := rfl
@[simp] theorem setSlot_pool (s : State) (i : SlotNo) (x : Slot) : (s.setSlot i x).pool = s.pool := rfl
@[simp] theorem setSlot_tickCount (s : State) (i : SlotNo) (x : Slot) :
    (s.setSlot i x).tickCount = s.tickCount := rfl
@[simp] theorem setSlot_phase (s : State) (i : SlotNo) (x : Slot) : (s.setSlot i x).phase = s.phase := rfl
@[simp] theorem setSlot_strap (s : State) (i : SlotNo) (x : Slot) : (s.setSlot i x).strap = s.strap := rfl
@[simp] theorem setSlot_pending (s : State) (i : SlotNo) (x : Slot) :
    (s.setSlot i x).pending = s.pending := rfl

@[simp] theorem setPool_pool (s : State) (x : Pool) : (s.setPool x).pool = x := rfl
@[simp] theorem setPool_slots (s : State) (x : Pool) : (s.setPool x).slots = s.slots := rfl
@[simp] theorem setPool_ports (s : State) (x : Pool) : (s.setPool x).ports = s.ports := rfl
@[simp] theorem setPool_tickCount (s : State) (x : Pool) : (s.setPool x).tickCount = s.tickCount := rfl
@[simp] theorem setPool_phase (s : State) (x : Pool) : (s.setPool x).phase = s.phase := rfl
@[simp] theorem setPool_strap (s : State) (x : Pool) : (s.setPool x).strap = s.strap := rfl
@[simp] theorem setPool_pending (s : State) (x : Pool) : (s.setPool x).pending = s.pending := rfl

/-! ## Descriptors -/

@[simp] theorem desc_setDesc_self (pool : Pool) (b : BufferNo) (d : Descriptor) :
    (pool.setDesc b d).desc b = d := by simp [Pool.desc, Pool.setDesc]

theorem desc_setDesc_ne (pool : Pool) {b c : BufferNo} (d : Descriptor) (h : c ≠ b) :
    (pool.setDesc b d).desc c = pool.desc c := by
  have h' : b.val ≠ c.val := fun e => h (Fin.ext e.symm)
  simp [Pool.desc, Pool.setDesc, h']

theorem desc_setDesc (pool : Pool) (b c : BufferNo) (d : Descriptor) :
    (pool.setDesc b d).desc c = if c = b then d else pool.desc c := by
  split
  · next h => subst h; simp
  · next h => exact desc_setDesc_ne pool d h

@[simp] theorem setDesc_free (pool : Pool) (b : BufferNo) (d : Descriptor) :
    (pool.setDesc b d).free = pool.free := rfl
@[simp] theorem setDesc_damaged (pool : Pool) (b : BufferNo) (d : Descriptor) :
    (pool.setDesc b d).damaged = pool.damaged := rfl
@[simp] theorem setDesc_scrub (pool : Pool) (b : BufferNo) (d : Descriptor) :
    (pool.setDesc b d).scrub = pool.scrub := rfl
@[simp] theorem setDesc_mem (pool : Pool) (b : BufferNo) (d : Descriptor) :
    (pool.setDesc b d).mem = pool.mem := rfl

/-! ## Whole-record facts -/

/-- Setting a port to what it is changes nothing. -/
@[simp] theorem setPort_port (s : State) (p : Station) : s.setPort p (s.port p) = s := by
  simp [State.setPort, State.port]

/-- Two changes of one port are one change. -/
@[simp] theorem setPort_setPort (s : State) (p : Station) (x y : Port) :
    (s.setPort p x).setPort p y = s.setPort p y := by
  simp [State.setPort]

theorem modPort_modPort (s : State) (p : Station) (f g : Port → Port) :
    (s.modPort p f).modPort p g = s.modPort p fun q => g (f q) := by
  simp [State.modPort]

theorem modPort_id (s : State) (p : Station) {f : Port → Port} (h : f (s.port p) = s.port p) :
    s.modPort p f = s := by simp [State.modPort, h]

/-- Two states with the same ports, read port by port, and the same other fields are the same. -/
theorem State.ext_of_ports {s t : State} (hp : ∀ p, s.port p = t.port p) (hs : s.slots = t.slots)
    (hq : s.pool = t.pool) (ht : s.tickCount = t.tickCount) (hph : s.phase = t.phase)
    (hst : s.strap = t.strap) (hpe : s.pending = t.pending) : s = t := by
  have hports : s.ports = t.ports := by
    ext i hi
    exact hp ⟨i, hi⟩
  cases s; cases t; simp_all

/-- Slots are determined slot by slot. -/
theorem slots_ext {s t : State} (h : ∀ i, s.slot i = t.slot i) : s.slots = t.slots := by
  ext i hi
  exact h ⟨i, hi⟩

end Sys2Proof.Machine
end

