-- ==== Sys2Proof/Laws/Access.lean ====
section
/-! SUPPORT. Everything that beginning, taking and answering an access can do, said once. -/

namespace Sys2Proof.Machine

/-- Change only the access state of a port. -/
abbrev State.withAccess (s : State) (p : Station) (a : AccessState) : State :=
  s.modPort p fun q => { q with access := a }

@[simp] theorem withAccess_self (s : State) (p : Station) : s.withAccess p (s.port p).access = s :=
  modPort_id s p rfl

/-- Beginning an access changes the access state of the port and nothing else. -/
theorem settle_changes_access (s : State) (p : Station) : ∃ a, s.settle p = s.withAccess p a := by
  unfold State.settle
  split
  · exact ⟨_, rfl⟩
  · exact ⟨_, (withAccess_self s p).symm⟩

/-- The access state an access begins with (R140; log 2). -/
theorem beginState_beginsFrom (s : State) (p : Station) :
    BeginsFrom (s.port p).lines (s.port p).readTiming (s.readWord p) (s.beginState p) := by
  unfold BeginsFrom State.beginState captureLines
  refine ⟨fun h => ?_, fun h ht => ?_, fun h hp ht => ?_⟩
  · simp [h]
  · rcases ht with ht | ht <;> simp [h, ht]
  · simp [h, hp, ht]

/-- A port that is ready to begin gets that access state. -/
theorem settle_of_mayBegin {s : State} {p : Station} (h : (s.port p).mayBegin = true) :
    s.settle p = s.withAccess p (s.beginState p) := by simp [State.settle, h]

/-- A port that is not ready to begin is left as it is. -/
theorem settle_of_not_mayBegin {s : State} {p : Station} (h : (s.port p).mayBegin = false) :
    s.settle p = s := by simp [State.settle, h]

/-- Answering changes the access state of the port and nothing else. -/
theorem answer_changes_access (s : State) (p : Station) (d : Option Word) :
    ∃ a, s.answer p d = s.withAccess p a := by
  unfold State.answer
  split
  · exact ⟨_, rfl⟩
  · obtain ⟨a, h⟩ := settle_changes_access (s.withAccess p .idle) p
    exact ⟨a, by rw [h]; simp only [State.withAccess, modPort_modPort]⟩
  all_goals exact ⟨_, (withAccess_self s p).symm⟩

/-- An access that was not ended early is answered with what it drives (R140). -/
theorem answer_of_pending {s : State} {p : Station} {a : Access} {d : Option Word}
    (h : (s.port p).access = .pending a false) : s.answer p d = s.withAccess p (.answered d) := by
  simp [State.answer, h]

/-- An access that was ended early leaves the port IDLE, where a new access may begin (R141). -/
theorem answer_of_ended {s : State} {p : Station} {a : Access} {d : Option Word}
    (h : (s.port p).access = .pending a true) : s.answer p d = (s.withAccess p .idle).settle p := by
  simp [State.answer, h]

/-- What `taking` gives says what waits at the port. -/
theorem taking_eq_some {q : Port} {w : Access → Bool} {a : Access} :
    q.taking w = some a ↔ q.state ≠ .reset ∧ w a = true ∧ ∃ e, q.access = .pending a e := by
  unfold Port.taking
  split
  · next b e he =>
    constructor
    · intro h
      split at h
      · next hc =>
        simp only [Bool.and_eq_true, decide_eq_true_eq] at hc
        cases h
        exact ⟨hc.1, hc.2, e, he⟩
      · cases h
    · rintro ⟨h1, h2, e', h3⟩
      rw [he] at h3
      cases h3
      simp [h1, h2]
  all_goals next he => simp [he]

/-- Taking an access: either it is not taken and nothing changes, or the waiting access is of the wanted
class, and the state is its effect's but for the access state of the port. -/
theorem takeAccess_cases (s : State) (p : Station) (w : Access → Bool)
    (f : Access → State → State × Option Word) :
    ((s.port p).taking w = none ∧ s.takeAccess p w f = s)
    ∨ ∃ a st, (s.port p).taking w = some a ∧ s.takeAccess p w f = (f a s).1.withAccess p st := by
  unfold State.takeAccess
  split
  · next h => exact .inl ⟨h, rfl⟩
  · next a h =>
    obtain ⟨st, hst⟩ := answer_changes_access (f a s).1 p (f a s).2
    exact .inr ⟨a, st, h, hst⟩

/-- Where the wanted access waits, it is taken and answered. -/
theorem takeAccess_of_taking {s : State} {p : Station} {w : Access → Bool} {a : Access}
    {f : Access → State → State × Option Word} (h : (s.port p).taking w = some a) :
    s.takeAccess p w f = (f a s).1.answer p (f a s).2 := by
  simp [State.takeAccess, h]

/-- A port in RESET takes no access (R142). -/
theorem taking_in_reset {q : Port} {w : Access → Bool} (h : q.state = .reset) : q.taking w = none := by
  cases hq : q.taking w with
  | none => rfl
  | some a => exact absurd h (taking_eq_some.mp hq).1

theorem takeAccess_in_reset {s : State} {p : Station} {w : Access → Bool}
    {f : Access → State → State × Option Word} (h : (s.port p).state = .reset) :
    s.takeAccess p w f = s := by
  simp [State.takeAccess, taking_in_reset h]

/-- The access that issues a command is one write. -/
theorem issues_iff {c : Command} {a : Access} : issues c a = true ↔ a = .write commandAddress c.code := by
  cases a <;> simp [issues]

/-- The command waits exactly where `taking` finds its write. -/
theorem taking_of_issued {s : State} {p : Station} {c : Command} (h : Issued s p c) :
    (s.port p).taking (issues c) = some (.write commandAddress c.code) :=
  taking_eq_some.mpr ⟨h.1, issues_iff.mpr rfl, h.2⟩

/-- A command that waits is taken: its verdict is applied and the write answered (R145). -/
theorem takeCommand_of_issued {s : State} {p : Station} {c : Command} {v : State → Verdict}
    (h : Issued s p c) : s.takeCommand p c v = ((v s).apply s p c).answer p none := by
  simp [State.takeCommand, takeAccess_of_taking (taking_of_issued h)]

/-- Taking a command, in full: not taken, refused, or accepted. -/
theorem takeCommand_cases (s : State) (p : Station) (c : Command) (v : State → Verdict) :
    s.takeCommand p c v = s
    ∨ Issued s p c ∧
      ((∃ r ps st, v s = .refused r ps
          ∧ s.takeCommand p c v = (s.setResult p (some c) r ps).withAccess p st)
      ∨ ∃ s' ps st, v s = .accepted s' ps
          ∧ s.takeCommand p c v = (s'.setResult p (some c) .done ps).withAccess p st) := by
  rcases takeAccess_cases s p (issues c) (fun _ s => ((v s).apply s p c, none)) with ⟨-, h⟩ | ⟨a, st, ha, h⟩
  · exact .inl h
  · have h' := taking_eq_some.mp ha
    have hi : Issued s p c := ⟨h'.1, by rw [← issues_iff.mp h'.2.1]; exact h'.2.2⟩
    refine .inr ⟨hi, ?_⟩
    cases hv : v s with
    | refused r ps => exact .inl ⟨r, ps, st, rfl, by simpa [State.takeCommand, Verdict.apply, hv] using h⟩
    | accepted s' ps => exact .inr ⟨s', ps, st, rfl, by simpa [State.takeCommand, Verdict.apply, hv] using h⟩

/-- A result and an access state are changes of one port. -/
theorem setResult_withAccess (s : State) (p : Station) (c : Option Command) (r : ResultCode)
    (ps : List Word) (a : AccessState) :
    (s.setResult p c r ps).withAccess p a = s.modPort p fun q => { withResult c r ps q with access := a } := by
  simp only [State.setResult, State.withAccess, modPort_modPort]
  rfl

/-- Idling changes access states only. -/
theorem takePlainRead_changes_access (s : State) (p : Station) :
    ∃ a, s.takePlainRead p = s.withAccess p a := by
  unfold State.takePlainRead
  rcases takeAccess_cases s p _ _ with ⟨-, h⟩ | ⟨a, st, -, h⟩
  · exact ⟨_, h.trans (withAccess_self s p).symm⟩
  · refine ⟨st, h.trans ?_⟩
    cases a <;> rfl

end Sys2Proof.Machine
end

