-- ==== Sys2Proof/Laws/Memory.lean ====
section
/-! SUPPORT. Exchange memory: every operation keeps the canonical form, and what a read gives after a
write. -/

namespace Sys2Proof.Machine

theorem Memory.wfFrom_cons {lo a : Nat} {w : MemWord} {rest : Memory} :
    Memory.wfFrom lo ((a, w) :: rest) = true ↔
      lo ≤ a ∧ a < Config.memoryWords ∧ w ≠ Memory.blank ∧ Memory.wfFrom (a + 1) rest = true := by
  simp [Memory.wfFrom, and_assoc]

theorem Memory.wfFrom_mono {lo lo' : Nat} {m : Memory} (h : lo ≤ lo') (hm : Memory.wfFrom lo' m = true) :
    Memory.wfFrom lo m = true := by
  cases m with
  | nil => rfl
  | cons e rest =>
    rw [Memory.wfFrom_cons] at hm ⊢
    exact ⟨h.trans hm.1, hm.2⟩

/-- Below the first address a canonical list may hold, every word is blank. -/
theorem Memory.read_below {lo k : Nat} {m : Memory} (hm : Memory.wfFrom lo m = true) (h : k < lo) :
    Memory.read m k = Memory.blank := by
  induction m generalizing lo with
  | nil => rfl
  | cons e rest ih =>
    rw [Memory.wfFrom_cons] at hm
    rw [Memory.read, if_neg (by omega)]
    exact ih hm.2.2.2 (by omega)

/-- A write keeps the canonical form from any lower bound. -/
theorem Memory.write_wfFrom {lo k : Nat} {m : Memory} {v : MemWord} (hm : Memory.wfFrom lo m = true)
    (hlo : lo ≤ k) (hk : k < Config.memoryWords) : Memory.wfFrom lo (Memory.write m k v) = true := by
  induction m generalizing lo with
  | nil =>
    unfold Memory.write
    split
    · rfl
    · next h => exact Memory.wfFrom_cons.mpr ⟨hlo, hk, h, rfl⟩
  | cons e rest ih =>
    obtain ⟨a, w⟩ := e
    have hm' := Memory.wfFrom_cons.mp hm
    unfold Memory.write
    split
    · next hka =>
      split
      · exact hm
      · next hv =>
        exact Memory.wfFrom_cons.mpr ⟨hlo, hk, hv, Memory.wfFrom_cons.mpr ⟨by omega, hm'.2⟩⟩
    · split
      · next hka =>
        subst hka
        split
        · exact Memory.wfFrom_mono (by omega) hm'.2.2.2
        · next hv => exact Memory.wfFrom_cons.mpr ⟨hlo, hk, hv, hm'.2.2.2⟩
      · exact Memory.wfFrom_cons.mpr ⟨hm'.1, hm'.2.1, hm'.2.2.1, ih hm'.2.2.2 (by omega)⟩

/-- A write inside exchange memory keeps the canonical form. -/
theorem Memory.write_wf {k : Nat} {m : Memory} {v : MemWord} (hm : Memory.wf m = true)
    (hk : k < Config.memoryWords) : Memory.wf (Memory.write m k v) = true :=
  Memory.write_wfFrom hm (Nat.zero_le _) hk

/-- A write leaves every other word. -/
theorem Memory.read_write_other {k j : Nat} (m : Memory) (v : MemWord) (h : j ≠ k) :
    Memory.read (Memory.write m k v) j = Memory.read m j := by
  induction m with
  | nil =>
    unfold Memory.write
    split
    · rfl
    · simp [Memory.read, Ne.symm h]
  | cons e rest ih =>
    obtain ⟨a, w⟩ := e
    unfold Memory.write
    split
    · split
      · rfl
      · simp [Memory.read, Ne.symm h]
    · split
      · next hka =>
        subst hka
        split <;> simp [Memory.read, Ne.symm h]
      · simp only [Memory.read, ih]

theorem Memory.read_write_self_from {lo k : Nat} {m : Memory} (v : MemWord)
    (hm : Memory.wfFrom lo m = true) : Memory.read (Memory.write m k v) k = v := by
  induction m generalizing lo with
  | nil =>
    unfold Memory.write
    split
    · next h => simp [Memory.read, h]
    · simp [Memory.read]
  | cons e rest ih =>
    obtain ⟨a, w⟩ := e
    have hm' := Memory.wfFrom_cons.mp hm
    unfold Memory.write
    split
    · next hka =>
      split
      · next h =>
        rw [Memory.read, if_neg (by omega), Memory.read_below hm'.2.2.2 (by omega), h]
      · simp [Memory.read]
    · split
      · next hka =>
        subst hka
        split
        · next h => rw [Memory.read_below hm'.2.2.2 (by omega), h]
        · simp [Memory.read]
      · next h1 h2 =>
        rw [Memory.read, if_neg (by omega)]
        exact ih hm'.2.2.2

/-- A write is read back. -/
theorem Memory.read_write_self {k : Nat} {m : Memory} (v : MemWord) (hm : Memory.wf m = true) :
    Memory.read (Memory.write m k v) k = v := Memory.read_write_self_from v hm

/-- Two canonical memories that read alike are the same data. -/
theorem Memory.ext_of_read {lo : Nat} {m n : Memory} (hm : Memory.wfFrom lo m = true)
    (hn : Memory.wfFrom lo n = true) (h : ∀ k, Memory.read m k = Memory.read n k) : m = n := by
  induction m generalizing lo n with
  | nil =>
    cases n with
    | nil => rfl
    | cons e rest =>
      obtain ⟨a, w⟩ := e
      have hn' := Memory.wfFrom_cons.mp hn
      have := h a
      simp [Memory.read] at this
      exact absurd this.symm hn'.2.2.1
  | cons e rest ih =>
    obtain ⟨a, w⟩ := e
    have hm' := Memory.wfFrom_cons.mp hm
    cases n with
    | nil =>
      have := h a
      simp [Memory.read] at this
      exact absurd this hm'.2.2.1
    | cons f rest' =>
      obtain ⟨b, x⟩ := f
      have hn' := Memory.wfFrom_cons.mp hn
      have hab : a = b := by
        rcases Nat.lt_trichotomy a b with hlt | heq | hgt
        · have := h a
          rw [Memory.read, if_pos rfl, Memory.read, if_neg (by omega),
            Memory.read_below hn'.2.2.2 (by omega)] at this
          exact absurd this hm'.2.2.1
        · exact heq
        · have := h b
          rw [Memory.read, if_neg (by omega), Memory.read_below hm'.2.2.2 (by omega), Memory.read,
            if_pos rfl] at this
          exact absurd this.symm hn'.2.2.1
      subst hab
      have hwx : w = x := by simpa [Memory.read] using h a
      subst hwx
      rw [ih hm'.2.2.2 hn'.2.2.2 fun k => ?_]
      by_cases hk : k < a + 1
      · rw [Memory.read_below hm'.2.2.2 hk, Memory.read_below hn'.2.2.2 hk]
      · have := h k
        rwa [Memory.read, if_neg (by omega), Memory.read, if_neg (by omega)] at this

/-! ## Addresses -/

theorem wordAddress_lt (b : BufferNo) (w : Offset) : wordAddress b w < Config.memoryWords := by
  simp only [wordAddress, Config.bufferWords, Config.memoryWords]
  omega

/-- Words of different buffers, or at different offsets, have different addresses. -/
theorem wordAddress_inj {b c : BufferNo} {w x : Offset} :
    wordAddress b w = wordAddress c x ↔ b = c ∧ w = x := by
  simp only [wordAddress, Config.bufferWords, Fin.ext_iff]
  omega

/-! ## Whole buffers -/

theorem Memory.writeBuffer_wf {m : Memory} {b : BufferNo} {ws : Vector MemWord 32}
    (hm : Memory.wf m = true) : Memory.wf (Memory.writeBuffer m b ws) = true := by
  unfold Memory.writeBuffer
  exact foldl_keeps (fun m => Memory.wf m = true) hm fun m w _ h => Memory.write_wf h (wordAddress_lt b w)

theorem Memory.foldl_write {m : Memory} {b : BufferNo} {ws : Vector MemWord 32} {l : List Offset}
    (hm : Memory.wf m = true) (c : BufferNo) (x : Offset) :
    Memory.read (l.foldl (fun m w => Memory.write m (wordAddress b w) ws[w]) m) (wordAddress c x)
      = if c = b ∧ x ∈ l then ws[x] else Memory.read m (wordAddress c x) := by
  induction l generalizing m with
  | nil => simp
  | cons w rest ih =>
    rw [List.foldl_cons, ih (Memory.write_wf hm (wordAddress_lt b w))]
    by_cases hcw : c = b ∧ x = w
    · obtain ⟨rfl, rfl⟩ := hcw
      rw [Memory.read_write_self _ hm]
      simp
    · rw [Memory.read_write_other _ _ (fun h => hcw (wordAddress_inj.mp h))]
      by_cases hc : c = b
      · have : x ≠ w := fun h => hcw ⟨hc, h⟩
        simp [hc, this]
      · simp [hc]

/-- After a buffer is written whole, its words read as written and every other word as before. -/
theorem Memory.read_writeBuffer {m : Memory} {b : BufferNo} {ws : Vector MemWord 32}
    (hm : Memory.wf m = true) (c : BufferNo) (x : Offset) :
    Memory.read (Memory.writeBuffer m b ws) (wordAddress c x)
      = if c = b then ws[x] else Memory.read m (wordAddress c x) := by
  unfold Memory.writeBuffer
  rw [Memory.foldl_write hm]
  simp only [List.mem_finRange, and_true]

/-- Reset memory is canonical. -/
theorem memoryCanonical_reset : MemoryCanonical State.reset := rfl

end Sys2Proof.Machine
end

