-- ==== Sys2Proof/Laws/Pool.lean ====
section
/-! SUPPORT. Everything the pool's operations can do, said once, and that each keeps PoolSound. -/

namespace Sys2Proof.Machine

/-! ## Giving buffers back (R85, R92) -/

/-- A buffer is given back undamaged to the free list, damaged to the damaged list, or, where it is neither
HELD nor ATTACHED, left alone. -/
theorem giveBack_cases (pool : Pool) (b : BufferNo) :
    pool.giveBack b = pool
      ∧ (∀ p, (pool.desc b).place ≠ .held p) ∧ (pool.desc b).place ≠ .attached
    ∨ ((∃ p, (pool.desc b).place = .held p) ∨ (pool.desc b).place = .attached)
      ∧ (((pool.desc b).damaged = true ∧ pool.giveBack b
            = { pool.setDesc b ⟨.damagedListed, none, false, true⟩ with damaged := pool.damaged ++ [b] })
        ∨ ((pool.desc b).damaged = false ∧ pool.giveBack b
            = { pool.setDesc b ⟨.free, none, false, false⟩ with free := pool.free ++ [b] })) := by
  unfold Pool.giveBack
  cases hp : (pool.desc b).place <;> cases hd : (pool.desc b).damaged <;> simp [hp, hd]

@[simp] theorem giveBack_mem (pool : Pool) (b : BufferNo) : (pool.giveBack b).mem = pool.mem := by
  rcases giveBack_cases pool b with ⟨h, -⟩ | ⟨-, ⟨-, h⟩ | ⟨-, h⟩⟩ <;> rw [h] <;> rfl

@[simp] theorem giveBack_scrub (pool : Pool) (b : BufferNo) : (pool.giveBack b).scrub = pool.scrub := by
  rcases giveBack_cases pool b with ⟨h, -⟩ | ⟨-, ⟨-, h⟩ | ⟨-, h⟩⟩ <;> rw [h] <;> rfl

/-- Giving a buffer back touches no other descriptor. -/
theorem desc_giveBack_ne (pool : Pool) {b c : BufferNo} (h : c ≠ b) :
    (pool.giveBack b).desc c = pool.desc c := by
  rcases giveBack_cases pool b with ⟨e, -⟩ | ⟨-, ⟨-, e⟩ | ⟨-, e⟩⟩ <;> rw [e]
  · exact desc_setDesc_ne _ _ h
  · exact desc_setDesc_ne _ _ h

/-- After giving back, no buffer is newly HELD. -/
theorem giveBack_held {pool : Pool} {b c : BufferNo} {p : Station}
    (h : ((pool.giveBack b).desc c).place = .held p) : (pool.desc c).place = .held p ∧ c ≠ b := by
  by_cases hc : c = b
  · subst hc
    rcases giveBack_cases pool c with ⟨e, hn, -⟩ | ⟨-, ⟨-, e⟩ | ⟨-, e⟩⟩ <;> rw [e] at h
    · exact absurd h (hn p)
    · rw [show ({ pool.setDesc c ⟨.damagedListed, none, false, true⟩ with
        damaged := pool.damaged ++ [c] } : Pool).desc c = _ from desc_setDesc_self ..] at h
      cases h
    · rw [show ({ pool.setDesc c ⟨.free, none, false, false⟩ with
        free := pool.free ++ [c] } : Pool).desc c = _ from desc_setDesc_self ..] at h
      cases h
  · rw [desc_giveBack_ne pool hc] at h
    exact ⟨h, hc⟩

theorem foldl_giveBack_mem (l : List BufferNo) (pool : Pool) :
    (l.foldl Pool.giveBack pool).mem = pool.mem := by
  induction l generalizing pool with
  | nil => rfl
  | cons b rest ih => rw [List.foldl_cons, ih, giveBack_mem]

theorem foldl_giveBack_scrub (l : List BufferNo) (pool : Pool) :
    (l.foldl Pool.giveBack pool).scrub = pool.scrub := by
  induction l generalizing pool with
  | nil => rfl
  | cons b rest ih => rw [List.foldl_cons, ih, giveBack_scrub]

theorem foldl_giveBack_held {l : List BufferNo} {pool : Pool} {c : BufferNo} {p : Station}
    (h : ((l.foldl Pool.giveBack pool).desc c).place = .held p) :
    (pool.desc c).place = .held p ∧ c ∉ l := by
  induction l generalizing pool with
  | nil => exact ⟨h, List.not_mem_nil⟩
  | cons b rest ih =>
    obtain ⟨h1, h2⟩ := ih h
    obtain ⟨h3, h4⟩ := giveBack_held h1
    exact ⟨h3, by simp [h4, h2]⟩

@[simp] theorem discard_mem (pool : Pool) (c : Option BufferNo) : (pool.discard c).mem = pool.mem := by
  cases c with
  | none => rfl
  | some h => exact foldl_giveBack_mem _ _

@[simp] theorem discard_scrub (pool : Pool) (c : Option BufferNo) :
    (pool.discard c).scrub = pool.scrub := by
  cases c with
  | none => rfl
  | some h => exact foldl_giveBack_scrub _ _

theorem discard_held {pool : Pool} {c : Option BufferNo} {b : BufferNo} {p : Station}
    (h : ((pool.discard c).desc b).place = .held p) : (pool.desc b).place = .held p := by
  cases c with
  | none => exact h
  | some x => exact (foldl_giveBack_held h).1

@[simp] theorem releaseHeld_mem (pool : Pool) (p : Station) : (pool.releaseHeld p).mem = pool.mem := by
  unfold Pool.releaseHeld
  rw [foldl_giveBack_mem]
  exact foldl_keeps (fun q : Pool => q.mem = pool.mem) rfl fun q b _ h =>
    (foldl_giveBack_mem _ _).trans h

@[simp] theorem releaseHeld_scrub (pool : Pool) (p : Station) :
    (pool.releaseHeld p).scrub = pool.scrub := by
  unfold Pool.releaseHeld
  rw [foldl_giveBack_scrub]
  exact foldl_keeps (fun q : Pool => q.scrub = pool.scrub) rfl fun q b _ h =>
    (foldl_giveBack_scrub _ _).trans h

/-- The release of a station's buffers leaves no buffer HELD by it, and makes none HELD by another. -/
theorem releaseHeld_held {pool : Pool} {p q : Station} {b : BufferNo}
    (h : ((pool.releaseHeld p).desc b).place = .held q) : (pool.desc b).place = .held q ∧ q ≠ p := by
  unfold Pool.releaseHeld at h
  obtain ⟨h1, h2⟩ := foldl_giveBack_held h
  refine ⟨?_, ?_⟩
  · have := foldl_keeps (fun r : Pool => (r.desc b).place = .held q → (pool.desc b).place = .held q)
      (f := Pool.giveBackChain) (l := pool.heldHeads p) (b := pool) id
      fun r a _ hr hh => hr (foldl_giveBack_held hh).1
    exact this h1
  · rintro rfl
    exact h2 (List.mem_filter.mpr ⟨List.mem_finRange b, by simp [Pool.holds, h1]⟩)

/-! ## Transfer (R91) -/

theorem attach_cases (pool : Pool) (b : BufferNo) :
    pool.attach b = pool ∧ (∀ p, (pool.desc b).place ≠ .held p)
    ∨ (∃ p, (pool.desc b).place = .held p)
      ∧ pool.attach b = pool.setDesc b { pool.desc b with place := .attached } := by
  unfold Pool.attach
  cases hp : (pool.desc b).place <;> simp

theorem takeUp_cases (p : Station) (pool : Pool) (b : BufferNo) :
    Pool.takeUp p pool b = pool ∧ (pool.desc b).place ≠ .attached
    ∨ (pool.desc b).place = .attached
      ∧ Pool.takeUp p pool b = pool.setDesc b { pool.desc b with place := .held p } := by
  unfold Pool.takeUp
  cases hp : (pool.desc b).place <;> simp

/-- Two pools that differ in the places of descriptors only. -/
def Pool.SameButPlaces (pool pool' : Pool) : Prop :=
  pool'.free = pool.free ∧ pool'.damaged = pool.damaged ∧ pool'.scrub = pool.scrub ∧ pool'.mem = pool.mem
  ∧ ∀ b, (pool'.desc b).next = (pool.desc b).next ∧ (pool'.desc b).head = (pool.desc b).head
      ∧ (pool'.desc b).damaged = (pool.desc b).damaged

theorem Pool.SameButPlaces.refl (pool : Pool) : pool.SameButPlaces pool :=
  ⟨rfl, rfl, rfl, rfl, fun _ => ⟨rfl, rfl, rfl⟩⟩

theorem Pool.SameButPlaces.trans {a b c : Pool} (h : a.SameButPlaces b) (k : b.SameButPlaces c) :
    a.SameButPlaces c :=
  ⟨k.1.trans h.1, k.2.1.trans h.2.1, k.2.2.1.trans h.2.2.1, k.2.2.2.1.trans h.2.2.2.1, fun x =>
    ⟨(k.2.2.2.2 x).1.trans (h.2.2.2.2 x).1, (k.2.2.2.2 x).2.1.trans (h.2.2.2.2 x).2.1,
      (k.2.2.2.2 x).2.2.trans (h.2.2.2.2 x).2.2⟩⟩

theorem setPlace_sameButPlaces (pool : Pool) (b : BufferNo) (pl : Place) :
    pool.SameButPlaces (pool.setDesc b { pool.desc b with place := pl }) := by
  refine ⟨rfl, rfl, rfl, rfl, fun c => ?_⟩
  by_cases h : c = b
  · subst h; simp
  · rw [desc_setDesc_ne _ _ h]; exact ⟨rfl, rfl, rfl⟩

theorem attach_sameButPlaces (pool : Pool) (b : BufferNo) : pool.SameButPlaces (pool.attach b) := by
  rcases attach_cases pool b with ⟨h, -⟩ | ⟨-, h⟩ <;> rw [h]
  · exact .refl pool
  · exact setPlace_sameButPlaces ..

theorem takeUp_sameButPlaces (p : Station) (pool : Pool) (b : BufferNo) :
    pool.SameButPlaces (Pool.takeUp p pool b) := by
  rcases takeUp_cases p pool b with ⟨h, -⟩ | ⟨-, h⟩ <;> rw [h]
  · exact .refl pool
  · exact setPlace_sameButPlaces ..

/-- A sent chain changes the places of its buffers and nothing else. -/
theorem attachChain_sameButPlaces (pool : Pool) (c : Option BufferNo) :
    pool.SameButPlaces (pool.attachChain c) := by
  cases c with
  | none => exact .refl pool
  | some h =>
    exact foldl_keeps pool.SameButPlaces (.refl pool) fun q b _ hq => hq.trans (attach_sameButPlaces q b)

/-- A received chain changes the places of its buffers and nothing else. -/
theorem takeUpChain_sameButPlaces (pool : Pool) (p : Station) (c : Option BufferNo) :
    pool.SameButPlaces (pool.takeUpChain p c) := by
  cases c with
  | none => exact .refl pool
  | some h =>
    exact foldl_keeps pool.SameButPlaces (.refl pool) fun q b _ hq => hq.trans (takeUp_sameButPlaces p q b)

/-- What sending a chain does to one place: a HELD buffer of the chain becomes ATTACHED. -/
theorem place_foldl_attach (l : List BufferNo) (pool : Pool) (c : BufferNo) :
    ((l.foldl Pool.attach pool).desc c).place
      = if c ∈ l then (match (pool.desc c).place with | .held _ => .attached | x => x)
        else (pool.desc c).place := by
  induction l generalizing pool with
  | nil => simp
  | cons b rest ih =>
    rw [List.foldl_cons, ih]
    by_cases hc : c = b
    · subst hc
      rcases attach_cases pool c with ⟨h, hn⟩ | ⟨⟨q, hq⟩, h⟩
      · rw [h]
        cases hp : (pool.desc c).place <;> simp
        exact absurd hp (hn _)
      · rw [h, desc_setDesc_self, hq]
        simp
    · have : (pool.attach b).desc c = pool.desc c := by
        rcases attach_cases pool b with ⟨h, -⟩ | ⟨-, h⟩ <;> rw [h]
        exact desc_setDesc_ne _ _ hc
      rw [this]
      simp [hc]

/-- What receiving a chain does to one place: an ATTACHED buffer of the chain becomes HELD. -/
theorem place_foldl_takeUp (p : Station) (l : List BufferNo) (pool : Pool) (c : BufferNo) :
    ((l.foldl (Pool.takeUp p) pool).desc c).place
      = if c ∈ l ∧ (pool.desc c).place = .attached then .held p else (pool.desc c).place := by
  induction l generalizing pool with
  | nil => simp
  | cons b rest ih =>
    rw [List.foldl_cons, ih]
    by_cases hc : c = b
    · subst hc
      rcases takeUp_cases p pool c with ⟨h, hn⟩ | ⟨hq, h⟩
      · rw [h]; simp [hn]
      · rw [h, desc_setDesc_self]; simp [hq]
    · have : (Pool.takeUp p pool b).desc c = pool.desc c := by
        rcases takeUp_cases p pool b with ⟨h, -⟩ | ⟨-, h⟩ <;> rw [h]
        exact desc_setDesc_ne _ _ hc
      rw [this]
      simp [hc]

/-! ## Acquiring (R81) -/

theorem linkChain_fields (p : Station) (isHead : Bool) (l : List BufferNo) (pool : Pool) :
    (Pool.linkChain p isHead l pool).free = pool.free ∧ (Pool.linkChain p isHead l pool).damaged = pool.damaged
    ∧ (Pool.linkChain p isHead l pool).scrub = pool.scrub ∧ (Pool.linkChain p isHead l pool).mem = pool.mem := by
  induction l generalizing pool isHead with
  | nil => exact ⟨rfl, rfl, rfl, rfl⟩
  | cons b rest ih => exact ih false _

theorem linkChain_other (p : Station) (isHead : Bool) (l : List BufferNo) (pool : Pool) {c : BufferNo}
    (h : c ∉ l) : (Pool.linkChain p isHead l pool).desc c = pool.desc c := by
  induction l generalizing pool isHead with
  | nil => rfl
  | cons b rest ih =>
    rw [List.mem_cons, not_or] at h
    rw [Pool.linkChain, ih _ _ h.2, desc_setDesc_ne _ _ h.1]

/-- Every buffer of the new chain is HELD by the station, with its damaged flag as it was. -/
theorem linkChain_mem (p : Station) (isHead : Bool) (l : List BufferNo) (pool : Pool) {c : BufferNo}
    (h : c ∈ l) : ((Pool.linkChain p isHead l pool).desc c).place = .held p
      ∧ ((Pool.linkChain p isHead l pool).desc c).damaged = (pool.desc c).damaged := by
  induction l generalizing pool isHead with
  | nil => cases h
  | cons b rest ih =>
    by_cases hr : c ∈ rest
    · obtain ⟨h1, h2⟩ := ih false (pool.setDesc b ⟨.held p, rest.head?, isHead, (pool.desc b).damaged⟩) hr
      refine ⟨h1, h2.trans ?_⟩
      by_cases hc : c = b
      · subst hc; simp
      · rw [desc_setDesc_ne _ _ hc]
    · rcases List.mem_cons.mp h with rfl | h'
      · rw [Pool.linkChain, linkChain_other _ _ _ _ hr, desc_setDesc_self]
        exact ⟨rfl, rfl⟩
      · exact absurd h' hr

/-- In a chain of different buffers, each names the buffer behind it and only the first is a head. -/
theorem linkChain_links (p : Station) (isHead : Bool) (l : List BufferNo) (pool : Pool) (hl : l.Nodup)
    (k : Nat) (hk : k < l.length) :
    ((Pool.linkChain p isHead l pool).desc l[k]).next = l[k + 1]?
      ∧ ((Pool.linkChain p isHead l pool).desc l[k]).head = (decide (k = 0) && isHead) := by
  induction l generalizing pool isHead k with
  | nil => simp at hk
  | cons b rest ih =>
    rw [List.nodup_cons] at hl
    cases k with
    | zero =>
      rw [Pool.linkChain, List.getElem_cons_zero, linkChain_other _ _ _ _ hl.1, desc_setDesc_self]
      simp [List.head?_eq_getElem?]
    | succ k =>
      have hk' : k < rest.length := by simpa using hk
      have := ih false (pool.setDesc b ⟨.held p, rest.head?, isHead, (pool.desc b).damaged⟩) hl.2 k hk'
      simpa [Pool.linkChain] using this

/-! ## Scrubbing (R97) -/

/-- The two ends of a scrub. -/
theorem finishScrub_cases (pool : Pool) (b : BufferNo) (rb : Vector MemWord 32) :
    scrubPasses rb = true ∧ pool.finishScrub b rb =
        { pool.setDesc b ⟨.free, none, false, false⟩ with
          free := pool.free ++ [b]
          scrub := ⟨false, some b, .clean, pool.scrub.issuer⟩
          mem := Memory.writeBuffer pool.mem b rb }
    ∨ scrubPasses rb = false ∧ pool.finishScrub b rb =
        { pool.setDesc b ⟨.retired, none, false, true⟩ with
          scrub := ⟨false, some b, .retired, pool.scrub.issuer⟩
          mem := Memory.writeBuffer pool.mem b rb } := by
  unfold Pool.finishScrub
  generalize scrubPasses rb = passed
  generalize Memory.writeBuffer pool.mem b rb = m
  cases passed
  · exact .inr ⟨rfl, rfl⟩
  · exact .inl ⟨rfl, rfl⟩

/-- The end of a scrub leaves the words as they were read back (R97). -/
@[simp] theorem finishScrub_mem (pool : Pool) (b : BufferNo) (rb : Vector MemWord 32) :
    (pool.finishScrub b rb).mem = Memory.writeBuffer pool.mem b rb := by
  rcases finishScrub_cases pool b rb with ⟨-, h⟩ | ⟨-, h⟩ <;> rw [h]

@[simp] theorem finishScrub_idle (pool : Pool) (b : BufferNo) (rb : Vector MemWord 32) :
    (pool.finishScrub b rb).scrub.busy = false := by
  rcases finishScrub_cases pool b rb with ⟨-, h⟩ | ⟨-, h⟩ <;> rw [h]

/-- The end of a scrub touches no other descriptor. -/
theorem desc_finishScrub_ne (pool : Pool) {b c : BufferNo} (rb : Vector MemWord 32) (h : c ≠ b) :
    (pool.finishScrub b rb).desc c = pool.desc c := by
  rcases finishScrub_cases pool b rb with ⟨-, e⟩ | ⟨-, e⟩ <;> rw [e] <;> exact desc_setDesc_ne _ _ h

/-- No buffer is newly HELD by the end of a scrub. -/
theorem finishScrub_held {pool : Pool} {b c : BufferNo} {rb : Vector MemWord 32} {p : Station}
    (h : ((pool.finishScrub b rb).desc c).place = .held p) : (pool.desc c).place = .held p := by
  by_cases hc : c = b
  · subst hc
    revert h
    rcases finishScrub_cases pool c rb with ⟨-, e⟩ | ⟨-, e⟩ <;> rw [e] <;>
      simp [Pool.desc, Pool.setDesc]
  · rwa [desc_finishScrub_ne _ _ hc] at h

end Sys2Proof.Machine
end

