-- ==== Sys2Proof/Laws/Chains.lean ====
section
/-! SUPPORT. Chains, and buffers given back chain by chain: what Returned composes to, that sound chains hold no
buffer twice, and that one record carries an ATTACHED chain (R77, R79, R85, R92, R93). -/

namespace Sys2Proof.Machine

/-! ## Giving back, composed -/

theorem Pool.Returned.refl (pool : Pool) : pool.Returned pool [] := by
  refine ⟨fun b => ?_, ?_, ?_, rfl, rfl⟩ <;> simp

theorem Pool.Returned.desc_of_notMem {before after : Pool} {bs : List BufferNo} (h : before.Returned after bs)
    {b : BufferNo} (hb : b ∉ bs) : after.desc b = before.desc b := by
  rw [h.1 b, if_neg hb]

/-- Two lists of different buffers given back one after the other are one list given back. -/
theorem Pool.Returned.trans {a b c : Pool} {xs ys : List BufferNo} (h : a.Returned b xs) (k : b.Returned c ys)
    (hd : ∀ y ∈ ys, y ∉ xs) : a.Returned c (xs ++ ys) := by
  have hf : ∀ y ∈ ys, (b.desc y).damaged = (a.desc y).damaged := fun y hy => by
    rw [h.desc_of_notMem (hd y hy)]
  refine ⟨fun x => ?_, ?_, ?_, k.2.2.2.1.trans h.2.2.2.1, k.2.2.2.2.trans h.2.2.2.2⟩
  · rw [k.1 x]
    by_cases hy : x ∈ ys
    · rw [if_pos hy, if_pos (List.mem_append_right _ hy), hf x hy]
    · rw [if_neg hy, h.1 x]
      simp [hy]
  · rw [k.2.1, h.2.1, List.filter_append, List.append_assoc]
    congr 2
    exact List.filter_congr fun y hy => by rw [hf y hy]
  · rw [k.2.2.1, h.2.2.1, List.filter_append, List.append_assoc]
    congr 2
    exact List.filter_congr fun y hy => by rw [hf y hy]

theorem inChain_iff {pl : Place} : pl.inChain = true ↔ (∃ p, pl = .held p) ∨ pl = .attached := by
  cases pl <;> simp [Place.inChain]

/-- One buffer that stands in a chain is given back. -/
theorem returned_giveBack {pool : Pool} {b : BufferNo} (h : (pool.desc b).place.inChain = true) :
    pool.Returned (pool.giveBack b) [b] := by
  rcases giveBack_cases pool b with ⟨-, hp, ha⟩ | ⟨-, ⟨hd, e⟩ | ⟨hd, e⟩⟩
  · rcases inChain_iff.mp h with ⟨p, hh⟩ | hh
    · exact absurd hh (hp p)
    · exact absurd hh ha
  all_goals
    rw [e]
    refine ⟨fun c => ?_, ?_, ?_, rfl, rfl⟩
    · by_cases hc : c = b
      · subst hc
        rw [if_pos (List.mem_singleton.mpr rfl), hd]
        exact desc_setDesc_self ..
      · rw [if_neg (fun hm => hc (List.mem_singleton.mp hm))]
        exact desc_setDesc_ne _ _ hc
    · simp [hd]
    · simp [hd]

/-- Different buffers that stand in chains are given back in list order. -/
theorem returned_foldl_giveBack {l : List BufferNo} {pool : Pool} (hl : l.Nodup)
    (h : ∀ b ∈ l, (pool.desc b).place.inChain = true) : pool.Returned (l.foldl Pool.giveBack pool) l := by
  induction l generalizing pool with
  | nil => exact .refl pool
  | cons b rest ih =>
    rw [List.nodup_cons] at hl
    have hne : ∀ c ∈ rest, c ≠ b := fun c hc e => hl.1 (e ▸ hc)
    refine (returned_giveBack (h b (List.mem_cons_self ..))).trans (ys := rest) (ih hl.2 fun c hc => ?_) fun c hc hm =>
      hne c hc (List.mem_singleton.mp hm)
    rw [desc_giveBack_ne pool (hne c hc)]
    exact h c (List.mem_cons_of_mem _ hc)

/-! ## Chains and links -/

theorem walk_congr {pool pool' : Pool} {n : Nat} {b : BufferNo}
    (h : ∀ c ∈ pool.walk n b, (pool'.desc c).next = (pool.desc c).next) : pool'.walk n b = pool.walk n b := by
  induction n generalizing b with
  | zero => rfl
  | succ n ih =>
    have hb : b ∈ pool.walk (n + 1) b := List.mem_cons_self ..
    unfold Pool.walk
    rw [h b hb]
    cases hn : (pool.desc b).next with
    | none => rfl
    | some c =>
      refine congrArg (b :: ·) (ih fun d hd => h d ?_)
      unfold Pool.walk
      rw [hn]
      exact List.mem_cons_of_mem _ hd

/-- A chain whose links stand is the same chain. -/
theorem chain_congr {pool pool' : Pool} {b : BufferNo}
    (h : ∀ c ∈ pool.chain b, (pool'.desc c).next = (pool.desc c).next) : pool'.chain b = pool.chain b :=
  walk_congr h

/-- A chain that meets none of the buffers given back is the same chain. -/
theorem Pool.Returned.chain_eq {before after : Pool} {bs : List BufferNo} (h : before.Returned after bs)
    {b : BufferNo} (hb : ∀ c ∈ before.chain b, c ∉ bs) : after.chain b = before.chain b :=
  chain_congr fun c hc => by rw [h.desc_of_notMem (hb c hc)]

theorem mem_chain_self (pool : Pool) (b : BufferNo) : b ∈ pool.chain b := List.mem_cons_self ..

theorem mem_chainOf {pool : Pool} {c : Option BufferNo} {b : BufferNo} :
    b ∈ pool.chainOf c ↔ ∃ h, c = some h ∧ b ∈ pool.chain h := by
  cases c <;> simp [Pool.chainOf]

/-- The discard of a chain is the giving back of its buffers (R92). -/
theorem discard_eq (pool : Pool) (c : Option BufferNo) :
    pool.discard c = (pool.chainOf c).foldl Pool.giveBack pool := by
  cases c <;> rfl

/-- Chains without a common buffer are given back one after the other, each whole (R85, R92, R93). -/
theorem returned_foldl_discard {cs : List (Option BufferNo)} {pool : Pool} (hn : (cs.flatMap pool.chainOf).Nodup)
    (h : ∀ b ∈ cs.flatMap pool.chainOf, (pool.desc b).place.inChain = true) :
    pool.Returned (cs.foldl Pool.discard pool) (cs.flatMap pool.chainOf) := by
  induction cs generalizing pool with
  | nil => exact .refl pool
  | cons c rest ih =>
    rw [List.flatMap_cons] at hn h ⊢
    rw [List.foldl_cons]
    have hd := List.nodup_append.mp hn
    have k : pool.Returned (pool.discard c) (pool.chainOf c) := by
      rw [discard_eq]
      exact returned_foldl_giveBack hd.1 fun b hb => h b (List.mem_append_left _ hb)
    have hsame : ∀ x ∈ rest, (pool.discard c).chainOf x = pool.chainOf x := by
      intro x hx
      cases x with
      | none => rfl
      | some b =>
        refine k.chain_eq fun y hy hm => hd.2.2 y hm y ?_ rfl
        exact List.mem_flatMap.mpr ⟨some b, hx, hy⟩
    have hmap : rest.flatMap (pool.discard c).chainOf = rest.flatMap pool.chainOf := List.flatMap_congr hsame
    have hmem : ∀ y ∈ rest.flatMap pool.chainOf, y ∉ pool.chainOf c := fun y hy hm => hd.2.2 y hm y hy rfl
    refine k.trans (hmap ▸ ih (hmap ▸ hd.2.1) fun b hb => ?_) hmem
    rw [hmap] at hb
    rw [k.desc_of_notMem (hmem b hb)]
    exact h b (List.mem_append_right _ hb)

theorem foldl_giveBackChain_eq (hs : List BufferNo) (pool : Pool) :
    hs.foldl Pool.giveBackChain pool = (hs.map some).foldl Pool.discard pool := by
  rw [List.foldl_map]
  rfl

/-! ## Sound chains (R79) -/

/-- Every buffer of a walk stands in the same place as its first. -/
theorem ChainsSound.place_of_mem_walk {pool : Pool} (hc : ChainsSound pool) {n : Nat} {b c : BufferNo}
    (h : c ∈ pool.walk n b) : (pool.desc c).place = (pool.desc b).place := by
  induction n generalizing b with
  | zero => cases h
  | succ n ih =>
    unfold Pool.walk at h
    rcases List.mem_cons.mp h with rfl | h
    · rfl
    · cases hn : (pool.desc b).next with
      | none => rw [hn] at h; cases h
      | some d =>
        rw [hn] at h
        exact (ih h).trans (hc.1 b d hn).2.1

theorem ChainsSound.place_of_mem_chain {pool : Pool} (hc : ChainsSound pool) {b c : BufferNo}
    (h : c ∈ pool.chain b) : (pool.desc c).place = (pool.desc b).place := hc.place_of_mem_walk h

/-- No head stands behind another buffer. -/
theorem ChainsSound.head_unlinked {pool : Pool} (hc : ChainsSound pool) {b h : BufferNo}
    (hh : (pool.desc h).head = true) : (pool.desc b).next ≠ some h := fun hn => by
  rw [(hc.1 b h hn).2.2] at hh
  cases hh

/-- A buffer at two depths of two walks: the depths differ only where one walk runs into the start of the other. -/
theorem ChainsSound.walk_meets {pool : Pool} (hc : ChainsSound pool) {h h' : BufferNo}
    (hh : (pool.desc h).head = true) (hh' : (pool.desc h').head = true) {i j n m : Nat} {b : BufferNo}
    (hi : (pool.walk n h)[i]? = some b) (hj : (pool.walk m h')[j]? = some b) : i = j ∧ h = h' := by
  have start : ∀ {n : Nat} {x y : BufferNo}, (pool.walk n x)[0]? = some y → x = y := by
    intro n x y e
    cases n with
    | zero => cases e
    | succ n => simpa [Pool.walk] using e
  have linked : ∀ {i n : Nat} {x y : BufferNo}, (pool.walk n x)[i + 1]? = some y →
      ∃ z, (pool.walk n x)[i]? = some z ∧ (pool.desc z).next = some y := by
    intro i
    induction i with
    | zero =>
      intro n x y e
      cases n with
      | zero => cases e
      | succ n =>
        unfold Pool.walk at e ⊢
        refine ⟨x, rfl, ?_⟩
        cases hn : (pool.desc x).next with
        | none => simp [hn] at e
        | some z =>
          rw [hn, List.getElem?_cons_succ] at e
          exact congrArg some (start e)
    | succ i ih =>
      intro n x y e
      cases n with
      | zero => cases e
      | succ n =>
        unfold Pool.walk at e ⊢
        cases hn : (pool.desc x).next with
        | none => simp [hn] at e
        | some z =>
          rw [hn, List.getElem?_cons_succ] at e
          exact ih e
  induction i generalizing j b with
  | zero =>
    cases j with
    | zero => exact ⟨rfl, (start hi).trans (start hj).symm⟩
    | succ j =>
      obtain ⟨z, -, hz⟩ := linked hj
      exact absurd (start hi ▸ hz) (hc.head_unlinked hh)
  | succ i ih =>
    obtain ⟨z, hz, hzn⟩ := linked hi
    cases j with
    | zero => exact absurd (start hj ▸ hzn) (hc.head_unlinked hh')
    | succ j =>
      obtain ⟨z', hz', hzn'⟩ := linked hj
      obtain rfl := hc.2.1 z z' b hzn hzn'
      obtain ⟨rfl, e⟩ := ih hz hz'
      exact ⟨rfl, e⟩

/-- No buffer stands twice in the chain of a head. -/
theorem ChainsSound.chain_nodup {pool : Pool} (hc : ChainsSound pool) {h : BufferNo}
    (hh : (pool.desc h).head = true) : (pool.chain h).Nodup := by
  rw [List.nodup_iff_getElem?_ne_getElem?]
  intro i j hij hj e
  rw [List.getElem?_eq_getElem hj] at e
  exact absurd (hc.walk_meets hh hh e (List.getElem?_eq_getElem hj)).1 (Nat.ne_of_lt hij)

/-- Two heads whose chains share a buffer are one. -/
theorem ChainsSound.head_unique {pool : Pool} (hc : ChainsSound pool) {h h' b : BufferNo}
    (hh : (pool.desc h).head = true) (hh' : (pool.desc h').head = true) (hb : b ∈ pool.chain h)
    (hb' : b ∈ pool.chain h') : h = h' := by
  obtain ⟨i, hi⟩ := List.mem_iff_getElem?.mp hb
  obtain ⟨j, hj⟩ := List.mem_iff_getElem?.mp hb'
  exact (hc.walk_meets hh hh' hi hj).2

/-- The chains of different heads hold no buffer twice. -/
theorem ChainsSound.chains_nodup {pool : Pool} (hc : ChainsSound pool) {hs : List BufferNo} (hn : hs.Nodup)
    (hh : ∀ h ∈ hs, (pool.desc h).head = true) : (hs.flatMap pool.chain).Nodup := by
  induction hs with
  | nil => exact List.nodup_nil
  | cons h rest ih =>
    rw [List.nodup_cons] at hn
    rw [List.flatMap_cons, List.nodup_append]
    refine ⟨hc.chain_nodup (hh h (List.mem_cons_self ..)), ih hn.2 fun x hx => hh x (List.mem_cons_of_mem _ hx), ?_⟩
    rintro b hb c hc' rfl
    obtain ⟨x, hx, hbx⟩ := List.mem_flatMap.mp hc'
    have := hc.head_unique (hh h (List.mem_cons_self ..)) (hh x (List.mem_cons_of_mem _ hx)) hb hbx
    exact hn.1 (this ▸ hx)

/-! ## Carried chains (R77, R79) -/

theorem countP_le_carriers (s : State) (q : Station) (b : BufferNo) :
    (s.port q).inbox.countP (fun r => decide (r.chain = some b)) ≤ s.carriers b := by
  unfold State.carriers
  exact List.le_sum_of_mem (List.mem_map.mpr ⟨q, List.mem_finRange q, rfl⟩)

theorem ChainsCarried.carriers_le_one {s : State} (h : ChainsCarried s) (b : BufferNo) : s.carriers b ≤ 1 := by
  rw [h b]
  split <;> decide

/-- The chain of a record in an inbox is ATTACHED, and the record names its head. -/
theorem ChainsCarried.attached_of_mem {s : State} (h : ChainsCarried s) {q : Station} {r : Record} {b : BufferNo}
    (hr : r ∈ (s.port q).inbox) (hc : r.chain = some b) :
    (s.pool.desc b).place = .attached ∧ (s.pool.desc b).head = true := by
  have hpos : 0 < s.carriers b :=
    Nat.lt_of_lt_of_le (List.countP_pos_iff.mpr ⟨r, hr, by simp [hc]⟩) (countP_le_carriers s q b)
  rw [h b] at hpos
  by_contra hn
  rw [if_neg hn] at hpos
  exact absurd hpos (Nat.lt_irrefl 0)

/-- No two records of one inbox carry one chain. -/
theorem ChainsCarried.inbox_nodup {s : State} (h : ChainsCarried s) (q : Station) :
    ((s.port q).inbox.filterMap Record.chain).Nodup := by
  rw [List.nodup_iff_count_le_one]
  intro b
  refine Nat.le_trans (Nat.le_of_eq ?_) (Nat.le_trans (countP_le_carriers s q b) (h.carriers_le_one b))
  rw [List.count, List.countP_filterMap]
  exact List.countP_congr fun r _ => by cases r.chain <;> simp

/-- Two stations count no more than all four. -/
theorem two_of_sum {f : Station → Nat} {q q' : Station} (h : q ≠ q') :
    f q + f q' ≤ ((List.finRange 4).map f).sum := by
  rw [show (List.finRange 4) = [0, 1, 2, 3] from rfl]
  fin_cases q <;> fin_cases q' <;> simp at h ⊢ <;> omega

/-- A chain is carried in one inbox only. -/
theorem ChainsCarried.station_unique {s : State} (h : ChainsCarried s) {q q' : Station} {r r' : Record}
    {b : BufferNo} (hr : r ∈ (s.port q).inbox) (hr' : r' ∈ (s.port q').inbox) (hc : r.chain = some b)
    (hc' : r'.chain = some b) : q = q' := by
  by_contra hne
  have h1 : 1 ≤ (s.port q).inbox.countP fun r => decide (r.chain = some b) :=
    List.countP_pos_iff.mpr ⟨r, hr, by simp [hc]⟩
  have h2 : 1 ≤ (s.port q').inbox.countP fun r => decide (r.chain = some b) :=
    List.countP_pos_iff.mpr ⟨r', hr', by simp [hc']⟩
  have h3 := two_of_sum (f := fun p => (s.port p).inbox.countP fun r => decide (r.chain = some b)) hne
  have h4 : ((List.finRange 4).map fun p => (s.port p).inbox.countP fun r => decide (r.chain = some b)).sum ≤ 1 :=
    h.carriers_le_one b
  omega

end Sys2Proof.Machine
end

