-- ==== Sys2Proof/Laws/PoolSound.lean ====
section
/-! SUPPORT. Every operation of the pool keeps PoolSound: the lists and the engine agree with the
descriptors. -/

namespace Sys2Proof.Machine

/-- One buffer gets the descriptor `d`: the pool stays sound if the lists and the engine agree with `d` at
that buffer and are as before at every other. -/
theorem poolSound_setOne {pool pool' : Pool} {b : BufferNo} {d : Descriptor} (h : PoolSound pool)
    (hdesc : ∀ c, pool'.desc c = (pool.setDesc b d).desc c)
    (hfree : pool'.free.Nodup ∧ (b ∈ pool'.free ↔ d.place = .free)
      ∧ ∀ c, c ≠ b → (c ∈ pool'.free ↔ c ∈ pool.free))
    (hdam : pool'.damaged.Nodup ∧ (b ∈ pool'.damaged ↔ d.place = .damagedListed)
      ∧ ∀ c, c ≠ b → (c ∈ pool'.damaged ↔ c ∈ pool.damaged))
    (hscr : (pool'.scrub.busy = true → pool'.scrub.buffer.isSome)
      ∧ (d.place = .scrubbing ↔ pool'.scrub.busy = true ∧ pool'.scrub.buffer = some b)
      ∧ ∀ c, c ≠ b → ((pool.desc c).place = .scrubbing
          ↔ pool'.scrub.busy = true ∧ pool'.scrub.buffer = some c))
    (hflag : (d.place = .free ∨ d.place = .attached → d.damaged = false)
      ∧ (d.place = .damagedListed ∨ d.place = .scrubbing ∨ d.place = .retired → d.damaged = true)) :
    PoolSound pool' := by
  obtain ⟨-, -, h3, h4, -, -, h7, h8⟩ := h
  refine ⟨hfree.1, hdam.1, fun c => ?_, fun c => ?_, fun c => ?_, hscr.1, fun c => ?_, fun c => ?_⟩
  all_goals
    rw [hdesc]
    by_cases hc : c = b
    · rw [hc, desc_setDesc_self]
      first | exact hfree.2.1 | exact hdam.2.1 | exact hscr.2.1 | exact hflag.1 | exact hflag.2
    · rw [desc_setDesc_ne _ _ hc]
      first
        | exact (hfree.2.2 c hc).trans (h3 c)
        | exact (hdam.2.2 c hc).trans (h4 c)
        | exact hscr.2.2 c hc
        | exact h7 c
        | exact h8 c

theorem nodup_append_singleton {l : List BufferNo} {b : BufferNo} (h : l.Nodup) (hb : b ∉ l) :
    (l ++ [b]).Nodup := by
  rw [List.nodup_append]
  refine ⟨h, List.nodup_singleton b, ?_⟩
  rintro x hx y hy rfl
  exact hb (List.mem_singleton.mp hy ▸ hx)

/-- What PoolSound says of a buffer that stands in a chain. -/
theorem PoolSound.of_inChain {pool : Pool} {b : BufferNo} (h : PoolSound pool)
    (hb : (pool.desc b).place.inChain = true) :
    b ∉ pool.free ∧ b ∉ pool.damaged ∧ ¬(pool.scrub.busy = true ∧ pool.scrub.buffer = some b) := by
  obtain ⟨-, -, h3, h4, h5, -⟩ := h
  rw [h3, h4, ← h5]
  refine ⟨?_, ?_, ?_⟩ <;> (intro e; rw [e] at hb; cases hb)

/-- A buffer in a chain gets a new descriptor, in a chain again; the lists stay. -/
theorem poolSound_setInChain {pool : Pool} {b : BufferNo} {d : Descriptor} (h : PoolSound pool)
    (hb : (pool.desc b).place.inChain = true) (hd : d.place.inChain = true)
    (hdam : d.place = .attached → d.damaged = false) : PoolSound (pool.setDesc b d) := by
  have hn := h.of_inChain hb
  have hd' : d.place ≠ .free ∧ d.place ≠ .damagedListed ∧ d.place ≠ .scrubbing ∧ d.place ≠ .retired := by
    refine ⟨?_, ?_, ?_, ?_⟩ <;> (intro e; rw [e] at hd; cases hd)
  refine poolSound_setOne h (fun _ => rfl) ⟨h.1, ?_, fun _ _ => .rfl⟩ ⟨h.2.1, ?_, fun _ _ => .rfl⟩
    ⟨h.2.2.2.2.2.1, ?_, fun c _ => h.2.2.2.2.1 c⟩ ⟨?_, ?_⟩
  · exact iff_of_false hn.1 hd'.1
  · exact iff_of_false hn.2.1 hd'.2.1
  · exact iff_of_false hd'.2.2.1 hn.2.2
  · rintro (e | e)
    · exact absurd e hd'.1
    · exact hdam e
  · rintro (e | e | e)
    · exact absurd e hd'.2.1
    · exact absurd e hd'.2.2.1
    · exact absurd e hd'.2.2.2

/-- A buffer in a chain leaves it for the tail of the free list. -/
theorem poolSound_toFree {pool : Pool} {b : BufferNo} (h : PoolSound pool)
    (hb : (pool.desc b).place.inChain = true) :
    PoolSound { pool.setDesc b ⟨.free, none, false, false⟩ with free := pool.free ++ [b] } := by
  have hn := h.of_inChain hb
  refine poolSound_setOne h (fun _ => rfl) ⟨nodup_append_singleton h.1 hn.1, by simp, ?_⟩
    ⟨h.2.1, iff_of_false hn.2.1 nofun, fun _ _ => .rfl⟩
    ⟨h.2.2.2.2.2.1, iff_of_false nofun hn.2.2, fun c _ => h.2.2.2.2.1 c⟩ ⟨fun _ => rfl, by simp⟩
  intro c hc
  show c ∈ pool.free ++ [b] ↔ _
  simp [hc]

/-- A buffer in a chain leaves it for the tail of the damaged list. -/
theorem poolSound_toDamaged {pool : Pool} {b : BufferNo} (h : PoolSound pool)
    (hb : (pool.desc b).place.inChain = true) :
    PoolSound { pool.setDesc b ⟨.damagedListed, none, false, true⟩ with damaged := pool.damaged ++ [b] } := by
  have hn := h.of_inChain hb
  refine poolSound_setOne h (fun _ => rfl) ⟨h.1, iff_of_false hn.1 nofun, fun _ _ => .rfl⟩
    ⟨nodup_append_singleton h.2.1 hn.2.1, by simp, ?_⟩
    ⟨h.2.2.2.2.2.1, iff_of_false nofun hn.2.2, fun c _ => h.2.2.2.2.1 c⟩ ⟨by simp, fun _ => rfl⟩
  intro c hc
  show c ∈ pool.damaged ++ [b] ↔ _
  simp [hc]

theorem poolSound_giveBack {pool : Pool} (h : PoolSound pool) (b : BufferNo) :
    PoolSound (pool.giveBack b) := by
  rcases giveBack_cases pool b with ⟨e, -⟩ | ⟨hp, hb⟩
  · rw [e]; exact h
  · have hin : (pool.desc b).place.inChain = true := by
      rcases hp with ⟨p, hp⟩ | hp <;> rw [hp] <;> rfl
    rcases hb with ⟨-, e⟩ | ⟨-, e⟩ <;> rw [e]
    · exact poolSound_toDamaged h hin
    · exact poolSound_toFree h hin

theorem poolSound_giveBackChain {pool : Pool} (h : PoolSound pool) (b : BufferNo) :
    PoolSound (pool.giveBackChain b) :=
  foldl_keeps PoolSound h fun _ b _ hq => poolSound_giveBack hq b

theorem poolSound_discard {pool : Pool} (h : PoolSound pool) (c : Option BufferNo) :
    PoolSound (pool.discard c) := by
  cases c with
  | none => exact h
  | some b => exact poolSound_giveBackChain h b

theorem poolSound_releaseHeld {pool : Pool} (h : PoolSound pool) (p : Station) :
    PoolSound (pool.releaseHeld p) :=
  foldl_keeps PoolSound (foldl_keeps PoolSound h fun _ b _ hq => poolSound_giveBackChain hq b)
    fun _ b _ hq => poolSound_giveBack hq b

/-- A chain whose buffers carry clear damaged flags may be attached (R91, R94). -/
theorem poolSound_foldl_attach {pool : Pool} {l : List BufferNo} (h : PoolSound pool)
    (hl : ∀ b ∈ l, (pool.desc b).damaged = false) : PoolSound (l.foldl Pool.attach pool) := by
  refine (foldl_keeps (fun q => PoolSound q ∧ pool.SameButPlaces q) ⟨h, .refl pool⟩
    fun q b hb hq => ⟨?_, hq.2.trans (attach_sameButPlaces q b)⟩).1
  rcases attach_cases q b with ⟨e, -⟩ | ⟨⟨p, hp⟩, e⟩ <;> rw [e]
  · exact hq.1
  · exact poolSound_setInChain hq.1 (by rw [hp]; rfl) rfl fun _ => (hq.2.2.2.2.2 b).2.2.trans (hl b hb)

theorem poolSound_takeUpChain {pool : Pool} (h : PoolSound pool) (p : Station) (c : Option BufferNo) :
    PoolSound (pool.takeUpChain p c) := by
  cases c with
  | none => exact h
  | some x =>
    refine foldl_keeps PoolSound h fun q b _ hq => ?_
    rcases takeUp_cases p q b with ⟨e, -⟩ | ⟨hp, e⟩ <;> rw [e]
    · exact hq
    · exact poolSound_setInChain hq (by rw [hp]; rfl) rfl nofun

/-- Acquiring keeps the pool sound (R81). -/
theorem poolSound_acquire {pool : Pool} (h : PoolSound pool) (p : Station) (n : Nat) :
    PoolSound (pool.acquire p n) := by
  obtain ⟨h1, h2, h3, h4, h5, h6, h7, h8⟩ := h
  obtain ⟨e1, e2, e3, -⟩ := linkChain_fields p true (pool.free.take n) { pool with free := pool.free.drop n }
  have hsplit : ∀ c, c ∈ pool.free ↔ c ∈ pool.free.take n ∨ c ∈ pool.free.drop n := fun c => by
    rw [← List.mem_append, List.take_append_drop]
  have hdisj : ∀ c, c ∈ pool.free.take n → c ∉ pool.free.drop n := by
    have := List.take_append_drop n pool.free ▸ h1
    rw [List.nodup_append] at this
    exact fun c hc hc' => this.2.2 c hc c hc' rfl
  have hnot : ∀ {c}, c ∉ pool.free.take n → (pool.acquire p n).desc c = pool.desc c :=
    fun hc => linkChain_other _ _ _ _ hc
  have hin : ∀ {c}, c ∈ pool.free.take n → ((pool.acquire p n).desc c).place = .held p :=
    fun hc => (linkChain_mem _ _ _ _ hc).1
  have hfree : ∀ {c}, c ∈ pool.free.take n → (pool.desc c).place = .free :=
    fun hc => (h3 _).mp ((hsplit _).mpr (.inl hc))
  refine ⟨?_, ?_, fun c => ?_, fun c => ?_, fun c => ?_, ?_, fun c => ?_, fun c => ?_⟩
  · exact (congrArg List.Nodup e1).mpr (h1.sublist (List.drop_sublist ..))
  · exact (congrArg List.Nodup e2).mpr h2
  · rw [show (pool.acquire p n).free = pool.free.drop n from e1]
    by_cases hc : c ∈ pool.free.take n
    · simp [hin hc, hdisj c hc]
    · rw [hnot hc, ← h3, hsplit]; simp [hc]
  · rw [show (pool.acquire p n).damaged = pool.damaged from e2]
    by_cases hc : c ∈ pool.free.take n
    · rw [hin hc, h4, hfree hc]; simp
    · rw [hnot hc, h4]
  · rw [show (pool.acquire p n).scrub = pool.scrub from e3]
    by_cases hc : c ∈ pool.free.take n
    · rw [hin hc, ← h5, hfree hc]; simp
    · rw [hnot hc, h5]
  · rw [show (pool.acquire p n).scrub = pool.scrub from e3]
    exact h6
  · by_cases hc : c ∈ pool.free.take n
    · simp [hin hc]
    · rw [hnot hc]; exact h7 c
  · by_cases hc : c ∈ pool.free.take n
    · simp [hin hc]
    · rw [hnot hc]; exact h8 c

/-- A change of links and flags that leaves every place and damaged flag keeps the pool sound. -/
theorem poolSound_of_same {pool pool' : Pool} (h : PoolSound pool) (hf : pool'.free = pool.free)
    (hd : pool'.damaged = pool.damaged) (hs : pool'.scrub = pool.scrub)
    (hb : ∀ b, (pool'.desc b).place = (pool.desc b).place ∧ (pool'.desc b).damaged = (pool.desc b).damaged) :
    PoolSound pool' := by
  unfold PoolSound
  simp only [hf, hd, hs, hb]
  exact h

/-- Joining two chains moves no buffer (R84). -/
theorem join_places (pool : Pool) (a b c : BufferNo) :
    ((pool.join a b).desc c).place = (pool.desc c).place
      ∧ ((pool.join a b).desc c).damaged = (pool.desc c).damaged := by
  unfold Pool.join
  simp only [desc_setDesc]
  split
  · next h => subst h; split <;> simp_all
  · split
    · next h => subst h; exact ⟨rfl, rfl⟩
    · exact ⟨rfl, rfl⟩

theorem poolSound_join {pool : Pool} (h : PoolSound pool) (a b : BufferNo) : PoolSound (pool.join a b) :=
  poolSound_of_same h rfl rfl rfl (join_places pool a b)

/-- A new memory under the same descriptors keeps the pool sound. -/
theorem poolSound_withMem {pool : Pool} (h : PoolSound pool) (m : Memory) :
    PoolSound { pool with mem := m } := h

/-- A HELD buffer may be found damaged (R89). -/
theorem poolSound_markDamaged {pool : Pool} (h : PoolSound pool) {p : Station} {b : BufferNo}
    (hb : pool.holds p b = true) : PoolSound (pool.setDesc b { pool.desc b with damaged := true }) := by
  have hp : (pool.desc b).place = .held p := by simpa [Pool.holds] using hb
  exact poolSound_setInChain h (by rw [hp]; rfl) (by show (pool.desc b).place.inChain = true; rw [hp]; rfl)
    (by show (pool.desc b).place = .attached → _; rw [hp]; nofun)

/-- The head of the damaged list enters an idle engine (R96). -/
theorem poolSound_startScrub {pool : Pool} (h : PoolSound pool) {p : Station} {b : BufferNo}
    {rest : List BufferNo} (hl : pool.damaged = b :: rest) (hbusy : pool.scrub.busy = false) :
    PoolSound (pool.startScrub p b rest) := by
  have h' := h
  obtain ⟨h1, h2, h3, h4, h5, h6, h7, h8⟩ := h'
  have hplace : (pool.desc b).place = .damagedListed := (h4 b).mp (by simp [hl])
  rw [hl, List.nodup_cons] at h2
  refine poolSound_setOne h (fun _ => rfl)
    ⟨h1, iff_of_false (by rw [show (pool.startScrub p b rest).free = pool.free from rfl, h3, hplace]; nofun)
      nofun, fun _ _ => .rfl⟩
    ⟨h2.2, iff_of_false h2.1 nofun, fun c hc => ?_⟩
    ⟨fun _ => rfl, iff_of_true rfl ⟨rfl, rfl⟩, fun c hc => ?_⟩
    ⟨?_, fun _ => h8 b (.inl hplace)⟩
  · show c ∈ rest ↔ _
    simp [hl, hc]
  · refine iff_of_false (fun e => ?_) (fun e => hc ?_)
    · rw [h5, hbusy] at e
      cases e.1
    · exact (Option.some.inj e.2).symm
  · rintro (e | e) <;> cases e

/-- The buffer in the engine leaves it, to the free list or the retired set (R97). -/
theorem poolSound_finishScrub {pool : Pool} (h : PoolSound pool) {b : BufferNo}
    (hbusy : pool.scrub.busy = true) (hb : pool.scrub.buffer = some b) (rb : Vector MemWord 32) :
    PoolSound (pool.finishScrub b rb) := by
  have h' := h
  obtain ⟨h1, h2, h3, h4, h5, h6, h7, h8⟩ := h'
  have hplace : (pool.desc b).place = .scrubbing := (h5 b).mpr ⟨hbusy, hb⟩
  have hfree : b ∉ pool.free := by rw [h3, hplace]; nofun
  have hdam : b ∉ pool.damaged := by rw [h4, hplace]; nofun
  have hother : ∀ c, c ≠ b → ¬(pool.desc c).place = .scrubbing := fun c hc e =>
    hc (Option.some.inj (((h5 c).mp e).2.symm.trans hb))
  unfold Pool.finishScrub
  split
  · refine poolSound_setOne h (fun _ => rfl) ⟨nodup_append_singleton h1 hfree, by simp, fun c hc => ?_⟩
      ⟨h2, iff_of_false hdam nofun, fun _ _ => .rfl⟩
      ⟨nofun, iff_of_false nofun (by simp), fun c hc => iff_of_false (hother c hc) (by simp)⟩
      ⟨fun _ => rfl, by simp⟩
    show c ∈ pool.free ++ [b] ↔ _
    simp [hc]
  · exact poolSound_setOne h (fun _ => rfl) ⟨h1, iff_of_false hfree nofun, fun _ _ => .rfl⟩
      ⟨h2, iff_of_false hdam nofun, fun _ _ => .rfl⟩
      ⟨nofun, iff_of_false nofun (by simp), fun c hc => iff_of_false (hother c hc) (by simp)⟩
      ⟨by simp, fun _ => rfl⟩

/-- The pool's reset condition is sound (R99). -/
theorem poolSound_resetOver (m : Memory) : PoolSound (Pool.resetOver m) := by
  have hdesc : ∀ b, (Pool.resetOver m).desc b = Descriptor.reset := fun b => by
    simp [Pool.desc, Pool.resetOver]
  have hfree : ∀ b, b ∈ (Pool.resetOver m).free := fun b => by
    simp only [Pool.resetOver, List.mem_finRange]
  refine ⟨?_, List.nodup_nil, fun b => ?_, fun b => ?_, fun b => ?_, nofun, fun b => ?_,
    fun b => ?_⟩
  · simp only [Pool.resetOver, List.nodup_finRange]
  all_goals rw [hdesc]
  · exact iff_of_true (hfree b) rfl
  · exact iff_of_false (List.not_mem_nil) nofun
  · exact iff_of_false nofun (fun e => nomatch e.1)
  · exact fun _ => rfl
  · exact fun e => by rcases e with e | e | e <;> cases e

end Sys2Proof.Machine
end

