-- ==== Sys2Proof/Laws/Ending.lean ====
section
/-! SUPPORT. Everything that placing, withdrawing, opening, closing and ending can do, said once: field by
field for the whole ending of an exchange (R13). -/

namespace Sys2Proof.Machine

/-! ## Placing and opening -/

theorem port_place (s : State) (p q : Station) (r : Record) :
    (s.place p r).port q
      = if q = p then { s.port q with inbox := (s.port q).inbox ++ [r] } else s.port q := port_modPort ..

@[simp] theorem place_slots (s : State) (p : Station) (r : Record) : (s.place p r).slots = s.slots := rfl
@[simp] theorem place_pool (s : State) (p : Station) (r : Record) : (s.place p r).pool = s.pool := rfl
@[simp] theorem place_tickCount (s : State) (p : Station) (r : Record) :
    (s.place p r).tickCount = s.tickCount := rfl
@[simp] theorem place_phase (s : State) (p : Station) (r : Record) : (s.place p r).phase = s.phase := rfl
@[simp] theorem place_pending (s : State) (p : Station) (r : Record) :
    (s.place p r).pending = s.pending := rfl

theorem port_openRecord (s : State) (p q : Station) (h : JournalHead) :
    (s.openRecord p h).port q
      = if q = p then { s.port q with
          journal := (s.port q).journal.opening h
          journalCause := (s.port q).journalCause || decide ((s.port q).journal.nextRef.index = 31) }
        else s.port q := port_modPort ..

@[simp] theorem openRecord_slots (s : State) (p : Station) (h : JournalHead) :
    (s.openRecord p h).slots = s.slots := rfl
@[simp] theorem openRecord_pool (s : State) (p : Station) (h : JournalHead) :
    (s.openRecord p h).pool = s.pool := rfl
@[simp] theorem openRecord_tickCount (s : State) (p : Station) (h : JournalHead) :
    (s.openRecord p h).tickCount = s.tickCount := rfl
@[simp] theorem openRecord_phase (s : State) (p : Station) (h : JournalHead) :
    (s.openRecord p h).phase = s.phase := rfl
@[simp] theorem openRecord_pending (s : State) (p : Station) (h : JournalHead) :
    (s.openRecord p h).pending = s.pending := rfl

/-! ## Withdrawal (R49) -/

/-- The record a withdrawal removes: the first that carries the exchange number. -/
def Port.findRequest (q : Port) (x : XNum) : Option Record :=
  q.inbox.find? fun r => decide (r.requestOf = some x)

/-- An inbox without that record. -/
def withoutRequest (x : XNum) (l : List Record) : List Record :=
  l.eraseP fun r => decide (r.requestOf = some x)

theorem withdraw_eq (s : State) (p : Station) (x : XNum) :
    s.withdraw p x = (s.modPort p fun q => { q with inbox := withoutRequest x q.inbox }).setPool
      (s.pool.discard (((s.port p).findRequest x).bind Record.chain)) := by
  unfold State.withdraw Port.findRequest
  split
  · next h =>
    have : withoutRequest x (s.port p).inbox = (s.port p).inbox := by
      unfold withoutRequest
      exact List.eraseP_of_forall_not fun r hr => by simpa using List.find?_eq_none.mp h r hr
    rw [modPort_id s p (by rw [this]), h]
    rfl
  · next r h => rw [h]; rfl

theorem port_withdraw (s : State) (p q : Station) (x : XNum) :
    (s.withdraw p x).port q
      = if q = p then { s.port q with inbox := withoutRequest x (s.port q).inbox } else s.port q := by
  rw [withdraw_eq, port_setPool, port_modPort]

@[simp] theorem withdraw_slots (s : State) (p : Station) (x : XNum) :
    (s.withdraw p x).slots = s.slots := by rw [withdraw_eq]; rfl
@[simp] theorem withdraw_tickCount (s : State) (p : Station) (x : XNum) :
    (s.withdraw p x).tickCount = s.tickCount := by rw [withdraw_eq]; rfl
@[simp] theorem withdraw_phase (s : State) (p : Station) (x : XNum) :
    (s.withdraw p x).phase = s.phase := by rw [withdraw_eq]; rfl
@[simp] theorem withdraw_strap (s : State) (p : Station) (x : XNum) :
    (s.withdraw p x).strap = s.strap := by rw [withdraw_eq]; rfl
@[simp] theorem withdraw_pending (s : State) (p : Station) (x : XNum) :
    (s.withdraw p x).pending = s.pending := by rw [withdraw_eq]; rfl
theorem withdraw_pool (s : State) (p : Station) (x : XNum) :
    (s.withdraw p x).pool = s.pool.discard (((s.port p).findRequest x).bind Record.chain) := by
  rw [withdraw_eq]; rfl

/-! ## Closing (R115) -/

/-- A close handed to a journal, where there is a reference. -/
def closedJournal (j : Journal) (r : Option JournalRef) (x : XNum) (c : JournalClose) : Journal :=
  match r with
  | none => j
  | some r => j.closing r x c

theorem closeRecord_eq (s : State) (p : Station) (r : Option JournalRef) (x : XNum) (c : JournalClose) :
    s.closeRecord p r x c = s.modPort p fun q => { q with journal := closedJournal q.journal r x c } := by
  cases r with
  | none => exact (modPort_id s p rfl).symm
  | some r => rfl

theorem port_closeRecord (s : State) (p q : Station) (r : Option JournalRef) (x : XNum)
    (c : JournalClose) :
    (s.closeRecord p r x c).port q
      = if q = p then { s.port q with journal := closedJournal (s.port q).journal r x c } else s.port q := by
  rw [closeRecord_eq, port_modPort]

/-! ## The ending, field by field (R13-R16) -/

/-- The journal of a port after the closes of an ending. -/
def endedJournal (s : State) (i : SlotNo) (e : Ending) (q : Station) : Journal :=
  let j := (s.port q).journal
  let x := s.xnum i
  let c := e.close s.tickCount
  let j := if q = (s.slot i).requester then closedJournal j (e.requesterRef (s.slot i)) x c else j
  if q = (s.slot i).dest then closedJournal j (s.slot i).respRef x c else j

/-- The inbox of a port after an ending: the untaken request is gone, the outcome is at the tail. -/
def endedInbox (s : State) (i : SlotNo) (e : Ending) (q : Station) : List Record :=
  (if (s.slot i).state = .opened ∧ q = (s.slot i).dest then withoutRequest (s.xnum i) (s.port q).inbox
    else (s.port q).inbox)
  ++ if q = (s.slot i).requester then (e.outcomeRecord (s.slot i) (s.xnum i) s.tickCount).toList else []

/-- The chain of the withdrawn request, if one is withdrawn. -/
def endedChain (s : State) (i : SlotNo) : Option BufferNo :=
  match (s.slot i).state with
  | .opened => ((s.port (s.slot i).dest).findRequest (s.xnum i)).bind Record.chain
  | .free => none
  | .taken => none

@[simp] theorem endWithdraw_slots (s : State) (i : SlotNo) : (s.endWithdraw i).slots = s.slots := by
  unfold State.endWithdraw; split <;> simp
@[simp] theorem endWithdraw_slot (s : State) (i j : SlotNo) : (s.endWithdraw i).slot j = s.slot j := by
  simp [State.slot]
@[simp] theorem endWithdraw_tickCount (s : State) (i : SlotNo) :
    (s.endWithdraw i).tickCount = s.tickCount := by unfold State.endWithdraw; split <;> simp
@[simp] theorem endWithdraw_phase (s : State) (i : SlotNo) :
    (s.endWithdraw i).phase = s.phase := by unfold State.endWithdraw; split <;> simp
@[simp] theorem endWithdraw_strap (s : State) (i : SlotNo) :
    (s.endWithdraw i).strap = s.strap := by unfold State.endWithdraw; split <;> simp
@[simp] theorem endWithdraw_pending (s : State) (i : SlotNo) :
    (s.endWithdraw i).pending = s.pending := by unfold State.endWithdraw; split <;> simp

theorem endWithdraw_pool (s : State) (i : SlotNo) :
    (s.endWithdraw i).pool = s.pool.discard (endedChain s i) := by
  unfold State.endWithdraw endedChain
  split <;> simp_all [withdraw_pool, Pool.discard]

theorem port_endWithdraw (s : State) (i : SlotNo) (q : Station) :
    (s.endWithdraw i).port q = { s.port q with inbox :=
      if (s.slot i).state = .opened ∧ q = (s.slot i).dest then withoutRequest (s.xnum i) (s.port q).inbox
      else (s.port q).inbox } := by
  unfold State.endWithdraw
  split
  · next h =>
    rw [port_withdraw]
    split <;> simp_all
  all_goals next h => simp [h]

@[simp] theorem endOutcome_slots (s : State) (i : SlotNo) (e : Ending) :
    (s.endOutcome i e).slots = s.slots := by unfold State.endOutcome; split <;> simp
@[simp] theorem endOutcome_slot (s : State) (i j : SlotNo) (e : Ending) :
    (s.endOutcome i e).slot j = s.slot j := by simp [State.slot]
@[simp] theorem endOutcome_tickCount (s : State) (i : SlotNo) (e : Ending) :
    (s.endOutcome i e).tickCount = s.tickCount := by unfold State.endOutcome; split <;> simp
@[simp] theorem endOutcome_phase (s : State) (i : SlotNo) (e : Ending) :
    (s.endOutcome i e).phase = s.phase := by unfold State.endOutcome; split <;> simp
@[simp] theorem endOutcome_strap (s : State) (i : SlotNo) (e : Ending) :
    (s.endOutcome i e).strap = s.strap := by unfold State.endOutcome; split <;> rfl
@[simp] theorem endOutcome_pending (s : State) (i : SlotNo) (e : Ending) :
    (s.endOutcome i e).pending = s.pending := by unfold State.endOutcome; split <;> simp

theorem endOutcome_pool (s : State) (i : SlotNo) (e : Ending) :
    (s.endOutcome i e).pool = s.pool.attachChain e.chain := by
  unfold State.endOutcome
  cases e <;> rfl

theorem port_endOutcome (s : State) (i : SlotNo) (e : Ending) (q : Station) :
    (s.endOutcome i e).port q = { s.port q with inbox := (s.port q).inbox
      ++ if q = (s.slot i).requester then (e.outcomeRecord (s.slot i) (s.xnum i) s.tickCount).toList
        else [] } := by
  unfold State.endOutcome
  split
  · next h => simp [h]
  · next r h =>
    rw [port_setPool, port_place, h]
    split <;> simp

@[simp] theorem endJournals_slots (s : State) (i : SlotNo) (e : Ending) :
    (s.endJournals i e).slots = s.slots := by simp [State.endJournals, closeRecord_eq]
@[simp] theorem endJournals_slot (s : State) (i j : SlotNo) (e : Ending) :
    (s.endJournals i e).slot j = s.slot j := by simp [State.slot]
@[simp] theorem endJournals_pool (s : State) (i : SlotNo) (e : Ending) :
    (s.endJournals i e).pool = s.pool := by simp [State.endJournals, closeRecord_eq]
@[simp] theorem endJournals_tickCount (s : State) (i : SlotNo) (e : Ending) :
    (s.endJournals i e).tickCount = s.tickCount := by simp [State.endJournals, closeRecord_eq]
@[simp] theorem endJournals_phase (s : State) (i : SlotNo) (e : Ending) :
    (s.endJournals i e).phase = s.phase := by simp [State.endJournals, closeRecord_eq]
@[simp] theorem endJournals_strap (s : State) (i : SlotNo) (e : Ending) :
    (s.endJournals i e).strap = s.strap := by simp [State.endJournals, closeRecord_eq]
@[simp] theorem endJournals_pending (s : State) (i : SlotNo) (e : Ending) :
    (s.endJournals i e).pending = s.pending := by simp [State.endJournals, closeRecord_eq]

theorem port_endJournals (s : State) (i : SlotNo) (e : Ending) (q : Station) :
    (s.endJournals i e).port q = { s.port q with journal := endedJournal s i e q } := by
  unfold State.endJournals endedJournal
  rw [port_closeRecord, port_closeRecord]
  split <;> split <;> simp_all

/-- A FREE slot is left alone. -/
theorem endExchange_of_free {s : State} {i : SlotNo} (e : Ending) (h : (s.slot i).state = .free) :
    s.endExchange i e = s := by simp [State.endExchange, h]

theorem endExchange_of_used {s : State} {i : SlotNo} (e : Ending) (h : (s.slot i).state ≠ .free) :
    s.endExchange i e = (((s.endWithdraw i).endOutcome i e).endJournals i e).freeSlot i := by
  simp [State.endExchange, h]

/-- Step 4: the slot is FREE in the next generation, and no other slot is touched (R10, R13). -/
theorem slot_endExchange {s : State} {i : SlotNo} (e : Ending) (h : (s.slot i).state ≠ .free) (j : SlotNo) :
    (s.endExchange i e).slot j = if j = i then Slot.freeIn ((s.slot i).gen + 1) else s.slot j := by
  rw [endExchange_of_used e h, State.freeSlot, slot_setSlot]
  simp

theorem slot_endExchange_ne {s : State} {i j : SlotNo} (e : Ending) (h : j ≠ i) :
    (s.endExchange i e).slot j = s.slot j := by
  by_cases hf : (s.slot i).state = .free
  · rw [endExchange_of_free e hf]
  · rw [slot_endExchange e hf, if_neg h]

/-- Whatever the slot was, it is FREE after its ending. -/
theorem free_endExchange (s : State) (i : SlotNo) (e : Ending) :
    ((s.endExchange i e).slot i).state = .free := by
  by_cases hf : (s.slot i).state = .free
  · rw [endExchange_of_free e hf, hf]
  · rw [slot_endExchange e hf, if_pos rfl]; rfl

/-- Of a port, an ending changes the inbox and the journal (R13, R150). -/
theorem port_endExchange {s : State} {i : SlotNo} (e : Ending) (h : (s.slot i).state ≠ .free) (q : Station) :
    (s.endExchange i e).port q
      = { s.port q with inbox := endedInbox s i e q, journal := endedJournal s i e q } := by
  rw [endExchange_of_used e h, State.freeSlot, port_setSlot, port_endJournals, port_endOutcome,
    port_endWithdraw]
  simp [endedInbox, endedJournal, port_endOutcome, port_endWithdraw, State.xnum]

/-- Of the pool, an ending discards the withdrawn chain and attaches the reply's (R13, R91, R92). -/
theorem endExchange_pool {s : State} {i : SlotNo} (e : Ending) (h : (s.slot i).state ≠ .free) :
    (s.endExchange i e).pool = (s.pool.discard (endedChain s i)).attachChain e.chain := by
  rw [endExchange_of_used e h]
  show (((s.endWithdraw i).endOutcome i e).endJournals i e).pool = _
  rw [endJournals_pool, endOutcome_pool, endWithdraw_pool]

@[simp] theorem endExchange_tickCount (s : State) (i : SlotNo) (e : Ending) :
    (s.endExchange i e).tickCount = s.tickCount := by
  unfold State.endExchange; split <;> simp [State.freeSlot]
@[simp] theorem endExchange_phase (s : State) (i : SlotNo) (e : Ending) :
    (s.endExchange i e).phase = s.phase := by
  unfold State.endExchange; split <;> simp [State.freeSlot]
@[simp] theorem endExchange_strap (s : State) (i : SlotNo) (e : Ending) :
    (s.endExchange i e).strap = s.strap := by
  unfold State.endExchange; split <;> simp [State.freeSlot]
@[simp] theorem endExchange_pending (s : State) (i : SlotNo) (e : Ending) :
    (s.endExchange i e).pending = s.pending := by
  unfold State.endExchange; split <;> simp [State.freeSlot]

/-- What an ending leaves of every port, whatever the slot: all but the inbox and the journal. -/
theorem port_endExchange_same (s : State) (i : SlotNo) (e : Ending) (q : Station) :
    (s.endExchange i e).port q = { s.port q with
      inbox := ((s.endExchange i e).port q).inbox
      journal := ((s.endExchange i e).port q).journal } := by
  by_cases hf : (s.slot i).state = .free
  · rw [endExchange_of_free e hf]
  · rw [port_endExchange e hf]

/-- The memory words are not touched by an ending (R75). -/
@[simp] theorem endExchange_mem (s : State) (i : SlotNo) (e : Ending) :
    (s.endExchange i e).pool.mem = s.pool.mem := by
  by_cases hf : (s.slot i).state = .free
  · rw [endExchange_of_free e hf]
  · rw [endExchange_pool e hf, (attachChain_sameButPlaces ..).2.2.2.1, discard_mem]

end Sys2Proof.Machine
end

