-- ==== Sys2Proof/Laws/Counting.lean ====
section
/-! SUPPORT. Slots by search and by count: the lowest FREE slot, the slot of a tag, requester counts,
occupancy, and the REQUEST records of a slot. -/

namespace Sys2Proof.Machine

/-! ## Searches -/

/-- The lowest FREE slot is FREE. -/
theorem lowestFree_free {s : State} {i : SlotNo} (h : s.lowestFree = some i) : (s.slot i).state = .free := by
  simpa using List.find?_some h

theorem lowestFree_none {s : State} : s.lowestFree = none ↔ ∀ i, (s.slot i).state ≠ .free := by
  simp [State.lowestFree, List.find?_eq_none]

/-- The slot a tag names is the station's and carries the tag (R12). -/
theorem findTag_some {s : State} {p : Station} {t : Word} {i : SlotNo} (h : s.findTag p t = some i) :
    (s.slot i).requestedBy p = true ∧ (s.slot i).tag = t := by
  simpa using List.find?_some h

theorem findTag_none {s : State} {p : Station} {t : Word} :
    s.findTag p t = none ↔ ∀ i, (s.slot i).requestedBy p = true → (s.slot i).tag ≠ t := by
  simp [State.findTag, List.find?_eq_none]

theorem requestedBy_iff {sl : Slot} {p : Station} :
    sl.requestedBy p = true ↔ sl.state ≠ .free ∧ sl.requester = p := by simp [Slot.requestedBy]

/-! ## Requester counts (R6) -/

theorem requesterCount_congr {s t : State} (h : s.slots = t.slots) (p : Station) :
    s.requesterCount p = t.requesterCount p := by simp only [State.requesterCount, h]

/-- Setting one slot changes the count by what the slot was and what it becomes. -/
theorem requesterCount_setSlot (s : State) (i : SlotNo) (x : Slot) (p : Station) :
    (s.setSlot i x).requesterCount p + (if (s.slot i).requestedBy p then 1 else 0)
      = s.requesterCount p + if x.requestedBy p then 1 else 0 := by
  have hlen : i.val < s.slots.toList.length := by simp
  have hget : s.slots.toList[i.val] = s.slot i := by simp [State.slot]
  have hpos : (if (s.slot i).requestedBy p then 1 else 0) ≤ s.requesterCount p := by
    split
    · next h =>
      exact List.countP_pos_iff.mpr ⟨s.slot i, by rw [← hget]; exact List.getElem_mem hlen, h⟩
    · exact Nat.zero_le _
  have hset : (s.setSlot i x).slots.toList = s.slots.toList.set i.val x := by
    simp [State.setSlot, Vector.toList_set]
  unfold State.requesterCount at hpos ⊢
  rw [hset, List.countP_set hlen, hget]
  omega

/-- A station with requester count 0 requests no slot. -/
theorem requesterCount_zero {s : State} {p : Station} (h : s.requesterCount p = 0) (i : SlotNo) :
    (s.slot i).requestedBy p = false := by
  have := List.countP_eq_zero.mp h (s.slot i) (by simp [State.slot])
  simpa using this

theorem requesterCount_freeSlot {s : State} {i : SlotNo} (h : (s.slot i).state ≠ .free) (p : Station) :
    (s.freeSlot i).requesterCount p + (if (s.slot i).requester = p then 1 else 0) = s.requesterCount p := by
  have := requesterCount_setSlot s i (Slot.freeIn ((s.slot i).gen + 1)) p
  have h1 : (Slot.freeIn ((s.slot i).gen + 1)).requestedBy p = false := by
    simp [Slot.requestedBy, Slot.freeIn]
  have h2 : (s.slot i).requestedBy p = decide ((s.slot i).requester = p) := by simp [Slot.requestedBy, h]
  rw [h1, h2] at this
  unfold State.freeSlot
  simpa using this

/-- An ending lowers the requester's count by one, and no other's (R6, R13). -/
theorem requesterCount_endExchange {s : State} {i : SlotNo} (e : Ending) (h : (s.slot i).state ≠ .free)
    (p : Station) :
    (s.endExchange i e).requesterCount p + (if (s.slot i).requester = p then 1 else 0)
      = s.requesterCount p := by
  rw [endExchange_of_used e h]
  have := requesterCount_freeSlot (s := ((s.endWithdraw i).endOutcome i e).endJournals i e) (i := i)
    (by simpa using h) p
  simp only [endJournals_slot, endOutcome_slot, endWithdraw_slot] at this
  rw [this]
  exact requesterCount_congr (by simp) p

/-! ## Occupancy (R45) -/

theorem length_withoutRequest_le (x : XNum) (l : List Record) : (withoutRequest x l).length ≤ l.length := by
  unfold withoutRequest
  exact (List.eraseP_sublist).length_le

/-- An ending never raises records plus reservations (R13, R45). -/
theorem occupancy_endExchange_le (s : State) (i : SlotNo) (e : Ending) (p : Station) :
    (s.endExchange i e).occupancy p ≤ s.occupancy p := by
  by_cases hf : (s.slot i).state = .free
  · rw [endExchange_of_free e hf]
  · have hc := requesterCount_endExchange e hf p
    have hl := length_withoutRequest_le (s.xnum i) (s.port p).inbox
    unfold State.occupancy
    rw [port_endExchange e hf]
    have ho : ((e.outcomeRecord (s.slot i) (s.xnum i) s.tickCount).toList).length ≤ 1 := by
      cases e <;> simp [Ending.outcomeRecord]
    have hw : (if (s.slot i).state = .opened ∧ p = (s.slot i).dest then
        withoutRequest (s.xnum i) (s.port p).inbox else (s.port p).inbox).length
          ≤ (s.port p).inbox.length := by
      split
      · exact hl
      · exact le_rfl
    simp only [endedInbox, List.length_append]
    by_cases hr : p = (s.slot i).requester
    · rw [if_pos hr.symm] at hc
      rw [if_pos hr]
      omega
    · rw [if_neg fun e => hr e.symm] at hc
      rw [if_neg hr, List.length_nil]
      omega

/-! ## REQUEST records of a slot (R48) -/

/-- Outcome records are no REQUEST records. -/
theorem outcomeRecord_requestOf {e : Ending} {sl : Slot} {x : XNum} {t : Tick} {r : Record}
    (h : e.outcomeRecord sl x t = some r) : r.requestOf = none := by
  cases e <;> simp [Ending.outcomeRecord] at h <;> subst h <;> rfl

theorem mem_withoutRequest {x : XNum} {l : List Record} {r : Record} (h : r ∈ withoutRequest x l) : r ∈ l :=
  List.eraseP_subset h

/-- Without the request, one REQUEST record of its slot fewer. -/
theorem countP_withoutRequest {x : XNum} {l : List Record} {r : Record} (hr : r ∈ l)
    (hx : r.requestOf = some x) (i : SlotNo) :
    (withoutRequest x l).countP (fun r => decide (r.requestOf.map XNum.slot = some i))
        + (if x.slot = i then 1 else 0)
      = l.countP (fun r => decide (r.requestOf.map XNum.slot = some i)) := by
  induction l with
  | nil => cases hr
  | cons a rest ih =>
    unfold withoutRequest at ih ⊢
    by_cases ha : a.requestOf = some x
    · rw [List.eraseP_cons_of_pos (by simpa using ha), List.countP_cons]
      simp [ha]
    · have hr' : r ∈ rest := by
        rcases List.mem_cons.mp hr with rfl | h
        · exact absurd hx ha
        · exact h
      rw [List.eraseP_cons_of_neg (by simpa using ha), List.countP_cons, List.countP_cons]
      have := ih hr'
      omega

end Sys2Proof.Machine
end

