-- ==== Sys2Proof/Laws/Step.lean ====
section
/-! SUPPORT. What a step can do, said once: a property that each effect keeps is kept by every step. -/

namespace Sys2Proof.Machine

/-- Two ports that differ at most in registers and levels: port state, access state, view, inbox and tables are
the same, and in RESET the enables too. -/
def Port.SameStation (q q' : Port) : Prop :=
  q'.state = q.state ∧ q'.access = q.access ∧ q'.view = q.view ∧ q'.inbox = q.inbox
  ∧ q'.routes = q.routes ∧ q'.admits = q.admits ∧ (q.state = .reset → q'.enables = q.enables)

/-- The effects of all commands and events, each with what its checks have established: a property with these
facts is kept by every step. -/
structure Kept (Inv : State → Prop) : Prop where
  queue : ∀ s l, Inv s → Inv { s with pending := l }
  access : ∀ s p a, Inv s → (s.port p).state ≠ .reset ∨ a = .idle ∨ a = .abandoned
      ∨ (∃ b e e', (s.port p).access = .pending b e ∧ a = .pending b e') → Inv (s.withAccess p a)
  registers : ∀ s p q, Inv s → (s.port p).SameStation q → Inv (s.setPort p q)
  post : ∀ s p plan, Inv s → s.postCheck p = .ok plan → Inv (s.acceptPost p plan)
  reply : ∀ s p ps, Inv s → s.replyCheck p = .ok ps →
    Inv (s.endExchange ps.x.slot (.reply ps.status ps.words ps.payload.len ps.payload.chain))
  cancel : ∀ s p t i, Inv s → (s.port p).connected = true → s.findTag p t = some i →
    Inv (s.endExchange i (.lapsed .cancelled))
  notify : ∀ s p ps set v, Inv s → notifyParams (s.port p).params = some ps → (s.port p).state = .online →
    (s.port p).routes[ps.service] = .notice set v → s.firstRefusal p v (membersOf set) = none →
    Inv (s.placeNotices (s.noticeRecord p v ps.words) (membersOf set))
  take : ∀ s p r rest, Inv s → (s.port p).connected = true → (s.port p).inbox = r :: rest →
    Inv (s.acceptTake p r rest)
  acquire : ∀ s p n, Inv s → (s.port p).connected = true → 1 ≤ n → n ≤ Config.maxChain →
    s.pool.heldCount p + n ≤ Config.heldLimit → n ≤ s.pool.free.length → Inv (s.setPool (s.pool.acquire p n))
  release : ∀ s p b, Inv s → (s.port p).connected = true → s.pool.isHeldHead p b = true →
    Inv (s.setPool (s.pool.giveBackChain b))
  append : ∀ s p a b, Inv s → (s.port p).connected = true → a ≠ b → s.pool.isHeldHead p a = true →
    s.pool.isHeldHead p b = true → (s.pool.chain a).length + (s.pool.chain b).length ≤ Config.maxChain →
    Inv (s.setPool (s.pool.join a b))
  scrub : ∀ s p b rest, Inv s → (s.port p).connected = true → s.pool.damaged = b :: rest →
    s.pool.scrub.busy = false → Inv (s.setPool (s.pool.startScrub p b rest))
  setRoute : ∀ s p v e, Inv s → (s.port p).state ≠ .reset →
    setRouteParams p (s.port p).params = some (v, e) ∨ e = .none → Inv (s.setRoute p v e)
  setAdmit : ∀ s p v set, Inv s → (s.port p).state ≠ .reset →
    setAdmitParams p (s.port p).params = some (v, set) → Inv (s.setAdmit p v set)
  join : ∀ s p, Inv s → (s.port p).state = .offline → Inv (s.changePortState p .online)
  leave : ∀ s p, Inv s → (s.port p).state = .online →
    Inv ((s.changePortState p .draining).answerUntaken (s.port p).untaken)
  parity : ∀ s p b, Inv s → s.permitted p = some b →
    Inv (s.setPool (s.pool.setDesc b { s.pool.desc b with damaged := true }))
  memory : ∀ s b w v, Inv s → Inv (s.setPool { s.pool with mem := Memory.write s.pool.mem (wordAddress b w) v })
  ticked : ∀ s, Inv s → s.phase = .running → Inv s.ticked
  expiry : ∀ s i, Inv s → s.due i = true → Inv (s.endExchange i (.lapsed .expired))
  scrubDone : ∀ s b rb, Inv s → s.pool.scrub.busy = true → s.pool.scrub.buffer = some b →
    Inv (s.setPool (s.pool.finishScrub b rb))
  drained : ∀ s p, Inv s → s.drained p = true → Inv (s.drainCompleted p)
  teardown : ∀ s p, Inv s → (s.port p).state ≠ .reset → Inv (s.tornDown p)
  leaveReset : ∀ s p, Inv s → (s.port p).state = .reset → s.phase = .running →
    Inv (s.changePortState p .offline)
  masterReset : ∀ s, Inv s → Inv s.masterCleared
  masterResetEnded : ∀ s straps, Inv s → s.phase = .masterReset → Inv (s.masterResetEnded straps)
  portsLeaveReset : ∀ s, Inv s → s.phase = .initPass → Inv { s.portsLeaveReset with phase := .running }

namespace Kept

variable {Inv : State → Prop} (k : Kept Inv)
include k

/-- A change of registers by a function. -/
theorem modRegisters {s : State} (h : Inv s) (p : Station) (f : Port → Port)
    (hf : (s.port p).SameStation (f (s.port p))) : Inv (s.modPort p f) := k.registers s p _ h hf

theorem settle {s : State} (h : Inv s) (p : Station) : Inv (s.settle p) := by
  unfold State.settle
  split
  · next hb =>
    have hr : (s.port p).state ≠ .reset := by
      simp only [Port.mayBegin, Bool.and_eq_true, decide_eq_true_eq] at hb
      exact hb.1.2
    exact k.access s p _ h (.inl hr)
  · exact h

theorem takeAccess {s : State} (h : Inv s) (p : Station) (w : Access → Bool)
    (f : Access → State → State × Option Word)
    (hf : ∀ a, (s.port p).state ≠ .reset → w a = true → Inv (f a s).1)
    (hs : ∀ a, ((f a s).1.port p).state = .reset → (s.port p).state = .reset) :
    Inv (s.takeAccess p w f) := by
  rcases takeAccess_cases s p w f with ⟨-, e⟩ | ⟨a, st, ha, e⟩ <;> rw [e]
  · exact h
  · have ha' := taking_eq_some.mp ha
    exact k.access _ p st (hf a ha'.1 ha'.2.1) (.inl fun e => ha'.1 (hs a e))

theorem takePlainRead {s : State} (h : Inv s) (p : Station) : Inv (s.takePlainRead p) := by
  unfold State.takePlainRead
  refine k.takeAccess h p _ _ (fun a _ _ => ?_) (fun a e => ?_)
  · cases a <;> exact h
  · cases a <;> exact e

theorem idle {s : State} (h : Inv s) : Inv s.idle :=
  k.takePlainRead (k.takePlainRead (k.takePlainRead (k.takePlainRead h 0) 1) 2) 3

theorem setResult {s : State} (h : Inv s) (p : Station) (c : Option Command) (r : ResultCode)
    (ps : List Word) : Inv (s.setResult p c r ps) :=
  k.modRegisters h p _ ⟨rfl, rfl, rfl, rfl, rfl, rfl, fun _ => rfl⟩

/-- A command keeps what its accepted verdict keeps. The verdict leaves the port out of RESET. -/
theorem takeCommand {s : State} (h : Inv s) (p : Station) (c : Command) (v : State → Verdict)
    (hv : ∀ s' ps, (s.port p).state ≠ .reset → v s = .accepted s' ps →
      Inv s' ∧ (s'.port p).state ≠ .reset) : Inv (s.takeCommand p c v) := by
  rcases takeCommand_cases s p c v with e | ⟨hi, ⟨r, ps, st, -, e⟩ | ⟨s', ps, st, hs, e⟩⟩ <;> rw [e]
  · exact h
  · refine k.access _ p st (k.setResult h p _ r ps) (.inl ?_)
    simpa [State.setResult] using hi.1
  · obtain ⟨h1, h2⟩ := hv s' ps hi.1 hs
    refine k.access _ p st (k.setResult h1 p _ _ ps) (.inl ?_)
    simpa [State.setResult] using h2

end Kept

/-! ## Port states through the effects -/

@[simp] theorem state_endExchange (s : State) (i : SlotNo) (e : Ending) (q : Station) :
    ((s.endExchange i e).port q).state = (s.port q).state := by rw [port_endExchange_same]

@[simp] theorem state_openRecord (s : State) (p q : Station) (h : JournalHead) :
    ((s.openRecord p h).port q).state = (s.port q).state := by rw [port_openRecord]; split <;> rfl

@[simp] theorem state_place (s : State) (p q : Station) (r : Record) :
    ((s.place p r).port q).state = (s.port q).state := by rw [port_place]; split <;> rfl

@[simp] theorem state_acceptPost (s : State) (p q : Station) (plan : PostPlan) :
    ((s.acceptPost p plan).port q).state = (s.port q).state := by
  unfold State.acceptPost
  rw [state_openRecord, port_setPool, state_place, port_setSlot]

@[simp] theorem state_placeNotices (s : State) (r : Record) (ms : List Station) (q : Station) :
    ((s.placeNotices r ms).port q).state = (s.port q).state :=
  foldl_keeps (fun t : State => (t.port q).state = (s.port q).state) rfl
    fun t m _ h => (state_place t m q r).trans h

@[simp] theorem state_acceptTake (s : State) (p q : Station) (r : Record) (rest : List Record) :
    ((s.acceptTake p r rest).port q).state = (s.port q).state := by
  have h : ((s.takeRecord p r rest).port q).state = (s.port q).state := by
    unfold State.takeRecord
    rw [port_setPool, port_modPort]
    split <;> rfl
  unfold State.acceptTake
  split
  · exact h
  · unfold State.slotTaken
    split
    · simpa using h
    all_goals exact h

@[simp] theorem state_answerUntaken (s : State) (xs : List XNum) (q : Station) :
    ((s.answerUntaken xs).port q).state = (s.port q).state :=
  foldl_keeps (fun t : State => (t.port q).state = (s.port q).state) rfl
    fun _ _ _ h => (state_endExchange ..).trans h

theorem port_changePortState (s : State) (p q : Station) (st : PortState) :
    (s.changePortState p st).port q
      = if q = p then { s.port q with state := st }
        else if (s.port q).state = .reset then s.port q else { s.port q with peerCause := true } := by
  unfold State.changePortState State.latchPeers
  rw [port_mapPorts, port_modPort]
  by_cases h : q = p
  · simp [h]
  · simp [h]

/-- A port other than the one that changes keeps its station, whether or not PEER is latched. -/
theorem sameStation_latched (q : Port) :
    q.SameStation (if q.state = .reset then q else { q with peerCause := true }) := by
  split <;> exact ⟨rfl, rfl, rfl, rfl, rfl, rfl, fun _ => rfl⟩

/-- Recording a fault keeps the station. -/
theorem sameStation_recordFault (q : Port) (kd : FaultKind) (b : Option BufferNo) (w : Offset) :
    q.SameStation (q.recordFault kd b w) := by
  unfold Port.recordFault
  split <;> exact ⟨rfl, rfl, rfl, rfl, rfl, rfl, fun _ => rfl⟩

namespace Kept

variable {Inv : State → Prop} (k : Kept Inv)
include k

/-- Recording a fault is a change of registers. -/
theorem modFault {s : State} (h : Inv s) (p : Station) (kd : FaultKind) (b : Port → Option BufferNo)
    (w : Offset) : Inv (s.modPort p fun q => q.recordFault kd (b q) w) :=
  k.modRegisters h p (fun q => q.recordFault kd (b q) w) (sameStation_recordFault ..)

/-- Every command and event keeps what its effects keep. -/
theorem exec {s t : State} {i : Instr} (h : Inv s) (ht : Machine.exec i s = .next t) : Inv t := by
  have next_inj : ∀ {u : State}, (Host.Outcome.next u : Host.Outcome State Fault Refusal) = .next t → u = t :=
    fun e => by injection e
  cases i with
  | post p =>
    rw [← next_inj ht]
    refine k.takeCommand h p _ _ fun s' ps hr hv => ?_
    unfold postVerdict at hv
    split at hv
    · cases hv
    · next plan hp => cases hv; exact ⟨k.post s p plan h hp, by simpa using hr⟩
  | reply p =>
    rw [← next_inj ht]
    refine k.takeCommand h p _ _ fun s' ps hr hv => ?_
    unfold replyVerdict at hv
    split at hv
    · cases hv
    · next ps' hp => cases hv; exact ⟨k.reply s p ps' h hp, by simpa using hr⟩
  | cancel p =>
    rw [← next_inj ht]
    refine k.takeCommand h p _ _ fun s' ps hr hv => ?_
    unfold cancelVerdict at hv
    split at hv
    · cases hv
    · next hc =>
      split at hv
      · cases hv
      · next i hi => cases hv; exact ⟨k.cancel s p _ i h (by simpa using hc) hi, by simpa using hr⟩
  | notify p =>
    rw [← next_inj ht]
    refine k.takeCommand h p _ _ fun s' ps hr hv => ?_
    unfold notifyVerdict at hv
    split at hv
    · cases hv
    · next ps' hps =>
      split at hv
      · cases hv
      · next hon =>
        split at hv
        · cases hv
        · cases hv
        · next set v hroute =>
          split at hv
          · cases hv
          · next hok =>
            cases hv
            exact ⟨k.notify s p ps' set v h hps (by simpa using hon) hroute hok, by simpa using hr⟩
  | take p =>
    rw [← next_inj ht]
    refine k.takeCommand h p _ _ fun s' ps hr hv => ?_
    unfold takeVerdict at hv
    split at hv
    · cases hv
    · next hc =>
      split at hv
      · cases hv
      · next r rest hin =>
        cases hv
        exact ⟨k.take s p r rest h (by simpa using hc) hin, by simpa using hr⟩
  | acquire p =>
    rw [← next_inj ht]
    refine k.takeCommand h p _ _ fun s' ps hr hv => ?_
    unfold acquireVerdict at hv
    split at hv
    · cases hv
    · next n hn =>
      have hn' : 1 ≤ n ∧ n ≤ Config.maxChain := by
        unfold acquireParams at hn
        split at hn
        · next hb => cases hn; exact hb
        · cases hn
      split at hv
      · cases hv
      · next hc =>
        split at hv
        · cases hv
        · next hl =>
          split at hv
          · cases hv
          · next hf =>
            cases hv
            exact ⟨k.acquire s p n h (by simpa using hc) hn'.1 hn'.2 (by omega) (by omega), hr⟩
  | release p =>
    rw [← next_inj ht]
    refine k.takeCommand h p _ _ fun s' ps hr hv => ?_
    unfold releaseVerdict at hv
    split at hv
    · cases hv
    · next b hb =>
      split at hv
      · cases hv
      · next hc =>
        split at hv
        · cases hv
        · next hh =>
          cases hv
          exact ⟨k.release s p b h (by simpa using hc) (by simpa using hh), hr⟩
  | append p =>
    rw [← next_inj ht]
    refine k.takeCommand h p _ _ fun s' ps hr hv => ?_
    unfold appendVerdict at hv
    split at hv
    · cases hv
    · next a b hab =>
      have hne : a ≠ b := by
        unfold appendParams at hab
        split at hab
        · split at hab
          · cases hab
          · next hne => cases hab; exact hne
        · cases hab
      split at hv
      · cases hv
      · next hc =>
        split at hv
        · cases hv
        · next ha =>
          split at hv
          · cases hv
          · next hb =>
            split at hv
            · cases hv
            · next hl =>
              cases hv
              exact ⟨k.append s p a b h (by simpa using hc) hne (by simpa using ha) (by simpa using hb)
                (by omega), hr⟩
  | scrub p =>
    rw [← next_inj ht]
    refine k.takeCommand h p _ _ fun s' ps hr hv => ?_
    unfold scrubVerdict at hv
    split at hv
    · cases hv
    · next hc =>
      split at hv
      · cases hv
      · next b rest hd =>
        split at hv
        · cases hv
        · next hb =>
          cases hv
          exact ⟨k.scrub s p b rest h (by simpa using hc) hd (by simpa using hb), hr⟩
  | setRoute p =>
    rw [← next_inj ht]
    refine k.takeCommand h p _ _ fun s' ps hr hv => ?_
    unfold setRouteVerdict at hv
    split at hv
    · cases hv
    · next v e he =>
      cases hv
      exact ⟨k.setRoute s p v e h hr (.inl he), by simpa [State.setRoute] using hr⟩
  | clearRoute p =>
    rw [← next_inj ht]
    refine k.takeCommand h p _ _ fun s' ps hr hv => ?_
    unfold clearRouteVerdict at hv
    split at hv
    · cases hv
    · next v e =>
      cases hv
      exact ⟨k.setRoute s p v _ h hr (.inr rfl), by simpa [State.setRoute] using hr⟩
  | setAdmit p =>
    rw [← next_inj ht]
    refine k.takeCommand h p _ _ fun s' ps hr hv => ?_
    unfold setAdmitVerdict at hv
    split at hv
    · cases hv
    · next v set he =>
      cases hv
      exact ⟨k.setAdmit s p v set h hr he, by simpa [State.setAdmit] using hr⟩
  | flip p =>
    rw [← next_inj ht]
    refine k.takeCommand h p _ _ fun s' ps hr hv => ?_
    cases hv
    exact ⟨k.modRegisters h p _ ⟨rfl, rfl, rfl, rfl, rfl, rfl, fun _ => rfl⟩, by simpa using hr⟩
  | join p =>
    rw [← next_inj ht]
    refine k.takeCommand h p _ _ fun s' ps hr hv => ?_
    unfold joinVerdict at hv
    split at hv
    · next ho => cases hv; exact ⟨k.join s p h ho, by simp [port_changePortState]⟩
    all_goals cases hv
  | leave p =>
    rw [← next_inj ht]
    refine k.takeCommand h p _ _ fun s' ps hr hv => ?_
    unfold leaveVerdict at hv
    split at hv
    · next ho => cases hv; exact ⟨k.leave s p h ho, by simp [port_changePortState]⟩
    all_goals cases hv
  | ackFault p =>
    rw [← next_inj ht]
    refine k.takeCommand h p _ _ fun s' ps hr hv => ?_
    cases hv
    exact ⟨k.modRegisters h p _ ⟨rfl, rfl, rfl, rfl, rfl, rfl, fun _ => rfl⟩, by simpa using hr⟩
  | badCommand p =>
    rw [← next_inj ht]
    exact k.takeAccess h p _ _ (fun _ _ _ => k.setResult h p _ _ _) fun _ e => by
      simpa [State.setResult] using e
  | windowSelect p =>
    rw [← next_inj ht]
    exact k.takeAccess h p _ _
      (fun _ _ _ => by
        dsimp only [State.setWindowSelect]
        exact k.modRegisters h p _ ⟨rfl, rfl, rfl, rfl, rfl, rfl, fun _ => rfl⟩)
      fun _ e => by simpa [State.setWindowSelect] using e
  | windowStep p =>
    rw [← next_inj ht]
    exact k.takeAccess h p _ _
      (fun _ _ _ => by
        dsimp only [State.setWindowSelect]
        exact k.modRegisters h p _ ⟨rfl, rfl, rfl, rfl, rfl, rfl, fun _ => rfl⟩)
      fun _ e => by simpa [State.setWindowSelect] using e
  | bufferWindowRead p =>
    rw [← next_inj ht]
    refine k.takeAccess h p _ _ (fun a _ _ => ?_) fun a e => ?_
    · split
      · exact h
      · unfold State.bufferRead
        split
        · exact k.modFault h p _ _ _
        · next b hb =>
          split
          · exact h
          · exact k.modFault (k.parity s p b h hb) p .parity (fun _ => some b) _
    · revert e
      split
      · exact id
      · unfold State.bufferRead
        split
        · intro e; simpa [State.accessFault, (sameStation_recordFault ..).1] using e
        · split
          · exact id
          · intro e; simpa [State.parityFault, (sameStation_recordFault ..).1] using e
  | bufferWindowWrite p =>
    rw [← next_inj ht]
    refine k.takeAccess h p _ _ (fun a _ _ => ?_) fun a e => ?_
    · split
      · exact h
      · unfold State.bufferWrite
        split
        · exact k.modFault h p _ _ _
        · exact k.memory s _ _ _ h
    · revert e
      split
      · exact id
      · unfold State.bufferWrite
        split
        · intro e; simpa [State.accessFault, (sameStation_recordFault ..).1] using e
        · exact id
  | attentionCauseWrite p =>
    rw [← next_inj ht]
    exact k.takeAccess h p _ _
      (fun _ _ _ => by
        dsimp only [State.setWindowSelect]
        exact k.modRegisters h p _ ⟨rfl, rfl, rfl, rfl, rfl, rfl, fun _ => rfl⟩)
      fun _ e => by simpa [Port.clearCauses] using e
  | attentionEnableWrite p =>
    rw [← next_inj ht]
    exact k.takeAccess h p _ _
      (fun _ hr _ => by
        dsimp only [State.setWindowSelect]
        exact k.modRegisters h p _ ⟨rfl, rfl, rfl, rfl, rfl, rfl, fun e => absurd e hr⟩)
      fun _ e => by simpa using e
  | tickLowRead p =>
    rw [← next_inj ht]
    exact k.takeAccess h p _ _
      (fun _ _ _ => by
        dsimp only [State.setWindowSelect]
        exact k.modRegisters h p _ ⟨rfl, rfl, rfl, rfl, rfl, rfl, fun _ => rfl⟩)
      fun _ e => by simpa using e
  | windowWordWrite p =>
    rw [← next_inj ht]
    refine k.takeAccess h p _ _ (fun a _ _ => ?_) fun a e => ?_
    · unfold State.writeWord
      split
      · split
        · exact h
        · next i _ =>
          exact k.modRegisters h p (fun q => { q with params := q.params.set i _ })
            ⟨rfl, rfl, rfl, rfl, rfl, rfl, fun _ => rfl⟩
      · exact h
    · revert e
      unfold State.writeWord
      split
      · split
        · exact id
        · intro e; simpa using e
      · exact id
  | accessBegin p lines timing =>
    rw [← next_inj ht]
    split
    · exact k.settle (k.modRegisters h p _ ⟨rfl, rfl, rfl, rfl, rfl, rfl, fun _ => rfl⟩) p
    · exact h
  | accessEnd p lines =>
    rw [← next_inj ht]
    split
    · exact h
    · have hl : Inv (s.modPort p fun q => { q with lines := lines }) :=
        k.modRegisters h p _ ⟨rfl, rfl, rfl, rfl, rfl, rfl, fun _ => rfl⟩
      have hidle := k.access _ p .idle hl (.inr (.inl rfl))
      have hu : ∀ f, f (s.port p) = { s.port p with lines := lines, access := .idle } →
          Inv (s.modPort p f) := fun f hf => by
        have e : s.modPort p f = (s.modPort p fun q => { q with lines := lines }).withAccess p .idle := by
          simp [State.withAccess, State.modPort, hf]
        rw [e]
        exact hidle
      cases ha : (s.port p).access with
      | pending a e => rw [modPort_id s p (by simp [Port.ended, ha])]; exact h
      | answered d => exact hu _ (by simp [Port.ended, ha])
      | abandoned => exact hu _ (by simp [Port.ended, ha])
      | idle => exact hu _ (by simp only [Port.ended, ha])
  | tick =>
    rw [← next_inj ht]
    cases hp : s.phase with
    | running => exact k.ticked s h hp
    | masterReset => simpa [State.ticked, hp] using h
    | initPass => simpa [State.ticked, hp] using h
  | expiry slot =>
    rw [← next_inj ht]
    unfold State.expireIfDue
    split
    · next hd => exact k.expiry s slot h hd
    · exact h
  | scrubCompletion rb =>
    rw [← next_inj ht]
    unfold State.scrubCompleted
    split
    · next hb =>
      split
      · exact h
      · next b hbuf =>
        refine k.modRegisters (k.scrubDone s b rb h hb hbuf) _ _ ?_
        split <;> exact ⟨rfl, rfl, rfl, rfl, rfl, rfl, fun _ => rfl⟩
    · exact h
  | drainCompletion p =>
    rw [← next_inj ht]
    by_cases hd : s.drained p = true
    · exact k.drained s p h hd
    · simpa [State.drainCompleted, hd] using h
  | teardown p =>
    rw [← next_inj ht]
    refine k.modRegisters ?_ p _ ⟨rfl, rfl, rfl, rfl, rfl, rfl, fun _ => rfl⟩
    split
    · exact h
    · next hr => exact k.teardown s p h hr
  | stationResetReleased p =>
    rw [← next_inj ht]
    have h' : Inv (s.setResetInput p false) :=
      k.modRegisters h p _ ⟨rfl, rfl, rfl, rfl, rfl, rfl, fun _ => rfl⟩
    unfold State.leaveReset
    split
    · next hc => exact k.settle (k.leaveReset _ p h' hc.1 hc.2) p
    · exact h'
  | masterReset => rw [← next_inj ht]; exact k.masterReset s h
  | masterResetEnds straps =>
    rw [← next_inj ht]
    cases hp : s.phase with
    | masterReset => exact k.masterResetEnded s straps h hp
    | initPass => simpa [State.masterResetEnded, hp] using h
    | running => simpa [State.masterResetEnded, hp] using h
  | endOfInitialisationPass =>
    rw [← next_inj ht]
    cases hp : s.phase with
    | initPass =>
      simp only [State.passEnded, hp]
      exact foldl_keeps Inv (k.portsLeaveReset s h hp) fun u p _ hu => k.settle hu p
    | masterReset => simpa [State.passEnded, hp] using h
    | running => simpa [State.passEnded, hp] using h
  | badParity b w d =>
    rw [← next_inj ht]
    exact k.memory s b w _ h
  | accessEndedEarly p lines =>
    rw [← next_inj ht]
    split
    · exact h
    · cases ha : (s.port p).access with
      | pending a e =>
        have hl : Inv (s.modPort p fun q => { q with lines := lines }) :=
          k.modRegisters h p _ ⟨rfl, rfl, rfl, rfl, rfl, rfl, fun _ => rfl⟩
        have hp := k.access _ p (.pending a true) hl
          (.inr (.inr (.inr ⟨a, e, true, by simpa using ha, rfl⟩)))
        have he : s.modPort p (fun q => q.endedEarly lines)
            = (s.modPort p fun q => { q with lines := lines }).withAccess p (.pending a true) := by
          simp [State.withAccess, State.modPort, Port.endedEarly, ha]
        rw [he]
        exact hp
      | answered d => rw [modPort_id s p (by simp [Port.endedEarly, ha])]; exact h
      | abandoned => rw [modPort_id s p (by simp [Port.endedEarly, ha])]; exact h
      | idle => rw [modPort_id s p (by simp [Port.endedEarly, ha])]; exact h

/-- Every step keeps what the effects keep. -/
theorem step {s t : State} (h : Inv s) (ht : Machine.step s = .next t) : Inv t := by
  unfold Machine.step at ht
  split at ht
  · injection ht with ht
    exact ht ▸ k.idle h
  · exact k.exec (k.queue s _ h) ht

end Kept

end Sys2Proof.Machine
end

