-- ==== Sys2Proof/Laws/Effects.lean ====
section
/-! SUPPORT. What each accepted command has established, and what it does to each field. -/

namespace Sys2Proof.Machine

/-! ## POST -/

/-- What a POST that has passed its thirteen checks has established (R23). -/
theorem postCheck_ok {s : State} {p : Station} {plan : PostPlan} (h : s.postCheck p = .ok plan) :
    postParams (s.port p).params = some plan.params ∧ (s.port p).state = .online
    ∧ (∃ m, (s.port p).routes[plan.params.service] = .request plan.dest plan.service plan.timeout m
        ∧ plan.params.payload.len ≤ m)
    ∧ s.pool.payloadFits p plan.params.payload = true
    ∧ s.pool.payloadDamaged plan.params.payload = false
    ∧ s.findTag p plan.params.tag = none ∧ (s.port plan.dest).state = .online
    ∧ s.admitted p plan.dest plan.service = true ∧ s.requesterCount p < Config.requesterCap
    ∧ s.lowestFree = some plan.slot ∧ s.hasRoom p = true ∧ s.hasRoom plan.dest = true := by
  unfold State.postCheck at h
  split at h
  · cases h
  · next ps hps =>
    split at h
    · cases h
    · next hon =>
      split at h
      · cases h
      · cases h
      · next d v t m hr =>
        split at h
        · cases h
        · next hlen =>
          split at h
          · cases h
          · next hfit =>
            split at h
            · cases h
            · next hdam =>
              unfold State.postCapacity at h
              split at h
              · cases h
              · next htag =>
                split at h
                · cases h
                · next hdon =>
                  split at h
                  · cases h
                  · next hadm =>
                    split at h
                    · cases h
                    · next hcap =>
                      split at h
                      · cases h
                      · next i hi =>
                        split at h
                        · cases h
                        · next hown =>
                          split at h
                          · cases h
                          · next hdest =>
                            cases h
                            refine ⟨hps, by simpa using hon, ⟨m, hr, not_lt.mp hlen⟩, by simpa using hfit,
                              by simpa using hdam, by simpa using htag, by simpa using hdon,
                              by simpa using hadm, not_le.mp hcap, hi, by simpa using hown,
                              by simpa using hdest⟩

theorem slot_acceptPost (s : State) (p : Station) (plan : PostPlan) (j : SlotNo) :
    (s.acceptPost p plan).slot j = if j = plan.slot then s.postSlot p plan else s.slot j :=
  slot_setSlot ..

@[simp] theorem acceptPost_pool (s : State) (p : Station) (plan : PostPlan) :
    (s.acceptPost p plan).pool = s.pool.attachChain plan.params.payload.chain := rfl
@[simp] theorem acceptPost_tickCount (s : State) (p : Station) (plan : PostPlan) :
    (s.acceptPost p plan).tickCount = s.tickCount := rfl
@[simp] theorem acceptPost_phase (s : State) (p : Station) (plan : PostPlan) :
    (s.acceptPost p plan).phase = s.phase := rfl

/-- An accepted POST places one record, opens one journal record and changes nothing else of any port. -/
theorem port_acceptPost (s : State) (p : Station) (plan : PostPlan) (q : Station) :
    (s.acceptPost p plan).port q = { s.port q with
      inbox := if q = plan.dest then (s.port q).inbox ++ [s.postRecord p plan] else (s.port q).inbox
      journal := if q = p then (s.port q).journal.opening (s.postJournalHead plan) else (s.port q).journal
      journalCause := if q = p then
          (s.port q).journalCause || decide ((s.port q).journal.nextRef.index = 31)
        else (s.port q).journalCause } := by
  unfold State.acceptPost
  rw [port_openRecord, port_setPool, port_place, port_setSlot]
  split <;> split <;> simp_all

/-! ## REPLY -/

/-- What a REPLY that has passed its five checks has established (R30). -/
theorem replyCheck_ok {s : State} {p : Station} {ps : ReplyParams} (h : s.replyCheck p = .ok ps) :
    replyParams (s.port p).params = some ps ∧ (s.port p).connected = true
    ∧ s.replyMatches p ps.x = true ∧ s.pool.payloadFits p ps.payload = true
    ∧ s.pool.payloadDamaged ps.payload = false := by
  unfold State.replyCheck at h
  split at h
  · cases h
  · next ps' hps =>
    split at h
    · cases h
    · next hc =>
      split at h
      · cases h
      · next hm =>
        split at h
        · cases h
        · next hf =>
          split at h
          · cases h
          · next hd =>
            cases h
            exact ⟨hps, by simpa using hc, by simpa using hm, by simpa using hf, by simpa using hd⟩

theorem replyMatches_iff {s : State} {p : Station} {x : XNum} : s.replyMatches p x = true ↔
    (s.slot x.slot).state = .taken ∧ (s.slot x.slot).gen = x.gen ∧ (s.slot x.slot).dest = p := by
  simp [State.replyMatches, and_assoc]

theorem connected_iff {q : Port} : q.connected = true ↔ q.state = .online ∨ q.state = .draining := by
  unfold Port.connected
  cases q.state <;> simp

/-- Buffers of an undamaged payload carry clear flags. -/
theorem payloadDamaged_false {pool : Pool} {pl : Payload} {h : BufferNo}
    (hd : pool.payloadDamaged pl = false) (hc : pl.chain = some h) :
    ∀ b ∈ pool.chain h, (pool.desc b).damaged = false := by
  simpa [Pool.payloadDamaged, hc, Pool.chainDamaged] using hd

/-! ## NOTIFY -/

/-- Where no member is refused, every member passes its three checks (R40). -/
theorem firstRefusal_none {s : State} {p : Station} {v : Service} {ms : List Station} :
    s.firstRefusal p v ms = none ↔ ∀ m ∈ ms, s.memberCheck p v m = none := by
  induction ms with
  | nil => simp [State.firstRefusal]
  | cons m rest ih =>
    unfold State.firstRefusal
    split
    · next r hr => simp [hr]
    · next hr => simp [hr, ih]

theorem memberCheck_none {s : State} {p m : Station} {v : Service} : s.memberCheck p v m = none ↔
    (s.port m).state = .online ∧ s.admitted p m v = true ∧ s.hasRoom m = true := by
  unfold State.memberCheck
  split
  · simp_all
  · split
    · simp_all
    · split <;> simp_all

theorem membersOf_nodup (set : StationSet) : (membersOf set).Nodup :=
  (List.nodup_finRange 4).filter _

/-- One notice joins the inbox of each member, and nothing else changes (R41). -/
theorem port_placeNotices (s : State) (r : Record) {ms : List Station} (h : ms.Nodup) (q : Station) :
    (s.placeNotices r ms).port q = { s.port q with
      inbox := if q ∈ ms then (s.port q).inbox ++ [r] else (s.port q).inbox } := by
  induction ms generalizing s with
  | nil => simp [State.placeNotices]
  | cons m rest ih =>
    rw [List.nodup_cons] at h
    have := ih (s.place m r) h.2
    simp only [State.placeNotices, List.foldl_cons] at this ⊢
    rw [this, port_place]
    by_cases hq : q = m
    · subst hq; simp [h.1]
    · simp [hq]

theorem placeNotices_rest (s : State) (r : Record) (ms : List Station) :
    (s.placeNotices r ms).slots = s.slots ∧ (s.placeNotices r ms).pool = s.pool
    ∧ (s.placeNotices r ms).tickCount = s.tickCount ∧ (s.placeNotices r ms).phase = s.phase :=
  foldl_keeps (fun t : State => t.slots = s.slots ∧ t.pool = s.pool ∧ t.tickCount = s.tickCount
    ∧ t.phase = s.phase) ⟨rfl, rfl, rfl, rfl⟩ fun _ _ _ h => h

/-! ## TAKE -/

/-- The slot that an accepted TAKE moves to TAKEN, where it finds it OPEN (R53). -/
def takenSlot (s : State) (p : Station) (r : Record) (j : SlotNo) : Slot :=
  match r.requestOf with
  | none => s.slot j
  | some x =>
    if j = x.slot ∧ (s.slot j).state = .opened then
      { s.slot j with state := .taken, respRef := some (s.port p).journal.nextRef }
    else s.slot j

theorem slot_acceptTake (s : State) (p : Station) (r : Record) (rest : List Record) (j : SlotNo) :
    (s.acceptTake p r rest).slot j = takenSlot s p r j := by
  have hslot : ∀ k, (s.takeRecord p r rest).slot k = s.slot k := fun k => rfl
  unfold State.acceptTake takenSlot
  cases hr : r.requestOf with
  | none => rfl
  | some x =>
    have hj : ((s.takeRecord p r rest).port p).journal = (s.port p).journal := by simp [State.takeRecord]
    unfold State.slotTaken
    simp only [hslot, hj]
    by_cases hjx : j = x.slot
    · subst hjx
      split
      · next ho => simp only [ho, and_self, if_true]; exact slot_setSlot_self ..
      all_goals next ho => simp [ho, hslot]
    · rw [if_neg fun h => hjx h.1]
      split
      · exact slot_setSlot_ne _ _ hjx
      all_goals rfl

@[simp] theorem acceptTake_pool (s : State) (p : Station) (r : Record) (rest : List Record) :
    (s.acceptTake p r rest).pool = s.pool.takeUpChain p r.chain := by
  unfold State.acceptTake
  split
  · rfl
  · unfold State.slotTaken; split <;> rfl

@[simp] theorem acceptTake_tickCount (s : State) (p : Station) (r : Record) (rest : List Record) :
    (s.acceptTake p r rest).tickCount = s.tickCount := by
  unfold State.acceptTake
  split
  · rfl
  · unfold State.slotTaken; split <;> rfl

@[simp] theorem acceptTake_phase (s : State) (p : Station) (r : Record) (rest : List Record) :
    (s.acceptTake p r rest).phase = s.phase := by
  unfold State.acceptTake
  split
  · rfl
  · unfold State.slotTaken; split <;> rfl

theorem port_acceptTake_ne (s : State) {p q : Station} (r : Record) (rest : List Record) (h : q ≠ p) :
    (s.acceptTake p r rest).port q = s.port q := by
  have h1 : (s.takeRecord p r rest).port q = s.port q := by
    unfold State.takeRecord
    rw [port_setPool, port_modPort_ne _ _ h]
  unfold State.acceptTake
  split
  · exact h1
  · unfold State.slotTaken
    split
    · rw [port_openRecord, if_neg h, port_setSlot]; exact h1
    all_goals exact h1

/-- Of the taker's port, an accepted TAKE changes the inbox, the view and the journal with its cause. -/
theorem port_acceptTake_self (s : State) (p : Station) (r : Record) (rest : List Record) :
    (s.acceptTake p r rest).port p = { s.port p with
      inbox := rest
      view := some r
      journal := ((s.acceptTake p r rest).port p).journal
      journalCause := ((s.acceptTake p r rest).port p).journalCause } := by
  have h1 : (s.takeRecord p r rest).port p = { s.port p with inbox := rest, view := some r } := by
    simp [State.takeRecord]
  unfold State.acceptTake
  split
  · rw [h1]
  · unfold State.slotTaken
    split
    · rw [port_openRecord, if_pos rfl, port_setSlot, h1]
    all_goals rw [h1]

/-! ## Port state changes -/

@[simp] theorem changePortState_slots (s : State) (p : Station) (st : PortState) :
    (s.changePortState p st).slots = s.slots := rfl
@[simp] theorem changePortState_pool (s : State) (p : Station) (st : PortState) :
    (s.changePortState p st).pool = s.pool := rfl
@[simp] theorem changePortState_tickCount (s : State) (p : Station) (st : PortState) :
    (s.changePortState p st).tickCount = s.tickCount := rfl
@[simp] theorem changePortState_phase (s : State) (p : Station) (st : PortState) :
    (s.changePortState p st).phase = s.phase := rfl

@[simp] theorem changePortState_slot (s : State) (p : Station) (st : PortState) (i : SlotNo) :
    (s.changePortState p st).slot i = s.slot i := rfl

/-! ## Several endings in one event -/

/-- What each ending with PEER_GONE keeps, the answers of a LEAVE keep (R127). -/
theorem answerUntaken_keeps (P : State → Prop) {s : State} (xs : List XNum) (h : P s)
    (hs : ∀ u i, P u → P (u.endExchange i (.lapsed .peerGone))) : P (s.answerUntaken xs) :=
  foldl_keeps P h fun u x _ hu => hs u x.slot hu

/-- A tick raises the count and then ends the due slots (R105). -/
theorem ticked_of_running {s : State} (h : s.phase = .running) :
    s.ticked = (List.finRange 48).foldl State.expireIfDue { s with tickCount := s.tickCount + 1 } := by
  unfold State.ticked
  rw [h]

theorem expireIfDue_cases (s : State) (i : SlotNo) :
    s.expireIfDue i = s ∧ s.due i = false
    ∨ s.due i = true ∧ s.expireIfDue i = s.endExchange i (.lapsed .expired) := by
  unfold State.expireIfDue
  cases s.due i
  · exact .inl ⟨rfl, rfl⟩
  · exact .inr ⟨rfl, rfl⟩

theorem due_iff {s : State} {i : SlotNo} :
    s.due i = true ↔ (s.slot i).state ≠ .free ∧ (s.slot i).deadline = s.tickCount := by
  simp [State.due]

/-- What the raised count and each expiry keep, a tick keeps (R105). -/
theorem ticked_keeps (P : State → Prop) {s : State} (hp : s.phase = .running)
    (h : P { s with tickCount := s.tickCount + 1 })
    (hs : ∀ u i, P u → u.due i = true → P (u.endExchange i (.lapsed .expired))) : P s.ticked := by
  rw [ticked_of_running hp]
  generalize List.finRange 48 = l
  refine foldl_keeps P h fun u i _ hu => ?_
  rcases expireIfDue_cases u i with ⟨e, -⟩ | ⟨hd, e⟩ <;> rw [e]
  · exact hu
  · exact hs u i hu hd

/-- After a tick no slot is due: what was due has been ended (R105). -/
theorem ticked_slot {s : State} (hp : s.phase = .running) (i : SlotNo) :
    s.ticked.slot i = if (s.slot i).state ≠ .free ∧ (s.slot i).deadline = s.tickCount + 1 then
      Slot.freeIn ((s.slot i).gen + 1) else s.slot i := by
  have hstep : ∀ (l : List SlotNo) (u : State), l.Nodup →
      (l.foldl State.expireIfDue u).slot i = if i ∈ l ∧ u.due i = true then
        Slot.freeIn ((u.slot i).gen + 1) else u.slot i := by
    intro l
    induction l with
    | nil => intro u _; simp
    | cons j rest ih =>
      intro u hl
      rw [List.nodup_cons] at hl
      rw [List.foldl_cons, ih _ hl.2]
      by_cases hij : i = j
      · subst hij
        rw [if_neg fun h => hl.1 h.1]
        rcases expireIfDue_cases u i with ⟨e, hd⟩ | ⟨hd, e⟩ <;> rw [e]
        · simp [hd]
        · rw [slot_endExchange _ (due_iff.mp hd).1]; simp [hd]
      · have hs : (u.expireIfDue j).slot i = u.slot i ∧ (u.expireIfDue j).due i = u.due i := by
          rcases expireIfDue_cases u j with ⟨e, -⟩ | ⟨-, e⟩ <;> rw [e]
          · exact ⟨rfl, rfl⟩
          · have := slot_endExchange_ne (s := u) (.lapsed .expired) hij
            exact ⟨this, by simp [State.due, this]⟩
        simp [hs, hij]
  rw [ticked_of_running hp, hstep _ _ (List.nodup_finRange 48)]
  have hm : i ∈ List.finRange 48 := List.mem_finRange i
  have hd : State.due { s with tickCount := s.tickCount + 1 } i = true
      ↔ (s.slot i).state ≠ .free ∧ (s.slot i).deadline = s.tickCount + 1 := due_iff
  simp only [hm, true_and, hd]
  rfl

@[simp] theorem ticked_tickCount {s : State} (hp : s.phase = .running) :
    s.ticked.tickCount = s.tickCount + 1 :=
  ticked_keeps (fun u => u.tickCount = s.tickCount + 1) hp rfl fun _ _ hu _ => by
    rw [endExchange_tickCount]; exact hu

/-! ## A port put in RESET (R133 step 4, R142) -/

@[simp] theorem toReset_state (q : Port) : q.toReset.state = .reset := rfl
@[simp] theorem toReset_access (q : Port) : q.toReset.access = q.abandonAccess := rfl
@[simp] theorem toReset_inbox (q : Port) : q.toReset.inbox = [] := rfl
@[simp] theorem toReset_view (q : Port) : q.toReset.view = none := rfl
@[simp] theorem toReset_enables (q : Port) : q.toReset.enables = 0 := rfl
@[simp] theorem toReset_journal (q : Port) : q.toReset.journal = Journal.clear := rfl
@[simp] theorem toReset_fault (q : Port) : q.toReset.fault = none := rfl
@[simp] theorem toReset_windowSelect (q : Port) : q.toReset.windowSelect = none := rfl
@[simp] theorem toReset_routes (q : Port) (v : Service) : q.toReset.routes[v] = .none := by
  simp only [Port.toReset, Port.cleared, Fin.getElem_fin, Vector.getElem_replicate]
@[simp] theorem toReset_admits (q : Port) (v : Service) : q.toReset.admits[v] = 0 := by
  simp only [Port.toReset, Port.cleared, Fin.getElem_fin, Vector.getElem_replicate]

/-- A port that is cut off is IDLE or ABANDONED (R142). -/
theorem abandonAccess_cases (q : Port) : q.abandonAccess = .idle ∨ q.abandonAccess = .abandoned := by
  unfold Port.abandonAccess
  split
  · exact .inl rfl
  all_goals split <;> simp

/-! ## Master reset -/

@[simp] theorem port_masterCleared (s : State) (q : Station) :
    (s.masterCleared).port q = (s.port q).toReset := by
  show (s.mapPorts fun _ q => q.toReset).port q = _
  rw [port_mapPorts]
@[simp] theorem slot_masterCleared (s : State) (i : SlotNo) : (s.masterCleared).slot i = Slot.freeIn 0 := by
  simp [State.masterCleared, State.slot]
@[simp] theorem masterCleared_pool (s : State) : (s.masterCleared).pool = Pool.resetOver s.pool.mem := rfl
@[simp] theorem masterCleared_tickCount (s : State) : (s.masterCleared).tickCount = 0 := rfl
@[simp] theorem masterCleared_phase (s : State) : (s.masterCleared).phase = .masterReset := rfl

/-- At the end of the pass every port whose station reset input is not asserted becomes OFFLINE (R137). -/
theorem port_portsLeaveReset (s : State) (q : Station) :
    s.portsLeaveReset.port q
      = if (s.port q).resetInput then s.port q else { s.port q with state := .offline } := by
  unfold State.portsLeaveReset
  rw [port_mapPorts]

/-! ## Teardown -/

@[simp] theorem tearSlot_phase (p : Station) (s : State) (i : SlotNo) :
    (State.tearSlot p s i).phase = s.phase := by
  unfold State.tearSlot
  split
  · rfl
  · split
    · simp
    · split <;> simp

/-- One slot of a teardown is ended or left as it is. -/
theorem tearSlot_cases (p : Station) (s : State) (i : SlotNo) :
    (State.tearSlot p s i = s
      ∧ ((s.slot i).state = .free ∨ (s.slot i).requester ≠ p ∧ (s.slot i).dest ≠ p))
    ∨ (s.slot i).state ≠ .free ∧ (s.slot i).requester = p ∧ State.tearSlot p s i = s.endExchange i .silent
    ∨ (s.slot i).state ≠ .free ∧ (s.slot i).requester ≠ p ∧ (s.slot i).dest = p
      ∧ State.tearSlot p s i = s.endExchange i (.lapsed .peerGone) := by
  unfold State.tearSlot
  split
  · next h => exact .inl ⟨rfl, .inl h⟩
  · next h =>
    split
    · next hr => exact .inr (.inl ⟨h, hr, rfl⟩)
    · next hr =>
      split
      · next hd => exact .inr (.inr ⟨h, hr, hd, rfl⟩)
      · next hd => exact .inl ⟨rfl, .inr ⟨hr, hd⟩⟩

/-- What each single ending keeps, the slots of a teardown keep. -/
theorem tearSlots_keeps (P : State → Prop) {s : State} (p : Station) (h : P s)
    (hs : ∀ u i, P u → (u.slot i).state ≠ .free → (u.slot i).requester = p → P (u.endExchange i .silent))
    (hl : ∀ u i, P u → (u.slot i).state ≠ .free → (u.slot i).requester ≠ p → (u.slot i).dest = p →
      P (u.endExchange i (.lapsed .peerGone))) : P (s.tearSlots p) :=
  foldl_keeps P h fun u i _ hu => by
    rcases tearSlot_cases p u i with ⟨e, -⟩ | ⟨hf, hr, e⟩ | ⟨hf, hr, hd, e⟩ <;> rw [e]
    · exact hu
    · exact hs u i hu hf hr
    · exact hl u i hu hf hr hd

/-- After step 1 of a teardown no non-FREE slot names the station (R133). -/
theorem tearSlots_unnamed (s : State) (p : Station) (i : SlotNo) :
    ((s.tearSlots p).slot i).state = .free
      ∨ ((s.tearSlots p).slot i).requester ≠ p ∧ ((s.tearSlots p).slot i).dest ≠ p := by
  have hstep : ∀ (l : List SlotNo) (u : State),
      (i ∈ l ∨ (u.slot i).state = .free ∨ (u.slot i).requester ≠ p ∧ (u.slot i).dest ≠ p) →
      ((l.foldl (State.tearSlot p) u).slot i).state = .free
        ∨ ((l.foldl (State.tearSlot p) u).slot i).requester ≠ p
          ∧ ((l.foldl (State.tearSlot p) u).slot i).dest ≠ p := by
    intro l
    induction l with
    | nil =>
      rintro u (h | h)
      · cases h
      · exact h
    | cons j rest ih =>
      intro u h
      rw [List.foldl_cons]
      apply ih
      by_cases hij : i = j
      · right
        subst hij
        rcases tearSlot_cases p u i with ⟨e, hk⟩ | ⟨hf, hr, e⟩ | ⟨hf, hr, hd, e⟩ <;> rw [e]
        · exact hk
        · exact .inl (free_endExchange ..)
        · exact .inl (free_endExchange ..)
      · have hsame : (State.tearSlot p u j).slot i = u.slot i := by
          rcases tearSlot_cases p u j with ⟨e, -⟩ | ⟨-, -, e⟩ | ⟨-, -, -, e⟩ <;> rw [e]
          · exact slot_endExchange_ne _ hij
          · exact slot_endExchange_ne _ hij
        rcases h with h | h
        · rcases List.mem_cons.mp h with h | h
          · exact absurd h hij
          · exact .inl h
        · right; rw [hsame]; exact h
  exact hstep _ s (.inl (List.mem_finRange i))

/-- What a teardown leaves of the ports: the torn port in RESET, PEER at the others (R133, R138). -/
theorem port_tearPort (s : State) (p q : Station) :
    (s.tearPort p).port q = if q = p then (s.port p).toReset
      else if (s.port q).state = .reset then s.port q else { s.port q with peerCause := true } := by
  unfold State.tearPort State.latchPeers
  rw [port_mapPorts, port_modPort]
  by_cases h : q = p
  · subst h; simp
  · simp [h]

theorem port_discardInbox (s : State) (p q : Station) :
    (s.discardInbox p).port q = if q = p then { s.port q with inbox := [] } else s.port q := by
  unfold State.discardInbox
  rw [port_setPool, port_modPort]

@[simp] theorem discardInbox_slot (s : State) (p : Station) (i : SlotNo) :
    (s.discardInbox p).slot i = s.slot i := rfl
@[simp] theorem tearPort_slot (s : State) (p : Station) (i : SlotNo) :
    (s.tearPort p).slot i = s.slot i := rfl
@[simp] theorem tearPort_pool (s : State) (p : Station) :
    (s.tearPort p).pool = s.pool.releaseHeld p := rfl
@[simp] theorem discardInbox_pool (s : State) (p : Station) :
    (s.discardInbox p).pool
      = (s.port p).inbox.foldl (fun pool r => pool.discard r.chain) s.pool := rfl

/-- The ports after a teardown: the torn port is cleared, the others have lost or gained records, journal
closes and the PEER latch only (R133). -/
theorem port_tornDown (s : State) (p q : Station) :
    (s.tornDown p).port q
      = if q = p then (((s.tearSlots p).discardInbox p).port p).toReset
        else if ((s.tearSlots p).port q).state = .reset then (s.tearSlots p).port q
        else { (s.tearSlots p).port q with peerCause := true } := by
  unfold State.tornDown
  rw [port_tearPort]
  by_cases h : q = p
  · rw [if_pos h, if_pos h]
  · rw [if_neg h, if_neg h, port_discardInbox, if_neg h]

@[simp] theorem tornDown_slot (s : State) (p : Station) (i : SlotNo) :
    (s.tornDown p).slot i = (s.tearSlots p).slot i := by
  unfold State.tornDown
  rw [tearPort_slot, discardInbox_slot]

theorem tornDown_pool (s : State) (p : Station) :
    (s.tornDown p).pool = (((s.tearSlots p).port p).inbox.foldl
      (fun pool r => pool.discard r.chain) (s.tearSlots p).pool).releaseHeld p := by
  unfold State.tornDown
  rw [tearPort_pool, discardInbox_pool]

theorem tearPort_rest (s : State) (p : Station) : (s.tearPort p).slots = s.slots
    ∧ (s.tearPort p).tickCount = s.tickCount ∧ (s.tearPort p).phase = s.phase := ⟨rfl, rfl, rfl⟩

theorem discardInbox_rest (s : State) (p : Station) : (s.discardInbox p).slots = s.slots
    ∧ (s.discardInbox p).tickCount = s.tickCount ∧ (s.discardInbox p).phase = s.phase := ⟨rfl, rfl, rfl⟩

@[simp] theorem tornDown_slots (s : State) (p : Station) :
    (s.tornDown p).slots = (s.tearSlots p).slots := by
  unfold State.tornDown
  rw [(tearPort_rest ..).1, (discardInbox_rest ..).1]
@[simp] theorem tornDown_tickCount (s : State) (p : Station) :
    (s.tornDown p).tickCount = s.tickCount := by
  unfold State.tornDown
  rw [(tearPort_rest ..).2.1, (discardInbox_rest ..).2.1]
  exact tearSlots_keeps (fun u => u.tickCount = s.tickCount) p rfl
    (fun _ _ hu _ _ => (endExchange_tickCount ..).trans hu)
    (fun _ _ hu _ _ _ => (endExchange_tickCount ..).trans hu)
@[simp] theorem tornDown_phase (s : State) (p : Station) :
    (s.tornDown p).phase = s.phase := by
  unfold State.tornDown
  rw [(tearPort_rest ..).2.2, (discardInbox_rest ..).2.2]
  exact tearSlots_keeps (fun u => u.phase = s.phase) p rfl
    (fun _ _ hu _ _ => (endExchange_phase ..).trans hu)
    (fun _ _ hu _ _ _ => (endExchange_phase ..).trans hu)

/-! ## Drain completion -/

theorem drainCompleted_eq {s : State} {p : Station} (h : s.drained p = true) : s.drainCompleted p
    = ((s.setPool (s.pool.releaseHeld p)).modPort p fun q => { q with view := none }).changePortState p
        .offline := by
  unfold State.drainCompleted
  rw [if_pos h]

@[simp] theorem drainCompleted_slots (s : State) (p : Station) : (s.drainCompleted p).slots = s.slots := by
  by_cases h : s.drained p = true
  · rw [drainCompleted_eq h, changePortState_slots, modPort_slots, setPool_slots]
  · rw [State.drainCompleted, if_neg h]

@[simp] theorem drainCompleted_slot (s : State) (p : Station) (i : SlotNo) :
    (s.drainCompleted p).slot i = s.slot i := by
  simp only [State.slot, drainCompleted_slots]

@[simp] theorem drainCompleted_tickCount (s : State) (p : Station) :
    (s.drainCompleted p).tickCount = s.tickCount := by
  by_cases h : s.drained p = true
  · rw [drainCompleted_eq h, changePortState_tickCount, modPort_tickCount, setPool_tickCount]
  · rw [State.drainCompleted, if_neg h]

@[simp] theorem drainCompleted_phase (s : State) (p : Station) : (s.drainCompleted p).phase = s.phase := by
  by_cases h : s.drained p = true
  · rw [drainCompleted_eq h, changePortState_phase, modPort_phase, setPool_phase]
  · rw [State.drainCompleted, if_neg h]

theorem drainCompleted_pool {s : State} {p : Station} (h : s.drained p = true) :
    (s.drainCompleted p).pool = s.pool.releaseHeld p := by
  rw [drainCompleted_eq h, changePortState_pool, modPort_pool, setPool_pool]

/-- The ports after a drain completion: this port is OFFLINE without a view, the others see PEER (R130). -/
theorem port_drainCompleted {s : State} {p : Station} (h : s.drained p = true) (q : Station) :
    (s.drainCompleted p).port q
      = if q = p then { s.port q with view := none, state := .offline }
        else if (s.port q).state = .reset then s.port q else { s.port q with peerCause := true } := by
  rw [drainCompleted_eq h, port_changePortState]
  by_cases hq : q = p
  · rw [if_pos hq, if_pos hq, port_modPort, if_pos hq, port_setPool]
  · rw [if_neg hq, if_neg hq, port_modPort, if_neg hq, port_setPool]

/-- What the drain condition says (R129). -/
theorem drained_iff {s : State} {p : Station} : s.drained p = true ↔ (s.port p).state = .draining
    ∧ s.requesterCount p = 0 ∧ (∀ i, (s.slot i).state = .taken → (s.slot i).dest ≠ p)
    ∧ (s.port p).inbox = [] := by
  have hall : s.slots.toList.all (fun sl => !(decide (sl.state = .taken) && decide (sl.dest = p))) = true
      ↔ ∀ i, (s.slot i).state = .taken → (s.slot i).dest ≠ p := by
    rw [List.all_eq_true]
    constructor
    · intro h i h1 h2
      have := h (s.slot i) (by simp [State.slot])
      simp [h1, h2] at this
    · intro h sl hsl
      obtain ⟨n, hn, rfl⟩ := List.getElem_of_mem hsl
      have hn' : n < 48 := by simpa using hn
      have e : s.slots.toList[n] = s.slot ⟨n, hn'⟩ := by simp [State.slot]
      have := h ⟨n, hn'⟩
      rw [e]
      by_cases ht : (s.slot ⟨n, hn'⟩).state = .taken
      · simp [this ht]
      · simp [ht]
  unfold State.drained
  simp only [Bool.and_eq_true, decide_eq_true_eq, hall, List.isEmpty_iff, and_assoc]

end Sys2Proof.Machine
end

