-- ==== Sys2Proof/Laws/Params.lean ====
section
/-! SUPPORT. The parameter words, said once: what the readers of Operands.lean take from a block is what the words give,
and they refuse a block exactly where it is malformed (Table 12.3, R163). -/

namespace Sys2Proof.Machine

/-! ## Fields -/

theorem fieldBelow_eq_some {n : Nat} {w : Word} {k : Fin n} : fieldBelow n w = some k ↔ w.toNat = k.val := by
  unfold fieldBelow
  split
  · next h => simp [Fin.ext_iff]
  · next h => exact ⟨nofun, fun e => absurd k.isLt (e ▸ h)⟩

theorem fieldBelow_eq_none {n : Nat} {w : Word} : fieldBelow n w = none ↔ n ≤ w.toNat := by
  unfold fieldBelow
  split
  · next h => simp [h]
  · next h => simp [Nat.le_of_not_lt h]

theorem serviceField_eq_some {w : Word} {v : Service} : serviceField w = some v ↔ w.toNat = v.val :=
  fieldBelow_eq_some

theorem serviceField_eq_none {w : Word} : serviceField w = none ↔ 31 < w.toNat := fieldBelow_eq_none

theorem stationField_eq_some {w : Word} {p : Station} : stationField w = some p ↔ w.toNat = p.val :=
  fieldBelow_eq_some

theorem stationField_eq_none {w : Word} : stationField w = none ↔ 3 < w.toNat := fieldBelow_eq_none

theorem bufferField_eq_some {w : Word} {b : BufferNo} : bufferField w = some b ↔ w.toNat = b.val :=
  fieldBelow_eq_some

theorem bufferField_eq_none {w : Word} : bufferField w = none ↔ 255 < w.toNat := fieldBelow_eq_none

theorem lengthField_eq_some {w : Word} {l : PayloadLen} : lengthField w = some l ↔ w.toNat = l.val :=
  fieldBelow_eq_some

theorem lengthField_eq_none {w : Word} : lengthField w = none ↔ 256 < w.toNat := fieldBelow_eq_none

theorem statusField_eq_some {w : Word} {st : Status} : statusField w = some st ↔ w.toNat = st.toNat := by
  unfold statusField
  split
  · next h => simp [BitVec.toNat_eq, Nat.mod_eq_of_lt h]
  · next h => exact ⟨nofun, fun e => absurd st.isLt (e ▸ h)⟩

theorem statusField_eq_none {w : Word} : statusField w = none ↔ 255 < w.toNat := by
  unfold statusField
  split
  · next h => exact ⟨nofun, fun k => absurd h (by omega)⟩
  · next h => exact ⟨fun _ => by omega, fun _ => rfl⟩

theorem setField_eq_some {w : Word} {set : StationSet} : setField w = some set ↔ w.toNat = set.toNat := by
  unfold setField
  split
  · next h => simp [BitVec.toNat_eq, Nat.mod_eq_of_lt h]
  · next h => exact ⟨nofun, fun e => absurd set.isLt (e ▸ h)⟩

theorem setField_eq_none {w : Word} : setField w = none ↔ 15 < w.toNat := by
  unfold setField
  split
  · next h => exact ⟨nofun, fun k => absurd h (by omega)⟩
  · next h => exact ⟨fun _ => by omega, fun _ => rfl⟩

/-- Slot and generation are the two bytes of the word (R9, R163). -/
theorem xnumField_eq_some {w : Word} {x : XNum} :
    xnumField w = some x ↔ w.toNat = x.slot.val + 256 * x.gen.toNat := by
  have hg : ((w >>> 8).setWidth 8 : Generation).toNat = w.toNat / 256 := by
    have := w.isLt
    simp [Nat.shiftRight_eq_div_pow]
    omega
  have := x.slot.isLt
  unfold xnumField
  split
  · next h =>
    constructor
    · rintro ⟨rfl⟩
      simp only [hg]
      omega
    · intro e
      congr 1
      cases x with
      | mk i g =>
        simp only [XNum.mk.injEq]
        exact ⟨Fin.ext (show w.toNat % 256 = i.val by simp only at e this; omega),
          BitVec.eq_of_toNat_eq (by rw [hg]; simp only at e this; omega)⟩
  · next h => exact ⟨nofun, fun e => absurd (show w.toNat % 256 < 48 by omega) h⟩

theorem xnumField_eq_none {w : Word} : xnumField w = none ↔ 47 < w.toNat % 256 := by
  unfold xnumField
  split
  · next h => exact ⟨nofun, fun k => absurd h (by omega)⟩
  · next h => exact ⟨fun _ => by omega, fun _ => rfl⟩

/-! ## Inline words and payload (R21) -/

theorem inlineField_eq_some {ps : Vector Word 16} {ws : List Word} :
    inlineField ps = some ws ↔ InlineGiven ps ws := by
  unfold inlineField InlineGiven
  split
  · next h => simp only [Option.some.injEq, h, true_and]; exact eq_comm
  · next h => simp [h]

theorem inlineField_eq_none {ps : Vector Word 16} : inlineField ps = none ↔ 4 < ps[2].toNat := by
  unfold inlineField
  split
  · next h => simpa using h
  · next h => simpa using Nat.lt_of_not_le h

theorem chainField_eq_absent {w : Word} : chainField w = some none ↔ w = 0xFFFF := by
  unfold chainField Config.noBuffer
  split <;> simp_all

theorem chainField_eq_buffer {w : Word} {b : BufferNo} : chainField w = some (some b) ↔ w.toNat = b.val := by
  unfold chainField Config.noBuffer
  split
  · next h =>
    subst h
    exact ⟨nofun, fun e => absurd b.isLt (e ▸ by decide)⟩
  · next h => simp [bufferField_eq_some]

theorem chainField_eq_none {w : Word} : chainField w = none ↔ 255 < w.toNat ∧ w ≠ 0xFFFF := by
  unfold chainField Config.noBuffer
  split
  · next h => simp [h]
  · next h => simp [h, bufferField_eq_none]

theorem payloadField_eq_some {ps : Vector Word 16} {pl : Payload} :
    payloadField ps[7] ps[8] = some pl ↔ PayloadGiven ps pl := by
  obtain ⟨l, c⟩ := pl
  unfold PayloadGiven
  rw [← lengthField_eq_some]
  cases c with
  | none =>
    simp only [← chainField_eq_absent]
    unfold payloadField
    cases lengthField ps[7] <;> rcases chainField ps[8] with _ | _ | b <;> simp
    exact ⟨fun ⟨h0, h⟩ => ⟨h, h ▸ h0⟩, fun ⟨h, h0⟩ => ⟨h ▸ h0, h⟩⟩
  | some b =>
    simp only [← chainField_eq_buffer]
    unfold payloadField
    cases lengthField ps[7] <;> rcases chainField ps[8] with _ | _ | b' <;> simp
    have hl : 1 ≤ l.val ↔ ¬ l = 0 := 
      ⟨fun h e => by subst e; exact absurd h (by decide), fun h => Nat.pos_of_ne_zero fun e => h (Fin.ext e)⟩
    rw [hl]
    exact ⟨fun ⟨h0, h, hb⟩ => ⟨h, h ▸ h0, hb⟩, fun ⟨h, h0, hb⟩ => ⟨h ▸ h0, h, hb⟩⟩

theorem payloadField_eq_none {ps : Vector Word 16} : payloadField ps[7] ps[8] = none ↔ PayloadMalformed ps := by
  unfold payloadField PayloadMalformed
  rw [← lengthField_eq_none, ← chainField_eq_none, ← chainField_eq_absent]
  cases h7 : lengthField ps[7] with
  | none => simp
  | some l =>
    have e7 := lengthField_eq_some.mp h7
    rcases h8 : chainField ps[8] with _ | _ | b
    · simp
    · have : ¬ ps[8].toNat ≤ 255 := by rw [chainField_eq_absent.mp h8]; decide
      simp [e7, this, Nat.pos_iff_ne_zero]
    · have : ps[8].toNat ≤ 255 := by have := chainField_eq_buffer.mp h8; have := b.isLt; omega
      simp [e7, this]

/-! ## The blocks -/

theorem postParams_eq_some {ps : Vector Word 16} {g : PostParams} : postParams ps = some g ↔ PostGiven ps g := by
  unfold postParams PostGiven
  rw [← serviceField_eq_some, ← inlineField_eq_some, ← payloadField_eq_some]
  obtain ⟨v, tag, ws, pl⟩ := g
  cases serviceField ps[0] <;> cases inlineField ps <;> cases payloadField ps[7] ps[8] <;> simp

theorem postParams_eq_none {ps : Vector Word 16} : postParams ps = none ↔ PostMalformed ps := by
  unfold postParams PostMalformed
  rw [← serviceField_eq_none, ← inlineField_eq_none, ← payloadField_eq_none]
  cases serviceField ps[0] <;> cases inlineField ps <;> cases payloadField ps[7] ps[8] <;> simp

theorem replyParams_eq_some {ps : Vector Word 16} {g : ReplyParams} : replyParams ps = some g ↔ ReplyGiven ps g := by
  unfold replyParams ReplyGiven
  rw [← xnumField_eq_some, ← statusField_eq_some, ← inlineField_eq_some, ← payloadField_eq_some]
  obtain ⟨x, st, ws, pl⟩ := g
  cases xnumField ps[0] <;> cases statusField ps[1] <;> cases inlineField ps <;> cases payloadField ps[7] ps[8] <;> simp

theorem replyParams_eq_none {ps : Vector Word 16} : replyParams ps = none ↔ ReplyMalformed ps := by
  unfold replyParams ReplyMalformed
  rw [← xnumField_eq_none, ← statusField_eq_none, ← inlineField_eq_none, ← payloadField_eq_none]
  cases xnumField ps[0] <;> cases statusField ps[1] <;> cases inlineField ps <;> cases payloadField ps[7] ps[8] <;> simp

theorem notifyParams_eq_some {ps : Vector Word 16} {g : NotifyParams} :
    notifyParams ps = some g ↔ NotifyGiven ps g := by
  unfold notifyParams NotifyGiven
  rw [← serviceField_eq_some, ← inlineField_eq_some]
  obtain ⟨v, ws⟩ := g
  cases serviceField ps[0] <;> cases inlineField ps <;> simp

theorem notifyParams_eq_none {ps : Vector Word 16} : notifyParams ps = none ↔ NotifyMalformed ps := by
  unfold notifyParams NotifyMalformed
  rw [← serviceField_eq_none, ← inlineField_eq_none]
  cases serviceField ps[0] <;> cases inlineField ps <;> simp

theorem requestRouteParams_eq_none {owner : Station} {ps : Vector Word 16} :
    requestRouteParams owner ps = none ↔
      3 < ps[2].toNat ∨ ps[2].toNat = owner.val ∨ 31 < ps[4].toNat ∨ ps[5].toNat = 0 ∨ 256 < ps[6].toNat := by
  unfold requestRouteParams
  rw [← stationField_eq_none, ← stationField_eq_some, ← serviceField_eq_none, ← lengthField_eq_none,
    show ps[5].toNat = 0 ↔ ps[5] = 0 by simp [BitVec.toNat_eq]]
  cases stationField ps[2] <;> cases serviceField ps[4] <;> cases lengthField ps[6] <;>
    simp [or_iff_not_imp_left]

theorem noticeRouteParams_eq_none {owner : Station} {ps : Vector Word 16} :
    noticeRouteParams owner ps = none ↔
      15 < ps[3].toNat ∨ ps[3].toNat = 0 ∨ ps[3].getLsbD owner.val = true ∨ 31 < ps[4].toNat := by
  unfold noticeRouteParams
  rw [← serviceField_eq_none]
  cases h3 : setField ps[3] with
  | none => simp [setField_eq_none.mp h3]
  | some set =>
    have e3 := setField_eq_some.mp h3
    have hw : ps[3] = set.setWidth 16 := by
      have := set.isLt
      exact BitVec.eq_of_toNat_eq (by rw [e3]; simp; omega)
    have hlt := set.isLt
    have h15 : ¬ 15 < ps[3].toNat := by omega
    have h0 : ps[3].toNat = 0 ↔ set = 0 := by rw [e3]; simp [BitVec.toNat_eq]
    have hb : ps[3].getLsbD owner.val = inSet set owner := by
      have := owner.isLt
      rw [hw, inSet]
      simp
      omega
    rw [h0, hb]
    cases serviceField ps[4] <;> simp [h15, or_iff_not_imp_left]

/-- SET_ROUTE writes the entry its words give (R64, R65). -/
theorem setRouteParams_of_given {owner : Station} {ps : Vector Word 16} {v : Service} {e : RouteEntry}
    (h : RouteGiven owner ps v e) : setRouteParams owner ps = some (v, e) := by
  unfold setRouteParams
  cases e with
  | none => exact h.elim
  | request d w timeout m =>
    obtain ⟨h0, h1, h2, hd, h4, h5, ht, h6⟩ := h
    have h1 : ps[1] = 1 := BitVec.eq_of_toNat_eq h1
    simp [serviceField_eq_some.mpr h0, h1, requestRouteParams, stationField_eq_some.mpr h2,
      serviceField_eq_some.mpr h4, lengthField_eq_some.mpr h6, h5, hd]
    exact ht
  | notice set w =>
    obtain ⟨h0, h1, h3, hs, hm, h4⟩ := h
    have h1 : ps[1] = 2 := BitVec.eq_of_toNat_eq h1
    simp only [serviceField_eq_some.mpr h0, h1, noticeRouteParams, setField_eq_some.mpr h3,
      serviceField_eq_some.mpr h4, inSet, hm, hs]
    rfl

/-- The entry SET_ROUTE writes is the one its words give. -/
theorem given_of_setRouteParams {owner : Station} {ps : Vector Word 16} {v : Service} {e : RouteEntry}
    (h : setRouteParams owner ps = some (v, e)) : RouteGiven owner ps v e := by
  unfold setRouteParams at h
  split at h
  · cases h
  · next v' h0 =>
    split at h
    · next h1 =>
      obtain ⟨e', he, hv⟩ := Option.map_eq_some_iff.mp h
      cases hv
      unfold requestRouteParams at he
      split at he
      · next d w m h2 h4 h6 =>
        split at he
        · cases he
        · next hn =>
          cases he
          rw [not_or] at hn
          exact ⟨serviceField_eq_some.mp h0, congrArg BitVec.toNat h1, stationField_eq_some.mp h2, hn.1,
            serviceField_eq_some.mp h4, rfl, hn.2, lengthField_eq_some.mp h6⟩
      · cases he
    · split at h
      · next h2 =>
        obtain ⟨e', he, hv⟩ := Option.map_eq_some_iff.mp h
        cases hv
        unfold noticeRouteParams at he
        split at he
        · next set w h3 h4 =>
          split at he
          · cases he
          · next hn =>
            cases he
            rw [not_or] at hn
            exact ⟨serviceField_eq_some.mp h0, congrArg BitVec.toNat h2, setField_eq_some.mp h3, hn.1,
              Bool.eq_false_iff.mpr hn.2, serviceField_eq_some.mp h4⟩
        · cases he
      · cases h

/-- SET_ROUTE refuses exactly the cases of Table 4.2 (R64). -/
theorem setRouteParams_eq_none {owner : Station} {ps : Vector Word 16} :
    setRouteParams owner ps = none ↔ RouteMalformed owner ps := by
  unfold setRouteParams RouteMalformed
  have k1 : ps[1] = 1 ↔ ps[1].toNat = 1 := BitVec.toNat_eq
  have k2 : ps[1] = 2 ↔ ps[1].toNat = 2 := BitVec.toNat_eq
  rw [← serviceField_eq_none, ← requestRouteParams_eq_none, ← noticeRouteParams_eq_none]
  simp only [k1, k2]
  cases serviceField ps[0] with
  | none => simp
  | some v =>
    by_cases h1 : ps[1].toNat = 1
    · simp [h1]
    · by_cases h2 : ps[1].toNat = 2 <;> simp [h1, h2]

end Sys2Proof.Machine
end

