-- ==== Sys2Proof/Laws/Teardown.lean ====
section
/-! SUPPORT. Step 1 of a teardown as a list of endings, and the chains that endings one after the other discard (R92,
R133). -/

namespace Sys2Proof.Machine

/-- Step 1 of a teardown over some of the slots acts on those of them that name the station. -/
theorem tearSlots_fold {s u : State} {p : Station} {l : List SlotNo} (hl : l.Nodup)
    (h : ∀ i ∈ l, u.slot i = s.slot i) :
    l.foldl (State.tearSlot p) u
      = (l.filter fun i =>
          decide ((s.slot i).state ≠ .free ∧ ((s.slot i).requester = p ∨ (s.slot i).dest = p))).foldl
        (fun u i => u.endExchange i (if (s.slot i).requester = p then .silent else .lapsed .peerGone)) u := by
  induction l generalizing u with
  | nil => rfl
  | cons i rest ih =>
    rw [List.nodup_cons] at hl
    have hi := h i (List.mem_cons_self ..)
    have hrest : ∀ (e : Ending) (j : SlotNo), j ∈ rest → (u.endExchange i e).slot j = s.slot j := fun e j hj => by
      rw [slot_endExchange_ne e (fun (k : j = i) => hl.1 (k ▸ hj)), h j (List.mem_cons_of_mem _ hj)]
    rw [List.foldl_cons, List.filter_cons]
    rcases tearSlot_cases p u i with ⟨e, hk⟩ | ⟨hf, hr, e⟩ | ⟨hf, hr, hd, e⟩ <;> rw [e] <;> rw [hi] at *
    · rw [if_neg (by rw [decide_eq_true_eq]; tauto), ih hl.2 fun j hj => h j (List.mem_cons_of_mem _ hj)]
    · rw [if_pos (by rw [decide_eq_true_eq]; exact ⟨hf, .inl hr⟩), List.foldl_cons, if_pos hr,
        ih hl.2 (hrest _)]
    · rw [if_pos (by rw [decide_eq_true_eq]; exact ⟨hf, .inr hd⟩), List.foldl_cons, if_neg hr,
        ih hl.2 (hrest _)]

/-- Step 1 of a teardown ends the slots that name the station, in ascending slot order (R133). -/
theorem tearSlots_eq (s : State) (p : Station) : s.tearSlots p = s.namedSlotsEnded p :=
  tearSlots_fold (List.nodup_finRange 48) fun _ _ => rfl

/-- The ending of one slot leaves the untaken request of another where it stands. -/
theorem findRequest_endExchange (s : State) {i j : SlotNo} (e : Ending) (q : Station) (h : j ≠ i) :
    ((s.endExchange i e).port q).findRequest (s.xnum j) = (s.port q).findRequest (s.xnum j) := by
  by_cases hf : (s.slot i).state = .free
  · rw [endExchange_of_free e hf]
  have hx : s.xnum i ≠ s.xnum j := fun k => h (congrArg XNum.slot k).symm
  have hfind : (withoutRequest (s.xnum i) (s.port q).inbox).find? (fun r => decide (r.requestOf = some (s.xnum j)))
      = (s.port q).inbox.find? fun r => decide (r.requestOf = some (s.xnum j)) := by
    unfold withoutRequest
    induction (s.port q).inbox with
    | nil => rfl
    | cons r rest ih =>
      rw [List.eraseP_cons]
      by_cases hr : r.requestOf = some (s.xnum i)
      · have : ¬ r.requestOf = some (s.xnum j) := fun k => hx (Option.some.inj (hr.symm.trans k))
        simp [hr, hx]
      · simp only [hr, decide_false, cond_false, List.find?_cons, ih]
  rw [port_endExchange e hf]
  unfold Port.findRequest endedInbox
  rw [List.find?_append]
  have hnone : (if q = (s.slot i).requester then (e.outcomeRecord (s.slot i) (s.xnum i) s.tickCount).toList
      else []).find? (fun r => decide (r.requestOf = some (s.xnum j))) = none := by
    split
    · rw [List.find?_eq_none]
      intro r hr
      rw [Option.mem_toList] at hr
      rw [outcomeRecord_requestOf hr]
      simp
    · rfl
  rw [hnone, Option.or_none]
  split
  · exact hfind
  · rfl

/-- The ending of one slot changes nothing of what the ending of another withdraws. -/
theorem endedChain_endExchange (s : State) {i j : SlotNo} (e : Ending) (h : j ≠ i) :
    endedChain (s.endExchange i e) j = endedChain s j := by
  unfold endedChain
  have hx : (s.endExchange i e).xnum j = s.xnum j := by
    unfold State.xnum
    rw [slot_endExchange_ne e h]
  rw [slot_endExchange_ne e h, hx, findRequest_endExchange s e _ h]

/-- Endings without a reply, one after the other, discard the withdrawn chains in this order. -/
theorem pool_foldl_endExchange {s : State} {l : List SlotNo} (hl : l.Nodup) {f : SlotNo → Ending}
    (hf : ∀ i, (f i).chain = none) :
    (l.foldl (fun u i => u.endExchange i (f i)) s).pool = (l.map (endedChain s)).foldl Pool.discard s.pool := by
  induction l generalizing s with
  | nil => rfl
  | cons i rest ih =>
    rw [List.nodup_cons] at hl
    rw [List.foldl_cons, ih hl.2, List.map_cons, List.foldl_cons]
    have hp : (s.endExchange i (f i)).pool = s.pool.discard (endedChain s i) := by
      by_cases hs : (s.slot i).state = .free
      · rw [endExchange_of_free _ hs, endedChain, hs]
        rfl
      · rw [endExchange_pool _ hs, hf i]
        rfl
    rw [hp]
    congr 1
    exact List.map_congr_left fun j hj => endedChain_endExchange s _ fun k => hl.1 (k ▸ hj)

end Sys2Proof.Machine
end

