-- ==== Sys2Proof/Laws/Window.lean ====
section
/-! SUPPORT. The window map, said once: what each region of a station's window shows (Table 12.1), and the small facts
about packed words and tick halves. -/

namespace Sys2Proof.Machine

/-! ## Words -/

@[simp] theorem tickLow_eq (t : Tick) : tickLow t = t.extractLsb' 0 16 :=
  BitVec.eq_of_toNat_eq (by simp [tickLow])

@[simp] theorem tickHigh_eq (t : Tick) : tickHigh t = t.extractLsb' 16 16 :=
  BitVec.eq_of_toNat_eq (by simp [tickHigh])

theorem bufferWord_eq (b : Option BufferNo) : bufferWord b = shownBuffer b := by cases b <;> rfl

theorem xnum_word_eq (x : XNum) : x.word = shownXNum x := rfl

/-- A packed word is the number its fields add up to. -/
theorem pack_eq {fields : List (Nat × Nat)} {n : Nat} (h : (fields.map fun f => f.1 * 2 ^ f.2).sum = n) :
    pack fields = BitVec.ofNat 16 n := h ▸ rfl

/-! ## Regions (Table 12.1) -/

/-- A read of address `a`, by the map. -/
theorem readWord_at (s : State) (p : Station) {a : Nat} (h : a < 2048) :
    s.readWord p (BitVec.ofNat 11 a) =
      if a < 0x010 then s.headWord p a
      else if a < 0x020 then (s.port p).params.toList.getD (a - 0x010) 0
      else if a < 0x030 then (s.port p).resultParams.toList.getD (a - 0x020) 0
      else if a < 0x040 then viewWord (s.port p).view (a - 0x030)
      else if a < 0x060 then s.bufferWindowWord p (Fin.ofNat 32 (a - 0x040))
      else if a = 0x060 then s.pool.scrub.statusWord
      else if a < 0x080 then 0
      else if a < 0x100 then ((s.port p).routes.toList.getD ((a - 0x080) / 4) .none).word ((a - 0x080) % 4)
      else if a < 0x120 then ((s.port p).admits.toList.getD (a - 0x100) 0).setWidth 16
      else if a < 0x200 then 0
      else if a < 0x300 then
        ((s.port p).journal.areaA.toList.getD ((a - 0x200) / 8) .empty).word ((a - 0x200) % 8)
      else if a < 0x400 then
        ((s.port p).journal.areaB.toList.getD ((a - 0x300) / 8) .empty).word ((a - 0x300) % 8)
      else 0 := by
  have e : (BitVec.ofNat 11 a).toNat = a := by rw [BitVec.toNat_ofNat, Nat.mod_eq_of_lt h]
  unfold State.readWord
  simp only [e]

theorem getD_toList {α : Type} {n : Nat} (v : Vector α n) (k : Fin n) (d : α) : v.toList.getD k.val d = v[k] := by
  simp [List.getD]

/-- Word `k` of entry `n` in a view of entries of `size` words each. -/
theorem entry_word {base size k : Nat} (n : Nat) (h : k < size) :
    (base + size * n + k - base) / size = n ∧ (base + size * n + k - base) % size = k := by
  rw [Nat.add_assoc, Nat.add_sub_cancel_left, Nat.mul_add_div (Nat.zero_lt_of_lt h), Nat.div_eq_of_lt h,
    Nat.mul_add_mod, Nat.mod_eq_of_lt h]
  exact ⟨Nat.add_zero n, rfl⟩

theorem readWord_head (s : State) (p : Station) {k : Nat} (h : k < 16) :
    s.readWord p (BitVec.ofNat 11 k) = s.headWord p k :=
  (readWord_at s p (Nat.lt_trans h (by decide))).trans (if_pos h)

/-- Parameter words and result parameters stand at 010h and 020h. -/
theorem readWord_param (s : State) (p : Station) (k : Fin 16) :
    s.readWord p (BitVec.ofNat 11 (0x010 + k.val)) = (s.port p).params[k] := by
  rw [readWord_at s p (by omega)]
  repeat rw [if_neg (by omega)]
  rw [if_pos (by omega), Nat.add_sub_cancel_left, getD_toList]

theorem readWord_resultParam (s : State) (p : Station) (k : Fin 16) :
    s.readWord p (BitVec.ofNat 11 (0x020 + k.val)) = (s.port p).resultParams[k] := by
  rw [readWord_at s p (by omega)]
  repeat rw [if_neg (by omega)]
  rw [if_pos (by omega), Nat.add_sub_cancel_left, getD_toList]

theorem readWord_view (s : State) (p : Station) {k : Nat} (h : k < 16) :
    s.readWord p (BitVec.ofNat 11 (0x030 + k)) = viewWord (s.port p).view k := by
  rw [readWord_at s p (by omega)]
  repeat rw [if_neg (by omega)]
  rw [if_pos (by omega), Nat.add_sub_cancel_left]

theorem readWord_buffer (s : State) (p : Station) (w : Offset) :
    s.readWord p (BitVec.ofNat 11 (0x040 + w.val)) = s.bufferWindowWord p w := by
  have e : Fin.ofNat 32 (0x040 + w.val - 0x040) = w :=
    Fin.ext (by rw [Nat.add_sub_cancel_left]; exact Nat.mod_eq_of_lt w.isLt)
  rw [readWord_at s p (by omega), e]
  repeat rw [if_neg (by omega)]
  exact if_pos (by omega)

theorem readWord_scrub (s : State) (p : Station) : s.readWord p 0x060 = s.pool.scrub.statusWord := rfl

/-- Entry `v` of the route view stands at 080h + 4v (Table 12.7). -/
theorem readWord_route (s : State) (p : Station) (v : Service) {k : Nat} (h : k < 4) :
    s.readWord p (BitVec.ofNat 11 (0x080 + 4 * v.val + k)) = ((s.port p).routes[v]).word k := by
  obtain ⟨hd, hm⟩ := entry_word (base := 0x080) v.val h
  rw [readWord_at s p (by omega), hd, hm, getD_toList]
  repeat rw [if_neg (by omega)]
  exact if_pos (by omega)

theorem readWord_admit (s : State) (p : Station) (v : Service) :
    s.readWord p (BitVec.ofNat 11 (0x100 + v.val)) = ((s.port p).admits[v]).setWidth 16 := by
  rw [readWord_at s p (by omega), Nat.add_sub_cancel_left 0x100, getD_toList]
  repeat rw [if_neg (by omega)]
  exact if_pos (by omega)

/-- Position `i` of a journal area's view stands at 200h + 8i or 300h + 8i (Table 12.6). -/
theorem readWord_areaA (s : State) (p : Station) (i : Position) {k : Nat} (h : k < 8) :
    s.readWord p (BitVec.ofNat 11 (0x200 + 8 * i.val + k)) = ((s.port p).journal.areaA[i]).word k := by
  obtain ⟨hd, hm⟩ := entry_word (base := 0x200) i.val h
  rw [readWord_at s p (by omega), hd, hm, getD_toList]
  repeat rw [if_neg (by omega)]
  exact if_pos (by omega)

theorem readWord_areaB (s : State) (p : Station) (i : Position) {k : Nat} (h : k < 8) :
    s.readWord p (BitVec.ofNat 11 (0x300 + 8 * i.val + k)) = ((s.port p).journal.areaB[i]).word k := by
  obtain ⟨hd, hm⟩ := entry_word (base := 0x300) i.val h
  rw [readWord_at s p (by omega), hd, hm, getD_toList]
  repeat rw [if_neg (by omega)]
  exact if_pos (by omega)

/-- An unused address reads 0 (R143). -/
theorem readWord_unused (s : State) (p : Station) {a : Nat} (h : a < 2048)
    (hu : 0x060 < a ∧ a < 0x080 ∨ 0x120 ≤ a ∧ a < 0x200 ∨ 0x400 ≤ a) :
    s.readWord p (BitVec.ofNat 11 a) = 0 := by
  rw [readWord_at s p h]
  rcases hu with hu | hu | hu
  all_goals repeat rw [if_neg (by omega)]
  all_goals exact if_pos (by omega)

/-- The window does not show the access state of a port. -/
theorem readWord_withAccess (s : State) (p q : Station) (a : AccessState) (address : Addr) :
    (s.modPort p fun x => { x with access := a }).readWord q address = s.readWord q address := by
  have hp : ∀ r, (s.modPort p fun x => { x with access := a }).port r
      = { s.port r with access := ((s.modPort p fun x => { x with access := a }).port r).access } := by
    intro r
    rw [port_modPort]
    split <;> rfl
  unfold State.readWord State.headWord State.bufferWindowWord State.portStateWord
  rw [hp q, hp 0, hp 1, hp 2, hp 3]
  rfl

end Sys2Proof.Machine
end

