-- ==== Sys2Proof/Tests/Slice0.lean ====
section
/-! SUPPORT. The smoke test of WellFormed, a few single steps from the manual's examples, and for every statement
with hypotheses a concrete state and operands that meet them. -/

namespace Sys2Proof.Tests

open Sys2Proof.Machine

set_option Elab.async false

/-! ## WellFormed -/

theorem test_accessBegin_without_strobe_refused :
    (Instr.accessBegin 0 ⟨true, false, false, 0, 0⟩ .atOnce).wellFormed = false := by decide

theorem test_accessEnd_with_strobe_refused :
    (Instr.accessEnd 0 ⟨true, false, true, 0, 0⟩).wellFormed = false := by decide

theorem test_accessEndedEarly_with_strobe_refused :
    (Instr.accessEndedEarly 0 ⟨true, true, false, 0, 0⟩).wellFormed = false := by decide

theorem test_bus_events_well_formed :
    (Instr.accessBegin 0 ⟨true, true, false, 0, 0⟩ .atOnce).wellFormed = true
    ∧ (Instr.accessEnd 0 ⟨false, false, true, 0, 0⟩).wellFormed = true
    ∧ (Instr.accessEndedEarly 0 ⟨true, false, false, 0, 0⟩).wellFormed = true := by decide

/-! ## Small states -/

/-- Every port ONLINE, the generator running, everything else as after the pass. -/
def online : State :=
  { State.reset with phase := .running, ports := Vector.replicate 4 { Port.cleared with state := .online } }

/-- A port put into a state. -/
def inState (s : State) (p : Station) (st : PortState) : State := s.modPort p fun q => { q with state := st }

/-- A port with an access PENDING. -/
def awaiting (s : State) (p : Station) (a : Access) (early : Bool := false) : State :=
  s.modPort p fun q => { q with access := .pending a early }

/-- A port whose station has written parameters and a command. -/
def issuing (s : State) (p : Station) (c : Command) (ps : List Word) : State :=
  awaiting (s.modPort p fun q => { q with params := resultBlock ps }) p (.write commandAddress c.code)

theorem awaits_awaiting {s : State} {p : Station} (a : Access) (h : (s.port p).state ≠ .reset) :
    Awaits (awaiting s p a) p a := by
  refine ⟨?_, false, ?_⟩
  · unfold awaiting; rw [port_modPort, if_pos rfl]; exact h
  · unfold awaiting; rw [port_modPort, if_pos rfl]

theorem issued_issuing {s : State} {p : Station} (c : Command) (ps : List Word) (h : (s.port p).state ≠ .reset) :
    Issued (issuing s p c ps) p c := by
  refine awaits_awaiting _ ?_
  rw [port_modPort, if_pos rfl]; exact h

/-- Station 1's route for service 6, and station 3's admission, of the example in section 2.7. -/
def routed : State :=
  (online.modPort 1 fun q => { q with routes := q.routes.set 6 (.request 3 2 200 64) }).modPort 3
    fun q => { q with admits := q.admits.set 2 0b0010 }

/-- Station 1 holds the chain 0, 1. -/
def holding : State := routed.setPool (routed.pool.acquire 1 2)

/-- The POST of section 2.7 with a chain of two buffers. -/
def posting : State := issuing holding 1 .post [6, 7, 0, 0, 0, 0, 0, 40, 0]

/-- An exchange of station 1 at station 3 in slot 2, generation 9. -/
def exchange (st : SlotState) : Slot :=
  ⟨st, 9, 1, 7, 6, 3, 2, 500, 700, 0, some ⟨.a, 0⟩, if st = .taken then some ⟨.a, 0⟩ else none⟩

/-- The exchange OPEN, its request without payload in station 3's inbox. -/
def opened : State :=
  ({ routed with tickCount := 500 }.setSlot 2 (exchange .opened)).place 3 ⟨1, 2, 500, .request ⟨2, 9⟩ [] 0 none⟩

/-- The exchange TAKEN. -/
def taken : State := { routed with tickCount := 500 }.setSlot 2 (exchange .taken)

/-- Station 2's NOTICE route for service 4 to stations 0 and 1, both admitting station 2 to service 5. -/
def announcing : State :=
  ((online.modPort 2 fun q => { q with routes := q.routes.set 4 (.notice 0b0011 5) }).modPort 0
    fun q => { q with admits := q.admits.set 5 0b0100 }).modPort 1
    fun q => { q with admits := q.admits.set 5 0b0100 }

/-- Buffer 0 on the damaged list. -/
def damaged : State :=
  online.setPool { online.pool.setDesc 0 ⟨.damagedListed, none, false, true⟩ with
    free := online.pool.free.drop 1, damaged := [0] }

/-- Buffer 0 in the engine for station 1. -/
def scrubbing : State := damaged.setPool (damaged.pool.startScrub 1 0 [])

/-- A word with bad parity at offset 31 of buffer 1, and buffer 1 selected by its holder, station 1. -/
def disturbed : State :=
  (holding.disturb 1 31 5).modPort 1 fun q => { q with windowSelect := some 1 }

/-! ## Single steps of the examples -/

theorem test_exchange_number_word : XNum.word ⟨5, 12⟩ = 0x0C05 := by decide

theorem test_post_opens_lowest_free_slot :
    ∃ t, exec (.post 1) posting = .next t ∧ t.slot 0 = ⟨.opened, 0, 1, 7, 6, 3, 2, 0, 200, 40, some ⟨.a, 0⟩, none⟩
      ∧ (t.port 1).result = .done ∧ (t.port 3).inbox.length = 1 ∧ t.pool.heldCount 1 = 0 :=
  ⟨_, rfl, by decide +kernel⟩

theorem test_cancel_withdraws_untaken_request :
    ∃ t, exec (.cancel 1) (issuing opened 1 .cancel [0, 7]) = .next t ∧ (t.port 3).inbox = []
      ∧ (t.port 1).inbox = [⟨3, 6, 500, .lapsed .cancelled ⟨2, 9⟩ 7⟩] ∧ t.slot 2 = Slot.freeIn 10 :=
  ⟨_, rfl, by decide +kernel⟩

theorem test_reply_to_ended_exchange_is_stale :
    ∃ t, exec (.reply 3) (issuing routed 3 .reply [0x0902, 0, 0, 0, 0, 0, 0, 0, 0xFFFF]) = .next t
      ∧ (t.port 3).result = .stale ∧ (t.port 3).resultWord = 0x020E := ⟨_, rfl, by decide +kernel⟩

theorem test_take_moves_slot_to_taken :
    ∃ t, exec (.take 3) (issuing opened 3 .take []) = .next t ∧ t.slot 2 = exchange .taken
      ∧ viewWord (t.port 3).view 3 = 0x0902 ∧ (t.port 3).journal.nextA = 1 := ⟨_, rfl, by decide +kernel⟩

theorem test_acquire_takes_two_buffers :
    holding.pool.chain 0 = [0, 1] ∧ holding.pool.free.head? = some 2 ∧ holding.pool.heldCount 1 = 2 := by
  decide +kernel

theorem test_bad_parity_read_sets_damaged_flag :
    ∃ t, exec (.bufferWindowRead 1) (awaiting disturbed 1 (.read 0x05F)) = .next t
      ∧ (t.pool.desc 1).damaged = true ∧ (t.port 1).fault = some ⟨.parity, some 1, 31, false⟩
      ∧ (t.port 1).dataLines = some 5 ∧ (t.port 1).faultWord = 0x1F02 := ⟨_, rfl, by decide +kernel⟩

theorem test_access_fault_with_nothing_selected :
    ∃ t, exec (.bufferWindowRead 0) (awaiting online 0 (.read 0x043)) = .next t
      ∧ (t.port 0).fault = some ⟨.access, none, 3, false⟩ ∧ (t.port 0).faultDetail = 0xFFFF
      ∧ (t.port 0).dataLines = some 0 := ⟨_, rfl, by decide +kernel⟩

theorem test_failed_scrub_retires_buffer :
    ∃ t, exec (.scrubCompletion (Vector.replicate 32 ⟨1, true⟩)) scrubbing = .next t
      ∧ t.pool.retiredCount = 1 ∧ t.pool.scrub.statusWord = 0x1400 ∧ (t.port 1).scrubCause = true :=
  ⟨_, rfl, by decide +kernel⟩

theorem test_tick_at_deadline_expires_slot :
    ∃ t, exec .tick { taken with tickCount := 699 } = .next t ∧ t.tickCount = 700
      ∧ (t.port 1).inbox = [⟨3, 6, 700, .lapsed .expired ⟨2, 9⟩ 7⟩] ∧ t.slot 2 = Slot.freeIn 10 :=
  ⟨_, rfl, by decide +kernel⟩

theorem test_tick_low_read_keeps_both_halves :
    ∃ t, exec (.tickLowRead 2) (awaiting { online with tickCount := 0x0001FFFF } 2 (.read 6)) = .next t
      ∧ (t.port 2).dataLines = some 0xFFFF ∧ (t.port 2).tickHolding = 1 := ⟨_, rfl, by decide +kernel⟩

theorem test_port_state_word :
    (inState online 3 .reset).portStateWord 2 = 0x2A22 := by decide +kernel

/-- Reset, the end of master reset and the end of the pass leave every port OFFLINE. -/
theorem test_end_of_pass_takes_ports_offline :
    ∃ t, exec .endOfInitialisationPass { State.reset with phase := .initPass } = .next t
      ∧ (t.port 0).state = .offline ∧ (t.port 3).state = .offline ∧ t.phase = .running :=
  ⟨_, rfl, by decide +kernel⟩

/-! ## Every hypothesis is met somewhere -/

theorem witness_EmptyQueueTakesWaitingReads :
    online.pending = []
    ∧ (∃ s p a, s.pending = [] ∧ (State.port s p).state ≠ .reset ∧ (s.port p).access = .pending (.read a) false
      ∧ plainRead a = true)
    ∧ (∃ s p a, s.pending = [] ∧ (State.port s p).state ≠ .reset ∧ (s.port p).access = .pending (.read a) true
      ∧ plainRead a = true ∧ (s.port p).lines.asserted = false)
    ∧ (∃ s p a, s.pending = [] ∧ (State.port s p).state ≠ .reset ∧ (s.port p).access = .pending (.read a) true
      ∧ plainRead a = true ∧ (s.port p).lines.asserted = true)
    ∧ ∃ p, ∀ a early, (online.port p).access = .pending (.read a) early → plainRead a = true →
      (online.port p).state = .reset :=
  ⟨rfl, ⟨awaiting online 3 (.read 0x7FF), 3, 0x7FF, by decide +kernel⟩,
    ⟨awaiting online 3 (.read 0x001) true, 3, 0x001, by decide +kernel⟩,
    ⟨awaiting (online.modPort 3 fun q => { q with lines := ⟨true, false, true, 0x010, 5⟩ }) 3 (.read 0x060) true, 3,
      0x060, by decide +kernel⟩,
    0, fun a early h => absurd h (by rw [show (online.port 0).access = .idle by decide +kernel]; nofun)⟩

/-- A read ended early is taken by an idle step without ready, and the write its station begins by then waits. -/
theorem test_idle_step_takes_read_ended_early :
    ∃ t, step (awaiting (online.modPort 3 fun q => { q with lines := ⟨true, false, true, 0x010, 5⟩ }) 3
        (.read 0x060) true) = .next t
      ∧ (t.port 3).access = .pending (.write 0x010 5) false ∧ (t.port 3).ready = some false :=
  ⟨_, rfl, by decide +kernel⟩

/-- The addresses whose reads have rows of their own, at the edges of the buffer window. -/
theorem test_plain_reads :
    ([0x005, 0x006, 0x007, 0x03F, 0x040, 0x05F, 0x060, 0x7FF] : List Addr).map plainRead
      = [true, false, true, true, false, false, true, true] := by decide

theorem witness_TakenAccessIsAnswered :
    (∃ s c p a, takenAt c = some p ∧ takes c (.write a 7) = true ∧ (State.port s p).state ≠ .reset
      ∧ (s.port p).access = .pending (.write a 7) false)
    ∧ ∃ s c p a, takenAt c = some p ∧ takes c (.read a) = true ∧ (State.port s p).state ≠ .reset
      ∧ (s.port p).access = .pending (.read a) false ∧ (s.port p).lines.select = true :=
  ⟨⟨awaiting online 2 (.write 0x05F 7), .bufferWindowWrite 2, 2, 0x05F, by decide +kernel⟩,
    awaiting (online.modPort 2 fun q => { q with lines := ⟨true, true, false, 6, 0⟩ }) 2 (.read 6), .tickLowRead 2, 2, 6,
    by decide +kernel⟩

theorem witness_OutputsFollowAccess :
    (∃ q : Port, q.lines.select = false) ∧ (∃ q : Port, q.lines.select = true ∧ q.access = .answered (some 9))
    ∧ ∃ q : Port, q.lines.select = true ∧ ∀ d, q.access ≠ .answered d :=
  ⟨⟨Port.cleared, rfl⟩, ⟨{ Port.cleared with lines := ⟨true, true, false, 6, 0⟩, access := .answered (some 9) }, rfl, rfl⟩,
    ⟨{ Port.cleared with lines := ⟨true, true, false, 6, 0⟩ }, rfl, nofun⟩⟩

/-- A port whose access was ended early and whose station drives these lines by now. -/
def endedEarly (lines : BusLines) (timing : ReadTiming) : State :=
  awaiting (online.modPort 0 fun q => { q with lines := lines, readTiming := timing }) 0 (.read 6) true

theorem witness_EarlyEndedAccessGivesNoReady :
    ∀ lines timing, takenAt (.tickLowRead 0) = some 0 ∧ takes (.tickLowRead 0) (.read 6) = true
      ∧ ((endedEarly lines timing).port 0).state ≠ .reset
      ∧ ((endedEarly lines timing).port 0).access = .pending (.read 6) true
      ∧ ((endedEarly lines timing).port 0).lines = lines
      ∧ ((endedEarly lines timing).port 0).readTiming = timing := by
  intro lines timing
  refine ⟨rfl, by decide, ?_, ?_, ?_, ?_⟩ <;> unfold endedEarly awaiting <;> simp only [port_modPort, if_true]
  decide +kernel

theorem witness_EarlyEnded_clauses :
    (BusLines.mk false true true 0 0).asserted = false
    ∧ (BusLines.mk true false true 5 7).asserted = true ∧ (BusLines.mk true true false 5 7).asserted = true
    ∧ plainRead 6 = false ∧ plainRead 5 = true ∧ plainRead 0x05F = false ∧ plainRead 0x060 = true := by decide

theorem witness_AccessNotTakenChangesNothing :
    (∃ s c p, takenAt c = some p ∧ (State.port s p).state = .reset)
    ∧ ∃ c p, takenAt c = some p ∧ ∀ a early, (online.port p).access = .pending a early → takes c a = false :=
  ⟨⟨inState online 1 .reset, .flip 1, 1, by decide +kernel⟩,
    .flip 1, 1, rfl, fun a early h => absurd h (by rw [show (online.port 1).access = .idle by decide +kernel]; nofun)⟩

theorem witness_AccessBegins :
    (∃ lines : BusLines, lines.asserted = true ∧ lines.readStrobe = false)
    ∧ (∃ lines : BusLines, lines.asserted = true ∧ lines.readStrobe = true ∧ plainRead lines.address = false)
    ∧ (∃ lines : BusLines, lines.asserted = true ∧ lines.readStrobe = true ∧ plainRead lines.address = true)
    ∧ (online.port 0).state ≠ .reset ∧ (online.port 0).access = .idle
    ∧ (State.reset.port 0).state = .reset
    ∧ ((awaiting online 1 (.read 0)).port 1).access ≠ .idle :=
  ⟨⟨⟨true, false, true, 0, 9⟩, by decide⟩, ⟨⟨true, true, true, 6, 9⟩, by decide⟩,
    ⟨⟨true, true, false, 0, 9⟩, by decide⟩, by decide +kernel⟩

theorem witness_AccessEnds :
    ∃ s p lines, BusLines.asserted lines = false ∧ ∀ a early, (State.port s p).access ≠ .pending a early :=
  ⟨online.modPort 0 fun q => { q with access := .answered none }, 0, ⟨true, false, false, 0, 0⟩, rfl, fun a early => by
    rw [port_modPort, if_pos rfl]; nofun⟩

theorem witness_AccessEndsEarly :
    ∃ s p lines a early, BusLines.asserted lines = false ∧ (State.port s p).access = .pending a early :=
  ⟨awaiting online 0 (.read 6), 0, ⟨false, true, false, 6, 0⟩, .read 6, false, by decide +kernel⟩

theorem witness_RefusedCommandChangesOnlyItsResult :
    (∃ s t i c p, commandOf i = some (c, p) ∧ Issued s p c ∧ exec i s = .next t ∧ (State.port t p).result ≠ .done)
    ∧ ∃ s t p w, Awaits s p (.write 0x000 w) ∧ w.toNat = 0 ∧ exec (.badCommand p) s = .next t
      ∧ (State.port t p).result ≠ .done :=
  ⟨⟨issuing online 0 .take [], _, .take 0, .take, 0, rfl, issued_issuing _ _ (by decide +kernel), rfl,
      by decide +kernel⟩,
    awaiting online 0 (.write 0 0), _, 0, 0, awaits_awaiting _ (by decide +kernel), rfl, rfl, by decide +kernel⟩

theorem none_of_all {α β : Type} {f : α → Option β} {l : List α} (h : l.all (fun x => (f x).isNone) = true) {x : α}
    (hx : x ∈ l) : f x = none := Option.isNone_iff_eq_none.mp (List.all_eq_true.mp h x hx)

/-- A POST with every word at the top of its range. -/
def fullPost : Vector Word 16 := resultBlock [31, 0xFFFF, 4, 1, 2, 3, 4, 256, 255]

/-- Each reason for BAD_PARAM alone: one word of a good POST put just outside its range. -/
theorem witness_PostMalformed :
    PostGiven fullPost ⟨31, 0xFFFF, [1, 2, 3, 4], ⟨256, some 255⟩⟩
    ∧ PayloadGiven ((fullPost.set 7 0).set 8 0xFFFF) ⟨0, none⟩
    ∧ ∀ change ∈ [(0, 32), (0, 0x8003), (2, 5), (2, 0x0104), (7, 257), (7, 0), (8, 256), (8, 0xFFFE), (8, 0xFFFF)],
      PostMalformed (fullPost.set (change.1 : Fin 16) change.2) :=
  ⟨postParams_eq_some.mp (by decide +kernel), payloadField_eq_some.mp (by decide +kernel), fun change h =>
    postParams_eq_none.mp (none_of_all
      (f := fun change : Fin 16 × Word => postParams (fullPost.set change.1 change.2)) (by decide +kernel) h)⟩

/-- A REPLY with every word at the top of its range. -/
def fullReply : Vector Word 16 := resultBlock [0xFF2F, 255, 4, 1, 2, 3, 4, 256, 255]

theorem witness_ReplyMalformed :
    ReplyGiven fullReply ⟨⟨47, 255⟩, 255, [1, 2, 3, 4], ⟨256, some 255⟩⟩
    ∧ ∀ change ∈ [(0, 48), (0, 0x2F30), (1, 256), (2, 5), (7, 257), (8, 256)],
      ReplyMalformed (fullReply.set (change.1 : Fin 16) change.2) :=
  ⟨replyParams_eq_some.mp (by decide +kernel), fun change h =>
    replyParams_eq_none.mp (none_of_all
      (f := fun change : Fin 16 × Word => replyParams (fullReply.set change.1 change.2)) (by decide +kernel) h)⟩

theorem witness_PostOpensExchange :
    ∃ s p ps d v timeout m i, Issued s p .post ∧ PostGiven (State.port s p).params ps
      ∧ (s.port p).state = .online ∧ (s.port p).routes[ps.service] = .request d v timeout m ∧ d ≠ p
      ∧ (∀ check ∈ s.postChecks p ps d v m, check.1 = true)
      ∧ (s.slot i).state = .free ∧ ∀ j, j < i → (s.slot j).state ≠ .free :=
  ⟨posting, 1, ⟨6, 7, [], ⟨40, some 0⟩⟩, 3, 2, 200, 64, 0, issued_issuing _ _ (by decide +kernel),
    postParams_eq_some.mp (by decide +kernel), by decide +kernel⟩

theorem witness_PostRefusedByFirstFailingCheck :
    (∃ s p, Issued s p .post ∧ PostMalformed (State.port s p).params)
    ∧ (∃ s p ps, Issued s p .post ∧ PostGiven (State.port s p).params ps ∧ (s.port p).state ≠ .online)
    ∧ (∃ s p ps, Issued s p .post ∧ PostGiven (State.port s p).params ps ∧ (s.port p).state = .online
      ∧ ∀ d v timeout m, (s.port p).routes[ps.service] ≠ .request d v timeout m)
    ∧ ∃ s p ps d v timeout m r, Issued s p .post ∧ PostGiven (State.port s p).params ps
      ∧ (s.port p).state = .online ∧ (s.port p).routes[ps.service] = .request d v timeout m
      ∧ firstFailing (s.postChecks p ps d v m) = some r := by
  refine ⟨⟨issuing online 0 .post [32], 0, issued_issuing _ _ (by decide +kernel),
      postParams_eq_none.mp (by decide +kernel)⟩,
    ⟨issuing (inState online 0 .draining) 0 .post [31, 0, 0, 0, 0, 0, 0, 0, 0xFFFF], 0, ⟨31, 0, [], ⟨0, none⟩⟩,
      issued_issuing _ _ (by decide +kernel), postParams_eq_some.mp (by decide +kernel), by decide +kernel⟩,
    ⟨issuing online 0 .post [0, 0, 0, 0, 0, 0, 0, 0, 0xFFFF], 0, ⟨0, 0, [], ⟨0, none⟩⟩,
      issued_issuing _ _ (by decide +kernel), postParams_eq_some.mp (by decide +kernel), by decide +kernel, ?_⟩,
    ⟨issuing (inState routed 3 .draining) 1 .post [6, 0, 4, 1, 2, 3, 4, 0, 0xFFFF], 1, ⟨6, 0, [1, 2, 3, 4], ⟨0, none⟩⟩,
      3, 2, 200, 64, .peerDown, issued_issuing _ _ (by decide +kernel), postParams_eq_some.mp (by decide +kernel),
      by decide +kernel⟩⟩
  intro d v timeout m h
  rw [show ((issuing online 0 .post [0, 0, 0, 0, 0, 0, 0, 0, 0xFFFF]).port 0).routes[(0 : Service)] = .none
    by decide +kernel] at h
  cases h

theorem witness_ReplyEndsExchange :
    ∃ s p ps, Issued s p .reply ∧ ReplyGiven (State.port s p).params ps ∧ (s.port p).connected = true
      ∧ (s.slot ps.x.slot).state = .taken ∧ (s.slot ps.x.slot).gen = ps.x.gen ∧ (s.slot ps.x.slot).dest = p
      ∧ (s.slot ps.x.slot).requester ≠ p ∧ s.pool.payloadFits p ps.payload = true
      ∧ s.pool.payloadDamaged ps.payload = false :=
  ⟨issuing (taken.setPool (taken.pool.acquire 3 1)) 3 .reply [0x0902, 255, 0, 0, 0, 0, 0, 32, 0], 3,
    ⟨⟨2, 9⟩, 255, [], ⟨32, some 0⟩⟩, issued_issuing _ _ (by decide +kernel),
    replyParams_eq_some.mp (by decide +kernel), by decide +kernel⟩

theorem witness_ReplyRefusedByFirstFailingCheck :
    (∃ s p, Issued s p .reply ∧ ReplyMalformed (State.port s p).params)
    ∧ ∃ s p ps r, Issued s p .reply ∧ ReplyGiven (State.port s p).params ps
      ∧ firstFailing
        [((s.port p).connected, .notOnline),
         (decide ((s.slot ps.x.slot).state = .taken ∧ (s.slot ps.x.slot).gen = ps.x.gen
            ∧ (s.slot ps.x.slot).dest = p), .stale),
         (s.pool.payloadFits p ps.payload, .badChain),
         (!s.pool.payloadDamaged ps.payload, .damaged)] = some r :=
  ⟨⟨issuing taken 3 .reply [48], 3, issued_issuing _ _ (by decide +kernel),
      replyParams_eq_none.mp (by decide +kernel)⟩,
    issuing taken 3 .reply [0x0802, 0, 0, 0, 0, 0, 0, 0, 0xFFFF], 3, ⟨⟨2, 8⟩, 0, [], ⟨0, none⟩⟩, .stale,
    issued_issuing _ _ (by decide +kernel), replyParams_eq_some.mp (by decide +kernel), by decide +kernel⟩

theorem witness_CancelEndsOwnExchange :
    (∃ s p, Issued s p .cancel ∧ (State.port s p).connected = false)
    ∧ (∃ s p, Issued s p .cancel ∧ (State.port s p).connected = true
      ∧ ∀ i, (s.slot i).requestedBy p = true → (s.slot i).tag ≠ (s.port p).params[1])
    ∧ ∃ s p i, Issued s p .cancel ∧ (State.port s p).connected = true ∧ (s.slot i).requestedBy p = true
      ∧ (s.slot i).tag = (s.port p).params[1] ∧ (s.slot i).dest ≠ p ∧ (s.slot i).state = .taken
      ∧ ∀ j, (s.slot j).requestedBy p = true → (s.slot j).tag = (s.port p).params[1] → j = i :=
  ⟨⟨issuing (inState taken 1 .offline) 1 .cancel [0, 7], 1, issued_issuing _ _ (by decide +kernel),
      by decide +kernel⟩,
    ⟨issuing taken 1 .cancel [0, 8], 1, issued_issuing _ _ (by decide +kernel), by decide +kernel⟩,
    issuing taken 1 .cancel [0, 7], 1, 2, issued_issuing _ _ (by decide +kernel), by decide +kernel⟩

theorem witness_EndingDoesItsFourSteps :
    ∃ s i, (State.slot s i).state ≠ .free ∧ (s.slot i).dest ≠ (s.slot i).requester :=
  ⟨opened, 2, by decide +kernel⟩

theorem witness_EndingDiscardsWithdrawnChain :
    (Ending.silent).chain = none ∧ (taken.slot 2).state = .taken
    ∧ ∃ (s : State) (i : SlotNo) (ahead behind : List Record) (r : Record), (s.slot i).state = .opened
      ∧ (s.port (s.slot i).dest).inbox = ahead ++ r :: behind ∧ r.requestOf = some (s.xnum i)
      ∧ (∀ r' ∈ ahead, r'.requestOf ≠ some (s.xnum i)) ∧ (s.pool.chainOf r.chain).Nodup
      ∧ s.pool.chainOf r.chain = [0, 1]
      ∧ ∀ b ∈ s.pool.chainOf r.chain, (s.pool.desc b).place = .attached := by
  refine ⟨rfl, by decide +kernel, ?_⟩
  refine ⟨((online.setSlot 2 (exchange .opened)).place 3 ⟨1, 2, 500, .request ⟨2, 9⟩ [] 40 (some 0)⟩).setPool
    ((online.pool.acquire 1 2).attachChain (some 0)), 2, [], [],
    ⟨1, 2, 500, .request ⟨2, 9⟩ [] 40 (some 0)⟩, by decide +kernel⟩

theorem witness_NotifyReachesEveryMember :
    ∃ s p ps set v, Issued s p .notify ∧ NotifyGiven (State.port s p).params ps
      ∧ (s.port p).state = .online ∧ (s.port p).routes[ps.service] = .notice set v
      ∧ ∀ m, inSet set m = true → ∀ check ∈ s.memberChecks p v m, check.1 = true :=
  ⟨issuing announcing 2 .notify [4, 0, 1, 9], 2, ⟨4, [9]⟩, 0b0011, 5, issued_issuing _ _ (by decide +kernel),
    notifyParams_eq_some.mp (by decide +kernel), by decide +kernel⟩

theorem witness_NotifyRefusedByFirstFailingCheck :
    (∃ s p, Issued s p .notify ∧ NotifyMalformed (State.port s p).params)
    ∧ (∃ s p ps, Issued s p .notify ∧ NotifyGiven (State.port s p).params ps ∧ (s.port p).state ≠ .online)
    ∧ (∃ s p ps, Issued s p .notify ∧ NotifyGiven (State.port s p).params ps ∧ (s.port p).state = .online
      ∧ ∀ set v, (s.port p).routes[ps.service] ≠ .notice set v)
    ∧ ∃ s p ps set v m r, Issued s p .notify ∧ NotifyGiven (State.port s p).params ps
      ∧ (s.port p).state = .online ∧ (s.port p).routes[ps.service] = .notice set v ∧ inSet set m = true
      ∧ (∀ l, l < m → inSet set l = true → firstFailing (s.memberChecks p v l) = none)
      ∧ firstFailing (s.memberChecks p v m) = some r := by
  refine ⟨⟨issuing announcing 2 .notify [4, 0, 5], 2, issued_issuing _ _ (by decide +kernel),
      notifyParams_eq_none.mp (by decide +kernel)⟩,
    ⟨issuing (inState announcing 2 .offline) 2 .notify [4, 0, 4], 2, ⟨4, [0, 0, 0, 0]⟩,
      issued_issuing _ _ (by decide +kernel), notifyParams_eq_some.mp (by decide +kernel), by decide +kernel⟩,
    ⟨issuing announcing 2 .notify [31], 2, ⟨31, []⟩, issued_issuing _ _ (by decide +kernel),
      notifyParams_eq_some.mp (by decide +kernel), by decide +kernel, ?_⟩,
    ⟨issuing (inState announcing 1 .offline) 2 .notify [4], 2, ⟨4, []⟩, 0b0011, 5, 1, .peerDown,
      issued_issuing _ _ (by decide +kernel), notifyParams_eq_some.mp (by decide +kernel), by decide +kernel⟩⟩
  intro set v h
  rw [show ((issuing announcing 2 .notify [31]).port 2).routes[(31 : Service)] = .none by decide +kernel] at h
  cases h

theorem witness_TakeRemovesHeadRecord :
    (∃ s p, Issued s p .take ∧ (State.port s p).connected = false)
    ∧ (∃ s p, Issued s p .take ∧ (State.port s p).connected = true ∧ (s.port p).inbox = [])
    ∧ (∃ s p r rest, Issued s p .take ∧ (State.port s p).connected = true ∧ (s.port p).inbox = r :: rest
      ∧ (∀ b ∈ s.pool.chainOf r.chain, (s.pool.desc b).place = .attached) ∧ r.requestOf = none)
    ∧ ∃ s p r rest x, Issued s p .take ∧ (State.port s p).connected = true ∧ (s.port p).inbox = r :: rest
      ∧ (∀ b ∈ s.pool.chainOf r.chain, (s.pool.desc b).place = .attached) ∧ r.requestOf = some x
      ∧ (s.slot x.slot).state = .opened ∧ (s.slot x.slot).gen = x.gen :=
  ⟨⟨issuing (inState online 0 .offline) 0 .take [], 0, issued_issuing _ _ (by decide +kernel), by decide +kernel⟩,
    ⟨issuing online 0 .take [], 0, issued_issuing _ _ (by decide +kernel), by decide +kernel⟩,
    ⟨issuing (online.place 0 ⟨1, 2, 3, .notice [4]⟩) 0 .take [], 0, ⟨1, 2, 3, .notice [4]⟩, [],
      issued_issuing _ _ (by decide +kernel), by decide +kernel⟩,
    issuing opened 3 .take [], 3, ⟨1, 2, 500, .request ⟨2, 9⟩ [] 0 none⟩, [], ⟨2, 9⟩,
    issued_issuing _ _ (by decide +kernel), by decide +kernel⟩

theorem witness_JournalCloseWritesOwnOpenRecord :
    (∃ j r h, Journal.entry j r = .opened h) ∧ ∃ (j : Journal) (r : JournalRef) (x : XNum),
      ∀ h, j.entry r = .opened h → h.x ≠ x :=
  ⟨⟨Journal.clear.opening ⟨.responder, ⟨2, 9⟩, 1, 2, 0, 500⟩, ⟨.a, 0⟩, ⟨.responder, ⟨2, 9⟩, 1, 2, 0, 500⟩,
      by decide +kernel⟩,
    Journal.clear, ⟨.b, 31⟩, ⟨2, 9⟩, fun h e => by
      rw [show Journal.clear.entry ⟨.b, 31⟩ = .empty by decide +kernel] at e; cases e⟩

theorem witness_commands_without_checks :
    Issued (issuing online 0 .flip []) 0 .flip ∧ Issued (issuing online 3 .ackFault []) 3 .ackFault :=
  ⟨issued_issuing _ _ (by decide +kernel), issued_issuing _ _ (by decide +kernel)⟩

theorem witness_RouteCommandsReplaceOneEntry :
    (∃ s p, Issued s p .setRoute ∧ RouteMalformed p (State.port s p).params)
    ∧ (∃ s p v d w timeout m, Issued s p .setRoute
      ∧ RouteGiven p (State.port s p).params v (.request d w timeout m))
    ∧ (∃ s p v set w, Issued s p .setRoute ∧ RouteGiven p (State.port s p).params v (.notice set w))
    ∧ (∃ s p, Issued s p .clearRoute ∧ 31 < (State.port s p).params[0].toNat)
    ∧ ∃ s p, ∃ v : Service, Issued s p .clearRoute ∧ (State.port s p).params[0].toNat = v.val :=
  ⟨⟨issuing online 0 .setRoute [0, 1, 0, 0, 0, 1, 0], 0, issued_issuing _ _ (by decide +kernel),
      setRouteParams_eq_none.mp (by decide +kernel)⟩,
    ⟨issuing online 0 .setRoute [31, 1, 3, 0, 31, 65535, 256], 0, 31, 3, 31, 65535, 256,
      issued_issuing _ _ (by decide +kernel), given_of_setRouteParams (by decide +kernel)⟩,
    ⟨issuing online 3 .setRoute [0, 2, 9, 7, 31, 0, 999], 3, 0, 7, 31, issued_issuing _ _ (by decide +kernel),
      given_of_setRouteParams (by decide +kernel)⟩,
    ⟨issuing online 0 .clearRoute [32], 0, issued_issuing _ _ (by decide +kernel), by decide +kernel⟩,
    issuing online 0 .clearRoute [31], 0, 31, issued_issuing _ _ (by decide +kernel), by decide +kernel⟩

/-- Each case of Table 4.2 alone: one word of a good SET_ROUTE of station 1 put just outside its range. -/
theorem witness_RouteMalformed :
    (∀ change ∈ [(0, 32), (1, 0), (1, 3), (2, 4), (2, 1), (4, 32), (5, 0), (6, 257)],
      RouteMalformed 1 ((resultBlock [31, 1, 3, 2, 31, 1, 256]).set (change.1 : Fin 16) change.2))
    ∧ ∀ change ∈ [(3, 16), (3, 0), (3, 2), (3, 15), (4, 32)],
      RouteMalformed 1 ((resultBlock [31, 2, 9, 13, 31]).set (change.1 : Fin 16) change.2) :=
  ⟨fun change h => setRouteParams_eq_none.mp (none_of_all
      (f := fun change : Fin 16 × Word => setRouteParams 1 ((resultBlock [31, 1, 3, 2, 31, 1, 256]).set change.1 change.2)) (by decide +kernel) h),
    fun change h => setRouteParams_eq_none.mp (none_of_all
      (f := fun change : Fin 16 × Word => setRouteParams 1 ((resultBlock [31, 2, 9, 13, 31]).set change.1 change.2)) (by decide +kernel) h)⟩

theorem witness_SetAdmitReplacesOneEntry :
    (∃ s p, Issued s p .setAdmit ∧ 31 < (State.port s p).params[0].toNat)
    ∧ (∃ s p, Issued s p .setAdmit ∧ 15 < (State.port s p).params[1].toNat)
    ∧ (∃ s p, Issued s p .setAdmit ∧ (State.port s p).params[1].getLsbD p.val = true)
    ∧ ∃ s p, ∃ v : Service, ∃ set : StationSet, Issued s p .setAdmit ∧ (State.port s p).params[0].toNat = v.val
      ∧ (s.port p).params[1] = set.setWidth 16 ∧ set.getLsbD p.val = false :=
  ⟨⟨issuing online 0 .setAdmit [32], 0, issued_issuing _ _ (by decide +kernel), by decide +kernel⟩,
    ⟨issuing online 0 .setAdmit [0, 16], 0, issued_issuing _ _ (by decide +kernel), by decide +kernel⟩,
    ⟨issuing online 3 .setAdmit [0, 8], 3, issued_issuing _ _ (by decide +kernel), by decide +kernel⟩,
    issuing online 3 .setAdmit [31, 7], 3, 31, 7, issued_issuing _ _ (by decide +kernel), by decide +kernel⟩

theorem witness_AcquireTakesFreeListHead :
    (∃ s p, Issued s p .acquire ∧ ¬ (1 ≤ (State.port s p).params[0].toNat ∧ (s.port p).params[0].toNat ≤ 8))
    ∧ (∃ s p n r, Issued s p .acquire ∧ (State.port s p).params[0].toNat = n ∧ 1 ≤ n ∧ n ≤ 8
      ∧ firstFailing
          [((s.port p).connected, .notOnline), (decide (s.pool.heldCount p + n ≤ 128), .overLimit),
           (decide (n ≤ s.pool.free.length), .noBuffers)] = some r)
    ∧ ∃ s p n, Issued s p .acquire ∧ (State.port s p).params[0].toNat = n ∧ 1 ≤ n ∧ n ≤ 8
      ∧ (s.port p).connected = true ∧ s.pool.heldCount p + n ≤ 128 ∧ n ≤ s.pool.free.length ∧ s.pool.free.Nodup :=
  ⟨⟨issuing online 0 .acquire [9], 0, issued_issuing _ _ (by decide +kernel), by decide +kernel⟩,
    ⟨issuing (inState online 0 .offline) 0 .acquire [1], 0, 1, .notOnline, issued_issuing _ _ (by decide +kernel),
      by decide +kernel⟩,
    issuing online 1 .acquire [8], 1, 8, issued_issuing _ _ (by decide +kernel), by decide +kernel, by decide,
    by decide, by decide +kernel, by decide +kernel, by decide +kernel, by
      rw [show (issuing online 1 .acquire [8]).pool.free = List.finRange 256 by decide +kernel]
      exact List.nodup_finRange _⟩

theorem witness_ReleaseGivesChainBack :
    (∃ s p, Issued s p .release ∧ 255 < (State.port s p).params[0].toNat)
    ∧ (∃ s p, ∃ b : BufferNo, ∃ r, Issued s p .release ∧ (State.port s p).params[0].toNat = b.val ∧ firstFailing
          [((s.port p).connected, .notOnline),
           (decide ((s.pool.desc b).place = .held p ∧ (s.pool.desc b).head = true), .badChain)] = some r)
    ∧ ∃ s p, ∃ b : BufferNo, Issued s p .release ∧ (State.port s p).params[0].toNat = b.val
      ∧ (s.port p).connected = true ∧ (s.pool.desc b).head = true ∧ (s.pool.chain b).Nodup
      ∧ ∀ c ∈ s.pool.chain b, (s.pool.desc c).place = .held p :=
  ⟨⟨issuing holding 1 .release [256], 1, issued_issuing _ _ (by decide +kernel), by decide +kernel⟩,
    ⟨issuing holding 1 .release [1], 1, 1, .badChain, issued_issuing _ _ (by decide +kernel), by decide +kernel⟩,
    issuing holding 1 .release [0], 1, 0, issued_issuing _ _ (by decide +kernel), by decide +kernel⟩

/-- Station 1 holds the chains 0, 1 and 2. -/
def twoChains : State := holding.setPool (holding.pool.acquire 1 1)

theorem witness_AppendJoinsTwoChains :
    (∃ s p, Issued s p .append ∧ 255 < (State.port s p).params[0].toNat)
    ∧ (∃ s p, Issued s p .append ∧ 255 < (State.port s p).params[1].toNat)
    ∧ (∃ s p, Issued s p .append ∧ (State.port s p).params[0] = (s.port p).params[1])
    ∧ (∃ s p, ∃ a b : BufferNo, ∃ r, Issued s p .append ∧ (State.port s p).params[0].toNat = a.val
      ∧ (s.port p).params[1].toNat = b.val ∧ a ≠ b ∧ firstFailing
          [((s.port p).connected, .notOnline),
           (decide (((s.pool.desc a).place = .held p ∧ (s.pool.desc a).head = true)
              ∧ ((s.pool.desc b).place = .held p ∧ (s.pool.desc b).head = true)
              ∧ (s.pool.chain a).length + (s.pool.chain b).length ≤ 8), .badChain)] = some r)
    ∧ ∃ s p, ∃ a b : BufferNo, ∃ front last, Issued s p .append ∧ (State.port s p).params[0].toNat = a.val
      ∧ (s.port p).params[1].toNat = b.val ∧ a ≠ b ∧ (s.port p).connected = true
      ∧ (s.pool.desc a).place = .held p ∧ (s.pool.desc a).head = true
      ∧ (s.pool.desc b).place = .held p ∧ (s.pool.desc b).head = true
      ∧ (s.pool.chain a).length + (s.pool.chain b).length ≤ 8 ∧ s.pool.chain a = front ++ [last] ∧ last ≠ b :=
  ⟨⟨issuing twoChains 1 .append [256], 1, issued_issuing _ _ (by decide +kernel), by decide +kernel⟩,
    ⟨issuing twoChains 1 .append [0, 256], 1, issued_issuing _ _ (by decide +kernel), by decide +kernel⟩,
    ⟨issuing twoChains 1 .append [2, 2], 1, issued_issuing _ _ (by decide +kernel), by decide +kernel⟩,
    ⟨issuing twoChains 1 .append [0, 1], 1, 0, 1, .badChain, issued_issuing _ _ (by decide +kernel),
      by decide +kernel⟩,
    issuing twoChains 1 .append [0, 2], 1, 0, 2, [0], 1, issued_issuing _ _ (by decide +kernel), by decide +kernel⟩

theorem witness_ScrubStartsEngine :
    (∃ s p r, Issued s p .scrub ∧ firstFailing
        [((State.port s p).connected, .notOnline), (!s.pool.damaged.isEmpty, .noneDamaged),
         (!s.pool.scrub.busy, .busy)] = some r)
    ∧ ∃ s p b rest, Issued s p .scrub ∧ (State.port s p).connected = true ∧ s.pool.damaged = b :: rest
      ∧ s.pool.scrub.busy = false :=
  ⟨⟨issuing scrubbing 0 .scrub [], 0, .noneDamaged, issued_issuing _ _ (by decide +kernel), by decide +kernel⟩,
    issuing damaged 0 .scrub [], 0, 0, [], issued_issuing _ _ (by decide +kernel), by decide +kernel⟩

theorem witness_ScrubCompletionFreesOrRetires :
    online.pool.scrub.busy = false ∧ scrubbing.pool.scrub.busy = true ∧ scrubbing.pool.scrub.buffer = some 0
    ∧ MemoryCanonical scrubbing ∧ (∀ w : Offset, (Vector.replicate 32 (⟨0, true⟩ : MemWord))[w] = ⟨0, true⟩)
    ∧ ∃ w : Offset, (Vector.replicate 32 (⟨0, false⟩ : MemWord))[w] ≠ ⟨0, true⟩ := by
  unfold MemoryCanonical; decide +kernel

theorem witness_MemoryCanonical_nontrivial : MemoryCanonical disturbed ∧ disturbed.pool.mem = [(63, ⟨5, false⟩)] := by
  unfold MemoryCanonical; decide +kernel

theorem witness_WindowSelectTakesOrSteps :
    (∀ w, Awaits (awaiting disturbed 1 (.write 0x00E w)) 1 (.write 0x00E w))
    ∧ (0x00FF#16).toNat = (255 : BufferNo).val ∧ 255 < (0x0100#16).toNat ∧ (0xFFFF#16) ≠ 0xFFFE
    ∧ (disturbed.port 1).windowSelect = some 1 ∧ (disturbed.pool.desc 1).place = .held 1
    ∧ ∀ b, (online.port 1).windowSelect = some b → (online.pool.desc b).place ≠ .held 1 :=
  ⟨fun w => awaits_awaiting _ (by decide +kernel), by decide +kernel⟩

theorem witness_PermittedReadChecksParity :
    (∃ s p, ∃ w : Offset, ∃ b, Awaits s p (.read (BitVec.ofNat 11 (0x40 + w.val)))
      ∧ (State.port s p).windowSelect = some b ∧ (s.pool.desc b).place = .held p
      ∧ (Memory.read s.pool.mem (32 * b.val + w.val)).good = true)
    ∧ ∃ s p, ∃ w : Offset, ∃ b, Awaits s p (.read (BitVec.ofNat 11 (0x40 + w.val)))
      ∧ (State.port s p).windowSelect = some b ∧ (s.pool.desc b).place = .held p
      ∧ (Memory.read s.pool.mem (32 * b.val + w.val)).good = false :=
  ⟨⟨awaiting disturbed 1 (.read 0x040), 1, 0, 1, awaits_awaiting _ (by decide +kernel), by decide +kernel⟩,
    awaiting disturbed 1 (.read 0x05F), 1, 31, 1, awaits_awaiting _ (by decide +kernel), by decide +kernel⟩

theorem witness_PermittedWriteStoresWord :
    ∃ s p, ∃ w : Offset, ∃ b d, Awaits s p (.write (BitVec.ofNat 11 (0x40 + w.val)) d)
      ∧ (State.port s p).windowSelect = some b ∧ (s.pool.desc b).place = .held p ∧ MemoryCanonical s :=
  ⟨awaiting disturbed 1 (.write 0x05F 9), 1, 31, 1, 9, awaits_awaiting _ (by decide +kernel), by
    unfold MemoryCanonical; decide +kernel⟩

theorem witness_RefusedWindowAccessRecordsFault :
    (∃ s p, ∃ w : Offset, (∀ b, (State.port s p).windowSelect = some b → (s.pool.desc b).place ≠ .held p)
      ∧ Awaits s p (.read (BitVec.ofNat 11 (0x40 + w.val))))
    ∧ ∃ s p, ∃ w : Offset, ∃ d, (∀ b, (State.port s p).windowSelect = some b → (s.pool.desc b).place ≠ .held p)
      ∧ Awaits s p (.write (BitVec.ofNat 11 (0x40 + w.val)) d) :=
  ⟨⟨awaiting online 0 (.read 0x05F), 0, 31, by decide +kernel, awaits_awaiting _ (by decide +kernel)⟩,
    awaiting (holding.modPort 0 fun q => { q with windowSelect := some 0 }) 0 (.write 0x040 3), 0, 0, 3,
    by decide +kernel, awaits_awaiting _ (by decide +kernel)⟩

theorem witness_TickLowReadLatchesHighHalf : Awaits (awaiting online 3 (.read 0x006)) 3 (.read 0x006) :=
  awaits_awaiting _ (by decide +kernel)

theorem witness_TickCountsAndExpires : State.reset.phase ≠ .running ∧ online.phase = .running := by decide +kernel

theorem witness_ExpiryEndsDueSlot :
    (∃ s i, (State.slot s i).state ≠ .free ∧ (s.slot i).deadline = s.tickCount
      ∧ (s.slot i).dest ≠ (s.slot i).requester)
    ∧ (∃ s i, (State.slot s i).state = .free) ∧ ∃ s i, (State.slot s i).deadline ≠ s.tickCount :=
  ⟨⟨{ opened with tickCount := 700 }, 2, by decide +kernel⟩, ⟨online, 47, by decide +kernel⟩, opened, 2,
    by decide +kernel⟩

theorem witness_JoinBringsPortOnline :
    (∃ s p, Issued s p .join ∧ (State.port s p).state = .offline)
    ∧ ∃ s p, Issued s p .join ∧ (State.port s p).state ≠ .offline :=
  ⟨⟨issuing (inState online 0 .offline) 0 .join [], 0, issued_issuing _ _ (by decide +kernel), by decide +kernel⟩,
    issuing (inState online 0 .draining) 0 .join [], 0, issued_issuing _ _ (by decide +kernel), by decide +kernel⟩

/-- The link between OPEN slots and REQUEST records holds with one request waiting. -/
theorem requestsMatchOpen_opened : RequestsMatchOpen (issuing opened 3 .leave []) := by
  refine ⟨by decide +kernel, fun p r x hr hx => ?_⟩
  have hin : ∀ q : Station, (issuing opened 3 .leave []).port q |>.inbox.all fun r =>
      decide (r = ⟨1, 2, 500, .request ⟨2, 9⟩ [] 0 none⟩) := by decide +kernel
  have h := List.all_eq_true.mp (hin p) r hr
  rw [decide_eq_true_eq] at h
  subst h
  obtain rfl : (⟨2, 9⟩ : XNum) = x := Option.some.inj hx
  decide +kernel

theorem witness_LeaveAnswersUntakenRequests :
    (∃ s p, Issued s p .leave ∧ (State.port s p).state ≠ .online)
    ∧ ∃ s p, Issued s p .leave ∧ (State.port s p).state = .online ∧ RequestsMatchOpen s
      ∧ (s.slot 2).state = .opened ∧ (s.slot 2).dest = p :=
  ⟨⟨issuing (inState online 0 .offline) 0 .leave [], 0, issued_issuing _ _ (by decide +kernel), by decide +kernel⟩,
    issuing opened 3 .leave [], 3, issued_issuing _ _ (by decide +kernel), by decide +kernel,
    requestsMatchOpen_opened, by decide +kernel⟩

theorem witness_DrainCompletionTakesPortOffline :
    ∃ (s : State) (p : Station) (bs : List BufferNo), (s.port p).state = .draining
      ∧ (∀ i, (s.slot i).requestedBy p = false) ∧ (∀ i, ¬ ((s.slot i).state = .taken ∧ (s.slot i).dest = p))
      ∧ (s.port p).inbox = []
      ∧ bs = ((List.finRange 256).filter fun b =>
          decide ((s.pool.desc b).place = .held p) && (s.pool.desc b).head).flatMap s.pool.chain
      ∧ bs.Nodup ∧ (∀ b, b ∈ bs ↔ (s.pool.desc b).place = .held p) :=
  ⟨inState twoChains 1 .draining, 1, [0, 1, 2], by decide +kernel⟩

theorem witness_TeardownClearsStation_others :
    ∃ s p, (State.port s p).state ≠ .reset ∧ SlotsSound s ∧ RequestsMatchOpen s ∧ s.slotsNaming p = [2]
      ∧ (s.slot 2).state = .opened ∧ (s.slot 2).requester = p :=
  ⟨issuing opened 3 .leave [], 1, by decide +kernel, by unfold SlotsSound Slot.Sound; decide +kernel,
    requestsMatchOpen_opened, by decide +kernel⟩

/-- The exchange OPEN, its request carrying buffer 0; buffer 1 HELD by station 0. -/
def sent : State :=
  (({ routed with tickCount := 500 }.setSlot 2 (exchange .opened)).place 3
    ⟨1, 2, 500, .request ⟨2, 9⟩ [] 32 (some 0)⟩).setPool
    (((online.pool.acquire 1 1).attachChain (some 0)).acquire 0 1)

theorem sent_desc : ∀ b, sent.pool.desc b =
    if b = 0 then ⟨.attached, none, true, false⟩ else if b = 1 then ⟨.held 0, none, true, false⟩
    else ⟨.free, none, false, false⟩ := by decide +kernel

theorem sent_inbox : ∀ p, (sent.port p).inbox =
    if p = 3 then [⟨1, 2, 500, .request ⟨2, 9⟩ [] 32 (some 0)⟩] else [] := by decide +kernel

theorem sent_requests : RequestsMatchOpen sent := by
  refine ⟨by decide +kernel, fun p r x hr hx => ?_⟩
  rw [sent_inbox] at hr
  split at hr
  · obtain rfl := List.mem_singleton.mp hr
    obtain rfl : (⟨2, 9⟩ : XNum) = x := Option.some.inj hx
    decide +kernel
  · cases hr

theorem sent_chains : ChainsSound sent.pool := by
  have hnext : ∀ b, (sent.pool.desc b).next = none := by decide +kernel
  refine ⟨fun b c h => ?_, fun a b c h => ?_, by decide +kernel, fun b h => ⟨b, ?_, List.mem_cons_self ..⟩⟩
  · rw [hnext] at h; cases h
  · rw [hnext] at h; cases h
  · rw [sent_desc] at h ⊢
    split
    · rfl
    · next h0 =>
      split
      · rfl
      · next h1 => rw [if_neg h0, if_neg h1] at h; cases h

theorem witness_TeardownClearsStation_pool :
    SlotsSound sent ∧ RequestsMatchOpen sent ∧ ChainsSound sent.pool ∧ ChainsCarried sent
      ∧ (sent.port 1).state ≠ .reset ∧ sent.slotsNaming 1 = [2] ∧ sent.buffersTornDown 1 = [0]
      ∧ (sent.pool.desc 1).place = .held 0 :=
  ⟨by unfold SlotsSound Slot.Sound; decide +kernel, sent_requests, sent_chains,
    by unfold ChainsCarried; decide +kernel, by decide +kernel⟩

theorem witness_TeardownClearsStation :
    (State.reset.port 0).state = .reset ∧ (online.port 0).state ≠ .reset ∧ (online.port 0).access = .idle
    ∧ ((endedEarly ⟨true, true, false, 0, 0⟩ .later).port 0).access ≠ .idle
    ∧ ((endedEarly ⟨true, true, false, 0, 0⟩ .later).port 0).lines.asserted = true
    ∧ ((endedEarly ⟨true, false, false, 0, 0⟩ .later).port 0).access ≠ .idle
    ∧ ((endedEarly ⟨true, false, false, 0, 0⟩ .later).port 0).lines.asserted = false := by decide +kernel

/-- An access ended early and cut off leaves its port IDLE, by a teardown and by master reset. -/
theorem test_cut_off_after_negation_is_idle :
    (∃ t, exec (.teardown 0) (endedEarly ⟨true, false, false, 0, 0⟩ .later) = .next t ∧ (t.port 0).access = .idle)
    ∧ ∃ t, exec .masterReset (endedEarly ⟨true, false, false, 0, 0⟩ .later) = .next t ∧ (t.port 0).access = .idle :=
  ⟨⟨_, rfl, by decide +kernel⟩, _, rfl, by decide +kernel⟩

/-- Port 0 in RESET, its station driving these lines. -/
def waiting (lines : BusLines) : State := (inState online 0 .reset).modPort 0 fun q => { q with lines := lines }

theorem witness_ReleaseTakesPortOffline :
    (∀ lines, ((waiting lines).port 0).state = .reset ∧ (waiting lines).phase = .running
      ∧ ((waiting lines).port 0).access = .idle ∧ ((waiting lines).port 0).lines = lines)
    ∧ (BusLines.mk true false false 0 0).asserted = false ∧ (BusLines.mk true false true 0 0).asserted = true
    ∧ (BusLines.mk true true false 0 0).asserted = true ∧ plainRead 0 = true ∧ plainRead 6 = false
    ∧ (online.port 0).state ≠ .reset ∧ State.reset.phase ≠ .running := by
  refine ⟨fun lines => ?_, by decide, by decide, by decide, by decide, by decide, by decide +kernel⟩
  unfold waiting
  rw [port_modPort, if_pos rfl]
  exact ⟨show ((inState online 0 .reset).port 0).state = .reset by decide +kernel, rfl,
    show ((inState online 0 .reset).port 0).access = .idle by decide +kernel, rfl⟩

theorem witness_MasterResetEndSamplesStraps :
    State.reset.phase = .masterReset ∧ online.phase ≠ .masterReset := by decide +kernel

/-- The pass running, port 1 held in reset, port 2's station driving a read with both strobes and port 3's a write. -/
def passing : State :=
  ((({ State.reset with phase := .initPass }).modPort 1 fun q => { q with resetInput := true }).modPort 2
    fun q => { q with lines := ⟨true, true, true, 1, 9⟩ }).modPort 3
    fun q => { q with lines := ⟨true, false, true, 0x10, 9⟩, readTiming := .later }

theorem witness_EndOfPassStartsPart :
    passing.phase = .initPass ∧ (∀ p, (passing.port p).state = .reset) ∧ (passing.port 1).resetInput = true
    ∧ (passing.port 0).resetInput = false ∧ (passing.port 0).lines.asserted = false
    ∧ (passing.port 2).access = .idle ∧ (passing.port 2).lines.asserted = true
    ∧ (passing.port 2).lines.readStrobe = true ∧ plainRead (passing.port 2).lines.address = true
    ∧ (passing.port 2).readTiming = .atOnce ∧ (passing.port 3).access = .idle
    ∧ (passing.port 3).lines.asserted = true ∧ (passing.port 3).lines.readStrobe = false
    ∧ online.phase ≠ .initPass := by
  decide +kernel

theorem test_waiting_accesses_begin_at_end_of_pass :
    ∃ t, exec .endOfInitialisationPass passing = .next t ∧ (t.port 3).access = .pending (.write 0x10 9) false
      ∧ (t.port 2).access = .answered (some 0x5121) ∧ (t.port 1).access = .idle := ⟨_, rfl, by decide +kernel⟩

theorem witness_UndefinedCommandIsRefused :
    Awaits (awaiting online 0 (.write 0x000 0)) 0 (.write 0x000 0) ∧ (0x0000#16).toNat = 0
    ∧ Awaits (awaiting online 0 (.write 0x000 17)) 0 (.write 0x000 17) ∧ 16 < (0x0011#16).toNat :=
  ⟨awaits_awaiting _ (by decide +kernel), by decide, awaits_awaiting _ (by decide +kernel), by decide⟩

theorem witness_WindowWordWriteStoresParameter :
    (∀ (k : Fin 16) (w : Word), ∃ s, Awaits s 0 (.write (BitVec.ofNat 11 (0x10 + k.val)) w))
    ∧ (∀ (address : Addr) (w : Word), ∃ s, Awaits s 0 (.write address w))
    ∧ (0x020#11).toNat = 0x20 ∧ (0x03F#11).toNat < 0x40 ∧ 0x60 ≤ (0x7FF#11).toNat ∧ (0x00F#11).toNat < 0x10 :=
  ⟨fun _ _ => ⟨_, awaits_awaiting (s := online) _ (by decide +kernel)⟩,
    fun _ _ => ⟨_, awaits_awaiting (s := online) _ (by decide +kernel)⟩, by decide⟩

theorem witness_AttentionWritesClearAndEnable :
    (∀ w, ∃ s, Awaits s 0 (.write 0x002 w)) ∧ ∀ w, ∃ s, Awaits s 0 (.write 0x003 w) :=
  ⟨fun _ => ⟨_, awaits_awaiting (s := online) _ (by decide +kernel)⟩,
    fun _ => ⟨_, awaits_awaiting (s := online) _ (by decide +kernel)⟩⟩

/-- A port whose view, fault word, window select, routes and journal hold something of every kind. -/
def shown : State :=
  announcing.modPort 2 fun q => { q with
    view := some ⟨1, 2, 0x00030004, .reply ⟨47, 255⟩ 7 200 [5] 33 (some 9)⟩
    fault := some ⟨.parity, some 255, 31, true⟩
    windowSelect := some 255
    routes := q.routes.set 31 (.request 3 31 65535 256)
    journal := ((q.journal.opening ⟨.requester 7, ⟨47, 255⟩, 3, 31, 256, 5⟩).closing ⟨.a, 0⟩ ⟨47, 255⟩
      ⟨.replied 200, 33, 9⟩).opening ⟨.responder, ⟨0, 1⟩, 1, 2, 0, 5⟩ }

theorem witness_WindowShowsStateAsItStands :
    (online.port 0).view = none ∧ (online.port 0).fault = none
    ∧ (∃ s p f, (State.port s p).fault = some f)
    ∧ (∃ s p r, (State.port s p).view = some r)
    ∧ (∃ s p b, (State.port s p).windowSelect = some b ∧ (s.pool.desc b).place = .held p)
    ∧ (∃ s p, ∀ b, (State.port s p).windowSelect = some b → (s.pool.desc b).place ≠ .held p)
    ∧ (0x061#11).toNat = 0x061 ∧ (0x07F#11).toNat < 0x080 ∧ (0x120#11).toNat = 0x120 ∧ (0x1FF#11).toNat < 0x200
    ∧ 0x400 ≤ (0x7FF#11).toNat :=
  ⟨by decide +kernel, by decide +kernel, ⟨shown, 2, ⟨.parity, some 255, 31, true⟩, by decide +kernel⟩,
    ⟨shown, 2, ⟨1, 2, 0x00030004, .reply ⟨47, 255⟩ 7 200 [5] 33 (some 9)⟩, by decide +kernel⟩,
    ⟨disturbed, 1, 1, by decide +kernel⟩, ⟨shown, 2, by decide +kernel⟩, by decide⟩

/-- Words of the window written out from the tables of chapter 12. -/
theorem test_window_words_as_tabled :
    shown.readWord 2 0x001 = 0xAA22 ∧ shown.readWord 2 0x002 = 0x0010 ∧ shown.readWord 2 0x004 = 0x9F02
    ∧ shown.readWord 2 0x005 = 0x00FF ∧ shown.readWord 2 0x00E = 0x00FF ∧ shown.readWord 2 0x00F = 0x0002
    ∧ (List.range 16).map (shown.wordsFrom 2 0x030) = [3, 1, 2, 0xFF2F, 7, 200, 1, 5, 0, 0, 0, 33, 9, 4, 3, 0]
    ∧ (List.range 4).map (shown.wordsFrom 2 0x0FC) = [0x1F31, 0, 0xFFFF, 0x0100]
    ∧ (List.range 4).map (shown.wordsFrom 2 0x090) = [0x0502, 3, 0, 0]
    ∧ shown.readWord 1 0x105 = 0x0004
    ∧ (List.range 8).map (shown.wordsFrom 2 0x200) = [0xFFAF, 0xC87F, 7, 0x0300, 33, 4, 5, 0]
    ∧ (List.range 8).map (shown.wordsFrom 2 0x208) = [0x0140, 0x00A2, 0, 0, 0, 0, 5, 0]
    ∧ (List.range 8).map (shown.wordsFrom 2 0x3F8) = [0, 0, 0, 0, 0, 0, 0, 0] := by decide +kernel

/-! The invariants hold together in a state that is not the reset state, and a step goes on from it. -/

/-- One exchange TAKEN at tick 500, with a tick at the front of the queue. -/
def busy : State := { taken with pending := [.tick] }

theorem busy_ports : ∀ p, (busy.port p).state = .online ∧ (busy.port p).inbox = [] ∧ (busy.port p).access = .idle := by
  decide +kernel

theorem busy_tables : TablesSound busy := by
  have hr : ∀ (p : Station) (v : Service), (busy.port p).routes[v] = .none
      ∨ p = 1 ∧ (busy.port p).routes[v] = .request 3 2 200 64 := by decide +kernel
  have ha : ∀ (p : Station) (v : Service), inSet (busy.port p).admits[v] p = false := by decide +kernel
  refine fun p => ⟨fun v => ?_, ha p⟩
  rcases hr p v with h | ⟨rfl, h⟩ <;> rw [h]
  · trivial
  · exact ⟨by decide, by decide⟩

theorem witness_StepKeepsSlotsTablesAndCaps :
    SlotsSound busy ∧ TablesSound busy ∧ CapsKept busy ∧ ∃ t, step busy = .next t :=
  ⟨by unfold SlotsSound Slot.Sound; decide +kernel, busy_tables, by unfold CapsKept; decide +kernel, _, rfl⟩

theorem witness_StepKeepsRoomAndDeadlines :
    RoomKept busy ∧ DeadlinesAhead busy ∧ TablesSound busy ∧ ∃ t, step busy = .next t :=
  ⟨by unfold RoomKept; decide +kernel, by unfold DeadlinesAhead; decide +kernel, busy_tables, _, rfl⟩

theorem witness_StepKeepsMemoryCanonical :
    ∃ s t, MemoryCanonical s ∧ s.pool.mem ≠ [] ∧ step s = .next t :=
  ⟨disturbed, _, witness_MemoryCanonical_nontrivial.1, by decide +kernel, rfl⟩

theorem witness_StepKeepsRequestLinkAndDisconnection :
    RequestsMatchOpen busy ∧ ResetPortsQuiet busy ∧ DisconnectedEmpty busy ∧ ∃ t, step busy = .next t := by
  refine ⟨⟨by decide +kernel, fun p r x hr => ?_⟩, ⟨fun p h => ?_, fun h => absurd rfl h⟩, ⟨fun p h => ?_, ?_⟩, _, rfl⟩
  · rw [(busy_ports p).2.1] at hr; cases hr
  · rw [(busy_ports p).1] at h; cases h
  · rw [(busy_ports p).1] at h; rcases h with h | h <;> cases h
  · intro i hi; exact (busy_ports _).1

theorem witness_StepKeepsBufferWhereabouts :
    PoolSound busy.pool ∧ ChainsSound busy.pool ∧ ChainsCarried busy ∧ ∃ t, step busy = .next t := by
  have hd : ∀ b, busy.pool.desc b = ⟨.free, none, false, false⟩ := by decide +kernel
  have hf : busy.pool.free = List.finRange 256 := by decide +kernel
  refine ⟨⟨hf ▸ List.nodup_finRange 256, by decide +kernel, fun b => ?_, fun b => ?_, fun b => ?_, nofun, fun b _ => ?_,
    fun b h => ?_⟩, ⟨fun b c h => ?_, fun a b c h => ?_, fun b h => ?_, fun b h => ?_⟩, fun b => ?_, _, rfl⟩
  · rw [hd, hf]; simp
  · rw [hd]; exact ⟨nofun, nofun⟩
  · rw [hd]; exact ⟨nofun, fun h => absurd h.1 (by decide)⟩
  · rw [hd]
  · rw [hd] at h; rcases h with h | h | h <;> cases h
  · rw [hd] at h; cases h
  · rw [hd] at h; cases h
  · rw [hd] at h; cases h
  · rw [hd] at h; cases h
  · rw [hd, if_neg (fun h => by cases h.1)]
    unfold State.carriers
    simp only [(busy_ports _).2.1, List.countP_nil]
    decide

theorem witness_EveryExchangeBringsOneOutcome :
    (∃ s t c i, exec c s = .next t ∧ (State.slot s i).state ≠ .free ∧ (State.slot t i).state = .free)
    ∧ ∃ s t c i, exec c s = .next t ∧ (State.slot s i).state ≠ .free ∧ (State.slot t i).state ≠ .free :=
  ⟨⟨{ taken with tickCount := 699 }, _, .tick, 2, rfl, by decide +kernel, by decide +kernel⟩,
    taken, _, .tick, 2, rfl, by decide +kernel, by decide +kernel⟩

theorem witness_ExchangeEndsByItsDeadline :
    ∃ s t cs i, s.phase = .running ∧ (State.slot s i).state ≠ .free
      ∧ 1 ≤ ((s.slot i).deadline - s.tickCount).toNat
      ∧ ((s.slot i).deadline - s.tickCount).toNat ≤ ticksIn cs ∧ Runs cs s t :=
  ⟨{ taken with tickCount := 699 }, _, [.tick], 2, by decide +kernel, by decide +kernel, by decide +kernel,
    by decide +kernel, _, rfl, rfl⟩

end Sys2Proof.Tests
end

section
/-! PROOFS. POST opens an exchange (R5, R23-R28): what it means that its checks pass, where its slot is, what becomes of
its chain, and the state an accepted command leaves. -/

namespace Sys2Proof.Machine

/-! ## The lowest FREE slot (R5) -/

/-- A search through all numbers below `n` finds the first that satisfies the test. -/
theorem finRange_find?_eq_some {n : Nat} {f : Fin n → Bool} {i : Fin n} :
    (List.finRange n).find? f = some i ↔ f i = true ∧ ∀ j, j < i → f j = false := by
  rw [List.find?_eq_some_iff_getElem]
  constructor
  · rintro ⟨hi, k, hk, rfl, hbefore⟩
    refine ⟨hi, fun j hj => ?_⟩
    simpa using hbefore j (by simpa using Fin.lt_def.mp hj)
  · rintro ⟨hi, hbefore⟩
    refine ⟨hi, i, by simp, by simp, fun j hj => ?_⟩
    simpa using hbefore ⟨j, hj.trans i.isLt⟩ hj

/-- Slot `i` is the lowest FREE one exactly where it is FREE and no slot below it is. -/
theorem lowestFree_eq_some {s : State} {i : SlotNo} :
    s.lowestFree = some i ↔ (s.slot i).state = .free ∧ ∀ j, j < i → (s.slot j).state ≠ .free := by
  simp [State.lowestFree, finRange_find?_eq_some]

/-! ## The chain of a sent payload (R25, R91) -/

/-- A payload whose chain fits names only buffers HELD by the sender. -/
theorem held_of_payloadFits {pool : Pool} {p : Station} {pl : Payload} (h : pool.payloadFits p pl = true) :
    ∀ b ∈ pool.chainOf pl.chain, (pool.desc b).place = .held p := by
  intro b hb
  obtain ⟨head, hc, hb⟩ := mem_chainOf.mp hb
  simp only [Pool.payloadFits, hc, Pool.chainFits, Bool.and_eq_true, List.all_eq_true] at h
  obtain ⟨⟨-, hall⟩, -⟩ := h
  simpa [Pool.holds] using hall b hb

/-- Attaching a chain is attaching its buffers one by one. -/
theorem attachChain_eq (pool : Pool) (c : Option BufferNo) :
    pool.attachChain c = (pool.chainOf c).foldl Pool.attach pool := by
  cases c <;> rfl

/-- A change of places only, seen at one buffer. -/
theorem Pool.SameButPlaces.desc_eq {before after : Pool} (h : before.SameButPlaces after) (b : BufferNo) :
    after.desc b = { before.desc b with place := (after.desc b).place } := by
  obtain ⟨-, -, -, -, hlinks⟩ := h
  obtain ⟨hnext, hhead, hdamaged⟩ := hlinks b
  simp only [← hnext, ← hhead, ← hdamaged]

/-- A chain of HELD buffers that is attached goes to ATTACHED as a whole (R91). -/
theorem moved_attachChain {pool : Pool} {c : Option BufferNo} {p : Station}
    (hheld : ∀ b ∈ pool.chainOf c, (pool.desc b).place = .held p) :
    pool.Moved (pool.attachChain c) (pool.chainOf c) .attached := by
  obtain ⟨hfree, hdamaged, hscrub, hmem, -⟩ := attachChain_sameButPlaces pool c
  refine ⟨fun b => ?_, hfree, hdamaged, hscrub, hmem⟩
  rw [(attachChain_sameButPlaces pool c).desc_eq b, attachChain_eq, place_foldl_attach]
  split
  · next hb => rw [hheld b hb]
  · rfl

/-! ## Accepted commands (R145, R147) -/

/-- A command that waits and is accepted leaves its effect's state with the result DONE, and its access answered. -/
theorem takeCommand_of_accepted {s s' : State} {p : Station} {c : Command} {verdict : State → Verdict}
    {ps : List Word} (hi : Issued s p c) (hv : verdict s = .accepted s' ps) :
    ∃ a, s.takeCommand p c verdict
      = s'.modPort p fun q => { withResult (some c) .done ps q with access := a } := by
  obtain ⟨a, ha⟩ := answer_changes_access (s'.setResult p (some c) .done ps) p none
  refine ⟨a, ?_⟩
  rw [takeCommand_of_issued hi, hv, Verdict.apply, ha, setResult_withAccess]

/-! ## The checks of POST (Table 2.1) -/

/-- A station has room while it has fewer than 32 records and reservations (R45). -/
theorem hasRoom_iff {s : State} {p : Station} : s.hasRoom p = true ↔ s.occupancy p < 32 := decide_eq_true_iff

/-- Steps 4 to 13 of Table 2.1 pass exactly where the model's own tests do. -/
theorem postChecks_pass_iff {s : State} {p d : Station} {ps : PostParams} {v : Service} {m : PayloadLen} :
    (∀ check ∈ s.postChecks p ps d v m, check.1 = true) ↔
      ps.payload.len ≤ m ∧ s.pool.payloadFits p ps.payload = true ∧ s.pool.payloadDamaged ps.payload = false
      ∧ s.findTag p ps.tag = none ∧ (s.port d).state = .online ∧ s.admitted p d v = true
      ∧ s.requesterCount p < Config.requesterCap ∧ (∃ i, (s.slot i).state = .free)
      ∧ s.hasRoom p = true ∧ s.hasRoom d = true := by
  simp [State.postChecks, findTag_none, State.admitted, hasRoom_iff, Config.requesterCap]

/-- A well-formed POST of an ONLINE station that passes steps 4 to 13 works with the lowest FREE slot (R5, R23). -/
theorem postCheck_of_checks {s : State} {p d : Station} {ps : PostParams} {v : Service} {timeout : Word}
    {m : PayloadLen} {i : SlotNo} (hgiven : PostGiven (s.port p).params ps) (honline : (s.port p).state = .online)
    (hroute : (s.port p).routes[ps.service] = .request d v timeout m)
    (hchecks : ∀ check ∈ s.postChecks p ps d v m, check.1 = true) (hlowest : s.lowestFree = some i) :
    s.postCheck p = .ok ⟨ps, d, v, timeout, i⟩ := by
  obtain ⟨hlen, hfits, hdamaged, htag, hpeer, hadmitted, hcap, -, hown, hdest⟩ := postChecks_pass_iff.mp hchecks
  have hcapacity : s.postCapacity p ps d v timeout = .ok ⟨ps, d, v, timeout, i⟩ := by
    simp [State.postCapacity, htag, hpeer, hadmitted, not_le.mpr hcap, hlowest, hown, hdest]
  simp [State.postCheck, postParams_eq_some.mpr hgiven, honline, hroute, not_lt.mpr hlen, hfits, hdamaged,
    hcapacity]

/-! ## POST opens an exchange (R28) -/

/-- A POST that waits and passes its checks leaves its plan's acceptance with the result DONE and the exchange number,
and its access answered. -/
theorem exec_post_of_ok {s : State} {p : Station} {plan : PostPlan} (hi : Issued s p .post)
    (hok : s.postCheck p = .ok plan) :
    ∃ a, exec (.post p) s = .next ((s.acceptPost p plan).modPort p fun q =>
      { withResult (some .post) .done [(s.xnum plan.slot).word] q with access := a }) := by
  have hv : postVerdict p s = .accepted (s.acceptPost p plan) [(s.xnum plan.slot).word] := by simp [postVerdict, hok]
  obtain ⟨a, ht⟩ := takeCommand_of_accepted hi hv
  exact ⟨a, congrArg Host.Outcome.next ht⟩

/-- Settles O11: the checks lead to the plan with the lowest FREE slot, the plan's acceptance gives slot, record, chain
and journal, and the result and the answer are changes of the poster's port alone. -/
theorem postOpensExchange : Obligations.PostOpensExchange := by
  intro s p ps d v timeout m i hissued hgiven honline hroute hdp hchecks hfree hlower
  have hok := postCheck_of_checks hgiven honline hroute hchecks (lowestFree_eq_some.mpr ⟨hfree, hlower⟩)
  obtain ⟨-, hfits, -⟩ := postChecks_pass_iff.mp hchecks
  obtain ⟨a, ht⟩ := exec_post_of_ok hissued hok
  refine ⟨_, a, ht, ⟨rfl, rfl, rfl, rfl⟩, ?slot, fun j hj => ?slots,
    moved_attachChain (held_of_payloadFits hfits), ?poster, ?dest, fun q hqp hqd => ?ports⟩
  case slot => rw [slot_modPort, slot_acceptPost, if_pos rfl]; rfl
  case slots => rw [slot_modPort, slot_acceptPost, if_neg hj]
  case poster => simp [port_acceptPost, hdp.symm, withResult, State.postJournalHead, State.xnum]
  case dest => simp [port_modPort_ne _ _ hdp, port_acceptPost, hdp, State.postRecord, State.xnum]
  case ports => simp [port_modPort_ne _ _ hqp, port_acceptPost, hqp, hqd]

end Sys2Proof.Machine
end

section
/-! PROOFS. Refusals by the first failing check, and what an accepted REPLY, CANCEL or NOTIFY does (R23, R30, R32, R35,
R39-R41). -/

namespace Sys2Proof.Machine

/-! ## Commands refused and accepted (R145, R148) -/

/-- A row that takes a waiting command changes, where the command is refused, its port's result alone. -/
theorem refusedWith_of_verdict {s : State} {p : Station} {i : Instr} {c : Command} {verdict : State → Verdict}
    {r : ResultCode} {ps : List Word} (hexec : exec i s = .next (s.takeCommand p c verdict)) (hi : Issued s p c)
    (hv : verdict s = .refused r ps) : RefusedWith s i c p r ps := by
  obtain ⟨a, ha⟩ := answer_changes_access (s.setResult p (some c) r ps) p none
  refine ⟨_, hexec, a, ?_⟩
  rw [takeCommand_of_issued hi, hv, Verdict.apply, ha, setResult_withAccess]

/-- A row that takes a waiting command leaves, where the command is accepted, its effect with the result DONE. -/
theorem portBecomes_of_accepted {s s' : State} {p : Station} {i : Instr} {c : Command} {verdict : State → Verdict}
    {ps : List Word} (hexec : exec i s = .next (s.takeCommand p c verdict)) (hi : Issued s p c)
    (hv : verdict s = .accepted s' ps) :
    ∃ t, exec i s = .next t ∧ PortBecomes s' t p (withResult (some c) .done ps) :=
  ⟨_, hexec, takeCommand_of_accepted hi hv⟩

/-! ## The first failing check (R23) -/

/-- One test of a cascade beside one check of a list: where the test is the check's failure, and the rest of the cascade
gives the first failing check of the rest, the whole cascade gives the first failing check of the list. -/
theorem ite_eq_of_firstFailing {α : Type} {f : ResultCode → α} {holds : Bool} {fails : Prop} [Decidable fails]
    {code r : ResultCode} {rest : List (Bool × ResultCode)} {v : α}
    (h : firstFailing ((holds, code) :: rest) = some r) (htest : holds = true ↔ ¬ fails)
    (goesOn : firstFailing rest = some r → v = f r) : (if fails then f code else v) = f r := by
  by_cases hf : fails
  · have hholds : holds = false := by simpa [hf] using htest
    have hcode : code = r := by simpa [firstFailing, hholds] using h
    rw [if_pos hf, hcode]
  · rw [if_neg hf]
    exact goesOn (by simpa [firstFailing, htest.mpr hf] using h)

/-- No check fails exactly where all of them hold. -/
theorem firstFailing_eq_none {checks : List (Bool × ResultCode)} :
    firstFailing checks = none ↔ ∀ check ∈ checks, check.1 = true := by
  induction checks with
  | nil => simp [firstFailing]
  | cons check rest ih =>
    obtain ⟨holds, code⟩ := check
    cases holds <;> simp [firstFailing, ih]

/-! ## POST is refused (Table 2.1) -/

/-- Steps 7 to 13 of Table 2.1 refuse with the first of them that fails. -/
theorem postCapacity_of_firstFailing {s : State} {p d : Station} {ps : PostParams} {v : Service} {timeout : Word}
    {m : PayloadLen} {r : ResultCode} (h : firstFailing ((s.postChecks p ps d v m).drop 3) = some r) :
    s.postCapacity p ps d v timeout = .error r := by
  unfold State.postCapacity
  refine ite_eq_of_firstFailing h (by simp [← findTag_none]) fun h => ?_
  refine ite_eq_of_firstFailing h (by simp) fun h => ?_
  refine ite_eq_of_firstFailing h (by simp [State.admitted]) fun h => ?_
  refine ite_eq_of_firstFailing h (by simp [Config.requesterCap]) fun h => ?_
  cases hlowest : s.lowestFree with
  | none => simpa [firstFailing, lowestFree_none.mp hlowest] using h
  | some i =>
    have hfree : ∃ i, (s.slot i).state = .free := ⟨i, lowestFree_free hlowest⟩
    have h : firstFailing ((s.postChecks p ps d v m).drop 8) = some r := by
      simpa [State.postChecks, firstFailing, hfree] using h
    refine ite_eq_of_firstFailing h (by simp [← hasRoom_iff]) fun h => ?_
    exact ite_eq_of_firstFailing h (by simp [← hasRoom_iff]) nofun

/-- A well-formed POST of an ONLINE station is refused with the first of steps 4 to 13 that fails. -/
theorem postCheck_of_firstFailing {s : State} {p d : Station} {ps : PostParams} {v : Service} {timeout : Word}
    {m : PayloadLen} {r : ResultCode} (hgiven : PostGiven (s.port p).params ps)
    (honline : (s.port p).state = .online) (hroute : (s.port p).routes[ps.service] = .request d v timeout m)
    (h : firstFailing (s.postChecks p ps d v m) = some r) : s.postCheck p = .error r := by
  simp only [State.postCheck, postParams_eq_some.mpr hgiven, honline, hroute, ne_eq, not_true_eq_false, if_false]
  refine ite_eq_of_firstFailing h (by simp) fun h => ?_
  refine ite_eq_of_firstFailing h (by simp) fun h => ?_
  exact ite_eq_of_firstFailing h (by simp) (postCapacity_of_firstFailing (m := m))

/-- A POST whose checks give a result is refused with it. -/
theorem refusedWith_of_postCheck {s : State} {p : Station} {r : ResultCode} (hi : Issued s p .post)
    (h : s.postCheck p = .error r) : RefusedWith s (.post p) .post p r [] :=
  refusedWith_of_verdict rfl hi (by simp [postVerdict, h])

/-- Settles O12: parameters, port state and route one by one, then steps 4 to 13 as the list of checks. -/
theorem postRefusedByFirstFailingCheck : Obligations.PostRefusedByFirstFailingCheck := by
  intro s p hi
  refine ⟨fun hbad => refusedWith_of_postCheck hi ?params, fun ps hgiven =>
    ⟨fun hoff => refusedWith_of_postCheck hi ?portState, fun honline =>
      ⟨fun hnoroute => refusedWith_of_postCheck hi ?route, fun d v timeout m r hroute h =>
        refusedWith_of_postCheck hi (postCheck_of_firstFailing hgiven honline hroute h)⟩⟩⟩
  case params => simp [State.postCheck, postParams_eq_none.mpr hbad]
  case portState => simp [State.postCheck, postParams_eq_some.mpr hgiven, hoff]
  case route =>
    cases hr : (s.port p).routes[ps.service] with
    | request d v timeout m => exact absurd hr (hnoroute d v timeout m)
    | none => simp [State.postCheck, postParams_eq_some.mpr hgiven, honline, hr]
    | notice set v => simp [State.postCheck, postParams_eq_some.mpr hgiven, honline, hr]

/-! ## REPLY is refused (Table 2.2) -/

/-- Checks 2 to 5 of Table 2.2, for well-formed parameters (R30). -/
def State.replyChecks (s : State) (p : Station) (ps : ReplyParams) : List (Bool × ResultCode) :=
  [((s.port p).connected, .notOnline),
   (decide ((s.slot ps.x.slot).state = .taken ∧ (s.slot ps.x.slot).gen = ps.x.gen
      ∧ (s.slot ps.x.slot).dest = p), .stale),
   (s.pool.payloadFits p ps.payload, .badChain),
   (!s.pool.payloadDamaged ps.payload, .damaged)]

/-- A well-formed REPLY is refused with the first of its other four checks that fails. -/
theorem replyCheck_of_firstFailing {s : State} {p : Station} {ps : ReplyParams} {r : ResultCode}
    (hgiven : ReplyGiven (s.port p).params ps)
    (h : firstFailing (s.replyChecks p ps) = some r) : s.replyCheck p = .error r := by
  simp only [State.replyCheck, replyParams_eq_some.mpr hgiven]
  refine ite_eq_of_firstFailing h (by simp) fun h => ?_
  refine ite_eq_of_firstFailing h (by simp [← replyMatches_iff]) fun h => ?_
  refine ite_eq_of_firstFailing h (by simp) fun h => ?_
  exact ite_eq_of_firstFailing h (by simp) nofun

/-- A REPLY whose checks give a result is refused with it. -/
theorem refusedWith_of_replyCheck {s : State} {p : Station} {r : ResultCode} (hi : Issued s p .reply)
    (h : s.replyCheck p = .error r) : RefusedWith s (.reply p) .reply p r [] :=
  refusedWith_of_verdict rfl hi (by simp [replyVerdict, h])

/-- Settles O14: malformed words fail check 1, and of well-formed ones the other four checks decide in order. -/
theorem replyRefusedByFirstFailingCheck : Obligations.ReplyRefusedByFirstFailingCheck := fun s p hi =>
  ⟨fun hbad => refusedWith_of_replyCheck hi (by simp [State.replyCheck, replyParams_eq_none.mpr hbad]),
    fun _ _ hgiven h => refusedWith_of_replyCheck hi (replyCheck_of_firstFailing hgiven h)⟩

/-! ## The ending of an exchange (R13-R16) -/

/-- Every ending but the silent one of the requester's teardown closes the requester's record (R16). -/
def Ending.closesRequester : Ending → Bool
  | .reply _ _ _ _ => true
  | .lapsed _ => true
  | .silent => false

theorem requesterRef_eq (e : Ending) (sl : Slot) :
    e.requesterRef sl = if e.closesRequester then sl.reqRef else none := by
  cases e <;> rfl

theorem closedJournal_eq_closedAt (j : Journal) (r : Option JournalRef) (x : XNum) (c : JournalClose) :
    closedJournal j r x c = j.closedAt r x c := by
  cases r <;> rfl

theorem endedInbox_eq_inboxAfterEnding (s : State) (i : SlotNo) (e : Ending) (q : Station) :
    endedInbox s i e q = s.inboxAfterEnding i (e.outcomeRecord (s.slot i) (s.xnum i) s.tickCount) q := by
  simp only [endedInbox, State.inboxAfterEnding, withoutRequest, eq_comm (a := q)]

/-- Where the two stations of an exchange differ, each closes its own record. -/
theorem endedJournal_eq_journalAfterEnding {s : State} {i : SlotNo} (hd : (s.slot i).dest ≠ (s.slot i).requester)
    (e : Ending) (q : Station) :
    endedJournal s i e q = s.journalAfterEnding i e.closesRequester (e.close s.tickCount) q := by
  simp only [endedJournal, State.journalAfterEnding, closedJournal_eq_closedAt, requesterRef_eq, eq_comm (a := q)]
  by_cases hq : (s.slot i).requester = q
  · subst hq
    cases e.closesRequester <;> simp [hd, Journal.closedAt]
  · simp [hq]

/-- The ending of a non-FREE slot whose two stations differ does its four steps, whatever the outcome. -/
theorem endsExchange_endExchange {s : State} {i : SlotNo} (e : Ending) (hused : (s.slot i).state ≠ .free)
    (hd : (s.slot i).dest ≠ (s.slot i).requester) :
    EndsExchange s (s.endExchange i e) i (e.outcomeRecord (s.slot i) (s.xnum i) s.tickCount) e.closesRequester
      (e.close s.tickCount) := by
  refine ⟨?freed, fun j hj => slot_endExchange_ne e hj, fun q => ?port, endExchange_mem s i e, ?clock⟩
  case freed => rw [slot_endExchange e hused, if_pos rfl]
  case port => rw [port_endExchange e hused, endedInbox_eq_inboxAfterEnding, endedJournal_eq_journalAfterEnding hd]
  case clock => exact ⟨endExchange_phase s i e, endExchange_strap s i e, endExchange_tickCount s i e,
    endExchange_pending s i e⟩

/-- Of the pool, the ending of a TAKEN slot attaches the reply's chain and does nothing else (R37, R91). -/
theorem endExchange_pool_of_taken {s : State} {i : SlotNo} (e : Ending) (h : (s.slot i).state = .taken) :
    (s.endExchange i e).pool = s.pool.attachChain e.chain := by
  rw [endExchange_pool e (by simp [h]), endedChain, h]
  rfl

/-! ## REPLY ends the exchange (R32) -/

/-- A well-formed REPLY that passes its other four checks passes. -/
theorem replyCheck_of_checks {s : State} {p : Station} {ps : ReplyParams} (hgiven : ReplyGiven (s.port p).params ps)
    (hconnected : (s.port p).connected = true) (hmatches : s.replyMatches p ps.x = true)
    (hfits : s.pool.payloadFits p ps.payload = true) (hdamaged : s.pool.payloadDamaged ps.payload = false) :
    s.replyCheck p = .ok ps := by
  simp [State.replyCheck, replyParams_eq_some.mpr hgiven, hconnected, hmatches, hfits, hdamaged]

/-- Settles O13: the checks lead to the ending with what the replier gave, and the slot is TAKEN, so that of the pool
only the reply's chain moves. -/
theorem replyEndsExchange : Obligations.ReplyEndsExchange := by
  intro s p ps hi hgiven hconnected htaken hgen hdest hreq hfits hdamaged
  have hok := replyCheck_of_checks hgiven hconnected (replyMatches_iff.mpr ⟨htaken, hgen, hdest⟩) hfits hdamaged
  have hx : s.xnum ps.x.slot = ps.x := by rw [State.xnum, hgen]
  obtain ⟨t, ht, hbecomes⟩ := portBecomes_of_accepted (i := .reply p) rfl hi
    (show replyVerdict p s = .accepted
      (s.endExchange ps.x.slot (.reply ps.status ps.words ps.payload.len ps.payload.chain)) [] by
        simp [replyVerdict, hok])
  refine ⟨t, _, ht, ?ends, ?moved, hbecomes⟩
  case ends =>
    have hends := endsExchange_endExchange (.reply ps.status ps.words ps.payload.len ps.payload.chain)
      (i := ps.x.slot) (by simp [htaken]) (hdest ▸ hreq.symm)
    rwa [Ending.outcomeRecord, hx, hdest] at hends
  case moved =>
    rw [endExchange_pool_of_taken _ htaken]
    exact moved_attachChain (held_of_payloadFits hfits)

/-! ## CANCEL (R35-R37) -/

/-- The one slot of a station that carries a tag is the one found (R7, R12). -/
theorem findTag_of_unique {s : State} {p : Station} {tag : Word} {i : SlotNo}
    (hreq : (s.slot i).requestedBy p = true) (htag : (s.slot i).tag = tag)
    (honly : ∀ j, (s.slot j).requestedBy p = true → (s.slot j).tag = tag → j = i) : s.findTag p tag = some i := by
  cases hfound : s.findTag p tag with
  | none => exact absurd htag (findTag_none.mp hfound i hreq)
  | some j =>
    obtain ⟨hj, hjtag⟩ := findTag_some hfound
    rw [honly j hj hjtag]

/-- Settles O15: port state, then the search for the tag, which finds the one slot there is; its ending does
the rest. -/
theorem cancelEndsOwnExchange : Obligations.CancelEndsOwnExchange := by
  intro s p hi
  refine ⟨fun hoff => refusedWith_of_verdict rfl hi (by simp [cancelVerdict, hoff]), fun hconnected =>
    ⟨fun hnone => ?notfound, fun i hreq htag honly hdest => ?found⟩⟩
  case notfound =>
    exact refusedWith_of_verdict rfl hi (by simp [cancelVerdict, hconnected, findTag_none.mpr hnone])
  case found =>
    obtain ⟨hused, rfl⟩ := requestedBy_iff.mp hreq
    obtain ⟨t, ht, hbecomes⟩ := portBecomes_of_accepted (i := .cancel _) rfl hi
      (show cancelVerdict _ s = .accepted (s.endExchange i (.lapsed .cancelled)) [] by
        simp [cancelVerdict, hconnected, findTag_of_unique hreq htag honly])
    refine ⟨t, ht, hbecomes, endsExchange_endExchange _ hused hdest, fun htaken => ?_⟩
    obtain ⟨a, rfl⟩ := hbecomes
    exact endExchange_pool_of_taken _ htaken

/-! ## NOTIFY (R39-R41) -/

theorem mem_membersOf {set : StationSet} {m : Station} : m ∈ membersOf set ↔ inSet set m = true := by
  simp [membersOf]

theorem membersOf_ascending (set : StationSet) : (membersOf set).Pairwise (· < ·) :=
  (List.pairwise_lt_finRange 4).filter _

/-- A NOTICE at every member is one change of each member's port. -/
theorem placeNotices_eq_mapPorts (s : State) (r : Record) (set : StationSet) :
    s.placeNotices r (membersOf set)
      = s.mapPorts fun q x => if inSet set q then { x with inbox := x.inbox ++ [r] } else x := by
  obtain ⟨hslots, hpool, htick, hphase⟩ := placeNotices_rest s r (membersOf set)
  obtain ⟨hstrap, hpending⟩ : (s.placeNotices r (membersOf set)).strap = s.strap
      ∧ (s.placeNotices r (membersOf set)).pending = s.pending :=
    foldl_keeps (fun t : State => t.strap = s.strap ∧ t.pending = s.pending) ⟨rfl, rfl⟩ fun _ _ _ h => h
  refine State.ext_of_ports (fun q => ?_) hslots hpool htick hphase hstrap hpending
  rw [port_placeNotices s r (membersOf_nodup set), port_mapPorts]
  by_cases hq : inSet set q = true <;> simp [mem_membersOf, hq]

/-- A member's three checks hold exactly where the model's tests pass (R40). -/
theorem memberChecks_pass_iff {s : State} {p m : Station} {v : Service} :
    (∀ check ∈ s.memberChecks p v m, check.1 = true) ↔ s.memberCheck p v m = none := by
  simp [State.memberChecks, memberCheck_none, State.admitted, hasRoom_iff]

/-- The model's tests on one member are the list of three checks (R40). -/
theorem memberCheck_eq_firstFailing (s : State) (p : Station) (v : Service) (m : Station) :
    s.memberCheck p v m = firstFailing (s.memberChecks p v m) := by
  cases h : firstFailing (s.memberChecks p v m) with
  | none => exact memberChecks_pass_iff.mp (firstFailing_eq_none.mp h)
  | some r =>
    unfold State.memberCheck
    refine ite_eq_of_firstFailing h (by simp) fun h => ?_
    refine ite_eq_of_firstFailing h (by simp [State.admitted]) fun h => ?_
    exact ite_eq_of_firstFailing h (by simp [← hasRoom_iff]) nofun

/-- In ascending order the first failing member refuses (R40). -/
theorem firstRefusal_of_first_failing {s : State} {p m : Station} {v : Service} {r : ResultCode}
    {ms : List Station} (hsorted : ms.Pairwise (· < ·)) (hm : m ∈ ms)
    (hbefore : ∀ l ∈ ms, l < m → s.memberCheck p v l = none) (hr : s.memberCheck p v m = some r) :
    s.firstRefusal p v ms = some (r, m) := by
  induction ms with
  | nil => cases hm
  | cons l rest ih =>
    obtain ⟨hl, hrest⟩ := List.pairwise_cons.mp hsorted
    rcases List.mem_cons.mp hm with rfl | hm
    · simp [State.firstRefusal, hr]
    · have hnone := hbefore l List.mem_cons_self (hl m hm)
      simpa [State.firstRefusal, hnone] using ih hrest hm fun k hk => hbefore k (List.mem_cons_of_mem l hk)

/-- Settles O18: every member passes, so that the notice is placed at each, which is one change of all ports. -/
theorem notifyReachesEveryMember : Obligations.NotifyReachesEveryMember := by
  intro s p ps set v hi hgiven honline hroute hchecks
  have hnone : s.firstRefusal p v (membersOf set) = none :=
    firstRefusal_none.mpr fun m hm => memberChecks_pass_iff.mp (hchecks m (mem_membersOf.mp hm))
  rw [← placeNotices_eq_mapPorts]
  exact portBecomes_of_accepted rfl hi (by
    simp [notifyVerdict, notifyParams_eq_some.mpr hgiven, honline, hroute, hnone, State.noticeRecord])

/-- Settles O19: parameters, port state and route one by one, then the members in ascending order, of which the first
failing one refuses. -/
theorem notifyRefusedByFirstFailingCheck : Obligations.NotifyRefusedByFirstFailingCheck := by
  intro s p hi
  refine ⟨fun hbad => refusedWith_of_verdict rfl hi ?params, fun ps hgiven =>
    ⟨fun hoff => refusedWith_of_verdict rfl hi ?portState, fun honline =>
      ⟨fun hnoroute => refusedWith_of_verdict rfl hi ?route, fun set v m r hroute hm hbefore hr =>
        refusedWith_of_verdict rfl hi ?member⟩⟩⟩
  case params => simp [notifyVerdict, notifyParams_eq_none.mpr hbad]
  case portState => simp [notifyVerdict, notifyParams_eq_some.mpr hgiven, hoff]
  case route =>
    cases hr : (s.port p).routes[ps.service] with
    | notice set v => exact absurd hr (hnoroute set v)
    | none => simp [notifyVerdict, notifyParams_eq_some.mpr hgiven, honline, hr]
    | request d v timeout m => simp [notifyVerdict, notifyParams_eq_some.mpr hgiven, honline, hr]
  case member =>
    simp only [← memberCheck_eq_firstFailing] at hbefore hr
    have hrefusal : s.firstRefusal p v (membersOf set) = some (r, m) :=
      firstRefusal_of_first_failing (membersOf_ascending set) (mem_membersOf.mpr hm)
        (fun l hl hlm => hbefore l hlm (mem_membersOf.mp hl)) hr
    simp [notifyVerdict, notifyParams_eq_some.mpr hgiven, honline, hroute, hrefusal]

end Sys2Proof.Machine
end

section
/-! PROOFS. TAKE moves the head record into the current-record view (R51-R53): its chain, its slot and journal, and the
state an accepted TAKE leaves. -/

namespace Sys2Proof.Machine

/-! ## The chain of a taken record (R91) -/

/-- Taking up a chain is taking up its buffers one by one. -/
theorem takeUpChain_eq (pool : Pool) (p : Station) (c : Option BufferNo) :
    pool.takeUpChain p c = (pool.chainOf c).foldl (Pool.takeUp p) pool := by
  cases c <;> rfl

/-- A chain of ATTACHED buffers that is taken up goes to HELD by the taker as a whole (R91). -/
theorem moved_takeUpChain {pool : Pool} {c : Option BufferNo} (p : Station)
    (hattached : ∀ b ∈ pool.chainOf c, (pool.desc b).place = .attached) :
    pool.Moved (pool.takeUpChain p c) (pool.chainOf c) (.held p) := by
  obtain ⟨hfree, hdamaged, hscrub, hmem, -⟩ := takeUpChain_sameButPlaces pool p c
  refine ⟨fun b => ?_, hfree, hdamaged, hscrub, hmem⟩
  rw [(takeUpChain_sameButPlaces pool p c).desc_eq b, takeUpChain_eq, place_foldl_takeUp]
  by_cases hb : b ∈ pool.chainOf c
  · rw [if_pos ⟨hb, hattached b hb⟩, if_pos hb]
  · rw [if_neg fun h => hb h.1, if_neg hb]

/-! ## The effect of an accepted TAKE, as a change of the taker's port (R52, R53) -/

/-- What every TAKE does to the taker's port: the head record leaves the inbox for the view (R52). -/
def Port.viewing (q : Port) (r : Record) (rest : List Record) : Port := { q with inbox := rest, view := some r }

/-- What an opening does to its port: the record is written and, where the position wraps, JOURNAL is latched (R112,
R113). -/
def Port.openingRecord (q : Port) (h : JournalHead) : Port :=
  { q with
    journal := q.journal.opening h
    journalCause := q.journalCause || decide (q.journal.nextRef.index = 31) }

/-- An OPEN slot when its REQUEST is taken: it is TAKEN and names the record opened for the taker (R53). -/
def Slot.takenNaming (sl : Slot) (ref : JournalRef) : Slot := { sl with state := .taken, respRef := some ref }

/-- A record that is no REQUEST changes only the pool and the taker's inbox and view. -/
theorem acceptTake_of_no_request (s : State) (p : Station) {r : Record} (rest : List Record)
    (hr : r.requestOf = none) :
    s.acceptTake p r rest
      = ({ s with pool := s.pool.takeUpChain p r.chain } : State).modPort p fun q => q.viewing r rest := by
  rw [State.acceptTake, hr]
  rfl

/-- The slot of a REQUEST that is OPEN becomes TAKEN and names the record opened for it (R53). -/
theorem slotTaken_of_opened {s : State} {i : SlotNo} (p : Station) (hopen : (s.slot i).state = .opened) :
    s.slotTaken p i
      = (s.setSlot i ((s.slot i).takenNaming (s.port p).journal.nextRef)).modPort p
          fun q => q.openingRecord ⟨.responder, s.xnum i, (s.slot i).requester, (s.slot i).destService,
            (s.slot i).wordsOut, (s.slot i).start⟩ := by
  rw [State.slotTaken, hopen]
  rfl

/-- A REQUEST whose exchange stands OPEN in its slot moves that slot to TAKEN and opens the RESPONDER record besides. -/
theorem acceptTake_of_request {s : State} (p : Station) {r : Record} (rest : List Record) {x : XNum}
    (hr : r.requestOf = some x) (hopen : (s.slot x.slot).state = .opened) (hgen : (s.slot x.slot).gen = x.gen) :
    s.acceptTake p r rest
      = ({ s.setSlot x.slot ((s.slot x.slot).takenNaming (s.port p).journal.nextRef) with
            pool := s.pool.takeUpChain p r.chain } : State).modPort p fun q =>
          (q.viewing r rest).openingRecord ⟨.responder, x, (s.slot x.slot).requester,
            (s.slot x.slot).destService, (s.slot x.slot).wordsOut, (s.slot x.slot).start⟩ := by
  have hslot : (s.takeRecord p r rest).slot x.slot = s.slot x.slot := rfl
  have hjournal : ((s.takeRecord p r rest).port p).journal = (s.port p).journal := by simp [State.takeRecord]
  have hx : (s.takeRecord p r rest).xnum x.slot = x := by rw [State.xnum, hslot, hgen]
  simp only [State.acceptTake, hr]
  rw [slotTaken_of_opened p (hslot ▸ hopen), hslot, hjournal, hx]
  exact modPort_modPort ({ s.setSlot x.slot ((s.slot x.slot).takenNaming (s.port p).journal.nextRef) with
    pool := s.pool.takeUpChain p r.chain } : State) p (fun q => q.viewing r rest) _

/-! ## TAKE (R51-R53) -/

/-- A change of one port before a command's result is part of what that port becomes. -/
theorem portBecomes_of_modPort {s t : State} {p : Station} {f g : Port → Port}
    (h : PortBecomes (s.modPort p g) t p f) : PortBecomes s t p fun q => f (g q) := by
  obtain ⟨a, rfl⟩ := h
  exact ⟨a, modPort_modPort ..⟩

/-- A TAKE that waits at a connected port with a record in its inbox takes up the head record's chain and leaves, where
its effect is `g` on the taker's port over `u`, that change with the result DONE. -/
theorem exec_take_of_effect {s u : State} {p : Station} {r : Record} {rest : List Record} {g : Port → Port}
    (hi : Issued s p .take) (hconnected : (s.port p).connected = true) (hinbox : (s.port p).inbox = r :: rest)
    (hattached : ∀ b ∈ s.pool.chainOf r.chain, (s.pool.desc b).place = .attached)
    (heffect : s.acceptTake p r rest = ({ u with pool := s.pool.takeUpChain p r.chain } : State).modPort p g) :
    ∃ t, exec (.take p) s = .next t ∧ s.pool.Moved t.pool (s.pool.chainOf r.chain) (.held p)
      ∧ PortBecomes { u with pool := t.pool } t p fun q => withResult (some .take) .done [] (g q) := by
  obtain ⟨t, ht, hbecomes⟩ := portBecomes_of_accepted (i := .take p) rfl hi
    (show takeVerdict p s = .accepted (s.acceptTake p r rest) [] by simp [takeVerdict, hconnected, hinbox])
  have hpool : t.pool = s.pool.takeUpChain p r.chain := by
    obtain ⟨a, rfl⟩ := hbecomes
    exact acceptTake_pool s p r rest
  rw [heffect] at hbecomes
  refine ⟨t, ht, ?moved, ?becomes⟩
  case moved => rw [hpool]; exact moved_takeUpChain p hattached
  case becomes => rw [hpool]; exact portBecomes_of_modPort hbecomes

/-- Settles O20: port state and inbox one by one; then the head record's kind decides whether a slot and a journal
change besides the pool and the taker's inbox and view. -/
theorem takeRemovesHeadRecord : Obligations.TakeRemovesHeadRecord := by
  intro s p hi
  refine ⟨fun hoff => refusedWith_of_verdict rfl hi ?portState, fun hconnected hempty =>
    refusedWith_of_verdict rfl hi ?empty, fun r rest hconnected hinbox hattached =>
      ⟨fun hr => ?other, fun x hr hopen hgen => ?request⟩⟩
  case portState => simp [takeVerdict, hoff]
  case empty => simp [takeVerdict, hconnected, hempty]
  case other =>
    exact exec_take_of_effect hi hconnected hinbox hattached (acceptTake_of_no_request s p rest hr)
  case request =>
    exact exec_take_of_effect hi hconnected hinbox hattached
      (acceptTake_of_request p rest hr hopen hgen)

end Sys2Proof.Machine
end

section
/-! PROOFS. SET_ROUTE, CLEAR_ROUTE and SET_ADMIT replace one entry of the issuer's tables (R64-R67): what a SET_ADMIT's
words give, and the one port each accepted command changes. -/

namespace Sys2Proof.Machine

/-! ## The words of a SET_ADMIT (R67, R163) -/

/-- A word is read as a station set exactly where its low bits are the set and no other bit is set. -/
theorem setField_eq_some_iff_setWidth {w : Word} {set : StationSet} :
    setField w = some set ↔ w = set.setWidth 16 := by
  have hlt : set.toNat < 2 ^ 16 := set.isLt.trans (by decide)
  rw [setField_eq_some, BitVec.toNat_eq, BitVec.toNat_setWidth, Nat.mod_eq_of_lt hlt]

/-- The bit of a station in a set word is its membership in the set read from that word. -/
theorem getLsbD_setWidth_eq_inSet (set : StationSet) (p : Station) :
    (set.setWidth 16 : Word).getLsbD p.val = inSet set p := by
  have hp : p.val < 16 := p.isLt.trans (by decide)
  simp [inSet, hp]

/-- SET_ADMIT takes the set its words give, which does not hold the owner (R67). -/
theorem setAdmitParams_eq_some {owner : Station} {ps : Vector Word 16} {v : Service} {set : StationSet} :
    setAdmitParams owner ps = some (v, set) ↔
      ps[0].toNat = v.val ∧ ps[1] = set.setWidth 16 ∧ set.getLsbD owner.val = false := by
  unfold setAdmitParams
  rw [← serviceField_eq_some, ← setField_eq_some_iff_setWidth]
  cases serviceField ps[0] with
  | none => simp
  | some w =>
    cases setField ps[1] with
    | none => simp
    | some given =>
      simp only [Option.ite_none_left_eq_some, Option.some.injEq, Prod.mk.injEq, Bool.not_eq_true]
      constructor
      · rintro ⟨howner, rfl, rfl⟩
        exact ⟨rfl, rfl, howner⟩
      · rintro ⟨rfl, rfl, howner⟩
        exact ⟨howner, rfl, rfl⟩

/-- SET_ADMIT refuses a service out of range, a set word with a bit above 3, and a set that holds the owner (R67). -/
theorem setAdmitParams_eq_none {owner : Station} {ps : Vector Word 16} :
    setAdmitParams owner ps = none ↔
      31 < ps[0].toNat ∨ 15 < ps[1].toNat ∨ ps[1].getLsbD owner.val = true := by
  unfold setAdmitParams
  rw [← serviceField_eq_none, ← setField_eq_none]
  cases serviceField ps[0] with
  | none => simp
  | some v =>
    cases hset : setField ps[1] with
    | none => simp
    | some set =>
      rw [setField_eq_some_iff_setWidth.mp hset, getLsbD_setWidth_eq_inSet]
      simp

/-! ## The commands (R65-R67) -/

/-- A row that takes a waiting command whose effect is a change of its own port leaves that port so changed, with the
result DONE, and nothing else. -/
theorem portBecomes_of_accepted_modPort {s : State} {p : Station} {i : Instr} {c : Command}
    {verdict : State → Verdict} {f : Port → Port} {ps : List Word}
    (hexec : exec i s = .next (s.takeCommand p c verdict)) (hi : Issued s p c)
    (hv : verdict s = .accepted (s.modPort p f) ps) :
    ∃ t, exec i s = .next t ∧ PortBecomes s t p fun q => withResult (some c) .done ps (f q) := by
  obtain ⟨t, ht, hbecomes⟩ := portBecomes_of_accepted hexec hi hv
  exact ⟨t, ht, portBecomes_of_modPort hbecomes⟩

/-- Settles O24: the words of a SET_ROUTE either give an entry or are a case of Table 4.2, and those of a CLEAR_ROUTE
give a service or a number above 31; where they give something, one entry of the issuer's routes is set. -/
theorem routeCommandsReplaceOneEntry : Obligations.RouteCommandsReplaceOneEntry := by
  intro s p
  refine ⟨fun hi hbad => refusedWith_of_verdict rfl hi ?setRefused,
    fun v e hi hgiven => portBecomes_of_accepted_modPort rfl hi ?setAccepted,
    fun hi hbad => refusedWith_of_verdict rfl hi ?clearRefused,
    fun v hi hv => portBecomes_of_accepted_modPort rfl hi ?clearAccepted⟩
  case setRefused => simp [setRouteVerdict, setRouteParams_eq_none.mpr hbad]
  case setAccepted => simp [setRouteVerdict, setRouteParams_of_given hgiven, State.setRoute]
  case clearRefused => simp [clearRouteVerdict, serviceField_eq_none.mpr hbad]
  case clearAccepted => simp [clearRouteVerdict, serviceField_eq_some.mpr hv, State.setRoute]

/-- Settles O25: the words either are refused or give a service and a set, which becomes that entry of the issuer's
admitted sets. -/
theorem setAdmitReplacesOneEntry : Obligations.SetAdmitReplacesOneEntry := by
  intro s p hi
  refine ⟨fun hbad => refusedWith_of_verdict rfl hi ?refused,
    fun v set hv hset howner => portBecomes_of_accepted_modPort rfl hi ?accepted⟩
  case refused => simp [setAdmitVerdict, setAdmitParams_eq_none.mpr hbad]
  case accepted => simp [setAdmitVerdict, setAdmitParams_eq_some.mpr ⟨hv, hset, howner⟩, State.setAdmit]

end Sys2Proof.Machine
end

section
/-! PROOFS. ACQUIRE, RELEASE, APPEND and SCRUB (R80, R81, R84, R85, R96): what their parameter words give, their
checks in order, and what each accepted command does to the pool. -/

namespace Sys2Proof.Machine

/-! ## Commands whose effect is a new pool -/

/-- A row that takes a waiting command whose effect is a new pool leaves that pool, and else only its port's result
DONE. -/
theorem portBecomes_of_accepted_setPool {s : State} {p : Station} {i : Instr} {c : Command}
    {verdict : State → Verdict} {pool : Pool} {ps : List Word}
    (hexec : exec i s = .next (s.takeCommand p c verdict)) (hi : Issued s p c)
    (hv : verdict s = .accepted (s.setPool pool) ps) :
    ∃ t, exec i s = .next t ∧ t.pool = pool
      ∧ PortBecomes { s with pool := t.pool } t p (withResult (some c) .done ps) := by
  obtain ⟨a, ht⟩ := takeCommand_of_accepted hi hv
  rw [ht] at hexec
  exact ⟨_, hexec, rfl, a, rfl⟩

/-- A cascade of refusals without parameters refuses with the first check that fails, test by test (R23). -/
theorem verdict_of_firstFailing {holds : Bool} {fails : Prop} [Decidable fails] {code r : ResultCode}
    {rest : List (Bool × ResultCode)} {v : Verdict} (h : firstFailing ((holds, code) :: rest) = some r)
    (htest : holds = true ↔ ¬ fails) (goesOn : firstFailing rest = some r → v = .refused r []) :
    (if fails then .refused code [] else v) = .refused r [] :=
  ite_eq_of_firstFailing (f := (Verdict.refused · [])) h htest goesOn

/-- A head HELD by the station is what RELEASE and APPEND ask for (R84, R85). -/
theorem isHeldHead_iff {pool : Pool} {p : Station} {b : BufferNo} :
    pool.isHeldHead p b = true ↔ (pool.desc b).place = .held p ∧ (pool.desc b).head = true := by
  simp [Pool.isHeldHead, Pool.holds]

/-! ## ACQUIRE (R80, R81) -/

/-- ACQUIRE takes a count of 1 to 8. -/
theorem acquireParams_eq_some {ps : Vector Word 16} {n : Nat} :
    acquireParams ps = some n ↔ ps[0].toNat = n ∧ 1 ≤ n ∧ n ≤ 8 := by
  unfold acquireParams
  split
  · next hrange =>
    rw [Option.some.injEq]
    exact ⟨fun hn => ⟨hn, hn ▸ hrange⟩, fun ⟨hn, _⟩ => hn⟩
  · next hrange => exact ⟨nofun, fun ⟨hn, h⟩ => absurd (hn ▸ h) hrange⟩

/-- ACQUIRE refuses every other count. -/
theorem acquireParams_eq_none {ps : Vector Word 16} :
    acquireParams ps = none ↔ ¬ (1 ≤ ps[0].toNat ∧ ps[0].toNat ≤ 8) := by
  unfold acquireParams
  split
  · next hrange => exact ⟨nofun, fun h => absurd hrange h⟩
  · next hrange => exact ⟨fun _ => hrange, fun _ => rfl⟩

/-- The descriptor of each buffer of a new chain of different buffers. -/
theorem desc_linkChain (p : Station) (isHead : Bool) {l : List BufferNo} (pool : Pool) (hl : l.Nodup) {k : Nat}
    (hk : k < l.length) :
    (Pool.linkChain p isHead l pool).desc l[k]
      = ⟨.held p, l[k + 1]?, decide (k = 0) && isHead, (pool.desc l[k]).damaged⟩ := by
  obtain ⟨hplace, hdamaged⟩ := linkChain_mem p isHead l pool (List.getElem_mem hk)
  obtain ⟨hnext, hhead⟩ := linkChain_links p isHead l pool hl k hk
  rw [← hplace, ← hnext, ← hhead, ← hdamaged]

/-- The first `n` buffers of a free list without repetitions become one chain, linked in list order (R81). -/
theorem desc_acquire {pool : Pool} (p : Station) {n k : Nat} (hfree : pool.free.Nodup)
    (hn : n ≤ pool.free.length) (hk : k < n) :
    ∃ b, (pool.free.take n)[k]? = some b
      ∧ (pool.acquire p n).desc b
        = ⟨.held p, (pool.free.take n)[k + 1]?, decide (k = 0), (pool.desc b).damaged⟩ := by
  have hk' : k < (pool.free.take n).length := by simpa using ⟨hk, hk.trans_le hn⟩
  have hnodup : (pool.free.take n).Nodup := hfree.sublist (List.take_sublist ..)
  refine ⟨_, List.getElem?_eq_getElem hk', (desc_linkChain p true _ hnodup hk').trans ?_⟩
  rw [Bool.and_true]
  rfl

/-- Settles O26: the count is read or refused, the other three checks decide in order, and the buffers taken are linked
one by one. -/
theorem acquireTakesFreeListHead : Obligations.AcquireTakesFreeListHead := by
  intro s p hi
  refine ⟨fun hbad => refusedWith_of_verdict rfl hi ?params, fun n hn hlow hhigh =>
    ⟨fun r h => refusedWith_of_verdict rfl hi ?checks, fun hconnected hlimit hlength hnodup => ?accepted⟩⟩
  case params => simp [acquireVerdict, acquireParams_eq_none.mpr hbad]
  case checks =>
    simp only [acquireVerdict, acquireParams_eq_some.mpr ⟨hn, hlow, hhigh⟩]
    refine verdict_of_firstFailing h (by simp) fun h => ?_
    refine verdict_of_firstFailing h (by simp [Config.heldLimit]) fun h => ?_
    exact verdict_of_firstFailing h (by simp) nofun
  case accepted =>
    obtain ⟨t, ht, hpool, hbecomes⟩ := portBecomes_of_accepted_setPool (i := .acquire p) rfl hi
      (show acquireVerdict p s = .accepted (s.setPool (s.pool.acquire p n))
          ((s.pool.free.take n).map fun b => BitVec.ofNat 16 b.val) by
        simp [acquireVerdict, acquireParams_eq_some.mpr ⟨hn, hlow, hhigh⟩, hconnected, Config.heldLimit,
          not_lt.mpr hlimit, not_lt.mpr hlength])
    obtain ⟨hfree, hdamaged, hscrub, hmem⟩ :=
      linkChain_fields p true (s.pool.free.take n) { s.pool with free := s.pool.free.drop n }
    refine ⟨t, ht, hbecomes, ?_⟩
    rw [hpool]
    exact ⟨hfree, fun k hk => desc_acquire p hnodup hlength hk, fun b hb => linkChain_other _ _ _ _ hb,
      hdamaged, hscrub, hmem⟩

/-! ## RELEASE (R85) -/

/-- Settles O27: the buffer number is read or refused, the other two checks decide in order, and the chain of a HELD
head is given back buffer by buffer. -/
theorem releaseGivesChainBack : Obligations.ReleaseGivesChainBack := by
  intro s p hi
  refine ⟨fun hbad => refusedWith_of_verdict rfl hi ?params, fun b hb =>
    ⟨fun r h => refusedWith_of_verdict rfl hi ?checks, fun hconnected hhead hnodup hheld => ?accepted⟩⟩
  case params => simp [releaseVerdict, bufferField_eq_none.mpr hbad]
  case checks =>
    simp only [releaseVerdict, bufferField_eq_some.mpr hb]
    refine verdict_of_firstFailing h (by simp) fun h => ?_
    exact verdict_of_firstFailing h (by simp [← isHeldHead_iff]) nofun
  case accepted =>
    have hok : s.pool.isHeldHead p b = true := isHeldHead_iff.mpr ⟨hheld b (mem_chain_self s.pool b), hhead⟩
    obtain ⟨t, ht, hpool, hbecomes⟩ := portBecomes_of_accepted_setPool (i := .release p) rfl hi
      (show releaseVerdict p s = .accepted (s.setPool (s.pool.giveBackChain b)) [] by
        simp [releaseVerdict, bufferField_eq_some.mpr hb, hconnected, hok])
    refine ⟨t, ht, ?_, hbecomes⟩
    rw [hpool]
    exact returned_foldl_giveBack hnodup fun c hc => inChain_iff.mpr (.inl ⟨p, hheld c hc⟩)

/-! ## APPEND (R84) -/

/-- APPEND takes two different buffers. -/
theorem appendParams_eq_some {ps : Vector Word 16} {a b : BufferNo} :
    appendParams ps = some (a, b) ↔ ps[0].toNat = a.val ∧ ps[1].toNat = b.val ∧ a ≠ b := by
  unfold appendParams
  rw [← bufferField_eq_some, ← bufferField_eq_some]
  cases bufferField ps[0] with
  | none => simp
  | some x =>
    cases bufferField ps[1] with
    | none => simp
    | some y =>
      simp only [Option.ite_none_left_eq_some, Option.some.injEq, Prod.mk.injEq]
      constructor
      · rintro ⟨hne, rfl, rfl⟩
        exact ⟨rfl, rfl, hne⟩
      · rintro ⟨rfl, rfl, hne⟩
        exact ⟨hne, rfl, rfl⟩

/-- APPEND refuses a number above 255 and one buffer named twice. -/
theorem appendParams_eq_none {ps : Vector Word 16} :
    appendParams ps = none ↔ 255 < ps[0].toNat ∨ 255 < ps[1].toNat ∨ ps[0] = ps[1] := by
  unfold appendParams
  rw [← bufferField_eq_none, ← bufferField_eq_none]
  cases ha : bufferField ps[0] with
  | none => simp
  | some a =>
    cases hb : bufferField ps[1] with
    | none => simp
    | some b =>
      have hsame : ps[0] = ps[1] ↔ a = b := by
        rw [BitVec.toNat_eq, bufferField_eq_some.mp ha, bufferField_eq_some.mp hb, Fin.ext_iff]
      simp [hsame]

/-- The last check of APPEND: two heads HELD by the station, of chains that make at most 8 buffers together (R84). -/
def Pool.mayJoin (pool : Pool) (p : Station) (a b : BufferNo) : Bool :=
  decide (((pool.desc a).place = .held p ∧ (pool.desc a).head = true)
    ∧ ((pool.desc b).place = .held p ∧ (pool.desc b).head = true)
    ∧ (pool.chain a).length + (pool.chain b).length ≤ 8)

/-- The one check holds where the model's three tests do. -/
theorem mayJoin_iff {pool : Pool} {p : Station} {a b : BufferNo} :
    pool.mayJoin p a b = true ↔ pool.isHeldHead p a = true ∧ pool.isHeldHead p b = true
      ∧ ¬ Config.maxChain < (pool.chain a).length + (pool.chain b).length := by
  rw [isHeldHead_iff, isHeldHead_iff, not_lt]
  exact decide_eq_true_iff

/-- The three tests of APPEND that answer BAD_CHAIN are one check. -/
theorem appendVerdict_eq {s : State} {p : Station} {a b : BufferNo}
    (hps : appendParams (s.port p).params = some (a, b)) :
    appendVerdict p s
      = if (s.port p).connected = false then .refused .notOnline []
        else if s.pool.mayJoin p a b = false then .refused .badChain []
        else .accepted (s.setPool (s.pool.join a b)) [] := by
  simp only [appendVerdict, hps, ← Bool.not_eq_true (s.pool.mayJoin p a b), mayJoin_iff]
  cases s.pool.isHeldHead p a with
  | false => simp
  | true =>
    cases s.pool.isHeldHead p b with
    | false => simp
    | true => simp

/-- What joining does where the last buffer of the first chain is not the second head: the link, and the cleared
flag. -/
theorem join_eq {pool : Pool} {a b last : BufferNo} {front : List BufferNo} (hchain : pool.chain a = front ++ [last])
    (hne : last ≠ b) :
    pool.join a b = (pool.setDesc last { pool.desc last with next := some b }).setDesc b
      { pool.desc b with head := false } := by
  have hlast : (pool.chain a).getLastD a = last := by simp [hchain]
  simp only [Pool.join, hlast, desc_setDesc_ne _ _ hne.symm]

/-- Joining changes descriptors alone. -/
theorem join_withDescs (pool : Pool) (a b : BufferNo) :
    pool.join a b = { pool with descs := (pool.join a b).descs } := rfl

/-- Settles O28: the two numbers are read or refused, the other two checks decide in order, and joining sets one link
and clears one flag. -/
theorem appendJoinsTwoChains : Obligations.AppendJoinsTwoChains := by
  intro s p hi
  refine ⟨fun hbad => refusedWith_of_verdict rfl hi ?params, fun a b ha hb hab => ?given⟩
  case params => simp [appendVerdict, appendParams_eq_none.mpr hbad]
  have hps : appendParams (s.port p).params = some (a, b) := appendParams_eq_some.mpr ⟨ha, hb, hab⟩
  refine ⟨fun r h => refusedWith_of_verdict rfl hi ?checks,
    fun front last hconnected haheld hahead hbheld hbhead hlen hchain hlast => ?accepted⟩
  case checks =>
    rw [appendVerdict_eq hps]
    refine verdict_of_firstFailing h (by simp) fun h => ?_
    exact verdict_of_firstFailing h (by rw [Bool.not_eq_false]; rfl) nofun
  case accepted =>
    obtain ⟨t, ht, hpool, hbecomes⟩ := portBecomes_of_accepted_setPool (i := .append p) rfl hi
      (show appendVerdict p s = .accepted (s.setPool (s.pool.join a b)) [] by
        simp [appendVerdict_eq hps, hconnected, Pool.mayJoin, haheld, hahead, hbheld, hbhead, hlen])
    rw [hpool, join_withDescs, ← hpool] at hbecomes
    refine ⟨t, ht, ?last, ?head, fun c hcl hcb => ?others, hbecomes⟩
    all_goals rw [hpool, join_eq hchain hlast]
    case last => rw [desc_setDesc_ne _ _ hlast, desc_setDesc_self]
    case head => exact desc_setDesc_self ..
    case others => rw [desc_setDesc_ne _ _ hcb, desc_setDesc_ne _ _ hcl]

/-! ## SCRUB (R96) -/

/-- Settles O29: the three checks decide in order, and a damaged list that is not empty has a head to scrub. -/
theorem scrubStartsEngine : Obligations.ScrubStartsEngine := by
  intro s p hi
  refine ⟨fun r h => refusedWith_of_verdict rfl hi ?checks, fun b rest hconnected hdamaged hidle =>
    portBecomes_of_accepted rfl hi ?accepted⟩
  case checks =>
    refine verdict_of_firstFailing h (by simp) fun h => ?_
    cases hdamaged : s.pool.damaged with
    | nil => simpa [firstFailing, hdamaged] using h
    | cons b rest =>
      have h : firstFailing [(!s.pool.scrub.busy, .busy)] = some r := by
        simpa [firstFailing, hdamaged] using h
      exact verdict_of_firstFailing h (by simp) nofun
  case accepted =>
    simp only [scrubVerdict, hconnected, hdamaged, hidle, Bool.true_eq_false, Bool.false_eq_true, if_false]
    rfl

end Sys2Proof.Machine
end

section
/-! PROOFS. Reads and writes of the buffer window (R87, R88, R159): which accesses reach it, when they are permitted,
and what a refused access or a permitted write leaves. -/

namespace Sys2Proof.Machine

/-! ## Window accesses (R87, R151) -/

/-- Word `w` of the buffer window stands at address 040h + `w`. -/
theorem bufferOffset_window (w : Offset) : bufferOffset (BitVec.ofNat 11 (0x40 + w.val)) = some w := by
  have haddress : (BitVec.ofNat 11 (0x40 + w.val)).toNat = 0x40 + w.val := by
    rw [BitVec.toNat_ofNat, Nat.mod_eq_of_lt (by omega)]
  have hrange : 0x40 ≤ 0x40 + w.val ∧ 0x40 + w.val < 0x60 := by omega
  rw [bufferOffset, haddress, if_pos hrange, Nat.add_sub_cancel_left, Fin.ofNat_val_eq_self]

/-- A buffer is permitted where it is selected and HELD by the station. -/
theorem permitted_of_held {s : State} {p : Station} {b : BufferNo} (hselect : (s.port p).windowSelect = some b)
    (hheld : (s.pool.desc b).place = .held p) : s.permitted p = some b := by
  simp [State.permitted, hselect, Pool.holds, hheld]

/-- No buffer is permitted where none is selected, or one that the station does not hold. -/
theorem permitted_eq_none {s : State} {p : Station} :
    s.permitted p = none ↔ ∀ b, (s.port p).windowSelect = some b → (s.pool.desc b).place ≠ .held p := by
  unfold State.permitted
  cases (s.port p).windowSelect <;> simp [Pool.holds]

/-- A read that is not permitted is answered with 0. -/
theorem bufferWindowWord_of_refused {s : State} {p : Station} (w : Offset) (h : s.permitted p = none) :
    s.bufferWindowWord p w = 0 := by
  rw [permitted_eq_none] at h
  unfold State.bufferWindowWord
  cases hselect : (s.port p).windowSelect with
  | none => rfl
  | some b => simp [Pool.holds, h b hselect]

/-- A waiting read of the buffer window takes effect and is answered with the word read. -/
theorem exec_bufferWindowRead_of_awaits {s : State} {p : Station} {w : Offset}
    (h : Awaits s p (.read (BitVec.ofNat 11 (0x40 + w.val)))) :
    exec (.bufferWindowRead p) s = .next ((s.bufferRead p w).answer p (some (s.bufferWindowWord p w))) := by
  obtain ⟨hreset, hpending⟩ := h
  have hoffset : readOffset (.read (BitVec.ofNat 11 (0x40 + w.val))) = some w := bufferOffset_window w
  have htaking := taking_eq_some (w := fun a => (readOffset a).isSome) |>.mpr ⟨hreset, by simp [hoffset], hpending⟩
  simp only [exec, execBufferWindowRead, takeAccess_of_taking htaking, hoffset]

/-- A waiting write of the buffer window takes effect and is answered. -/
theorem exec_bufferWindowWrite_of_awaits {s : State} {p : Station} {w : Offset} {d : Word}
    (h : Awaits s p (.write (BitVec.ofNat 11 (0x40 + w.val)) d)) :
    exec (.bufferWindowWrite p) s = .next ((s.bufferWrite p w d).answer p none) := by
  obtain ⟨hreset, hpending⟩ := h
  have hoffset : writeOffset (.write (BitVec.ofNat 11 (0x40 + w.val)) d) = some w := bufferOffset_window w
  have htaking := taking_eq_some (w := fun a => (writeOffset a).isSome) |>.mpr ⟨hreset, by simp [hoffset], hpending⟩
  simp only [exec, execBufferWindowWrite, takeAccess_of_taking htaking, hoffset, writtenWord]

/-- An answer changes the access state of one port. -/
theorem portBecomes_answer (s : State) (p : Station) (d : Option Word) : PortBecomes s (s.answer p d) p id :=
  answer_changes_access s p d

/-- An effect that leaves the access state of the port lets the answer drive its word. -/
theorem drives_answer {s u : State} {p : Station} (w : Word) (h : (u.port p).access = (s.port p).access) :
    Drives s (u.answer p (some w)) p w := fun a ha => by
  rw [answer_of_pending (h.trans ha), port_modPort_self]

/-! ## Permitted writes (R88) -/

/-- After a write of one word of a buffer that word reads as written and every other word as before. -/
theorem Memory.read_write_wordAddress {m : Memory} (hm : Memory.wf m = true) (v : MemWord) (b c : BufferNo)
    (w o : Offset) :
    Memory.read (Memory.write m (wordAddress b w) v) (wordAddress c o)
      = if c = b ∧ o = w then v else Memory.read m (wordAddress c o) := by
  split
  · next h => rw [h.1, h.2, Memory.read_write_self v hm]
  · next h => exact Memory.read_write_other m v fun e => h (wordAddress_inj.mp e)

/-- Settles O34: the write is permitted, so that its effect is one word of memory, and the answer is the rest. -/
theorem permittedWriteStoresWord : Obligations.PermittedWriteStoresWord := by
  intro s p w b d hawaits hselect hheld
  have heffect : s.bufferWrite p w d
      = s.setPool { s.pool with mem := Memory.write s.pool.mem (wordAddress b w) ⟨d, true⟩ } := by
    rw [State.bufferWrite, permitted_of_held hselect hheld]
  refine ⟨_, _, exec_bufferWindowWrite_of_awaits hawaits, ?_, fun hm c o =>
    Memory.read_write_wordAddress hm ⟨d, true⟩ b c w o⟩
  rw [heffect]
  exact portBecomes_answer ..

/-! ## Refused accesses (R87, R159) -/

/-- The fault word after a fault: a record in a clear one, MORE in one that holds a record (R159). -/
def faultWordAfter (kind : FaultKind) (buffer : Option BufferNo) (offset : Offset) :
    Option FaultWord → Option FaultWord
  | none => some ⟨kind, buffer, offset, false⟩
  | some f => some { f with more := true }

/-- Recording a fault changes the fault word alone. -/
theorem recordFault_eq (q : Port) (kind : FaultKind) (buffer : Option BufferNo) (offset : Offset) :
    q.recordFault kind buffer offset = { q with fault := faultWordAfter kind buffer offset q.fault } := by
  unfold Port.recordFault
  cases q.fault <;> rfl

/-- The port after a refused access: the fault is recorded with the selected buffer and the offset. -/
theorem portBecomes_answer_accessFault (s : State) (p : Station) (w : Offset) (d : Option Word) :
    PortBecomes s ((s.accessFault p w).answer p d) p
      fun q => { q with fault := faultWordAfter .access q.windowSelect w q.fault } := by
  have h := portBecomes_of_modPort (portBecomes_answer (s.accessFault p w) p d)
  simpa only [recordFault_eq, id_eq] using h

/-- Settles O35: no buffer is permitted, so that read and write alike come to the recording of the fault, and the read
is answered with 0. -/
theorem refusedWindowAccessRecordsFault : Obligations.RefusedWindowAccessRecordsFault := by
  intro s p w hrefused
  have hnone : s.permitted p = none := permitted_eq_none.mpr hrefused
  have hread : s.bufferRead p w = s.accessFault p w := by rw [State.bufferRead, hnone]
  have hwrite (d : Word) : s.bufferWrite p w d = s.accessFault p w := by rw [State.bufferWrite, hnone]
  refine ⟨fun hawaits => ?read, fun d hawaits => ?write⟩
  case read =>
    have hexec := exec_bufferWindowRead_of_awaits hawaits
    rw [hread, bufferWindowWord_of_refused w hnone] at hexec
    have haccess : ((s.accessFault p w).port p).access = (s.port p).access := by
      simp [State.accessFault, recordFault_eq]
    exact ⟨_, hexec, drives_answer 0 haccess, portBecomes_answer_accessFault s p w _⟩
  case write =>
    have hexec := exec_bufferWindowWrite_of_awaits hawaits
    rw [hwrite] at hexec
    exact ⟨_, hexec, portBecomes_answer_accessFault s p w _⟩

end Sys2Proof.Machine
end

section
/-! PROOFS. Ticks and deadlines (chapter 6): a tick looks at every slot in turn, and since ending one slot changes
nothing of whether another is due, the slots it ends are those due when the count has risen. -/

namespace Sys2Proof.Machine

theorem exec_tick (s : State) : exec .tick s = .next s.ticked := rfl

/-- Before the generator runs no tick is taken (R102; log 1). -/
theorem ticked_of_not_running {s : State} (h : s.phase ≠ .running) : s.ticked = s := by
  unfold State.ticked
  cases hphase : s.phase with
  | running => exact absurd hphase h
  | masterReset => rfl
  | initPass => rfl

/-- The ending of one slot leaves another due exactly where it was due before. -/
theorem due_endExchange_ne {s : State} {i j : SlotNo} (e : Ending) (h : j ≠ i) :
    (s.endExchange i e).due j = s.due j := by
  rw [State.due, State.due, slot_endExchange_ne e h, endExchange_tickCount]

/-- Looking at slots one after the other ends, in the same order, those of them that are due at the start. -/
theorem foldl_expireIfDue {l : List SlotNo} (hl : l.Nodup) (s : State) :
    l.foldl State.expireIfDue s
      = (l.filter s.due).foldl (fun u i => u.endExchange i (.lapsed .expired)) s := by
  induction l generalizing s with
  | nil => rfl
  | cons i rest ih =>
    obtain ⟨hi, hrest⟩ := List.nodup_cons.mp hl
    rw [List.foldl_cons, ih hrest]
    rcases expireIfDue_cases s i with ⟨hsame, hdue⟩ | ⟨hdue, hends⟩
    · rw [hsame, List.filter_cons_of_neg (by simp [hdue])]
    · have hlater : rest.filter (s.endExchange i (.lapsed .expired)).due = rest.filter s.due :=
        List.filter_congr fun j hj => due_endExchange_ne _ fun (hji : j = i) => hi (hji ▸ hj)
      rw [hends, hlater, List.filter_cons_of_pos hdue, List.foldl_cons]

/-- Settles O37: a stopped generator takes no tick; a running one raises the count and then looks at all slots, of which
it ends those due at the new count. -/
theorem tickCountsAndExpires : Obligations.TickCountsAndExpires := by
  intro s
  refine ⟨fun hstopped => ?stopped, fun hrunning => ?running⟩
  case stopped => rw [exec_tick, ticked_of_not_running hstopped]
  case running =>
    have hdue : State.due { s with tickCount := s.tickCount + 1 }
        = fun i => decide ((s.slot i).state ≠ .free ∧ (s.slot i).deadline = s.tickCount + 1) := by
      funext i
      rw [Bool.eq_iff_iff, due_iff, decide_eq_true_eq]
      rfl
    rw [exec_tick, ticked_of_running hrunning, foldl_expireIfDue (List.nodup_finRange 48), hdue]

end Sys2Proof.Machine
end

section
/-! PROOFS. FLIP (section 7.4): what a journal becomes, by the area that is current, and the one port the accepted
command changes. -/

namespace Sys2Proof.Machine

/-! ## The journal after a FLIP (R117) -/

/-- With area A current, area B is emptied and becomes current, and area A keeps its records and position. -/
theorem flipped_of_current_a {j : Journal} (h : j.current = .a) :
    j.flipped = ⟨j.areaA, Vector.replicate 32 .empty, .b, j.nextA, 0⟩ := by
  rw [Journal.flipped, h]

/-- With area B current, area A is emptied and becomes current, and area B keeps its records and position. -/
theorem flipped_of_current_b {j : Journal} (h : j.current = .b) :
    j.flipped = ⟨Vector.replicate 32 .empty, j.areaB, .a, 0, j.nextB⟩ := by
  rw [Journal.flipped, h]

/-! ## The command (R117) -/

/-- Two changes of a port that agree on the port as it stands leave the same state. -/
theorem modPort_congr {s : State} {p : Station} {f g : Port → Port} (h : f (s.port p) = g (s.port p)) :
    s.modPort p f = s.modPort p g := congrArg (s.setPort p) h

/-- FLIP has no check: its verdict accepts whatever change of the issuer's port flips the journal there. -/
theorem flipVerdict_eq_accepted {s : State} {p : Station} {f : Port → Port}
    (h : f (s.port p) = { s.port p with journal := (s.port p).journal.flipped }) :
    flipVerdict p s = .accepted (s.modPort p f) [] :=
  congrArg (Verdict.accepted · []) (modPort_congr h.symm)

/-- Settles O23: no check stands before the effect, which is a change of the issuer's journal only; which area it empties
and which it keeps is read off by the area that is current. -/
theorem flipMakesOtherAreaCurrent : Obligations.FlipMakesOtherAreaCurrent := by
  intro s p hi
  refine portBecomes_of_accepted_modPort rfl hi (flipVerdict_eq_accepted ?journal)
  cases hcurrent : (s.port p).journal.current with
  | a => rw [flipped_of_current_a hcurrent]
  | b => rw [flipped_of_current_b hcurrent]

end Sys2Proof.Machine
end

section
/-! PROOFS. JOIN, LEAVE and drain completion (sections 8.2 to 8.4): a change of port state seen from every port, which
slots the answers of a LEAVE free, and the buffers a station gives back when it goes OFFLINE. -/

namespace Sys2Proof.Machine

/-! ## Changes of port state (R138) -/

/-- A change of one port together with its port state latches PEER at the others and changes nothing else. -/
theorem changePortState_modPort (s : State) (p : Station) (f : Port → Port) (st : PortState) :
    (s.modPort p f).changePortState p st
      = (s.mapPorts (peerLatched p)).modPort p fun q => { f q with state := st } := by
  refine State.ext_of_ports (fun q => ?ports) rfl rfl rfl rfl rfl rfl
  rw [port_changePortState, port_modPort, port_modPort, port_mapPorts]
  by_cases hq : q = p
  · simp [hq, peerLatched]
  · simp [hq, peerLatched]

/-- A change of port state latches PEER at the other ports and changes nothing else. -/
theorem changePortState_eq (s : State) (p : Station) (st : PortState) :
    s.changePortState p st = (s.mapPorts (peerLatched p)).modPort p fun q => { q with state := st } := by
  calc
    s.changePortState p st = (s.modPort p id).changePortState p st := by rw [modPort_id s p rfl]
    _ = _ := changePortState_modPort s p id st

/-! ## JOIN (R126) -/

/-- JOIN is accepted in OFFLINE. -/
theorem joinVerdict_of_offline {s : State} {p : Station} (h : (s.port p).state = .offline) :
    joinVerdict p s = .accepted (s.changePortState p .online) [] := by
  rw [joinVerdict, h]

/-- JOIN is refused in every other port state. -/
theorem joinVerdict_of_not_offline {s : State} {p : Station} (h : (s.port p).state ≠ .offline) :
    joinVerdict p s = .refused .wrongState [] := by
  rw [joinVerdict]
  cases hstate : (s.port p).state with
  | offline => exact absurd hstate h
  | online => rfl
  | draining => rfl
  | reset => rfl

/-- Settles O39: the port state decides, and what is accepted is a change of port state to ONLINE. -/
theorem joinBringsPortOnline : Obligations.JoinBringsPortOnline := by
  intro s p hi
  refine ⟨fun hoffline => ?accepted,
    fun hstate => refusedWith_of_verdict rfl hi (joinVerdict_of_not_offline hstate)⟩
  case accepted =>
    obtain ⟨t, ht, hbecomes⟩ := portBecomes_of_accepted (i := .join p) rfl hi (joinVerdict_of_offline hoffline)
    rw [changePortState_eq] at hbecomes
    exact ⟨t, ht, portBecomes_of_modPort hbecomes⟩

/-! ## LEAVE (R127) -/

/-- LEAVE is accepted in ONLINE. -/
theorem leaveVerdict_of_online {s : State} {p : Station} (h : (s.port p).state = .online) :
    leaveVerdict p s = .accepted ((s.changePortState p .draining).answerUntaken (s.port p).untaken) [] := by
  rw [leaveVerdict, h]

/-- LEAVE is refused in every other port state. -/
theorem leaveVerdict_of_not_online {s : State} {p : Station} (h : (s.port p).state ≠ .online) :
    leaveVerdict p s = .refused .wrongState [] := by
  rw [leaveVerdict]
  cases hstate : (s.port p).state with
  | online => exact absurd hstate h
  | offline => rfl
  | draining => rfl
  | reset => rfl

/-- What a port becomes leaves every slot as it was. -/
theorem PortBecomes.slot_eq {s t : State} {p : Station} {f : Port → Port} (h : PortBecomes s t p f) (i : SlotNo) :
    t.slot i = s.slot i := by
  obtain ⟨a, rfl⟩ := h
  exact slot_modPort ..

/-- Each non-FREE slot that an answered request names is FREE in its next generation, and every other slot stays; a slot
named twice is FREE at the second time and is then left alone. -/
theorem slot_answerUntaken (s : State) (xs : List XNum) (i : SlotNo) :
    (s.answerUntaken xs).slot i
      = if i ∈ xs.map XNum.slot ∧ (s.slot i).state ≠ .free then Slot.freeIn ((s.slot i).gen + 1)
        else s.slot i := by
  induction xs generalizing s with
  | nil => simp [State.answerUntaken]
  | cons x rest ih =>
    rw [show s.answerUntaken (x :: rest) = (s.endExchange x.slot (.lapsed .peerGone)).answerUntaken rest from rfl, ih]
    by_cases hix : i = x.slot
    · subst hix
      rw [if_neg fun h => h.2 (free_endExchange ..)]
      by_cases hfree : (s.slot x.slot).state = .free
      · simp [endExchange_of_free _ hfree, hfree]
      · simp [slot_endExchange _ hfree, hfree]
    · simp [slot_endExchange_ne _ hix, hix]

/-- An untaken request of slot `i` stands in the inbox exactly where the count of its REQUEST records is not 0. -/
theorem mem_untaken_slots {q : Port} {i : SlotNo} : i ∈ q.untaken.map XNum.slot ↔ 0 < requestsFor q i := by
  rw [Port.untaken, List.map_filterMap, requestsFor, List.countP_pos_iff]
  simp only [List.mem_filterMap, decide_eq_true_eq]

/-- By R48 the slots whose requests a station has not taken are the OPEN ones that name it as destination. -/
theorem RequestsMatchOpen.mem_untaken_slots {s : State} (h : RequestsMatchOpen s) {p : Station} {i : SlotNo} :
    i ∈ (s.port p).untaken.map XNum.slot ↔ (s.slot i).state = .opened ∧ (s.slot i).dest = p := by
  obtain ⟨hcount, -⟩ := h
  rw [Machine.mem_untaken_slots, hcount i p]
  split
  · next hopen => simp [hopen]
  · next hother => simp [hother]

/-- Settles O40: the port state decides; what is accepted is a change of port state to DRAINING and then the ending of
each untaken request, which frees the slots these requests name, and by R48 those are the OPEN slots of the station. -/
theorem leaveAnswersUntakenRequests : Obligations.LeaveAnswersUntakenRequests := by
  intro s p hi
  refine ⟨fun hstate => refusedWith_of_verdict rfl hi (leaveVerdict_of_not_online hstate), fun honline => ?_⟩
  obtain ⟨t, ht, hbecomes⟩ := portBecomes_of_accepted (i := .leave p) rfl hi (leaveVerdict_of_online honline)
  refine ⟨t, ht, ?becomes, fun hmatch i => ?slots⟩
  case becomes => rwa [changePortState_eq] at hbecomes
  case slots =>
    have hnamed : (i ∈ (s.port p).untaken.map XNum.slot ∧ (s.slot i).state ≠ .free)
        ↔ (s.slot i).state = .opened ∧ (s.slot i).dest = p := by
      rw [hmatch.mem_untaken_slots, and_iff_left_iff_imp]
      rintro ⟨hopen, -⟩
      simp [hopen]
    rw [hbecomes.slot_eq, slot_answerUntaken, changePortState_slot]
    exact if_congr hnamed rfl rfl

/-! ## Drain completion (R93, R129, R130) -/

/-- A station that requests no slot has requester count 0. -/
theorem requesterCount_eq_zero {s : State} {p : Station} (h : ∀ i, (s.slot i).requestedBy p = false) :
    s.requesterCount p = 0 := by
  refine List.countP_eq_zero.mpr fun sl hsl => ?_
  obtain ⟨n, hn, rfl⟩ := List.getElem_of_mem hsl
  simpa [State.slot] using h ⟨n, by simpa using hn⟩

/-- A buffer that was given back is HELD by no station. -/
theorem Pool.Returned.not_held {before after : Pool} {bs : List BufferNo} (h : before.Returned after bs)
    {b : BufferNo} (hb : b ∈ bs) (p : Station) : (after.desc b).place ≠ .held p := by
  obtain ⟨hdesc, -⟩ := h
  rw [hdesc b, if_pos hb]
  cases (before.desc b).damaged <;> simp

/-- Where the chains of a station's heads hold each of its buffers once and no other, its release gives them back chain
by chain in ascending order of heads, and the second pass meets none (R93). -/
theorem returned_releaseHeld {pool : Pool} {p : Station}
    (hnodup : ((pool.heldHeads p).flatMap pool.chain).Nodup)
    (hheld : ∀ b, b ∈ (pool.heldHeads p).flatMap pool.chain ↔ (pool.desc b).place = .held p) :
    pool.Returned (pool.releaseHeld p) ((pool.heldHeads p).flatMap pool.chain) := by
  have hchains : ((pool.heldHeads p).map some).flatMap pool.chainOf = (pool.heldHeads p).flatMap pool.chain :=
    List.flatMap_map ..
  have hfirst : pool.Returned ((pool.heldHeads p).foldl Pool.giveBackChain pool)
      ((pool.heldHeads p).flatMap pool.chain) := by
    rw [foldl_giveBackChain_eq, ← hchains]
    rw [← hchains] at hnodup hheld
    exact returned_foldl_discard hnodup fun b hb => inChain_iff.mpr (.inl ⟨p, (hheld b).mp hb⟩)
  have hnone : (List.finRange 256).filter (((pool.heldHeads p).foldl Pool.giveBackChain pool).holds p) = [] := by
    refine List.filter_eq_nil_iff.mpr fun b _ => ?_
    rw [Pool.holds, decide_eq_true_eq]
    by_cases hb : b ∈ (pool.heldHeads p).flatMap pool.chain
    · exact hfirst.not_held hb p
    · rw [hfirst.desc_of_notMem hb]
      exact fun h => hb ((hheld b).mpr h)
  rw [Pool.releaseHeld, hnone]
  exact hfirst

/-- After the release of its buffers a station holds none. -/
theorem heldCount_releaseHeld (pool : Pool) (p : Station) : (pool.releaseHeld p).heldCount p = 0 := by
  refine List.countP_eq_zero.mpr fun b _ => ?_
  rw [Pool.holds, decide_eq_true_eq]
  intro h
  obtain ⟨-, hne⟩ := releaseHeld_held h
  exact hne rfl

/-- Settles O41: the premises are the drain condition; the state left is a change of port state to OFFLINE with the view
cleared, over the pool from which the station's buffers are released. -/
theorem drainCompletionTakesPortOffline : Obligations.DrainCompletionTakesPortOffline := by
  rintro s p _ hdraining hrequests htaken hinbox rfl hnodup hheld
  have hdrained : s.drained p = true :=
    drained_iff.mpr ⟨hdraining, requesterCount_eq_zero hrequests, fun i ht hd => htaken i ⟨ht, hd⟩, hinbox⟩
  refine ⟨s.drainCompleted p, rfl, ?state, ?pool, ?count⟩
  case state => rw [drainCompleted_pool hdrained, drainCompleted_eq hdrained, changePortState_modPort]; rfl
  case pool => rw [drainCompleted_pool hdrained]; exact returned_releaseHeld hnodup hheld
  case count => rw [drainCompleted_pool hdrained]; exact heldCount_releaseHeld s.pool p

end Sys2Proof.Machine
end

section
/-! PROOFS. Refused commands (R146, R148): every command row takes its command by one verdict, a refused verdict changes
its port's result alone, and so does the refusal of an undefined command. -/

namespace Sys2Proof.Machine

/-! ## Results (R147) -/

/-- The result that a change of a port's result leaves there. -/
theorem PortBecomes.result_eq {s t : State} {p : Station} {c : Option Command} {r : ResultCode} {ps : List Word}
    (h : PortBecomes s t p (withResult c r ps)) : (t.port p).result = r := by
  obtain ⟨a, rfl⟩ := h
  rw [port_modPort_self]
  rfl

/-! ## The sixteen commands (R145, R148) -/

/-- A command row takes its command by the checks of that command. -/
theorem exec_of_commandOf {i : Instr} {c : Command} {p : Station} (h : commandOf i = some (c, p)) :
    ∃ verdict, ∀ s, exec i s = .next (s.takeCommand p c verdict) := by
  cases i with
  | post => cases h; exact ⟨postVerdict p, fun _ => rfl⟩
  | reply => cases h; exact ⟨replyVerdict p, fun _ => rfl⟩
  | cancel => cases h; exact ⟨cancelVerdict p, fun _ => rfl⟩
  | notify => cases h; exact ⟨notifyVerdict p, fun _ => rfl⟩
  | take => cases h; exact ⟨takeVerdict p, fun _ => rfl⟩
  | acquire => cases h; exact ⟨acquireVerdict p, fun _ => rfl⟩
  | release => cases h; exact ⟨releaseVerdict p, fun _ => rfl⟩
  | append => cases h; exact ⟨appendVerdict p, fun _ => rfl⟩
  | scrub => cases h; exact ⟨scrubVerdict p, fun _ => rfl⟩
  | setRoute => cases h; exact ⟨setRouteVerdict p, fun _ => rfl⟩
  | clearRoute => cases h; exact ⟨clearRouteVerdict p, fun _ => rfl⟩
  | setAdmit => cases h; exact ⟨setAdmitVerdict p, fun _ => rfl⟩
  | flip => cases h; exact ⟨flipVerdict p, fun _ => rfl⟩
  | join => cases h; exact ⟨joinVerdict p, fun _ => rfl⟩
  | leave => cases h; exact ⟨leaveVerdict p, fun _ => rfl⟩
  | ackFault => cases h; exact ⟨ackFaultVerdict p, fun _ => rfl⟩
  | _ => cases h

/-- A waiting command either is refused, with some result, or leaves the result DONE. -/
theorem refusedWith_or_done {s : State} {i : Instr} {c : Command} {p : Station} (hc : commandOf i = some (c, p))
    (hi : Issued s p c) :
    (∃ r ps, RefusedWith s i c p r ps) ∨ ∃ t, exec i s = .next t ∧ (t.port p).result = .done := by
  obtain ⟨verdict, hexec⟩ := exec_of_commandOf hc
  cases hv : verdict s with
  | refused r ps => exact .inl ⟨r, ps, refusedWith_of_verdict (hexec s) hi hv⟩
  | accepted s' ps =>
    obtain ⟨t, ht, hbecomes⟩ := portBecomes_of_accepted (hexec s) hi hv
    exact .inr ⟨t, ht, hbecomes.result_eq⟩

/-! ## Undefined commands (R146) -/

/-- The command codes are 1 to 16. -/
theorem isCommandCode_eq_false {w : Word} : isCommandCode w = false ↔ w.toNat = 0 ∨ 16 < w.toNat := by
  simp only [isCommandCode, Bool.and_eq_false_iff, decide_eq_false_iff_not]
  omega

/-- An undefined command that waits is answered, and changes its port's result alone. -/
theorem exec_badCommand_of_awaits {s : State} {p : Station} {w : Word}
    (h : Awaits s p (.write commandAddress w)) (hw : isCommandCode w = false) :
    ∃ t, exec (.badCommand p) s = .next t ∧ PortBecomes s t p (withResult none .badCommand []) := by
  obtain ⟨hreset, hpending⟩ := h
  have hissues : issuesUndefined (.write commandAddress w) = true := by simp [issuesUndefined, hw]
  have htaking := taking_eq_some.mpr ⟨hreset, hissues, hpending⟩
  obtain ⟨a, ha⟩ := answer_changes_access (s.setResult p none .badCommand []) p none
  refine ⟨_, rfl, a, ?_⟩
  rw [takeAccess_of_taking htaking, ha, setResult_withAccess]

/-- Settles O10: a command row's verdict is a refusal, since an acceptance would leave DONE, and an undefined command is
always refused; either way the result written is the one the port shows afterwards. -/
theorem refusedCommandChangesOnlyItsResult : Obligations.RefusedCommandChangesOnlyItsResult := by
  intro s t i p hcommand ht hresult
  obtain ⟨c, r, ps, u, hu, hbecomes⟩ :
      ∃ c r ps u, exec i s = .next u ∧ PortBecomes s u p (withResult c r ps) := by
    obtain ⟨c, hc, hi⟩ | ⟨rfl, w, hawaits, hw⟩ := hcommand
    · obtain ⟨r, ps, hrefused⟩ | ⟨u, hu, hdone⟩ := refusedWith_or_done hc hi
      · exact ⟨some c, r, ps, hrefused⟩
      · obtain rfl : u = t := Host.Outcome.next.inj (hu.symm.trans ht)
        exact absurd hdone hresult
    · exact ⟨none, .badCommand, [], exec_badCommand_of_awaits hawaits (isCommandCode_eq_false.mpr hw)⟩
  obtain rfl : u = t := Host.Outcome.next.inj (hu.symm.trans ht)
  exact ⟨c, ps, hbecomes.result_eq.symm ▸ hbecomes⟩

end Sys2Proof.Machine
end

section
/-! PROOFS. Attention and faults (chapter 10): writes of the cause and enable words, ACK_FAULT, and the attention line
read bit by bit from the pending causes and the enables. -/

namespace Sys2Proof.Machine

/-! ## Writes of the cause and enable words (R156, R157) -/

/-- A waiting access of the wanted class whose effect is a change of its own port changes that port so, and nothing
else. -/
theorem portBecomes_takeAccess_modPort {s : State} {p : Station} {a : Access} {wanted : Access → Bool}
    (h : Awaits s p a) (hwanted : wanted a = true) (f : Access → Port → Port) :
    PortBecomes s (s.takeAccess p wanted fun a s => (s.modPort p (f a), none)) p (f a) := by
  have htaking : (s.port p).taking wanted = some a := taking_eq_some.mpr ⟨h.1, hwanted, h.2⟩
  rw [takeAccess_of_taking htaking]
  exact portBecomes_of_modPort (f := id) (portBecomes_answer (s.modPort p (f a)) p none)

/-- A write to an address is of the class of that address. -/
@[simp] theorem writesTo_write (address : Addr) (w : Word) : writesTo address (.write address w) = true := by
  simp [writesTo]

/-- Settles O49: either row takes the waiting write, whose effect is a change of its own port with the word written; the
enables are stored as the word cut to its low five bits. -/
theorem attentionWritesClearAndEnable : Obligations.AttentionWritesClearAndEnable := by
  intro s p w
  refine ⟨fun hawaits => ⟨_, rfl, ?cause⟩, fun hawaits => ⟨_, rfl, ?enable⟩⟩
  case cause =>
    exact portBecomes_takeAccess_modPort hawaits (writesTo_write causeAddress w) fun a q =>
      q.clearCauses (writtenWord a)
  case enable =>
    rw [← BitVec.setWidth_eq_extractLsb' (by decide : 5 ≤ 16)]
    exact portBecomes_takeAccess_modPort hawaits (writesTo_write enableAddress w) fun a q =>
      { q with enables := (writtenWord a).setWidth 5 }

/-! ## ACK_FAULT (R160) -/

/-- Settles O50: ACK_FAULT has no check, and its effect is a change of the issuer's fault word only. -/
theorem ackFaultClearsFaultWord : Obligations.AckFaultClearsFaultWord := fun _ _ hi =>
  portBecomes_of_accepted_modPort (verdict := ackFaultVerdict _) rfl hi rfl

/-! ## The attention line (R152, R153, R158) -/

/-- Two words have a common one exactly where they meet in a nonzero word. -/
theorem and_ne_zero_iff_exists_getLsbD {n : Nat} {x y : BitVec n} :
    x &&& y ≠ 0 ↔ ∃ k : Fin n, x.getLsbD k = true ∧ y.getLsbD k = true := by
  constructor
  · intro h
    by_contra hnone
    refine h (BitVec.eq_of_getLsbD_eq fun k hk => ?_)
    have hbit := not_exists.mp hnone ⟨k, hk⟩
    simpa using hbit
  · rintro ⟨k, hx, hy⟩ hzero
    have hbit : (x &&& y).getLsbD k = true := by simp [hx, hy]
    simp [hzero] at hbit

/-- INBOX, JOURNAL, PEER, SCRUB and FAULT each stand at their own bit (Table 12.4). -/
theorem getLsbD_causeBits (inbox journal peer scrub fault : Bool) (k : Fin 5) :
    (causeBits inbox journal peer scrub fault).getLsbD k = #v[inbox, journal, peer, scrub, fault][k] := by
  decide +revert

/-- The line is asserted where the port is not in RESET and some bit is one among the pending causes and the enables. -/
theorem attention_iff {q : Port} :
    q.attention = true ↔ q.state ≠ .reset
      ∧ ∃ k : Fin 5, q.pendingCauses.getLsbD k = true ∧ q.enables.getLsbD k = true := by
  rw [Port.attention, Bool.and_eq_true, decide_eq_true_eq, decide_eq_true_eq, and_ne_zero_iff_exists_getLsbD]

/-- Settles O51: the enabled pending cause that asserts the line is one of the five, each read at its own bit. -/
theorem attentionLineFollowsEnabledCauses : Obligations.AttentionLineFollowsEnabledCauses := by
  intro q
  rw [attention_iff]
  refine and_congr_right fun _ => ?_
  simp only [Port.pendingCauses, getLsbD_causeBits, Fin.exists_fin_succ]
  simp [Option.isSome_iff_ne_none]

end Sys2Proof.Machine
end

section
/-! PROOFS. What every step keeps of exchange memory, slots, tables and caps (sections 1.1, 1.2, 4.1, 4.2, 5.1): each
effect of `Kept` either leaves the parts that an invariant reads or is one of the few that write them. -/

namespace Sys2Proof.Machine

/-! ## The memory words under the pool's operations -/

@[simp] theorem attachChain_mem (pool : Pool) (c : Option BufferNo) : (pool.attachChain c).mem = pool.mem := by
  obtain ⟨-, -, -, hmem, -⟩ := attachChain_sameButPlaces pool c
  exact hmem

@[simp] theorem takeUpChain_mem (pool : Pool) (p : Station) (c : Option BufferNo) :
    (pool.takeUpChain p c).mem = pool.mem := by
  obtain ⟨-, -, -, hmem, -⟩ := takeUpChain_sameButPlaces pool p c
  exact hmem

@[simp] theorem giveBackChain_mem (pool : Pool) (b : BufferNo) : (pool.giveBackChain b).mem = pool.mem :=
  foldl_giveBack_mem _ _

@[simp] theorem acquire_mem (pool : Pool) (p : Station) (n : Nat) : (pool.acquire p n).mem = pool.mem := by
  obtain ⟨-, -, -, hmem⟩ := linkChain_fields p true (pool.free.take n) { pool with free := pool.free.drop n }
  exact hmem

@[simp] theorem join_mem (pool : Pool) (a b : BufferNo) : (pool.join a b).mem = pool.mem := by
  rw [join_withDescs]

@[simp] theorem placeNotices_pool (s : State) (r : Record) (ms : List Station) :
    (s.placeNotices r ms).pool = s.pool := by
  obtain ⟨-, hpool, -⟩ := placeNotices_rest s r ms
  exact hpool

/-! ## Canonical memory -/

/-- The canonical form is a fact about the memory words alone. -/
theorem MemoryCanonical.of_mem_eq {s t : State} (h : MemoryCanonical s) (hm : t.pool.mem = s.pool.mem) :
    MemoryCanonical t := by
  rw [MemoryCanonical, hm]; exact h

/-- A teardown moves buffers and leaves their words. -/
theorem tornDown_mem (s : State) (p : Station) : (s.tornDown p).pool.mem = s.pool.mem := by
  rw [tornDown_pool, releaseHeld_mem]
  refine foldl_keeps (fun pool : Pool => pool.mem = s.pool.mem) ?_ fun pool r _ h => by rw [discard_mem, h]
  exact tearSlots_keeps (fun u => u.pool.mem = s.pool.mem) p rfl
    (fun u i h _ _ => by rw [endExchange_mem, h]) (fun u i h _ _ _ => by rw [endExchange_mem, h])

/-- Only BAD_PARITY, the buffer window, the end of a scrub and the initialisation pass write words, and each writes
inside exchange memory. -/
theorem memoryCanonical_kept : Kept MemoryCanonical where
  queue _ _ h := h
  access _ _ _ h _ := h
  registers _ _ _ h _ := h
  post _ _ _ h _ := h.of_mem_eq (by simp)
  reply _ _ _ h _ := h.of_mem_eq (by simp)
  cancel _ _ _ _ h _ _ := h.of_mem_eq (by simp)
  notify _ _ _ _ _ h _ _ _ _ := h.of_mem_eq (by simp)
  take _ _ _ _ h _ _ := h.of_mem_eq (by simp)
  acquire _ _ _ h _ _ _ _ _ := h.of_mem_eq (by simp)
  release _ _ _ h _ _ := h.of_mem_eq (by simp)
  append _ _ _ _ h _ _ _ _ _ := h.of_mem_eq (by simp)
  scrub _ _ _ _ h _ _ _ := h.of_mem_eq rfl
  setRoute _ _ _ _ h _ _ := h
  setAdmit _ _ _ _ h _ _ := h
  join _ _ h _ := h
  leave _ _ h _ := answerUntaken_keeps _ _ h fun _ _ h => h.of_mem_eq (by simp)
  parity _ _ _ h _ := h.of_mem_eq rfl
  memory _ b w _ h := Memory.write_wf h (wordAddress_lt b w)
  ticked _ h hp := ticked_keeps _ hp h fun _ _ h _ => h.of_mem_eq (by simp)
  expiry _ _ h _ := h.of_mem_eq (by simp)
  scrubDone _ _ _ h _ _ := by
    rw [MemoryCanonical, setPool_pool, finishScrub_mem]
    exact Memory.writeBuffer_wf h
  drained _ _ h hd := h.of_mem_eq (by rw [drainCompleted_pool hd, releaseHeld_mem])
  teardown _ _ h _ := h.of_mem_eq (tornDown_mem _ _)
  leaveReset _ _ h _ _ := h
  masterReset _ h := h
  masterResetEnded s straps h hp := by
    simp only [State.masterResetEnded, hp]
    rfl
  portsLeaveReset _ h _ := h

/-- Settles O54: canonical memory is kept by every effect. -/
theorem stepKeepsMemoryCanonical : Obligations.StepKeepsMemoryCanonical :=
  fun _ _ h ht => memoryCanonical_kept.step h ht

end Sys2Proof.Machine
end

section
/-! PROOFS. Slots, tables and the caps through every step (sections 1.1, 1.2, 4.1, 4.2): which effects write a slot or a
table entry, and that what they write is sound. -/

namespace Sys2Proof.Machine

/-! ## Tables through the effects -/

/-- Every port keeps its routes and its admitted sets. -/
def State.SameTables (s t : State) : Prop :=
  ∀ p, (t.port p).routes = (s.port p).routes ∧ (t.port p).admits = (s.port p).admits

theorem State.SameTables.trans {s t u : State} (h : s.SameTables t) (k : t.SameTables u) : s.SameTables u := by
  intro p
  obtain ⟨hr, ha⟩ := h p
  obtain ⟨kr, ka⟩ := k p
  exact ⟨kr.trans hr, ka.trans ha⟩

theorem sameTables_of_sameStation (s : State) {p : Station} {q : Port} (h : (s.port p).SameStation q) :
    s.SameTables (s.setPort p q) := by
  intro r
  obtain ⟨-, -, -, -, hroutes, hadmits, -⟩ := h
  rw [port_setPort]
  split
  case isTrue hr => rw [hr]; exact ⟨hroutes, hadmits⟩
  case isFalse => exact ⟨rfl, rfl⟩

theorem sameTables_withAccess (s : State) (p : Station) (a : AccessState) : s.SameTables (s.withAccess p a) := by
  intro r
  rw [port_modPort]
  split <;> exact ⟨rfl, rfl⟩

theorem sameTables_endExchange (s : State) (i : SlotNo) (e : Ending) : s.SameTables (s.endExchange i e) := by
  intro r
  rw [port_endExchange_same]
  exact ⟨rfl, rfl⟩

theorem sameTables_acceptPost (s : State) (p : Station) (plan : PostPlan) : s.SameTables (s.acceptPost p plan) := by
  intro r
  rw [port_acceptPost]
  exact ⟨rfl, rfl⟩

theorem sameTables_placeNotices (s : State) (r : Record) (set : StationSet) :
    s.SameTables (s.placeNotices r (membersOf set)) := by
  intro q
  rw [port_placeNotices s r (membersOf_nodup set)]
  exact ⟨rfl, rfl⟩

theorem sameTables_acceptTake (s : State) (p : Station) (r : Record) (rest : List Record) :
    s.SameTables (s.acceptTake p r rest) := by
  intro q
  by_cases hq : q = p
  · rw [hq, port_acceptTake_self]
    exact ⟨rfl, rfl⟩
  · rw [port_acceptTake_ne s r rest hq]
    exact ⟨rfl, rfl⟩

theorem sameTables_changePortState (s : State) (p : Station) (st : PortState) :
    s.SameTables (s.changePortState p st) := by
  intro q
  rw [port_changePortState]
  split_ifs <;> exact ⟨rfl, rfl⟩

theorem sameTables_drainCompleted {s : State} {p : Station} (h : s.drained p = true) :
    s.SameTables (s.drainCompleted p) := by
  intro q
  rw [port_drainCompleted h]
  split_ifs <;> exact ⟨rfl, rfl⟩

theorem sameTables_portsLeaveReset (s : State) : s.SameTables { s.portsLeaveReset with phase := .running } := by
  intro q
  show (s.portsLeaveReset.port q).routes = _ ∧ (s.portsLeaveReset.port q).admits = _
  rw [port_portsLeaveReset]
  split <;> exact ⟨rfl, rfl⟩

/-- The endings of a teardown leave every table. -/
theorem sameTables_tearSlots (s : State) (p : Station) : s.SameTables (s.tearSlots p) :=
  tearSlots_keeps s.SameTables p (fun _ => ⟨rfl, rfl⟩) (fun u i h _ _ => h.trans (sameTables_endExchange u i _))
    fun u i h _ _ _ => h.trans (sameTables_endExchange u i _)

/-! ## Sound tables (R60, R62) -/

theorem TablesSound.of_same {s t : State} (h : TablesSound s) (ht : s.SameTables t) : TablesSound t := by
  intro p
  obtain ⟨hroutes, hadmits⟩ := ht p
  rw [hroutes, hadmits]
  exact h p

/-- A port in RESET has clear tables, which are sound for every owner. -/
theorem tables_sound_toReset (q : Port) (owner : Station) :
    (∀ v : Service, (q.toReset.routes[v]).Sound owner) ∧ ∀ v : Service, inSet q.toReset.admits[v] owner = false := by
  refine ⟨fun v => ?_, fun v => ?_⟩
  · rw [toReset_routes]; trivial
  · rw [toReset_admits]; simp [inSet]

theorem tablesSound_tornDown {s : State} (h : TablesSound s) (p : Station) : TablesSound (s.tornDown p) := by
  intro q
  have hq := h.of_same (sameTables_tearSlots s p) q
  by_cases hp : q = p
  · rw [port_tornDown, if_pos hp]
    exact tables_sound_toReset _ q
  · have hsame : ((s.tornDown p).port q).routes = ((s.tearSlots p).port q).routes
        ∧ ((s.tornDown p).port q).admits = ((s.tearSlots p).port q).admits := by
      rw [port_tornDown, if_neg hp]
      generalize s.tearSlots p = u
      split <;> exact ⟨rfl, rfl⟩
    rw [hsame.1, hsame.2]
    exact hq

theorem tablesSound_masterCleared (s : State) : TablesSound s.masterCleared := by
  intro q
  rw [port_masterCleared]
  exact tables_sound_toReset _ q

/-- The entry a SET_ROUTE writes is sound for its owner (R60, R64). -/
theorem sound_of_setRouteParams {owner : Station} {ps : Vector Word 16} {v : Service} {e : RouteEntry}
    (h : setRouteParams owner ps = some (v, e)) : e.Sound owner := by
  have hgiven := given_of_setRouteParams h
  cases e with
  | none => trivial
  | request d w timeout m =>
    obtain ⟨-, -, -, hd, -, -, ht, -⟩ := hgiven
    exact ⟨hd, ht⟩
  | notice set w =>
    obtain ⟨-, -, -, hne, hnot, -⟩ := hgiven
    exact ⟨hne, hnot⟩

/-- So is the entry of either route command: CLEAR_ROUTE writes NONE (R66). -/
theorem sound_of_routeCommand {owner : Station} {ps : Vector Word 16} {v : Service} {e : RouteEntry}
    (h : setRouteParams owner ps = some (v, e) ∨ e = .none) : e.Sound owner := by
  obtain h | rfl := h
  · exact sound_of_setRouteParams h
  · trivial

/-- One sound entry set in a route table leaves the tables sound. -/
theorem tablesSound_setRoute {s : State} (h : TablesSound s) {p : Station} (v : Service) {e : RouteEntry}
    (he : e.Sound p) : TablesSound (s.setRoute p v e) := by
  intro q
  obtain ⟨hroutes, hadmits⟩ := h q
  rw [State.setRoute, port_modPort]
  split
  case isFalse => exact ⟨hroutes, hadmits⟩
  case isTrue hq =>
    refine ⟨fun w => ?_, hadmits⟩
    simp only [Fin.getElem_fin, Vector.getElem_set]
    split
    · exact hq ▸ he
    · exact hroutes w

/-- A set without its owner, set in an admission table, leaves the tables sound. -/
theorem tablesSound_setAdmit {s : State} (h : TablesSound s) {p : Station} (v : Service) {set : StationSet}
    (hset : inSet set p = false) : TablesSound (s.setAdmit p v set) := by
  intro q
  obtain ⟨hroutes, hadmits⟩ := h q
  rw [State.setAdmit, port_modPort]
  split
  case isFalse => exact ⟨hroutes, hadmits⟩
  case isTrue hq =>
    refine ⟨hroutes, fun w => ?_⟩
    simp only [Fin.getElem_fin, Vector.getElem_set]
    split
    · exact hq ▸ hset
    · exact hadmits w

/-- The route an accepted POST follows names another station and a timeout above 0 (R60). -/
theorem TablesSound.of_postCheck {s : State} (h : TablesSound s) {p : Station} {plan : PostPlan}
    (hok : s.postCheck p = .ok plan) : plan.dest ≠ p ∧ plan.timeout ≠ 0 := by
  obtain ⟨-, -, ⟨m, hroute, -⟩, -⟩ := postCheck_ok hok
  obtain ⟨hroutes, -⟩ := h p
  have hsound := hroutes plan.params.service
  rw [hroute] at hsound
  exact hsound

/-! ## Sound slots (R2-R4) -/

theorem SlotsSound.of_slots {s t : State} (h : SlotsSound s) (ht : ∀ i, t.slot i = s.slot i) : SlotsSound t := by
  intro i
  rw [ht]
  exact h i

theorem sound_freeIn (g : Generation) : (Slot.freeIn g).Sound := by
  simp [Slot.Sound, Slot.freeIn]

theorem slotsSound_endExchange {s : State} (h : SlotsSound s) (i : SlotNo) (e : Ending) :
    SlotsSound (s.endExchange i e) := by
  by_cases hi : (s.slot i).state = .free
  · rw [endExchange_of_free e hi]; exact h
  · intro j
    rw [slot_endExchange e hi]
    split
    · exact sound_freeIn _
    · exact h j

theorem slotsSound_acceptPost {s : State} (h : SlotsSound s) {p : Station} {plan : PostPlan} (hd : plan.dest ≠ p) :
    SlotsSound (s.acceptPost p plan) := by
  intro j
  rw [slot_acceptPost]
  split
  · simp [Slot.Sound, State.postSlot, hd]
  · exact h j

/-- A slot that a TAKE moves from OPEN to TAKEN gets its responder reference. -/
theorem slotsSound_acceptTake {s : State} (h : SlotsSound s) (p : Station) (r : Record) (rest : List Record) :
    SlotsSound (s.acceptTake p r rest) := by
  intro j
  rw [slot_acceptTake, takenSlot]
  split
  · exact h j
  · split
    case isTrue hj =>
      obtain ⟨-, hstations, -⟩ := h j
      simpa [Slot.Sound, hj.2] using hstations
    case isFalse => exact h j

/-! ## The caps (R7) -/

theorem CapsKept.of_slots {s t : State} (h : CapsKept s) (ht : t.slots = s.slots) : CapsKept t := by
  have hslot : ∀ i, t.slot i = s.slot i := fun i => by rw [State.slot, ht]; rfl
  obtain ⟨hcap, htags⟩ := h
  refine ⟨fun p => ?_, fun p i j => ?_⟩
  · rw [requesterCount_congr ht]; exact hcap p
  · rw [hslot, hslot]; exact htags p i j

/-- Where every slot is as before or no longer requested, and no count has risen, the caps stay. -/
theorem CapsKept.of_requested {s t : State} (h : CapsKept s) (hc : ∀ p, t.requesterCount p ≤ s.requesterCount p)
    (ht : ∀ p i, (t.slot i).requestedBy p = true → (s.slot i).requestedBy p = true ∧ (t.slot i).tag = (s.slot i).tag) :
    CapsKept t := by
  obtain ⟨hcap, htags⟩ := h
  refine ⟨fun p => (hc p).trans (hcap p), fun p i j hi hj hij => ?_⟩
  obtain ⟨hi, hti⟩ := ht p i hi
  obtain ⟨hj, htj⟩ := ht p j hj
  exact htags p i j hi hj (hti ▸ htj ▸ hij)

theorem capsKept_endExchange {s : State} (h : CapsKept s) (i : SlotNo) (e : Ending) :
    CapsKept (s.endExchange i e) := by
  by_cases hi : (s.slot i).state = .free
  · rw [endExchange_of_free e hi]; exact h
  · refine h.of_requested (fun p => ?_) fun p j hj => ?_
    · have := requesterCount_endExchange e hi p
      omega
    · rw [slot_endExchange e hi] at hj ⊢
      split at hj
      · simp [Slot.requestedBy, Slot.freeIn] at hj
      case isFalse hne => rw [if_neg hne]; exact ⟨hj, rfl⟩

/-- Where one slot gets a value, counts change as the value is requested and the slot was. -/
theorem requesterCount_of_set {s t : State} {i : SlotNo} {x : Slot} (ht : t.slots = (s.setSlot i x).slots)
    (p : Station) :
    t.requesterCount p + (if (s.slot i).requestedBy p then 1 else 0)
      = s.requesterCount p + if x.requestedBy p then 1 else 0 := by
  rw [requesterCount_congr ht]
  exact requesterCount_setSlot s i x p

/-- A POST raises its poster's count by one and no other. -/
theorem requesterCount_acceptPost {s : State} {p : Station} {plan : PostPlan} (hok : s.postCheck p = .ok plan)
    (q : Station) :
    (s.acceptPost p plan).requesterCount q = s.requesterCount q + if q = p then 1 else 0 := by
  obtain ⟨-, -, -, -, -, -, -, -, -, hlowest, -⟩ := postCheck_ok hok
  have hcount := requesterCount_of_set (t := s.acceptPost p plan) (s := s) (i := plan.slot)
    (x := s.postSlot p plan) rfl q
  have hold : (s.slot plan.slot).requestedBy q = false := by simp [Slot.requestedBy, lowestFree_free hlowest]
  have hnew : (s.postSlot p plan).requestedBy q = true ↔ q = p := by
    rw [requestedBy_iff]
    simp [State.postSlot, eq_comm (a := q)]
  simpa only [hold, hnew, Bool.false_eq_true, if_false, Nat.add_zero] using hcount

/-- A POST passes the cap and carries a new tag of its poster. -/
theorem capsKept_acceptPost {s : State} (h : CapsKept s) {p : Station} {plan : PostPlan}
    (hok : s.postCheck p = .ok plan) : CapsKept (s.acceptPost p plan) := by
  obtain ⟨-, -, -, -, -, htag, -, -, hcap, -⟩ := postCheck_ok hok
  obtain ⟨hcaps, htags⟩ := h
  refine ⟨fun q => ?_, fun q i j hi hj hij => ?_⟩
  · rw [requesterCount_acceptPost hok]
    split
    case isTrue hq => rw [hq]; omega
    case isFalse => exact hcaps q
  · have hnew : ∀ k, (s.slot k).requestedBy q = true → (s.postSlot p plan).requestedBy q = true →
        (s.slot k).tag ≠ (s.postSlot p plan).tag := by
      intro k hk hp
      obtain ⟨-, rfl⟩ := requestedBy_iff.mp hp
      exact findTag_none.mp htag k hk
    rw [slot_acceptPost] at hi hj hij
    rw [slot_acceptPost] at hij
    split_ifs at hi hj hij with h1 h2 h2
    · rw [h1, h2]
    · exact absurd hij.symm (hnew j hj hi)
    · exact absurd hij (hnew i hi hj)
    · exact htags q i j hi hj hij

/-- A TAKE leaves requester and tag of every slot, and no slot FREE that was not. -/
theorem requestedBy_takenSlot (s : State) (p : Station) (r : Record) (j : SlotNo) (q : Station) :
    (takenSlot s p r j).requestedBy q = (s.slot j).requestedBy q ∧ (takenSlot s p r j).tag = (s.slot j).tag := by
  rw [takenSlot]
  split
  · exact ⟨rfl, rfl⟩
  · split
    case isTrue hj => simp [Slot.requestedBy, hj.2]
    case isFalse => exact ⟨rfl, rfl⟩

/-- Counts are determined by what each slot says of its requester. -/
theorem requesterCount_of_requestedBy {s t : State} {p : Station}
    (h : ∀ i, (t.slot i).requestedBy p = (s.slot i).requestedBy p) : t.requesterCount p = s.requesterCount p := by
  have hcount : ∀ u : State, u.requesterCount p = (List.finRange 48).countP fun i => (u.slot i).requestedBy p := by
    intro u
    have hlist : u.slots.toList = (List.finRange 48).map u.slot := by
      apply List.ext_getElem
      · simp
      · intro n hn _
        simp [State.slot]
    rw [State.requesterCount, hlist, List.countP_map]
    rfl
  rw [hcount, hcount]
  exact List.countP_congr fun i _ => by rw [h i]

theorem requesterCount_acceptTake (s : State) (p q : Station) (r : Record) (rest : List Record) :
    (s.acceptTake p r rest).requesterCount q = s.requesterCount q :=
  requesterCount_of_requestedBy fun i => by
    rw [slot_acceptTake]
    exact (requestedBy_takenSlot s p r i q).1

theorem capsKept_acceptTake {s : State} (h : CapsKept s) (p : Station) (r : Record) (rest : List Record) :
    CapsKept (s.acceptTake p r rest) :=
  h.of_requested (fun q => (requesterCount_acceptTake s p q r rest).le) fun q i hi => by
    obtain ⟨hreq, htag⟩ := requestedBy_takenSlot s p r i q
    rw [slot_acceptTake] at hi ⊢
    exact ⟨hreq ▸ hi, htag⟩

/-- Where every slot is FREE no station requests one. -/
theorem requesterCount_of_free {s : State} (h : ∀ i, (s.slot i).state = .free) (p : Station) :
    s.requesterCount p = 0 :=
  requesterCount_eq_zero fun i => by simp [Slot.requestedBy, h i]

theorem capsKept_of_free {s : State} (h : ∀ i, (s.slot i).state = .free) : CapsKept s :=
  ⟨fun p => by rw [requesterCount_of_free h]; exact Nat.zero_le _,
    fun p i _ hi => absurd (h i) (requestedBy_iff.mp hi).1⟩

/-! ## Slots, tables and caps together -/

/-- What O55 speaks of: sound slots and tables, and the caps. -/
def SlotsTablesCaps (s : State) : Prop := SlotsSound s ∧ TablesSound s ∧ CapsKept s

theorem SlotsTablesCaps.of_same {s t : State} (h : SlotsTablesCaps s) (hslots : t.slots = s.slots)
    (htables : s.SameTables t) : SlotsTablesCaps t := by
  obtain ⟨hs, ht, hc⟩ := h
  exact ⟨hs.of_slots fun i => by rw [State.slot, hslots]; rfl, ht.of_same htables, hc.of_slots hslots⟩

theorem SlotsTablesCaps.endExchange {s : State} (h : SlotsTablesCaps s) (i : SlotNo) (e : Ending) :
    SlotsTablesCaps (s.endExchange i e) := by
  obtain ⟨hs, ht, hc⟩ := h
  exact ⟨slotsSound_endExchange hs i e, ht.of_same (sameTables_endExchange s i e), capsKept_endExchange hc i e⟩

/-- Endings one after the other, then a port whose tables are cleared. -/
theorem SlotsTablesCaps.tornDown {s : State} (h : SlotsTablesCaps s) (p : Station) :
    SlotsTablesCaps (s.tornDown p) := by
  obtain ⟨hs, -, hc⟩ : SlotsTablesCaps (s.tearSlots p) :=
    tearSlots_keeps SlotsTablesCaps p h (fun u i hu _ _ => hu.endExchange i _) fun u i hu _ _ _ => hu.endExchange i _
  obtain ⟨-, ht, -⟩ := h
  exact ⟨hs.of_slots (tornDown_slot s p), tablesSound_tornDown ht p, hc.of_slots (tornDown_slots s p)⟩

theorem slotsTablesCaps_masterCleared (s : State) : SlotsTablesCaps s.masterCleared :=
  ⟨fun i => by rw [slot_masterCleared]; exact sound_freeIn 0, tablesSound_masterCleared s,
    capsKept_of_free fun i => by rw [slot_masterCleared]; rfl⟩

theorem slotsTablesCaps_kept : Kept SlotsTablesCaps where
  queue _ _ h := h
  access s p a h _ := h.of_same rfl (sameTables_withAccess s p a)
  registers s _ _ h hq := h.of_same rfl (sameTables_of_sameStation s hq)
  post s p plan h hok := by
    obtain ⟨hs, ht, hc⟩ := h
    exact ⟨slotsSound_acceptPost hs (ht.of_postCheck hok).1, ht.of_same (sameTables_acceptPost s p plan),
      capsKept_acceptPost hc hok⟩
  reply _ _ _ h _ := h.endExchange _ _
  cancel _ _ _ i h _ _ := h.endExchange i _
  notify s p ps set v h _ _ _ _ := h.of_same (placeNotices_rest _ _ _).1 (sameTables_placeNotices s _ set)
  take s p r rest h _ _ := by
    obtain ⟨hs, ht, hc⟩ := h
    exact ⟨slotsSound_acceptTake hs p r rest, ht.of_same (sameTables_acceptTake s p r rest),
      capsKept_acceptTake hc p r rest⟩
  acquire _ _ _ h _ _ _ _ _ := h
  release _ _ _ h _ _ := h
  append _ _ _ _ h _ _ _ _ _ := h
  scrub _ _ _ _ h _ _ _ := h
  setRoute s p v e h _ he := by
    obtain ⟨hs, ht, hc⟩ := h
    exact ⟨hs, tablesSound_setRoute ht v (sound_of_routeCommand he), hc⟩
  setAdmit s p v set h _ he := by
    obtain ⟨hs, ht, hc⟩ := h
    exact ⟨hs, tablesSound_setAdmit ht v (setAdmitParams_eq_some.mp he).2.2, hc⟩
  join s p h _ := h.of_same rfl (sameTables_changePortState s p _)
  leave s p h _ := answerUntaken_keeps _ _ (h.of_same rfl (sameTables_changePortState s p _))
    fun _ i hu => hu.endExchange i _
  parity _ _ _ h _ := h
  memory _ _ _ _ h := h
  ticked _ h hp := ticked_keeps _ hp h fun _ i hu _ => hu.endExchange i _
  expiry _ i h _ := h.endExchange i _
  scrubDone _ _ _ h _ _ := h
  drained s p h hd := h.of_same (drainCompleted_slots s p) (sameTables_drainCompleted hd)
  teardown _ p h _ := h.tornDown p
  leaveReset s p h _ _ := h.of_same rfl (sameTables_changePortState s p _)
  masterReset s _ := slotsTablesCaps_masterCleared s
  masterResetEnded s _ h hp := by
    simp only [State.masterResetEnded, hp]
    exact h
  portsLeaveReset s h _ := h.of_same rfl (sameTables_portsLeaveReset s)

/-- Settles O55: only POST and TAKE write a slot otherwise than by freeing it, only SET_ROUTE, CLEAR_ROUTE and SET_ADMIT
write a table entry, and their checks give what the invariants ask. -/
theorem stepKeepsSlotsTablesAndCaps : Obligations.StepKeepsSlotsTablesAndCaps :=
  fun _ _ hs ht hc hstep => slotsTablesCaps_kept.step (Inv := SlotsTablesCaps) ⟨hs, ht, hc⟩ hstep

end Sys2Proof.Machine
end

section
/-! PROOFS. Inbox room and deadlines through every step (sections 3.1, 6.3, 6.4): no effect raises records plus
reservations but where it has found room, and a POST gives the one deadline that is set. -/

namespace Sys2Proof.Machine

/-! ## Occupancy through the effects (R45) -/

/-- A station whose inbox and reservations have not grown keeps its room. -/
theorem occupancy_le {s t : State} {p : Station} (hi : (t.port p).inbox.length ≤ (s.port p).inbox.length)
    (hc : t.requesterCount p ≤ s.requesterCount p) : t.occupancy p ≤ s.occupancy p :=
  Nat.add_le_add hi hc

theorem RoomKept.of_le {s t : State} (h : RoomKept s) (ht : ∀ p, t.occupancy p ≤ s.occupancy p) : RoomKept t :=
  fun p => (ht p).trans (h p)

theorem RoomKept.of_inbox {s t : State} (h : RoomKept s) (hslots : t.slots = s.slots)
    (hi : ∀ p, (t.port p).inbox.length ≤ (s.port p).inbox.length) : RoomKept t :=
  h.of_le fun p => occupancy_le (hi p) (requesterCount_congr hslots p).le

/-- A POST adds one record at the destination and one reservation at the poster, where both have room (R27). -/
theorem roomKept_acceptPost {s : State} (h : RoomKept s) {p : Station} {plan : PostPlan}
    (hok : s.postCheck p = .ok plan) (hd : plan.dest ≠ p) : RoomKept (s.acceptPost p plan) := by
  obtain ⟨-, -, -, -, -, -, -, -, -, -, hown, hdest⟩ := postCheck_ok hok
  intro q
  have hq := h q
  have hown := hasRoom_iff.mp hown
  have hdest := hasRoom_iff.mp hdest
  simp only [State.occupancy, Config.inboxCapacity] at hq hown hdest ⊢
  rw [requesterCount_acceptPost hok, port_acceptPost]
  by_cases hqd : q = plan.dest
  · have hqp : q ≠ p := hqd ▸ hd
    subst hqd
    simp only [if_true, if_neg hqp, List.length_append, List.length_singleton]
    omega
  · by_cases hqp : q = p
    · subst hqp
      simp only [if_true, if_neg hqd]
      omega
    · simpa only [if_neg hqd, if_neg hqp, Nat.add_zero] using hq

/-- A notice joins only inboxes with room (R40). -/
theorem roomKept_placeNotices {s : State} (h : RoomKept s) {p : Station} {v : Service} {set : StationSet}
    (r : Record) (hroom : s.firstRefusal p v (membersOf set) = none) :
    RoomKept (s.placeNotices r (membersOf set)) := by
  intro q
  have hslots : (s.placeNotices r (membersOf set)).slots = s.slots := (placeNotices_rest s r _).1
  have hq := h q
  simp only [State.occupancy, Config.inboxCapacity] at hq ⊢
  rw [requesterCount_congr hslots, port_placeNotices s r (membersOf_nodup set)]
  by_cases hm : q ∈ membersOf set
  · obtain ⟨-, -, hfree⟩ := memberCheck_none.mp (firstRefusal_none.mp hroom q hm)
    have hfree := hasRoom_iff.mp hfree
    simp only [State.occupancy] at hfree
    simp only [if_pos hm, List.length_append, List.length_singleton]
    omega
  · simpa only [if_neg hm] using hq

/-- A TAKE removes one record. -/
theorem roomKept_acceptTake {s : State} (h : RoomKept s) {p : Station} {r : Record} {rest : List Record}
    (hinbox : (s.port p).inbox = r :: rest) : RoomKept (s.acceptTake p r rest) := by
  refine h.of_le fun q => occupancy_le ?_ (requesterCount_acceptTake s p q r rest).le
  by_cases hq : q = p
  · rw [hq, port_acceptTake_self, hinbox]
    exact Nat.le_succ _
  · rw [port_acceptTake_ne s r rest hq]

theorem inbox_changePortState (s : State) (p : Station) (st : PortState) (q : Station) :
    ((s.changePortState p st).port q).inbox = (s.port q).inbox := by
  rw [port_changePortState]
  split_ifs <;> rfl

theorem inbox_drainCompleted {s : State} {p : Station} (h : s.drained p = true) (q : Station) :
    ((s.drainCompleted p).port q).inbox = (s.port q).inbox := by
  rw [port_drainCompleted h]
  split_ifs <;> rfl

theorem inbox_portsLeaveReset (s : State) (q : Station) :
    (s.portsLeaveReset.port q).inbox = (s.port q).inbox := by
  rw [port_portsLeaveReset]
  split <;> rfl

/-- The torn station's inbox is empty, and the others' are as the endings leave them. -/
theorem inbox_tornDown (s : State) (p q : Station) :
    ((s.tornDown p).port q).inbox = if q = p then [] else ((s.tearSlots p).port q).inbox := by
  rw [port_tornDown]
  generalize s.tearSlots p = u
  split_ifs
  · rw [toReset_inbox]
  · rfl
  · rfl

theorem roomKept_tornDown {s : State} (h : RoomKept s) (p : Station) : RoomKept (s.tornDown p) := by
  have hslots : RoomKept (s.tearSlots p) :=
    tearSlots_keeps RoomKept p h (fun u i hu _ _ => hu.of_le (occupancy_endExchange_le u i _))
      fun u i hu _ _ _ => hu.of_le (occupancy_endExchange_le u i _)
  refine hslots.of_inbox (tornDown_slots s p) fun q => ?_
  rw [inbox_tornDown]
  split
  · exact Nat.zero_le _
  · exact le_rfl

/-! ## Deadlines through the effects (R104, R105) -/

/-- Slots that are FREE, or as before under the same count, have their deadlines ahead. -/
theorem DeadlinesAhead.of_slots {s t : State} (h : DeadlinesAhead s) (hn : t.tickCount = s.tickCount)
    (ht : ∀ i, (t.slot i).state = .free
      ∨ (s.slot i).state ≠ .free ∧ (t.slot i).deadline = (s.slot i).deadline) : DeadlinesAhead t := by
  intro i hi
  obtain hfree | ⟨hused, hd⟩ := ht i
  · exact absurd hfree hi
  · rw [hn, hd]; exact h i hused

theorem DeadlinesAhead.of_same {s t : State} (h : DeadlinesAhead s) (hn : t.tickCount = s.tickCount)
    (ht : t.slots = s.slots) : DeadlinesAhead t :=
  h.of_slots hn fun i => by
    rw [show t.slot i = s.slot i by rw [State.slot, ht]; rfl]
    by_cases hi : (s.slot i).state = .free
    · exact .inl hi
    · exact .inr ⟨hi, rfl⟩

theorem deadlinesAhead_endExchange {s : State} (h : DeadlinesAhead s) (i : SlotNo) (e : Ending) :
    DeadlinesAhead (s.endExchange i e) := by
  refine h.of_slots (endExchange_tickCount s i e) fun j => ?_
  by_cases hj : j = i
  · exact .inl (hj ▸ free_endExchange s i e)
  · rw [slot_endExchange_ne e hj]
    by_cases hused : (s.slot j).state = .free
    · exact .inl hused
    · exact .inr ⟨hused, rfl⟩

/-- A timeout of 1 to 65535 ticks sets the deadline that far ahead (R104). -/
theorem deadlinesAhead_acceptPost {s : State} (h : DeadlinesAhead s) {p : Station} {plan : PostPlan}
    (ht : plan.timeout ≠ 0) : DeadlinesAhead (s.acceptPost p plan) := by
  intro j hj
  rw [slot_acceptPost] at hj ⊢
  rw [acceptPost_tickCount]
  split
  · have hpos : plan.timeout.toNat ≠ 0 := fun hz => ht (BitVec.eq_of_toNat_eq hz)
    have hdiff : ((s.postSlot p plan).deadline - s.tickCount).toNat = plan.timeout.toNat := by
      rw [show (s.postSlot p plan).deadline = s.tickCount + plan.timeout.setWidth 32 from rfl]
      bv_omega
    omega
  case isFalse hne => exact h j (by rwa [if_neg hne] at hj)

theorem deadlinesAhead_acceptTake {s : State} (h : DeadlinesAhead s) (p : Station) (r : Record)
    (rest : List Record) : DeadlinesAhead (s.acceptTake p r rest) := by
  refine h.of_slots (acceptTake_tickCount s p r rest) fun j => ?_
  rw [slot_acceptTake, takenSlot]
  by_cases hused : (s.slot j).state = .free
  · left
    split
    · exact hused
    · rw [if_neg (by simp [hused])]; exact hused
  · right
    refine ⟨hused, ?_⟩
    split
    · rfl
    · split <;> rfl

/-- A tick brings the count one closer to every deadline that it does not reach; what it reaches has ended (R105). -/
theorem deadlinesAhead_ticked {s : State} (h : DeadlinesAhead s) (hp : s.phase = .running) :
    DeadlinesAhead s.ticked := by
  intro i hi
  rw [ticked_slot hp] at hi ⊢
  rw [ticked_tickCount hp]
  split at hi
  · exact absurd rfl hi
  case isFalse hnotdue =>
    rw [if_neg hnotdue]
    have hreach : (s.slot i).deadline ≠ s.tickCount + 1 := fun hd => hnotdue ⟨hi, hd⟩
    have hahead := h i hi
    bv_omega

/-! ## Room, deadlines and tables together -/

/-- What O56 speaks of, with the tables that give every POST its destination and its timeout. -/
def RoomDeadlinesTables (s : State) : Prop := RoomKept s ∧ DeadlinesAhead s ∧ TablesSound s

/-- Effects that leave the slots and the count, raise no inbox and leave the tables. -/
theorem RoomDeadlinesTables.of_same {s t : State} (h : RoomDeadlinesTables s) (hslots : t.slots = s.slots)
    (hn : t.tickCount = s.tickCount) (hinbox : ∀ p, (t.port p).inbox.length ≤ (s.port p).inbox.length)
    (htables : s.SameTables t) : RoomDeadlinesTables t := by
  obtain ⟨hr, hd, ht⟩ := h
  exact ⟨hr.of_inbox hslots hinbox, hd.of_same hn hslots, ht.of_same htables⟩

theorem RoomDeadlinesTables.endExchange {s : State} (h : RoomDeadlinesTables s) (i : SlotNo) (e : Ending) :
    RoomDeadlinesTables (s.endExchange i e) := by
  obtain ⟨hr, hd, ht⟩ := h
  exact ⟨hr.of_le (occupancy_endExchange_le s i e), deadlinesAhead_endExchange hd i e,
    ht.of_same (sameTables_endExchange s i e)⟩

theorem RoomDeadlinesTables.changePortState {s : State} (h : RoomDeadlinesTables s) (p : Station)
    (st : PortState) : RoomDeadlinesTables (s.changePortState p st) :=
  h.of_same rfl rfl (fun q => by rw [inbox_changePortState]) (sameTables_changePortState s p st)

theorem RoomDeadlinesTables.ticked {s : State} (h : RoomDeadlinesTables s) (hp : s.phase = .running) :
    RoomDeadlinesTables s.ticked := by
  obtain ⟨hr, hd, ht⟩ := h
  refine ⟨?_, deadlinesAhead_ticked hd hp, ?_⟩
  · exact ticked_keeps RoomKept hp hr fun u i hu _ => hu.of_le (occupancy_endExchange_le u i _)
  · exact ticked_keeps TablesSound hp ht fun u i hu _ => hu.of_same (sameTables_endExchange u i _)

theorem RoomDeadlinesTables.tornDown {s : State} (h : RoomDeadlinesTables s) (p : Station) :
    RoomDeadlinesTables (s.tornDown p) := by
  obtain ⟨hr, hd, ht⟩ := h
  have hahead : DeadlinesAhead (s.tearSlots p) :=
    tearSlots_keeps DeadlinesAhead p hd (fun u i hu _ _ => deadlinesAhead_endExchange hu i _)
      fun u i hu _ _ _ => deadlinesAhead_endExchange hu i _
  have hcount : (s.tearSlots p).tickCount = s.tickCount :=
    tearSlots_keeps (fun u => u.tickCount = s.tickCount) p rfl
      (fun u i hu _ _ => (endExchange_tickCount u i _).trans hu)
      fun u i hu _ _ _ => (endExchange_tickCount u i _).trans hu
  exact ⟨roomKept_tornDown hr p, hahead.of_same ((tornDown_tickCount s p).trans hcount.symm) (tornDown_slots s p),
    tablesSound_tornDown ht p⟩

/-- After master reset no slot is in use and every inbox is empty. -/
theorem roomDeadlinesTables_masterCleared (s : State) : RoomDeadlinesTables s.masterCleared := by
  have hfree : ∀ i, (s.masterCleared.slot i).state = .free := fun i => by rw [slot_masterCleared]; rfl
  refine ⟨fun p => ?_, fun i hi => absurd (hfree i) hi, tablesSound_masterCleared s⟩
  rw [State.occupancy, requesterCount_of_free hfree, port_masterCleared, toReset_inbox]
  exact Nat.zero_le _

theorem roomDeadlinesTables_kept : Kept RoomDeadlinesTables where
  queue _ _ h := h
  access s p a h _ := h.of_same rfl rfl (fun q => by rw [port_modPort]; split <;> rfl) (sameTables_withAccess s p a)
  registers s p q h hq := by
    refine h.of_same rfl rfl (fun r => ?_) (sameTables_of_sameStation s hq)
    obtain ⟨-, -, -, hinbox, -⟩ := hq
    rw [port_setPort]
    split
    case isTrue hr => rw [hr, hinbox]
    case isFalse => rfl
  post s p plan h hok := by
    obtain ⟨hr, hd, ht⟩ := h
    obtain ⟨hdest, htimeout⟩ := ht.of_postCheck hok
    exact ⟨roomKept_acceptPost hr hok hdest, deadlinesAhead_acceptPost hd htimeout,
      ht.of_same (sameTables_acceptPost s p plan)⟩
  reply _ _ _ h _ := h.endExchange _ _
  cancel _ _ _ i h _ _ := h.endExchange i _
  notify s p ps set v h _ _ _ hroom := by
    obtain ⟨hr, hd, ht⟩ := h
    obtain ⟨hslots, -, hcount, -⟩ := placeNotices_rest s (s.noticeRecord p v ps.words) (membersOf set)
    exact ⟨roomKept_placeNotices hr _ hroom, hd.of_same hcount hslots, ht.of_same (sameTables_placeNotices s _ set)⟩
  take s p r rest h _ hinbox := by
    obtain ⟨hr, hd, ht⟩ := h
    exact ⟨roomKept_acceptTake hr hinbox, deadlinesAhead_acceptTake hd p r rest,
      ht.of_same (sameTables_acceptTake s p r rest)⟩
  acquire _ _ _ h _ _ _ _ _ := h
  release _ _ _ h _ _ := h
  append _ _ _ _ h _ _ _ _ _ := h
  scrub _ _ _ _ h _ _ _ := h
  setRoute s p v e h _ he := by
    obtain ⟨hr, hd, ht⟩ := h
    refine ⟨hr.of_inbox rfl fun q => ?_, hd, tablesSound_setRoute ht v (sound_of_routeCommand he)⟩
    rw [State.setRoute, port_modPort]; split <;> rfl
  setAdmit s p v set h _ he := by
    obtain ⟨hr, hd, ht⟩ := h
    refine ⟨hr.of_inbox rfl fun q => ?_, hd, tablesSound_setAdmit ht v (setAdmitParams_eq_some.mp he).2.2⟩
    rw [State.setAdmit, port_modPort]; split <;> rfl
  join _ p h _ := h.changePortState p _
  leave _ p h _ := answerUntaken_keeps _ _ (h.changePortState p _) fun _ i hu => hu.endExchange i _
  parity _ _ _ h _ := h
  memory _ _ _ _ h := h
  ticked _ h hp := h.ticked hp
  expiry _ i h _ := h.endExchange i _
  scrubDone _ _ _ h _ _ := h
  drained s p h hd := h.of_same (drainCompleted_slots s p) (drainCompleted_tickCount s p)
    (fun q => by rw [inbox_drainCompleted hd]) (sameTables_drainCompleted hd)
  teardown _ p h _ := h.tornDown p
  leaveReset _ p h _ _ := h.changePortState p _
  masterReset s _ := roomDeadlinesTables_masterCleared s
  masterResetEnded s _ h hp := by
    simp only [State.masterResetEnded, hp]
    exact h
  portsLeaveReset s h _ := h.of_same rfl rfl (fun q => (congrArg List.length (inbox_portsLeaveReset s q)).le)
    (sameTables_portsLeaveReset s)

/-- Settles O56: room is checked before a record or a reservation is added, a timeout is 1 to 65535 ticks, and a tick
ends what it reaches. -/
theorem stepKeepsRoomAndDeadlines : Obligations.StepKeepsRoomAndDeadlines := by
  intro s t hr hd ht hstep
  obtain ⟨hr, hd, -⟩ := roomDeadlinesTables_kept.step (Inv := RoomDeadlinesTables) ⟨hr, hd, ht⟩ hstep
  exact ⟨hr, hd⟩

end Sys2Proof.Machine
end

section
/-! PROOFS. What a command or event does to slots, inboxes, tick count and phase, said once: each row has one effect of
a short list there, and all else it does is quiet. Of a row that takes an access, what it leaves of the bus and what it
drives is said with it (R140, R141). -/

namespace Sys2Proof.Machine

theorem next_inj {u t : State} (h : (Host.Outcome.next u : Host.Outcome State Fault Refusal) = .next t) : u = t := by
  injection h

/-! ## Quiet changes -/

/-- From `u` to `t` no slot, no inbox and no tick count changes, and a running part keeps running. -/
structure State.QuietTo (u t : State) : Prop where
  slots : t.slots = u.slots
  count : t.tickCount = u.tickCount
  running : u.phase = .running → t.phase = .running
  inbox : ∀ q, (t.port q).inbox = (u.port q).inbox

theorem State.QuietTo.refl (s : State) : s.QuietTo s := ⟨rfl, rfl, id, fun _ => rfl⟩

theorem State.QuietTo.trans {s t u : State} (h : s.QuietTo t) (k : t.QuietTo u) : s.QuietTo u where
  slots := k.slots.trans h.slots
  count := k.count.trans h.count
  running hp := k.running (h.running hp)
  inbox q := (k.inbox q).trans (h.inbox q)

theorem State.QuietTo.slot_eq {u t : State} (h : u.QuietTo t) (i : SlotNo) : t.slot i = u.slot i := by
  rw [State.slot, h.slots]
  rfl

theorem quietTo_modPort (s : State) (p : Station) {f : Port → Port} (hf : (f (s.port p)).inbox = (s.port p).inbox) :
    s.QuietTo (s.modPort p f) where
  slots := rfl
  count := rfl
  running := id
  inbox q := by
    rw [port_modPort]
    split
    case isTrue hq => rw [hq, hf]
    case isFalse => rfl

theorem quietTo_withAccess (s : State) (p : Station) (a : AccessState) : s.QuietTo (s.withAccess p a) :=
  quietTo_modPort s p rfl

theorem quietTo_settle (s : State) (p : Station) : s.QuietTo (s.settle p) := by
  obtain ⟨a, ha⟩ := settle_changes_access s p
  rw [ha]
  exact quietTo_withAccess s p a

theorem quietTo_setPool (s : State) (pool : Pool) : s.QuietTo (s.setPool pool) := ⟨rfl, rfl, id, fun _ => rfl⟩

theorem quietTo_setResult (s : State) (p : Station) (c : Option Command) (r : ResultCode) (ps : List Word) :
    s.QuietTo (s.setResult p c r ps) :=
  quietTo_modPort s p rfl

theorem quietTo_changePortState (s : State) (p : Station) (st : PortState) : s.QuietTo (s.changePortState p st) :=
  ⟨rfl, rfl, id, inbox_changePortState s p st⟩

theorem recordFault_inbox (q : Port) (kind : FaultKind) (b : Option BufferNo) (w : Offset) :
    (q.recordFault kind b w).inbox = q.inbox := by
  rw [recordFault_eq]

/-! ## The effects on slots and inboxes -/

/-- What a command or event does to slots, inboxes and tick count: nothing; the acceptance of a POST, a NOTIFY or a
TAKE; the ending of one exchange with an outcome; or one of the effects that may end several. -/
inductive SlotEffect (s : State) : Instr → State → Prop
  | rest {c : Instr} (h : c = .tick → s.phase ≠ .running) : SlotEffect s c s
  | post {p : Station} {plan : PostPlan} (h : s.postCheck p = .ok plan) : SlotEffect s (.post p) (s.acceptPost p plan)
  | notify {p : Station} (r : Record) (set : StationSet) (h : r.outcomeOf = none) :
      SlotEffect s (.notify p) (s.placeNotices r (membersOf set))
  | take {p : Station} {r : Record} {rest : List Record} (h : (s.port p).inbox = r :: rest) :
      SlotEffect s (.take p) (s.acceptTake p r rest)
  | ended {c : Instr} (i : SlotNo) (e : Ending) (he : e ≠ .silent) (hc : c ≠ .tick) :
      SlotEffect s c (s.endExchange i e)
  | leave {p : Station} (xs : List XNum) :
      SlotEffect s (.leave p) ((s.changePortState p .draining).answerUntaken xs)
  | tick (h : s.phase = .running) : SlotEffect s .tick s.ticked
  | teardown (p : Station) : SlotEffect s (.teardown p) (s.tornDown p)
  | masterReset : SlotEffect s .masterReset s.masterCleared

/-! ## Rows that take an access -/

/-- The lines, what the port captured and its timing are the same, and a port outside RESET stays outside. -/
structure Port.SameBus (q q' : Port) : Prop where
  access : q'.access = q.access
  lines : q'.lines = q.lines
  timing : q'.readTiming = q.readTiming
  outside : q.state ≠ .reset → q'.state ≠ .reset

theorem Port.SameBus.refl (q : Port) : q.SameBus q := ⟨rfl, rfl, rfl, id⟩

theorem Port.SameBus.trans {q r t : Port} (h : q.SameBus r) (k : r.SameBus t) : q.SameBus t where
  access := k.access.trans h.access
  lines := k.lines.trans h.lines
  timing := k.timing.trans h.timing
  outside hq := k.outside (h.outside hq)

/-- A read is answered with a word and a write with none (R140). -/
def Access.Answers : Access → Option Word → Prop
  | .read _, d => ∃ w, d = some w
  | .write _ _, d => d = none

/-- What the effect of a row at port `p` on a waiting access leaves, with what it drives. -/
structure RowEffect (s : State) (c : Instr) (p : Station) (a : Access) (r : State × Option Word) : Prop where
  bus : (s.port p).SameBus (r.1.port p)
  effect : ∃ u, SlotEffect s c u ∧ u.QuietTo r.1
  answers : a.Answers r.2

/-- A change of the row's own port that leaves its bus and its inbox. -/
theorem rowEffect_modPort {s : State} {c : Instr} {p : Station} {a : Access} {f : Port → Port} {d : Option Word}
    (hc : c ≠ .tick) (hbus : (s.port p).SameBus (f (s.port p))) (hinbox : (f (s.port p)).inbox = (s.port p).inbox)
    (hd : a.Answers d) : RowEffect s c p a (s.modPort p f, d) where
  bus := by rw [port_modPort_self]; exact hbus
  effect := ⟨s, .rest fun h => absurd h hc, quietTo_modPort s p hinbox⟩
  answers := hd

/-- A change of the pool alone. -/
theorem rowEffect_setPool {s : State} {c : Instr} {p : Station} {a : Access} {pool : Pool} {d : Option Word}
    (hc : c ≠ .tick) (hd : a.Answers d) : RowEffect s c p a (s.setPool pool, d) where
  bus := .refl _
  effect := ⟨s, .rest fun h => absurd h hc, quietTo_setPool s pool⟩
  answers := hd

theorem sameBus_recordFault (q : Port) (kind : FaultKind) (b : Option BufferNo) (w : Offset) :
    q.SameBus (q.recordFault kind b w) := by
  rw [recordFault_eq]
  exact ⟨rfl, rfl, rfl, id⟩

/-- What an accepted verdict of row `c` must leave, before its result is written. -/
def AcceptsQuietly (s : State) (c : Instr) (p : Station) (s' : State) : Prop :=
  (s.port p).SameBus (s'.port p) ∧ ∃ u, SlotEffect s c u ∧ u.QuietTo s'

/-- A command row, refused or accepted: its result is a quiet change of its own port, and its write is driven by
nothing. -/
theorem rowEffect_command {s : State} {c : Instr} {p : Station} {cmd : Command} {a : Access} (hc : c ≠ .tick)
    (ha : issues cmd a = true) {verdict : State → Verdict}
    (hv : ∀ s' ps, verdict s = .accepted s' ps → AcceptsQuietly s c p s') :
    RowEffect s c p a ((verdict s).apply s p cmd, none) := by
  have hresult : ∀ (t : State) r ps, AcceptsQuietly s c p t →
      RowEffect s c p a (t.setResult p (some cmd) r ps, none) := by
    intro t r ps ht
    obtain ⟨hbus, u, heffect, hquiet⟩ := ht
    refine ⟨hbus.trans ?_, ⟨u, heffect, hquiet.trans (quietTo_setResult t p _ r ps)⟩, ?_⟩
    · rw [State.setResult, port_modPort_self]
      exact ⟨rfl, rfl, rfl, id⟩
    · rw [issues_iff.mp ha]
      rfl
  cases hverdict : verdict s with
  | refused r ps => exact hresult s r ps ⟨.refl _, s, .rest fun h => absurd h hc, .refl s⟩
  | accepted s' ps => exact hresult s' .done ps (hv s' ps hverdict)

theorem acceptsQuietly_setPool {s : State} {c : Instr} (p : Station) (pool : Pool) (hc : c ≠ .tick) :
    AcceptsQuietly s c p (s.setPool pool) :=
  ⟨.refl _, s, .rest fun h => absurd h hc, quietTo_setPool s pool⟩

theorem acceptsQuietly_modPort {s : State} {c : Instr} {p : Station} {f : Port → Port} (hc : c ≠ .tick)
    (hbus : (s.port p).SameBus (f (s.port p))) (hinbox : (f (s.port p)).inbox = (s.port p).inbox) :
    AcceptsQuietly s c p (s.modPort p f) :=
  ⟨by rw [port_modPort_self]; exact hbus, s, .rest fun h => absurd h hc, quietTo_modPort s p hinbox⟩

theorem acceptsQuietly_endExchange {s : State} {c : Instr} (p : Station) (i : SlotNo) {e : Ending} (he : e ≠ .silent)
    (hc : c ≠ .tick) : AcceptsQuietly s c p (s.endExchange i e) :=
  ⟨by rw [port_endExchange_same]; exact ⟨rfl, rfl, rfl, id⟩, _, .ended i e he hc, .refl _⟩

theorem sameBus_changePortState (s : State) (p : Station) {st : PortState} (h : st ≠ .reset) :
    (s.port p).SameBus ((s.changePortState p st).port p) := by
  rw [port_changePortState, if_pos rfl]
  exact ⟨rfl, rfl, rfl, fun _ => h⟩

/-- The answers of a LEAVE leave the bus of every port. -/
theorem sameBus_answerUntaken (s : State) (xs : List XNum) (q : Station) :
    (s.port q).SameBus ((s.answerUntaken xs).port q) := by
  refine answerUntaken_keeps (fun u => (s.port q).SameBus (u.port q)) xs (.refl _) fun u i hu => hu.trans ?_
  rw [port_endExchange_same]
  exact ⟨rfl, rfl, rfl, id⟩

/-! ## The accepted verdicts of the sixteen commands -/

theorem postVerdict_accepted {s s' : State} {p : Station} {ps : List Word} (h : postVerdict p s = .accepted s' ps) :
    AcceptsQuietly s (.post p) p s' := by
  unfold postVerdict at h
  split at h
  · cases h
  case h_2 plan hok =>
    cases h
    exact ⟨by rw [port_acceptPost]; exact ⟨rfl, rfl, rfl, id⟩, _, .post hok, .refl _⟩

theorem replyVerdict_accepted {s s' : State} {p : Station} {ps : List Word} (h : replyVerdict p s = .accepted s' ps) :
    AcceptsQuietly s (.reply p) p s' := by
  unfold replyVerdict at h
  split at h
  · cases h
  · cases h
    exact acceptsQuietly_endExchange p _ nofun nofun

theorem cancelVerdict_accepted {s s' : State} {p : Station} {ps : List Word}
    (h : cancelVerdict p s = .accepted s' ps) : AcceptsQuietly s (.cancel p) p s' := by
  unfold cancelVerdict at h
  split at h
  · cases h
  · split at h
    · cases h
    · cases h
      exact acceptsQuietly_endExchange p _ nofun nofun

theorem notifyVerdict_accepted {s s' : State} {p : Station} {ps : List Word}
    (h : notifyVerdict p s = .accepted s' ps) : AcceptsQuietly s (.notify p) p s' := by
  unfold notifyVerdict at h
  split at h
  · cases h
  · split at h
    · cases h
    · split at h
      · cases h
      · cases h
      case h_3 set v _ =>
        split at h
        · cases h
        · cases h
          exact ⟨by rw [port_placeNotices _ _ (membersOf_nodup set)]; exact ⟨rfl, rfl, rfl, id⟩, _,
            .notify _ set rfl, .refl _⟩

theorem takeVerdict_accepted {s s' : State} {p : Station} {ps : List Word} (h : takeVerdict p s = .accepted s' ps) :
    AcceptsQuietly s (.take p) p s' := by
  unfold takeVerdict at h
  split at h
  · cases h
  · split at h
    · cases h
    case h_2 r rest hinbox =>
      cases h
      exact ⟨by rw [port_acceptTake_self]; exact ⟨rfl, rfl, rfl, id⟩, _, .take hinbox, .refl _⟩

theorem leaveVerdict_accepted {s s' : State} {p : Station} {ps : List Word}
    (h : leaveVerdict p s = .accepted s' ps) : AcceptsQuietly s (.leave p) p s' := by
  by_cases hon : (s.port p).state = .online
  · rw [leaveVerdict_of_online hon] at h
    cases h
    exact ⟨(sameBus_changePortState s p (by decide)).trans (sameBus_answerUntaken _ _ p), _, .leave _, .refl _⟩
  · rw [leaveVerdict_of_not_online hon] at h
    cases h

theorem joinVerdict_accepted {s s' : State} {p : Station} {ps : List Word}
    (h : joinVerdict p s = .accepted s' ps) : AcceptsQuietly s (.join p) p s' := by
  by_cases hoff : (s.port p).state = .offline
  · rw [joinVerdict_of_offline hoff] at h
    cases h
    exact ⟨sameBus_changePortState s p (by decide), s, .rest nofun, quietTo_changePortState s p _⟩
  · rw [joinVerdict_of_not_offline hoff] at h
    cases h

/-- ACQUIRE, RELEASE, APPEND and SCRUB accept with a new pool and nothing else. -/
theorem poolVerdict_accepted {s s' : State} {p : Station} {ps : List Word}
    (h : acquireVerdict p s = .accepted s' ps ∨ releaseVerdict p s = .accepted s' ps
      ∨ appendVerdict p s = .accepted s' ps ∨ scrubVerdict p s = .accepted s' ps) :
    ∃ pool, s' = s.setPool pool := by
  unfold acquireVerdict releaseVerdict appendVerdict scrubVerdict at h
  obtain h | h | h | h := h
  all_goals
    repeat' split at h
    all_goals cases h
    exact ⟨_, rfl⟩

/-- SET_ROUTE, CLEAR_ROUTE and SET_ADMIT accept with a change of the port's tables and nothing else. -/
theorem tableVerdict_accepted {s s' : State} {c : Instr} {p : Station} {ps : List Word} (hc : c ≠ .tick)
    (h : setRouteVerdict p s = .accepted s' ps ∨ clearRouteVerdict p s = .accepted s' ps
      ∨ setAdmitVerdict p s = .accepted s' ps) : AcceptsQuietly s c p s' := by
  unfold setRouteVerdict clearRouteVerdict setAdmitVerdict at h
  obtain h | h | h := h
  all_goals
    split at h
    all_goals cases h
    exact acceptsQuietly_modPort hc ⟨rfl, rfl, rfl, id⟩ rfl

/-! ## The other rows that take an access -/

theorem sameBus_parityFault (s : State) (p : Station) (b : BufferNo) (w : Offset) :
    (s.port p).SameBus ((s.parityFault p b w).port p) := by
  rw [State.parityFault, port_modPort_self]
  exact sameBus_recordFault ..

theorem quietTo_parityFault (s : State) (p : Station) (b : BufferNo) (w : Offset) :
    s.QuietTo (s.parityFault p b w) :=
  (quietTo_setPool s _).trans (quietTo_modPort _ p (recordFault_inbox ..))

theorem rowEffect_bufferRead {s : State} {c : Instr} {p : Station} {a : Access} (hc : c ≠ .tick) {w : Offset}
    {d : Option Word} (hd : a.Answers d) : RowEffect s c p a (s.bufferRead p w, d) := by
  unfold State.bufferRead
  split
  · exact rowEffect_modPort hc (sameBus_recordFault ..) (recordFault_inbox ..) hd
  · split
    · exact ⟨.refl _, ⟨s, .rest fun h => absurd h hc, .refl s⟩, hd⟩
    · exact ⟨sameBus_parityFault .., ⟨s, .rest fun h => absurd h hc, quietTo_parityFault ..⟩, hd⟩

theorem rowEffect_bufferWrite {s : State} {c : Instr} {p : Station} {a : Access} (hc : c ≠ .tick) {w : Offset}
    {v : Word} {d : Option Word} (hd : a.Answers d) : RowEffect s c p a (s.bufferWrite p w v, d) := by
  unfold State.bufferWrite
  split
  · exact rowEffect_modPort hc (sameBus_recordFault ..) (recordFault_inbox ..) hd
  · exact rowEffect_setPool hc hd

theorem rowEffect_writeWord {s : State} {c : Instr} {p : Station} (hc : c ≠ .tick) {address : Addr} {v : Word} :
    RowEffect s c p (.write address v) (s.writeWord p (.write address v), none) := by
  simp only [State.writeWord]
  split
  · exact ⟨.refl _, ⟨s, .rest fun h => absurd h hc, .refl s⟩, rfl⟩
  · exact rowEffect_modPort hc ⟨rfl, rfl, rfl, id⟩ rfl rfl

/-- A row that takes an access takes the accesses of its class, and its effect leaves the bus of its port. -/
theorem exec_of_takenAt {c : Instr} {p : Station} (h : takenAt c = some p) :
    ∃ f, (∀ s, exec c s = .next (s.takeAccess p (takes c) f))
      ∧ ∀ s a, takes c a = true → RowEffect s c p a (f a s) := by
  cases c <;> simp only [takenAt, Option.some.injEq, reduceCtorEq] at h <;> subst h
    <;> refine ⟨_, fun _ => rfl, fun s a ha => ?_⟩
  case post p => exact rowEffect_command (by nofun) ha fun _ _ => postVerdict_accepted
  case reply p => exact rowEffect_command (by nofun) ha fun _ _ => replyVerdict_accepted
  case cancel p => exact rowEffect_command (by nofun) ha fun _ _ => cancelVerdict_accepted
  case notify p => exact rowEffect_command (by nofun) ha fun _ _ => notifyVerdict_accepted
  case take p => exact rowEffect_command (by nofun) ha fun _ _ => takeVerdict_accepted
  case acquire p =>
    refine rowEffect_command (verdict := acquireVerdict p) (by nofun) ha fun _ _ hv => ?_
    obtain ⟨pool, rfl⟩ := poolVerdict_accepted (.inl hv)
    exact acceptsQuietly_setPool p pool (by nofun)
  case release p =>
    refine rowEffect_command (verdict := releaseVerdict p) (by nofun) ha fun _ _ hv => ?_
    obtain ⟨pool, rfl⟩ := poolVerdict_accepted (.inr (.inl hv))
    exact acceptsQuietly_setPool p pool (by nofun)
  case append p =>
    refine rowEffect_command (verdict := appendVerdict p) (by nofun) ha fun _ _ hv => ?_
    obtain ⟨pool, rfl⟩ := poolVerdict_accepted (.inr (.inr (.inl hv)))
    exact acceptsQuietly_setPool p pool (by nofun)
  case scrub p =>
    refine rowEffect_command (verdict := scrubVerdict p) (by nofun) ha fun _ _ hv => ?_
    obtain ⟨pool, rfl⟩ := poolVerdict_accepted (.inr (.inr (.inr hv)))
    exact acceptsQuietly_setPool p pool (by nofun)
  case setRoute p =>
    exact rowEffect_command (by nofun) ha fun _ _ hv =>
      tableVerdict_accepted (by nofun) (.inl hv)
  case clearRoute p =>
    exact rowEffect_command (by nofun) ha fun _ _ hv =>
      tableVerdict_accepted (by nofun) (.inr (.inl hv))
  case setAdmit p =>
    exact rowEffect_command (by nofun) ha fun _ _ hv =>
      tableVerdict_accepted (by nofun) (.inr (.inr hv))
  case flip p =>
    refine rowEffect_command (verdict := flipVerdict p) (by nofun) ha fun _ _ hv => ?_
    cases hv
    exact acceptsQuietly_modPort (by nofun) ⟨rfl, rfl, rfl, id⟩ rfl
  case join p => exact rowEffect_command (by nofun) ha fun _ _ => joinVerdict_accepted
  case leave p => exact rowEffect_command (by nofun) ha fun _ _ => leaveVerdict_accepted
  case ackFault p =>
    refine rowEffect_command (verdict := ackFaultVerdict p) (by nofun) ha fun _ _ hv => ?_
    cases hv
    exact acceptsQuietly_modPort (by nofun) ⟨rfl, rfl, rfl, id⟩ rfl
  case badCommand p =>
    cases a with
    | read address => cases ha
    | write address v => exact rowEffect_modPort (by nofun) ⟨rfl, rfl, rfl, id⟩ rfl rfl
  case windowSelect p =>
    cases a with
    | read address => cases ha
    | write address v => exact rowEffect_modPort (by nofun) ⟨rfl, rfl, rfl, id⟩ rfl rfl
  case windowStep p =>
    cases a with
    | read address => cases ha
    | write address v => exact rowEffect_modPort (by nofun) ⟨rfl, rfl, rfl, id⟩ rfl rfl
  case bufferWindowRead p =>
    cases a with
    | write address v => cases ha
    | read address =>
      obtain ⟨w, hw⟩ := Option.isSome_iff_exists.mp ha
      simp only [hw]
      exact rowEffect_bufferRead (by nofun) (by exact ⟨_, rfl⟩)
  case bufferWindowWrite p =>
    cases a with
    | read address => cases ha
    | write address v =>
      obtain ⟨w, hw⟩ := Option.isSome_iff_exists.mp ha
      simp only [hw]
      exact rowEffect_bufferWrite (by nofun) (by rfl)
  case attentionCauseWrite p =>
    cases a with
    | read address => cases ha
    | write address v => exact rowEffect_modPort (by nofun) ⟨rfl, rfl, rfl, id⟩ rfl rfl
  case attentionEnableWrite p =>
    cases a with
    | read address => cases ha
    | write address v => exact rowEffect_modPort (by nofun) ⟨rfl, rfl, rfl, id⟩ rfl rfl
  case tickLowRead p =>
    cases a with
    | write address v => simp [takes] at ha
    | read address => exact rowEffect_modPort (by nofun) ⟨rfl, rfl, rfl, id⟩ rfl ⟨_, rfl⟩
  case windowWordWrite p =>
    cases a with
    | read address => cases ha
    | write address v => exact rowEffect_writeWord (by nofun)

/-! ## Every command and event -/

/-- Taking an access has the effect of its row, and the answer is quiet. -/
theorem slotEffect_takenAt {s t : State} {c : Instr} {p : Station} (hc : takenAt c = some p)
    (h : exec c s = .next t) : ∃ u, SlotEffect s c u ∧ u.QuietTo t := by
  obtain ⟨f, hexec, heffect⟩ := exec_of_takenAt hc
  obtain rfl := next_inj ((hexec s).symm.trans h)
  have hnot : c ≠ .tick := by rintro rfl; cases hc
  obtain ⟨-, hnone⟩ | ⟨a, st, htaking, hsome⟩ := takeAccess_cases s p (takes c) f
  · rw [hnone]
    exact ⟨s, .rest fun h => absurd h hnot, .refl s⟩
  · obtain ⟨-, ha, -⟩ := taking_eq_some.mp htaking
    obtain ⟨u, hu, hquiet⟩ := (heffect s a ha).effect
    rw [hsome]
    exact ⟨u, hu, hquiet.trans (quietTo_withAccess _ p st)⟩

theorem ended_inbox (q : Port) (lines : BusLines) : (q.ended lines).inbox = q.inbox := by
  unfold Port.ended
  split <;> rfl

theorem endedEarly_inbox (q : Port) (lines : BusLines) : (q.endedEarly lines).inbox = q.inbox := by
  unfold Port.endedEarly
  split <;> rfl

theorem quietTo_latchScrub (s : State) (p : Station) : s.QuietTo (s.latchScrub p) := by
  refine quietTo_modPort s p ?_
  split <;> rfl

theorem quietTo_scrubCompleted (s : State) (readBack : Vector MemWord 32) : s.QuietTo (s.scrubCompleted readBack) := by
  unfold State.scrubCompleted
  split
  · split
    · exact .refl s
    · exact (quietTo_setPool s _).trans (quietTo_latchScrub _ _)
  · exact .refl s

theorem quietTo_drainCompleted (s : State) (p : Station) : s.QuietTo (s.drainCompleted p) := by
  by_cases h : s.drained p = true
  · exact ⟨drainCompleted_slots s p, drainCompleted_tickCount s p, fun hp => (drainCompleted_phase s p).trans hp,
      inbox_drainCompleted h⟩
  · rw [State.drainCompleted, if_neg h]
    exact .refl s

theorem quietTo_leaveReset (s : State) (p : Station) : s.QuietTo (s.leaveReset p) := by
  unfold State.leaveReset
  split
  · exact (quietTo_changePortState s p _).trans (quietTo_settle _ p)
  · exact .refl s

theorem quietTo_masterResetEnded (s : State) (straps : StrapCode) : s.QuietTo (s.masterResetEnded straps) := by
  unfold State.masterResetEnded
  split
  case h_1 hp => exact ⟨rfl, rfl, fun h => absurd (hp.symm.trans h) nofun, fun _ => rfl⟩
  · exact .refl s
  · exact .refl s

theorem quietTo_passEnded (s : State) : s.QuietTo s.passEnded := by
  unfold State.passEnded
  split
  · refine foldl_keeps s.QuietTo ?_ fun u p _ hu => hu.trans (quietTo_settle u p)
    exact ⟨rfl, rfl, fun _ => rfl, inbox_portsLeaveReset s⟩
  · exact .refl s
  · exact .refl s

/-- Every command and event has one of the effects on slots and inboxes, and is quiet otherwise. -/
theorem exec_slotEffect {s t : State} {c : Instr} (h : exec c s = .next t) :
    ∃ u, SlotEffect s c u ∧ u.QuietTo t := by
  cases hc : takenAt c with
  | some p => exact slotEffect_takenAt hc h
  | none =>
    cases c <;> simp only [takenAt, reduceCtorEq] at hc <;> obtain rfl := next_inj h
    case accessBegin p lines timing =>
      refine ⟨s, .rest nofun, ?_⟩
      split
      · exact (quietTo_modPort s p rfl).trans (quietTo_settle _ p)
      · exact .refl s
    case accessEnd p lines =>
      refine ⟨s, .rest nofun, ?_⟩
      split
      · exact .refl s
      · exact quietTo_modPort s p (ended_inbox _ lines)
    case accessEndedEarly p lines =>
      refine ⟨s, .rest nofun, ?_⟩
      split
      · exact .refl s
      · exact quietTo_modPort s p (endedEarly_inbox _ lines)
    case tick =>
      by_cases hp : s.phase = .running
      · exact ⟨_, .tick hp, .refl _⟩
      · rw [ticked_of_not_running hp]
        exact ⟨s, .rest fun _ => hp, .refl s⟩
    case expiry i =>
      obtain ⟨hsame, -⟩ | ⟨-, hended⟩ := expireIfDue_cases s i
      · rw [hsame]
        exact ⟨s, .rest nofun, .refl s⟩
      · rw [hended]
        exact ⟨_, .ended i (.lapsed .expired) nofun nofun, .refl _⟩
    case scrubCompletion readBack => exact ⟨s, .rest nofun, quietTo_scrubCompleted s readBack⟩
    case drainCompletion p => exact ⟨s, .rest nofun, quietTo_drainCompleted s p⟩
    case teardown p =>
      split
      · exact ⟨s, .rest nofun, quietTo_modPort s p rfl⟩
      · exact ⟨_, .teardown p, quietTo_modPort _ p rfl⟩
    case stationResetReleased p =>
      exact ⟨s, .rest nofun, (quietTo_modPort s p rfl).trans (quietTo_leaveReset _ p)⟩
    case masterReset => exact ⟨_, .masterReset, .refl _⟩
    case masterResetEnds straps => exact ⟨s, .rest nofun, quietTo_masterResetEnded s straps⟩
    case endOfInitialisationPass => exact ⟨s, .rest nofun, quietTo_passEnded s⟩
    case badParity b w v => exact ⟨s, .rest nofun, quietTo_setPool s _⟩

end Sys2Proof.Machine
end

section
/-! PROOFS. Every exchange brings one outcome and ends by its deadline (sections 1.4 and 6.4): what the effects on slots
and inboxes mean for one slot that is in use. -/

namespace Sys2Proof.Machine

/-! ## Outcome records (Table 1.4) -/

/-- The outcome record of an ending is of the exchange ended. -/
theorem outcomeRecord_outcomeOf {e : Ending} {sl : Slot} {x : XNum} {now : Tick} {r : Record}
    (h : e.outcomeRecord sl x now = some r) : r.outcomeOf = some x := by
  cases e <;> cases h <;> rfl

/-- A withdrawal leaves the outcome records. -/
theorem countP_outcomeOf_withoutRequest (x y : XNum) (l : List Record) :
    (withoutRequest x l).countP (fun r => decide (r.outcomeOf = some y))
      = l.countP fun r => decide (r.outcomeOf = some y) := by
  induction l with
  | nil => rfl
  | cons r l ih =>
    by_cases hr : r.requestOf = some x
    · have hout : r.outcomeOf ≠ some y := by
        unfold Record.requestOf at hr
        unfold Record.outcomeOf
        split at hr <;> simp_all
      rw [withoutRequest, List.eraseP_cons_of_pos (by simpa using hr), List.countP_cons_of_neg (by simpa using hout)]
    · rw [withoutRequest, List.eraseP_cons_of_neg (by simpa using hr), List.countP_cons, List.countP_cons]
      exact congrArg (· + _) ih

/-- An ending adds one outcome record of its exchange at the requester, unless it is silent, and no other. -/
theorem outcomesFor_endExchange {s : State} {i : SlotNo} (e : Ending) (hi : (s.slot i).state ≠ .free)
    (q : Station) (y : XNum) :
    outcomesFor ((s.endExchange i e).port q) y
      = outcomesFor (s.port q) y
        + if q = (s.slot i).requester ∧ y = s.xnum i ∧ e ≠ .silent then 1 else 0 := by
  have hkept : (if (s.slot i).state = .opened ∧ q = (s.slot i).dest then
      withoutRequest (s.xnum i) (s.port q).inbox else (s.port q).inbox).countP
        (fun r => decide (r.outcomeOf = some y)) = outcomesFor (s.port q) y := by
    split
    · exact countP_outcomeOf_withoutRequest _ _ _
    · rfl
  rw [outcomesFor, port_endExchange e hi, endedInbox, List.countP_append, hkept]
  congr 1
  by_cases hq : q = (s.slot i).requester
  · cases hrec : e.outcomeRecord (s.slot i) (s.xnum i) s.tickCount with
    | none =>
      have hsilent : e = .silent := by
        cases e with
        | silent => rfl
        | reply st ws len chain => cases hrec
        | lapsed kind => cases hrec
      simp [hsilent]
    | some r =>
      have hloud : e ≠ .silent := by rintro rfl; cases hrec
      simp [hq, hloud, outcomeRecord_outcomeOf hrec, List.countP_singleton, eq_comm]
  · simp [hq]

/-! ## One slot through endings -/

/-- Slot `i` of `s`, seen in `u` after endings: as it was, with no new outcome of its exchange; or FREE in its next
generation, with one more outcome at its requester unless it was ended `silently`. -/
def EndedOnce (s : State) (i : SlotNo) (silently : Prop) (u : State) : Prop :=
  (u.slot i = s.slot i ∧ ∀ q, outcomesFor (u.port q) (s.xnum i) = outcomesFor (s.port q) (s.xnum i))
  ∨ (u.slot i = Slot.freeIn ((s.slot i).gen + 1)
    ∧ (silently ∨ outcomesFor (u.port (s.slot i).requester) (s.xnum i)
        = outcomesFor (s.port (s.slot i).requester) (s.xnum i) + 1))

/-- Endings of other slots, and of a slot that is FREE by then, add no outcome of this exchange. -/
theorem EndedOnce.endExchange {s u : State} {i : SlotNo} {silently : Prop} (h : EndedOnce s i silently u)
    (hi : (s.slot i).state ≠ .free) (j : SlotNo) {e : Ending}
    (he : e = .silent → j = i → u.slot i = s.slot i → silently) : EndedOnce s i silently (u.endExchange j e) := by
  by_cases hj : (u.slot j).state = .free
  · rw [endExchange_of_free e hj]
    exact h
  · by_cases hji : j = i
    · subst hji
      obtain ⟨hsame, hout⟩ | ⟨hfree, -⟩ := h
      · right
        have hx : u.xnum j = s.xnum j := by rw [State.xnum, hsame]; rfl
        rw [slot_endExchange e hj, if_pos rfl, hsame]
        refine ⟨rfl, ?_⟩
        by_cases hsilent : e = .silent
        · exact .inl (he hsilent rfl hsame)
        · rw [outcomesFor_endExchange e hj, hout, if_pos ⟨by rw [hsame], hx.symm, hsilent⟩]
          exact .inr rfl
      · exact absurd (by rw [hfree]; rfl) hj
    · have hcount : ∀ q, outcomesFor ((u.endExchange j e).port q) (s.xnum i)
          = outcomesFor (u.port q) (s.xnum i) := fun q => by
        have hx : s.xnum i ≠ u.xnum j := fun h => hji (congrArg XNum.slot h).symm
        rw [outcomesFor_endExchange e hj, if_neg fun h => hx h.2.1, Nat.add_zero]
      simpa only [EndedOnce, hcount, slot_endExchange_ne e (Ne.symm hji)] using h

/-- After no ending. -/
theorem EndedOnce.refl {s : State} (i : SlotNo) (silently : Prop) : EndedOnce s i silently s :=
  .inl ⟨rfl, fun _ => rfl⟩

/-- A tick is the expiry of due slots. -/
theorem endedOnce_ticked {s : State} {i : SlotNo} (hi : (s.slot i).state ≠ .free) (hp : s.phase = .running) :
    EndedOnce s i False s.ticked :=
  ticked_keeps _ hp (.inl ⟨rfl, fun _ => rfl⟩) fun _ j hu _ => hu.endExchange hi j nofun

/-- The first step of a teardown ends a slot silently only where the station is its requester. -/
theorem endedOnce_tearSlots {s : State} {i : SlotNo} (hi : (s.slot i).state ≠ .free) (p : Station) :
    EndedOnce s i ((s.slot i).requester = p) (s.tearSlots p) :=
  tearSlots_keeps _ p (.refl i _)
    (fun u j hu _ hreq => hu.endExchange hi j fun _ hji hsame => by rw [← hreq, hji, hsame])
    fun u j hu _ _ _ => hu.endExchange hi j nofun

/-! ## Outcomes through one effect (section 1.4) -/

/-- What O59 says of slot `i` from `s` to `t` by command or event `c`. -/
def BringsOneOutcome (s : State) (c : Instr) (i : SlotNo) (t : State) : Prop :=
  ((t.slot i).state = .free →
    c = .masterReset
    ∨ t.slot i = Slot.freeIn ((s.slot i).gen + 1)
      ∧ (c = .teardown (s.slot i).requester
        ∨ outcomesFor (t.port (s.slot i).requester) (s.xnum i)
            = outcomesFor (s.port (s.slot i).requester) (s.xnum i) + 1))
  ∧ ((t.slot i).state ≠ .free →
    ∀ p, outcomesFor (t.port p) (s.xnum i) ≤ outcomesFor (s.port p) (s.xnum i))

/-- A quiet change brings and takes no outcome. -/
theorem BringsOneOutcome.quiet {s u t : State} {c : Instr} {i : SlotNo} (h : BringsOneOutcome s c i u)
    (hq : u.QuietTo t) : BringsOneOutcome s c i t := by
  have hout : ∀ p, outcomesFor (t.port p) (s.xnum i) = outcomesFor (u.port p) (s.xnum i) := fun p => by
    rw [outcomesFor, hq.inbox]
    rfl
  simpa only [BringsOneOutcome, hq.slot_eq, hout] using h

/-- Endings bring one outcome, a silent one only where that is a teardown of the requester. -/
theorem EndedOnce.bringsOneOutcome {s u : State} {c : Instr} {i : SlotNo} {silently : Prop}
    (h : EndedOnce s i silently u) (hi : (s.slot i).state ≠ .free)
    (hs : silently → c = .teardown (s.slot i).requester) : BringsOneOutcome s c i u := by
  obtain ⟨hsame, hout⟩ | ⟨hfree, hout⟩ := h
  · exact ⟨fun h => absurd (hsame ▸ h) hi, fun _ p => (hout p).le⟩
  · exact ⟨fun _ => .inr ⟨hfree, hout.imp_left hs⟩, fun h => absurd (by rw [hfree]; rfl) h⟩

/-- An effect that leaves the slot in use and adds no outcome record. -/
theorem bringsOneOutcome_of_used {s u : State} {c : Instr} {i : SlotNo} (hi : (u.slot i).state ≠ .free)
    (hout : ∀ p, outcomesFor (u.port p) (s.xnum i) ≤ outcomesFor (s.port p) (s.xnum i)) :
    BringsOneOutcome s c i u :=
  ⟨fun h => absurd h hi, fun _ => hout⟩

/-- A slot that is in use is not the one a POST allocates. -/
theorem slot_acceptPost_of_used {s : State} {p : Station} {plan : PostPlan} {i : SlotNo}
    (hok : s.postCheck p = .ok plan) (hi : (s.slot i).state ≠ .free) : (s.acceptPost p plan).slot i = s.slot i := by
  obtain ⟨-, -, -, -, -, -, -, -, -, hlowest, -⟩ := postCheck_ok hok
  rw [slot_acceptPost, if_neg]
  rintro rfl
  exact hi (lowestFree_free hlowest)

/-- A slot that is in use stays so through a TAKE, with its deadline. -/
theorem takenSlot_of_used {s : State} {p : Station} {r : Record} {i : SlotNo} (hi : (s.slot i).state ≠ .free) :
    (takenSlot s p r i).state ≠ .free ∧ (takenSlot s p r i).deadline = (s.slot i).deadline := by
  rw [takenSlot]
  split
  · exact ⟨hi, rfl⟩
  · split
    · exact ⟨nofun, rfl⟩
    · exact ⟨hi, rfl⟩

theorem SlotEffect.bringsOneOutcome {s u : State} {c : Instr} {i : SlotNo} (h : SlotEffect s c u)
    (hi : (s.slot i).state ≠ .free) : BringsOneOutcome s c i u := by
  cases h with
  | rest => exact bringsOneOutcome_of_used hi fun p => le_rfl
  | @post p plan hok =>
    refine bringsOneOutcome_of_used (by rwa [slot_acceptPost_of_used hok hi]) fun q => ?_
    rw [outcomesFor, port_acceptPost]
    show List.countP _ (if q = plan.dest then _ else _) ≤ _
    split
    · simp [outcomesFor, List.countP_append, State.postRecord, Record.outcomeOf]
    · exact le_rfl
  | @notify p r set hr =>
    have hslots : (s.placeNotices r (membersOf set)).slots = s.slots := (placeNotices_rest s r _).1
    refine bringsOneOutcome_of_used (by rw [State.slot, hslots]; exact hi) fun q => ?_
    rw [outcomesFor, port_placeNotices s r (membersOf_nodup set)]
    show List.countP _ (if q ∈ membersOf set then _ else _) ≤ _
    split
    · simp [outcomesFor, List.countP_append, hr]
    · exact le_rfl
  | @take p r rest hinbox =>
    refine bringsOneOutcome_of_used (by rw [slot_acceptTake]; exact (takenSlot_of_used hi).1) fun q => ?_
    by_cases hq : q = p
    · rw [hq, outcomesFor, outcomesFor, port_acceptTake_self, hinbox, List.countP_cons]
      exact Nat.le_add_right _ _
    · rw [port_acceptTake_ne s r rest hq]
  | ended j e he =>
    have hended : EndedOnce s i False (s.endExchange j e) := (EndedOnce.refl i _).endExchange hi j fun h => absurd h he
    exact hended.bringsOneOutcome hi nofun
  | @leave p xs =>
    have hstart : EndedOnce s i False (s.changePortState p .draining) :=
      .inl ⟨rfl, fun q => by rw [outcomesFor, inbox_changePortState]; rfl⟩
    have hended := answerUntaken_keeps (EndedOnce s i False) xs hstart fun u j hu => hu.endExchange hi j nofun
    exact hended.bringsOneOutcome hi nofun
  | tick hrun => exact (endedOnce_ticked hi hrun).bringsOneOutcome hi nofun
  | teardown p =>
    obtain ⟨hsame, hout⟩ | ⟨hfree, hout⟩ := endedOnce_tearSlots hi p
    · refine bringsOneOutcome_of_used (by rwa [tornDown_slot, hsame]) fun q => ?_
      rw [outcomesFor, inbox_tornDown, ← hout q]
      split
      · exact Nat.zero_le _
      · exact le_rfl
    · refine ⟨fun _ => .inr ⟨by rw [tornDown_slot, hfree], ?_⟩, fun h => absurd (by rw [tornDown_slot, hfree]; rfl) h⟩
      by_cases hp : (s.slot i).requester = p
      · exact .inl (by rw [hp])
      · right
        rw [outcomesFor, inbox_tornDown, if_neg hp]
        exact hout.resolve_left hp
  | masterReset => exact ⟨fun _ => .inl rfl, fun h => absurd (by rw [slot_masterCleared]; rfl) h⟩

/-- Settles O59: an ending frees the slot and tells the requester once, after which the slot is FREE and further
endings leave it; only the teardown of the requester ends it silently. -/
theorem everyExchangeBringsOneOutcome : Obligations.EveryExchangeBringsOneOutcome := by
  intro s t c i hexec hi
  obtain ⟨u, heffect, hquiet⟩ := exec_slotEffect hexec
  exact (heffect.bringsOneOutcome hi).quiet hquiet

/-! ## Deadlines along a run (section 6.4) -/

/-- Slot `i` of a running part, seen in `t` after `c`: FREE, or in use as before, with a tick counted where `c` is one,
which then has not reached the deadline. -/
def FreeOrWaiting (s : State) (c : Instr) (i : SlotNo) (t : State) : Prop :=
  (t.slot i).state = .free
  ∨ t.phase = .running ∧ (t.slot i).state ≠ .free ∧ (t.slot i).deadline = (s.slot i).deadline
    ∧ (c ≠ .tick → t.tickCount = s.tickCount)
    ∧ (c = .tick → t.tickCount = s.tickCount + 1 ∧ (s.slot i).deadline ≠ s.tickCount + 1)

/-- Effects other than a tick leave the count. -/
theorem freeOrWaiting_of_used {s t : State} {c : Instr} {i : SlotNo} (hc : c ≠ .tick) (hp : t.phase = .running)
    (hi : (t.slot i).state ≠ .free) (hd : (t.slot i).deadline = (s.slot i).deadline)
    (hn : t.tickCount = s.tickCount) : FreeOrWaiting s c i t :=
  .inr ⟨hp, hi, hd, fun _ => hn, fun h => absurd h hc⟩

theorem FreeOrWaiting.quiet {s u t : State} {c : Instr} {i : SlotNo} (h : FreeOrWaiting s c i u)
    (hq : u.QuietTo t) : FreeOrWaiting s c i t := by
  rw [FreeOrWaiting, hq.slot_eq, hq.count]
  obtain hfree | ⟨hp, hrest⟩ := h
  · exact .inl hfree
  · exact .inr ⟨hq.running hp, hrest⟩

/-- Endings free the slot or leave it, and leave phase and count. -/
theorem freeOrWaiting_endExchange {s u : State} {c : Instr} {i : SlotNo} (h : FreeOrWaiting s c i u)
    (j : SlotNo) (e : Ending) : FreeOrWaiting s c i (u.endExchange j e) := by
  by_cases hj : i = j
  · exact .inl (hj ▸ free_endExchange u j e)
  · rw [FreeOrWaiting, slot_endExchange_ne e hj, endExchange_phase, endExchange_tickCount]
    exact h

theorem FreeOrWaiting.refl {s : State} {c : Instr} {i : SlotNo} (hc : c ≠ .tick) (hp : s.phase = .running)
    (hi : (s.slot i).state ≠ .free) : FreeOrWaiting s c i s :=
  freeOrWaiting_of_used hc hp hi rfl rfl

theorem SlotEffect.freeOrWaiting {s u : State} {c : Instr} {i : SlotNo} (h : SlotEffect s c u)
    (hp : s.phase = .running) (hi : (s.slot i).state ≠ .free) : FreeOrWaiting s c i u := by
  cases h with
  | rest hc => exact .refl (fun h => hc h hp) hp hi
  | post hok =>
    have hslot := slot_acceptPost_of_used hok hi
    exact freeOrWaiting_of_used nofun hp (by rwa [hslot]) (by rw [hslot]) rfl
  | notify r set =>
    obtain ⟨hslots, -, hcount, hphase⟩ := placeNotices_rest s r (membersOf set)
    have hslot : (s.placeNotices r (membersOf set)).slot i = s.slot i := by rw [State.slot, hslots]; rfl
    exact freeOrWaiting_of_used nofun (hphase.trans hp) (by rwa [hslot]) (by rw [hslot]) hcount
  | @take p r rest =>
    obtain ⟨hused, hd⟩ := takenSlot_of_used (p := p) (r := r) hi
    refine freeOrWaiting_of_used nofun ((acceptTake_phase s p r rest).trans hp) ?_ ?_ (acceptTake_tickCount s p r rest)
    · rwa [slot_acceptTake]
    · rwa [slot_acceptTake]
  | ended j e _ hc => exact freeOrWaiting_endExchange (.refl hc hp hi) j e
  | @leave p xs =>
    refine answerUntaken_keeps (FreeOrWaiting s (.leave p) i) xs ?_ fun u j hu => freeOrWaiting_endExchange hu j _
    exact freeOrWaiting_of_used nofun hp hi rfl rfl
  | tick =>
    rw [FreeOrWaiting, ticked_slot hp, ticked_tickCount hp]
    split
    · exact .inl rfl
    case isFalse hnot =>
      refine .inr ⟨?_, hi, rfl, fun h => absurd rfl h, fun _ => ⟨rfl, fun h => hnot ⟨hi, h⟩⟩⟩
      exact ticked_keeps (fun u => u.phase = .running) hp hp fun _ _ hu _ => by rw [endExchange_phase, hu]
  | teardown p =>
    have hslots : FreeOrWaiting s (.teardown p) i (s.tearSlots p) :=
      tearSlots_keeps _ p (.refl nofun hp hi) (fun u j hu _ _ => freeOrWaiting_endExchange hu j _)
        fun u j hu _ _ _ => freeOrWaiting_endExchange hu j _
    rw [FreeOrWaiting, tornDown_slot]
    obtain hfree | ⟨-, hused, hd, -⟩ := hslots
    · exact .inl hfree
    · exact .inr ⟨(tornDown_phase s p).trans hp, hused, hd, fun _ => tornDown_tickCount s p, nofun⟩
  | masterReset => exact .inl (by rw [slot_masterCleared]; rfl)

/-- A slot in use is FREE after the next command or event, or waits on with one tick fewer to go where that is a
tick. -/
theorem freeOrWaiting_exec {s t : State} {c : Instr} {i : SlotNo} (h : exec c s = .next t) (hp : s.phase = .running)
    (hi : (s.slot i).state ≠ .free) : FreeOrWaiting s c i t := by
  obtain ⟨u, heffect, hquiet⟩ := exec_slotEffect h
  exact (heffect.freeOrWaiting hp hi).quiet hquiet

/-- A tick that does not reach a deadline ahead brings the count one closer to it. -/
theorem one_tick_closer {deadline count : Tick} {k : Nat} (hahead : 1 ≤ (deadline - count).toNat)
    (hk : (deadline - count).toNat ≤ k + 1) (hnot : deadline ≠ count + 1) :
    1 ≤ (deadline - (count + 1)).toNat ∧ (deadline - (count + 1)).toNat ≤ k := by
  bv_omega

/-- Settles O60, by induction on the commands and events: the first either frees the slot, or leaves a slot whose
deadline is as many ticks ahead as the rest of them still brings. -/
theorem exchangeEndsByItsDeadline : Obligations.ExchangeEndsByItsDeadline := by
  intro s t cs i hp hi hahead hticks hruns
  induction cs generalizing s with
  | nil => exact absurd (hahead.trans hticks) (by simp [ticksIn])
  | cons c cs ih =>
    obtain ⟨u, hexec, hruns⟩ := hruns
    obtain hfree | ⟨hup, hused, hd, hother, htick⟩ := freeOrWaiting_exec hexec hp hi
    · exact ⟨[c], cs, u, rfl, ⟨u, hexec, rfl⟩, hfree⟩
    · have hnext : 1 ≤ ((u.slot i).deadline - u.tickCount).toNat
          ∧ ((u.slot i).deadline - u.tickCount).toNat ≤ ticksIn cs := by
        by_cases hc : c = .tick
        · obtain ⟨hcount, hnot⟩ := htick hc
          have hless : ticksIn (c :: cs) = ticksIn cs + 1 := List.countP_cons_of_pos (by simpa using hc)
          rw [hd, hcount]
          exact one_tick_closer hahead (hless ▸ hticks) hnot
        · have hsame : ticksIn (c :: cs) = ticksIn cs := List.countP_cons_of_neg (by simpa using hc)
          rw [hd, hother hc, ← hsame]
          exact ⟨hahead, hticks⟩
      obtain ⟨ahead, behind, v, rfl, hv, hfree⟩ := ih u hup hused hnext.1 hnext.2 hruns
      exact ⟨c :: ahead, behind, v, rfl, ⟨u, hexec, hv⟩, hfree⟩

end Sys2Proof.Machine
end

section
/-! PROOFS. REQUEST records and OPEN slots through every effect (sections 3.2 and 3.4): which effects place or remove a
REQUEST record, and that each moves its slot with it. -/

namespace Sys2Proof.Machine

/-- The records that `requestsFor` counts. -/
def Record.asksFor (i : SlotNo) (r : Record) : Bool := decide (r.requestOf.map XNum.slot = some i)

theorem asksFor_eq_true {i : SlotNo} {r : Record} :
    r.asksFor i = true ↔ ∃ x, r.requestOf = some x ∧ x.slot = i := by
  simp [Record.asksFor, Option.map_eq_some_iff]

theorem asksFor_of_none {r : Record} (h : r.requestOf = none) (i : SlotNo) : r.asksFor i = false := by
  simp [Record.asksFor, h]

theorem requestsFor_eq (q : Port) (i : SlotNo) : requestsFor q i = q.inbox.countP (Record.asksFor i) := rfl

theorem requestsFor_pos {q : Port} {r : Record} {x : XNum} (hr : r ∈ q.inbox) (hx : r.requestOf = some x) :
    0 < requestsFor q x.slot :=
  List.countP_pos_iff.mpr ⟨r, hr, asksFor_eq_true.mpr ⟨x, hx, rfl⟩⟩

theorem requestsFor_of_nil {q : Port} (h : q.inbox = []) (i : SlotNo) : requestsFor q i = 0 := by
  rw [requestsFor_eq, h]
  rfl

/-- The slot of a REQUEST record is OPEN, and the record stands with its destination. -/
theorem RequestsMatchOpen.opened_of_mem {s : State} (h : RequestsMatchOpen s) {p : Station} {r : Record} {x : XNum}
    (hr : r ∈ (s.port p).inbox) (hx : r.requestOf = some x) :
    (s.slot x.slot).state = .opened ∧ (s.slot x.slot).dest = p := by
  obtain ⟨hcount, -⟩ := h
  have hpos := requestsFor_pos hr hx
  rw [hcount] at hpos
  by_contra hnot
  rw [if_neg hnot] at hpos
  exact absurd hpos (Nat.lt_irrefl 0)

theorem RequestsMatchOpen.of_same {s t : State} (h : RequestsMatchOpen s) (hslots : ∀ i, t.slot i = s.slot i)
    (hinbox : ∀ p, (t.port p).inbox = (s.port p).inbox) : RequestsMatchOpen t := by
  obtain ⟨hcount, hgen⟩ := h
  refine ⟨fun i p => ?_, fun p r x hr hx => ?_⟩
  · rw [requestsFor_eq, hinbox, hslots]
    exact hcount i p
  · rw [hslots]
    exact hgen p r x (hinbox p ▸ hr) hx

/-! ## Endings -/

/-- Of the slot that is ended no REQUEST record is left, and every other stands. -/
theorem requestsFor_endExchange {s : State} {i : SlotNo} (h : RequestsMatchOpen s) (e : Ending)
    (hi : (s.slot i).state ≠ .free) (q : Station) (j : SlotNo) :
    requestsFor ((s.endExchange i e).port q) j = if j = i then 0 else requestsFor (s.port q) j := by
  have htold : (if q = (s.slot i).requester then
      (e.outcomeRecord (s.slot i) (s.xnum i) s.tickCount).toList else []).countP (Record.asksFor j) = 0 := by
    refine List.countP_eq_zero.mpr fun r hr => ?_
    split at hr
    · simp [asksFor_of_none (outcomeRecord_requestOf (Option.mem_toList.mp hr))]
    · cases hr
  rw [requestsFor_eq, port_endExchange e hi, endedInbox, List.countP_append, htold, Nat.add_zero]
  obtain ⟨hcount, hgen⟩ := h
  by_cases hopen : (s.slot i).state = .opened ∧ q = (s.slot i).dest
  · rw [if_pos hopen]
    obtain ⟨hstate, rfl⟩ := hopen
    have hone : requestsFor (s.port (s.slot i).dest) i = 1 := by rw [hcount, if_pos ⟨hstate, rfl⟩]
    obtain ⟨r, hr, hasks⟩ := List.countP_pos_iff.mp (hone.symm ▸ Nat.one_pos)
    obtain ⟨x, hx, rfl⟩ := asksFor_eq_true.mp hasks
    have hxnum : s.xnum x.slot = x := by rw [State.xnum, ← hgen _ r x hr hx]
    have hcut := countP_withoutRequest hr hx j
    rw [hxnum]
    change List.countP (Record.asksFor j) _ + _ = requestsFor _ j at hcut
    split
    case isTrue hj => subst hj; rw [hone, if_pos rfl] at hcut; omega
    case isFalse hj => rwa [if_neg (Ne.symm hj), Nat.add_zero] at hcut
  · rw [if_neg hopen]
    split
    case isTrue hj =>
      subst hj
      exact (hcount j q).trans (if_neg fun ⟨hstate, hdest⟩ => hopen ⟨hstate, hdest.symm⟩)
    case isFalse => rfl

/-- An ending places no REQUEST record. -/
theorem mem_inbox_of_endExchange {s : State} {i : SlotNo} {e : Ending} {q : Station} {r : Record} {x : XNum}
    (hi : (s.slot i).state ≠ .free) (hr : r ∈ ((s.endExchange i e).port q).inbox) (hx : r.requestOf = some x) :
    r ∈ (s.port q).inbox := by
  rw [port_endExchange e hi] at hr
  obtain hkept | htold := List.mem_append.mp hr
  · split at hkept
    · exact mem_withoutRequest hkept
    · exact hkept
  · split at htold
    · rw [outcomeRecord_requestOf (Option.mem_toList.mp htold)] at hx
      cases hx
    · cases htold

theorem requestsMatchOpen_endExchange {s : State} (h : RequestsMatchOpen s) (i : SlotNo) (e : Ending) :
    RequestsMatchOpen (s.endExchange i e) := by
  by_cases hi : (s.slot i).state = .free
  · rw [endExchange_of_free e hi]
    exact h
  · refine ⟨fun j p => ?_, fun p r x hr hx => ?_⟩
    · rw [requestsFor_endExchange h e hi, slot_endExchange e hi]
      split
      · rw [if_neg]
        exact fun hopen => nomatch hopen.1
      · exact h.1 j p
    · have hne : x.slot ≠ i := by
        intro hxi
        have hpos := requestsFor_pos hr hx
        rw [requestsFor_endExchange h e hi, if_pos hxi] at hpos
        exact absurd hpos (Nat.lt_irrefl 0)
      rw [slot_endExchange_ne e hne]
      exact h.2 p r x (mem_inbox_of_endExchange hi hr hx) hx

/-! ## POST, NOTIFY and TAKE -/

/-- A POST opens its slot and places the one REQUEST record of it at the destination. -/
theorem requestsMatchOpen_acceptPost {s : State} (h : RequestsMatchOpen s) {p : Station} {plan : PostPlan}
    (hok : s.postCheck p = .ok plan) : RequestsMatchOpen (s.acceptPost p plan) := by
  obtain ⟨-, -, -, -, -, -, -, -, -, hlowest, -⟩ := postCheck_ok hok
  have hfree := lowestFree_free hlowest
  obtain ⟨hcount, hgen⟩ := h
  have hinbox : ∀ q, ((s.acceptPost p plan).port q).inbox
      = if q = plan.dest then (s.port q).inbox ++ [s.postRecord p plan] else (s.port q).inbox :=
    fun q => by rw [port_acceptPost]
  have hnone : ∀ q, requestsFor (s.port q) plan.slot = 0 := fun q => by
    rw [hcount, if_neg]
    rintro ⟨hopen, -⟩
    rw [hfree] at hopen
    cases hopen
  refine ⟨fun j q => ?_, fun q r x hr hx => ?_⟩
  · have hnew : (s.postRecord p plan).asksFor j = decide (plan.slot = j) := by
      simp [Record.asksFor, State.postRecord, Record.requestOf, State.xnum]
    rw [requestsFor_eq, hinbox, slot_acceptPost]
    by_cases hj : j = plan.slot
    · subst hj
      by_cases hq : q = plan.dest
      · rw [if_pos hq, List.countP_append, List.countP_singleton, hnew, ← requestsFor_eq, hnone]
        simp [State.postSlot, hq]
      · rw [if_neg hq, ← requestsFor_eq, hnone]
        simp [State.postSlot, Ne.symm hq]
    · rw [if_neg hj, ← hcount j q, requestsFor_eq]
      split
      · rw [List.countP_append, List.countP_singleton, hnew]
        simp [Ne.symm hj]
      · rfl
  · have hsame : ((s.acceptPost p plan).slot x.slot).gen = (s.slot x.slot).gen := by
      rw [slot_acceptPost]
      split
      case isTrue hxs => rw [hxs]; rfl
      case isFalse => rfl
    rw [hsame]
    rw [hinbox] at hr
    split at hr
    · obtain hold | hnew := List.mem_append.mp hr
      · exact hgen q r x hold hx
      · rw [List.mem_singleton.mp hnew] at hx
        cases hx
        rfl
    · exact hgen q r x hr hx

/-- A NOTICE is no REQUEST. -/
theorem requestsMatchOpen_placeNotices {s : State} (h : RequestsMatchOpen s) {n : Record} (hn : n.requestOf = none)
    (set : StationSet) : RequestsMatchOpen (s.placeNotices n (membersOf set)) := by
  have hslots : (s.placeNotices n (membersOf set)).slots = s.slots := (placeNotices_rest s n _).1
  have hslot : ∀ i, (s.placeNotices n (membersOf set)).slot i = s.slot i := fun i => by
    rw [State.slot, hslots]
    rfl
  have hinbox : ∀ q, ((s.placeNotices n (membersOf set)).port q).inbox
      = if q ∈ membersOf set then (s.port q).inbox ++ [n] else (s.port q).inbox :=
    fun q => by rw [port_placeNotices s n (membersOf_nodup set)]
  obtain ⟨hcount, hgen⟩ := h
  refine ⟨fun j q => ?_, fun q r x hr hx => ?_⟩
  · rw [hslot, ← hcount j q, requestsFor_eq, hinbox]
    split
    · rw [List.countP_append, List.countP_singleton, asksFor_of_none hn]
      rfl
    · rfl
  · rw [hslot]
    rw [hinbox] at hr
    split at hr
    · obtain hold | hnew := List.mem_append.mp hr
      · exact hgen q r x hold hx
      · rw [List.mem_singleton.mp hnew, hn] at hx
        cases hx
    · exact hgen q r x hr hx

/-- The slot of a taken REQUEST is TAKEN as its record leaves; any other record leaves every slot. -/
theorem takenSlot_eq {s : State} (h : RequestsMatchOpen s) {p : Station} {r : Record}
    (hr : r ∈ (s.port p).inbox) (j : SlotNo) :
    takenSlot s p r j = if r.asksFor j = true then (s.slot j).takenNaming (s.port p).journal.nextRef
      else s.slot j := by
  rw [takenSlot]
  cases hx : r.requestOf with
  | none => simp [asksFor_of_none hx]
  | some x =>
    have hopen := (h.opened_of_mem hr hx).1
    by_cases hj : j = x.slot
    · subst hj
      simp [hopen, Record.asksFor, hx, Slot.takenNaming]
    · simp [hj, Record.asksFor, hx, Ne.symm hj]

theorem requestsMatchOpen_acceptTake {s : State} (h : RequestsMatchOpen s) {p : Station} {r : Record}
    {rest : List Record} (hinbox : (s.port p).inbox = r :: rest) : RequestsMatchOpen (s.acceptTake p r rest) := by
  have hr : r ∈ (s.port p).inbox := hinbox ▸ List.mem_cons_self
  have hslot : ∀ j, (s.acceptTake p r rest).slot j = if r.asksFor j = true then
      (s.slot j).takenNaming (s.port p).journal.nextRef else s.slot j :=
    fun j => (slot_acceptTake s p r rest j).trans (takenSlot_eq h hr j)
  have hasked : ∀ j, r.asksFor j = true → (s.slot j).state = .opened ∧ (s.slot j).dest = p := by
    intro j hj
    obtain ⟨x, hx, rfl⟩ := asksFor_eq_true.mp hj
    exact h.opened_of_mem hr hx
  have hhead : ∀ j, rest.countP (Record.asksFor j) + (if r.asksFor j = true then 1 else 0)
      = requestsFor (s.port p) j := fun j => by rw [requestsFor_eq, hinbox, List.countP_cons]
  obtain ⟨hcount, hgen⟩ := h
  refine ⟨fun j q => ?_, fun q m x hm hx => ?_⟩
  · rw [hslot]
    by_cases hq : q = p
    · subst hq
      have hj := hhead j
      rw [hcount] at hj
      rw [requestsFor_eq, port_acceptTake_self]
      change List.countP (Record.asksFor j) rest = _
      split
      case isTrue hask =>
        rw [if_pos hask, if_pos (hasked j hask)] at hj
        rw [if_neg (by simp [Slot.takenNaming])]
        omega
      case isFalse hask => rwa [if_neg hask, Nat.add_zero] at hj
    · rw [port_acceptTake_ne s r rest hq, hcount]
      by_cases hask : r.asksFor j = true
      · rw [if_pos hask, if_neg, if_neg (by simp [Slot.takenNaming])]
        rintro ⟨-, hd⟩
        exact hq (hd.symm.trans (hasked j hask).2)
      · rw [if_neg hask]
  · have hsame : ((s.acceptTake p r rest).slot x.slot).gen = (s.slot x.slot).gen := by
      rw [hslot]
      split <;> rfl
    rw [hsame]
    by_cases hq : q = p
    · subst hq
      rw [port_acceptTake_self] at hm
      exact hgen q m x (hinbox ▸ List.mem_cons_of_mem _ hm) hx
    · rw [port_acceptTake_ne s r rest hq] at hm
      exact hgen q m x hm hx

/-! ## Teardown and master reset -/

/-- After step 1 of a teardown no REQUEST record stands in the station's inbox, so that emptying it removes none. -/
theorem requestsMatchOpen_tornDown {s : State} (h : RequestsMatchOpen s) (p : Station) :
    RequestsMatchOpen (s.tornDown p) := by
  obtain ⟨hcount, hgen⟩ : RequestsMatchOpen (s.tearSlots p) :=
    tearSlots_keeps RequestsMatchOpen p h (fun _ i hu _ _ => requestsMatchOpen_endExchange hu i _)
      fun _ i hu _ _ _ => requestsMatchOpen_endExchange hu i _
  refine ⟨fun j q => ?_, fun q r x hr hx => ?_⟩
  · rw [requestsFor_eq, inbox_tornDown, tornDown_slot, ← hcount j q]
    split
    case isTrue hq =>
      rw [hcount, hq]
      refine (if_neg ?_).symm
      rintro ⟨hopen, hdest⟩
      obtain hfree | ⟨-, hne⟩ := tearSlots_unnamed s p j
      · rw [hfree] at hopen
        cases hopen
      · exact hne hdest
    case isFalse => rfl
  · rw [tornDown_slot]
    rw [inbox_tornDown] at hr
    split at hr
    · cases hr
    · exact hgen q r x hr hx

/-- With every slot FREE and every inbox empty there is nothing to match. -/
theorem requestsMatchOpen_of_clear {s : State} (hfree : ∀ i, (s.slot i).state = .free)
    (hinbox : ∀ p, (s.port p).inbox = []) : RequestsMatchOpen s := by
  refine ⟨fun i p => ?_, fun p r x hr => ?_⟩
  · rw [requestsFor_of_nil (hinbox p), if_neg]
    rintro ⟨hopen, -⟩
    rw [hfree] at hopen
    cases hopen
  · rw [hinbox] at hr
    cases hr

end Sys2Proof.Machine
end

section
/-! PROOFS. Ports in RESET and ports that are not connected through every effect (sections 8.1, 8.3, 9.1), and with the
link of REQUEST records and OPEN slots what every step keeps of them. -/

namespace Sys2Proof.Machine

/-! ## HELD buffers through the pool's operations -/

/-- No buffer becomes HELD by station `q`. -/
def Pool.HeldWithin (before after : Pool) (q : Station) : Prop :=
  ∀ b, (after.desc b).place = .held q → (before.desc b).place = .held q

theorem Pool.HeldWithin.refl (pool : Pool) (q : Station) : pool.HeldWithin pool q := fun _ h => h

theorem heldCount_eq_zero {pool : Pool} {q : Station} :
    pool.heldCount q = 0 ↔ ∀ b, (pool.desc b).place ≠ .held q := by
  simp [Pool.heldCount, List.countP_eq_zero, Pool.holds]

theorem Pool.HeldWithin.heldCount_zero {before after : Pool} {q : Station} (h : before.HeldWithin after q)
    (hz : before.heldCount q = 0) : after.heldCount q = 0 :=
  heldCount_eq_zero.mpr fun b hb => heldCount_eq_zero.mp hz b (h b hb)

theorem heldWithin_attachChain (pool : Pool) (c : Option BufferNo) (q : Station) :
    pool.HeldWithin (pool.attachChain c) q := by
  intro b hb
  rw [attachChain_eq, place_foldl_attach] at hb
  split at hb
  · split at hb
    · cases hb
    · exact hb
  · exact hb

theorem heldWithin_discard_attach (pool : Pool) (c d : Option BufferNo) (q : Station) :
    pool.HeldWithin ((pool.discard c).attachChain d) q :=
  fun b hb => discard_held (heldWithin_attachChain _ d q b hb)

/-- A TAKE makes buffers HELD by the taker alone. -/
theorem heldWithin_takeUpChain (pool : Pool) (c : Option BufferNo) {p q : Station} (hq : q ≠ p) :
    pool.HeldWithin (pool.takeUpChain p c) q := by
  intro b hb
  rw [takeUpChain_eq, place_foldl_takeUp] at hb
  split at hb
  · cases hb
    exact absurd rfl hq
  · exact hb

/-- So does an ACQUIRE. -/
theorem heldWithin_acquire (pool : Pool) (n : Nat) {p q : Station} (hq : q ≠ p) :
    pool.HeldWithin (pool.acquire p n) q := by
  intro b hb
  rw [Pool.acquire] at hb
  by_cases hmem : b ∈ pool.free.take n
  · rw [(linkChain_mem p true _ _ hmem).1] at hb
    cases hb
    exact absurd rfl hq
  · rwa [linkChain_other p true _ _ hmem] at hb

theorem heldWithin_join (pool : Pool) (a b : BufferNo) (q : Station) : pool.HeldWithin (pool.join a b) q :=
  fun c hc => (join_places pool a b c).1 ▸ hc

theorem heldWithin_startScrub (pool : Pool) (p : Station) (b : BufferNo) (rest : List BufferNo) (q : Station) :
    pool.HeldWithin (pool.startScrub p b rest) q := by
  intro c hc
  change ((pool.setDesc b _).desc c).place = _ at hc
  rw [desc_setDesc] at hc
  split at hc
  · cases hc
  · exact hc

theorem heldWithin_markDamaged (pool : Pool) (b : BufferNo) (q : Station) :
    pool.HeldWithin (pool.setDesc b { pool.desc b with damaged := true }) q := by
  intro c hc
  rw [desc_setDesc] at hc
  split at hc
  case isTrue hcb => exact hcb ▸ hc
  case isFalse => exact hc

/-! ## Ports in RESET (R142, R161) -/

/-- Port state and access state are the same, and in RESET the enables too. -/
def Port.SameQuiet (q q' : Port) : Prop :=
  q'.state = q.state ∧ q'.access = q.access ∧ q'.enables = q.enables

/-- Where every port is as quiet as before, or cut off in RESET, and the phase is the same. -/
theorem ResetPortsQuiet.of_ports {s t : State} (h : ResetPortsQuiet s) (hphase : t.phase = s.phase)
    (hports : ∀ p, (s.port p).SameQuiet (t.port p) ∨ ∃ q : Port, t.port p = q.toReset) : ResetPortsQuiet t := by
  obtain ⟨hquiet, hphases⟩ := h
  refine ⟨fun p hp => ?_, fun hrun p => ?_⟩
  · obtain ⟨hstate, haccess, henables⟩ | ⟨q, hq⟩ := hports p
    · rw [haccess, henables]
      exact hquiet p (hstate ▸ hp)
    · rw [hq, toReset_access, toReset_enables]
      exact ⟨abandonAccess_cases q, rfl⟩
  · obtain ⟨hstate, -⟩ | ⟨q, hq⟩ := hports p
    · rw [hstate]
      exact hphases (hphase ▸ hrun) p
    · rw [hq, toReset_state]

/-- A running part may take any port out of RESET. -/
theorem ResetPortsQuiet.of_running {s t : State} (h : ResetPortsQuiet s) (hphase : t.phase = .running)
    (hports : ∀ p, (t.port p).state = .reset → (s.port p).SameQuiet (t.port p)) : ResetPortsQuiet t := by
  refine ⟨fun p hp => ?_, fun hrun => absurd hphase hrun⟩
  obtain ⟨hstate, haccess, henables⟩ := hports p hp
  rw [haccess, henables]
  exact h.1 p (hstate ▸ hp)

/-- A port outside RESET shows that the part runs (R136, R137). -/
theorem ResetPortsQuiet.running {s : State} (h : ResetPortsQuiet s) {p : Station} (hp : (s.port p).state ≠ .reset) :
    s.phase = .running := by
  by_contra hrun
  exact hp (h.2 hrun p)

theorem sameQuiet_endExchange (s : State) (i : SlotNo) (e : Ending) (q : Station) :
    (s.port q).SameQuiet ((s.endExchange i e).port q) := by
  rw [port_endExchange_same]
  exact ⟨rfl, rfl, rfl⟩

theorem resetPortsQuiet_endExchange {s : State} (h : ResetPortsQuiet s) (i : SlotNo) (e : Ending) :
    ResetPortsQuiet (s.endExchange i e) :=
  h.of_ports (endExchange_phase s i e) fun q => .inl (sameQuiet_endExchange s i e q)

/-- A change of port state takes no port into RESET, and only a running part takes one out. -/
theorem resetPortsQuiet_changePortState {s : State} (h : ResetPortsQuiet s) (hp : s.phase = .running) (p : Station)
    {st : PortState} (hst : st ≠ .reset) : ResetPortsQuiet (s.changePortState p st) := by
  refine h.of_running hp fun q hq => ?_
  rw [port_changePortState] at hq ⊢
  by_cases hqp : q = p
  · rw [if_pos hqp] at hq
    exact absurd hq hst
  · rw [if_neg hqp]
    split <;> exact ⟨rfl, rfl, rfl⟩

theorem resetPortsQuiet_drainCompleted {s : State} (h : ResetPortsQuiet s) {p : Station} (hd : s.drained p = true) :
    ResetPortsQuiet (s.drainCompleted p) := by
  obtain ⟨hdraining, -⟩ := drained_iff.mp hd
  have hrun := h.running (p := p) (by rw [hdraining]; nofun)
  refine h.of_running ((drainCompleted_phase s p).trans hrun) fun q hq => ?_
  rw [port_drainCompleted hd] at hq ⊢
  by_cases hqp : q = p
  · rw [if_pos hqp] at hq
    cases hq
  · rw [if_neg hqp]
    split <;> exact ⟨rfl, rfl, rfl⟩

theorem resetPortsQuiet_tornDown {s : State} (h : ResetPortsQuiet s) (p : Station) :
    ResetPortsQuiet (s.tornDown p) := by
  have htorn : ResetPortsQuiet (s.tearSlots p) ∧ (s.tearSlots p).phase = s.phase :=
    tearSlots_keeps (fun u => ResetPortsQuiet u ∧ u.phase = s.phase) p ⟨h, rfl⟩
      (fun u i hu _ _ => ⟨resetPortsQuiet_endExchange hu.1 i _, (endExchange_phase u i _).trans hu.2⟩)
      fun u i hu _ _ _ => ⟨resetPortsQuiet_endExchange hu.1 i _, (endExchange_phase u i _).trans hu.2⟩
  obtain ⟨hquiet, hphase⟩ := htorn
  refine hquiet.of_ports ((tornDown_phase s p).trans hphase.symm) fun q => ?_
  have hport := port_tornDown s p q
  by_cases hq : q = p
  · exact .inr ⟨_, hport.trans (if_pos hq)⟩
  · left
    rw [if_neg hq] at hport
    generalize s.tearSlots p = u at hport ⊢
    split at hport <;> exact ⟨by rw [hport], by rw [hport], by rw [hport]⟩

/-! ## Ports that are not connected (R125) -/

/-- The condition of a station whose port is in RESET or OFFLINE. -/
def State.StationEmpty (s : State) (p : Station) : Prop :=
  (s.port p).inbox = [] ∧ (s.port p).view = none ∧ s.pool.heldCount p = 0
  ∧ ∀ i : SlotNo, (s.slot i).state ≠ .free → (s.slot i).requester ≠ p ∧ (s.slot i).dest ≠ p

/-- The first half of `DisconnectedEmpty`. -/
def DisconnectedClear (s : State) : Prop :=
  ∀ p, (s.port p).state = .reset ∨ (s.port p).state = .offline → s.StationEmpty p

/-- The second half: the destination of an OPEN slot is ONLINE (R46, R127). -/
def OpenToOnline (s : State) : Prop :=
  ∀ i : SlotNo, (s.slot i).state = .opened → (s.port (s.slot i).dest).state = .online

theorem disconnectedEmpty_iff {s : State} : DisconnectedEmpty s ↔ DisconnectedClear s ∧ OpenToOnline s := Iff.rfl

/-- A station stays empty where nothing is placed there, no buffer comes to be HELD by it, and no slot comes to name
it. -/
theorem State.StationEmpty.of_frame {s t : State} {p : Station} (h : s.StationEmpty p)
    (hinbox : (t.port p).inbox = (s.port p).inbox) (hview : (t.port p).view = (s.port p).view)
    (hheld : s.pool.HeldWithin t.pool p)
    (hslots : ∀ i, (t.slot i).state ≠ .free → (s.slot i).state ≠ .free
      ∧ (t.slot i).requester = (s.slot i).requester ∧ (t.slot i).dest = (s.slot i).dest) : t.StationEmpty p := by
  obtain ⟨hi, hv, hh, hs⟩ := h
  refine ⟨hinbox.trans hi, hview.trans hv, hheld.heldCount_zero hh, fun i hti => ?_⟩
  obtain ⟨hsi, hreq, hdest⟩ := hslots i hti
  rw [hreq, hdest]
  exact hs i hsi

/-- Where slots, port states, inboxes and views stay and no buffer comes to be HELD by a station that is not
connected. -/
theorem DisconnectedEmpty.of_same {s t : State} (h : DisconnectedEmpty s) (hslots : ∀ i, t.slot i = s.slot i)
    (hports : ∀ q, (t.port q).state = (s.port q).state ∧ (t.port q).inbox = (s.port q).inbox
      ∧ (t.port q).view = (s.port q).view)
    (hheld : ∀ q, (s.port q).state = .reset ∨ (s.port q).state = .offline → s.pool.HeldWithin t.pool q) :
    DisconnectedEmpty t := by
  obtain ⟨hclear, hopen⟩ := h
  refine ⟨fun q hq => ?_, fun i hi => ?_⟩
  · obtain ⟨hstate, hinbox, hview⟩ := hports q
    rw [hstate] at hq
    exact State.StationEmpty.of_frame (hclear q hq) hinbox hview (hheld q hq) fun i hi => by
      rw [hslots] at hi ⊢
      exact ⟨hi, rfl, rfl⟩
  · rw [hslots] at hi ⊢
    rw [(hports _).1]
    exact hopen i hi

/-- A station that is named by no slot gains nothing from an ending. -/
theorem stationEmpty_endExchange {s : State} {p : Station} (h : s.StationEmpty p) (i : SlotNo) (e : Ending) :
    (s.endExchange i e).StationEmpty p := by
  by_cases hi : (s.slot i).state = .free
  · rw [endExchange_of_free e hi]
    exact h
  · obtain ⟨hinbox, -, -, hslots⟩ := id h
    obtain ⟨hreq, hdest⟩ := hslots i hi
    refine h.of_frame ?_ (by rw [port_endExchange_same]) ?_ fun j hj => ?_
    · rw [port_endExchange e hi]
      simp [endedInbox, Ne.symm hreq, Ne.symm hdest]
    · rw [endExchange_pool e hi]
      exact heldWithin_discard_attach _ _ _ _
    · rw [slot_endExchange e hi] at hj ⊢
      split at hj
      · exact absurd rfl hj
      case isFalse hne => rw [if_neg hne]; exact ⟨hj, rfl, rfl⟩

theorem disconnectedClear_endExchange {s : State} (h : DisconnectedClear s) (i : SlotNo) (e : Ending) :
    DisconnectedClear (s.endExchange i e) := by
  intro p hp
  rw [state_endExchange] at hp
  exact stationEmpty_endExchange (h p hp) i e

theorem openToOnline_endExchange {s : State} (h : OpenToOnline s) (i : SlotNo) (e : Ending) :
    OpenToOnline (s.endExchange i e) := by
  intro j hj
  by_cases hji : j = i
  · rw [hji, free_endExchange] at hj
    cases hj
  · rw [slot_endExchange_ne e hji] at hj ⊢
    rw [state_endExchange]
    exact h j hj

theorem disconnectedEmpty_endExchange {s : State} (h : DisconnectedEmpty s) (i : SlotNo) (e : Ending) :
    DisconnectedEmpty (s.endExchange i e) := by
  obtain ⟨hclear, hopen⟩ := disconnectedEmpty_iff.mp h
  exact ⟨disconnectedClear_endExchange hclear i e, openToOnline_endExchange hopen i e⟩

/-- A POST names two stations that are ONLINE (R26, R27). -/
theorem disconnectedEmpty_acceptPost {s : State} (h : DisconnectedEmpty s) {p : Station} {plan : PostPlan}
    (hok : s.postCheck p = .ok plan) : DisconnectedEmpty (s.acceptPost p plan) := by
  obtain ⟨-, honline, -, -, -, -, hdest, -⟩ := postCheck_ok hok
  obtain ⟨hclear, hopen⟩ := disconnectedEmpty_iff.mp h
  refine ⟨fun q hq => ?_, fun i hi => ?_⟩
  · rw [state_acceptPost] at hq
    have hconnected : ∀ r, (s.port r).state = .online → q ≠ r := by
      rintro r hr rfl
      rw [hr] at hq
      simp at hq
    have hqd := hconnected _ hdest
    have hqp := hconnected _ honline
    obtain ⟨hinbox, hview, hheld, hslots⟩ := hclear q hq
    refine ⟨?_, ?_, ?_, fun i hi => ?_⟩
    · rw [port_acceptPost]
      simpa [hqd] using hinbox
    · rw [port_acceptPost]
      exact hview
    · rw [acceptPost_pool]
      exact (heldWithin_attachChain _ _ q).heldCount_zero hheld
    · rw [slot_acceptPost] at hi ⊢
      split at hi
      case isTrue hslot => rw [if_pos hslot]; exact ⟨hqp.symm, hqd.symm⟩
      case isFalse hslot => rw [if_neg hslot]; exact hslots i hi
  · rw [slot_acceptPost] at hi ⊢
    rw [state_acceptPost]
    split at hi
    case isTrue hslot => rw [if_pos hslot]; exact hdest
    case isFalse hslot => rw [if_neg hslot]; exact hopen i hi

/-- A NOTIFY reaches stations that are ONLINE (R40). -/
theorem disconnectedEmpty_placeNotices {s : State} (h : DisconnectedEmpty s) {p : Station} {v : Service}
    {set : StationSet} (n : Record) (hpass : s.firstRefusal p v (membersOf set) = none) :
    DisconnectedEmpty (s.placeNotices n (membersOf set)) := by
  obtain ⟨hclear, hopen⟩ := disconnectedEmpty_iff.mp h
  obtain ⟨hslots, hpool, -⟩ := placeNotices_rest s n (membersOf set)
  have hslot : ∀ i, (s.placeNotices n (membersOf set)).slot i = s.slot i := fun i => by
    rw [State.slot, hslots]
    rfl
  refine ⟨fun q hq => ?_, fun i hi => ?_⟩
  · rw [state_placeNotices] at hq
    have hno : q ∉ membersOf set := by
      intro hmem
      have honline := (memberCheck_none.mp (firstRefusal_none.mp hpass q hmem)).1
      rw [honline] at hq
      simp at hq
    have hport : (s.placeNotices n (membersOf set)).port q = s.port q := by
      rw [port_placeNotices s n (membersOf_nodup set), if_neg hno]
    exact State.StationEmpty.of_frame (hclear q hq) (by rw [hport]) (by rw [hport]) (hpool ▸ .refl _ q)
      fun i hi => by rw [hslot] at hi ⊢; exact ⟨hi, rfl, rfl⟩
  · rw [hslot] at hi ⊢
    rw [state_placeNotices]
    exact hopen i hi

/-- A TAKE changes inbox, view and held buffers of a connected station alone, and OPENs no slot. -/
theorem disconnectedEmpty_acceptTake {s : State} (h : DisconnectedEmpty s) {p : Station} (r : Record)
    (rest : List Record) (hconnected : (s.port p).connected = true) :
    DisconnectedEmpty (s.acceptTake p r rest) := by
  obtain ⟨hclear, hopen⟩ := disconnectedEmpty_iff.mp h
  have hstations : ∀ i, (takenSlot s p r i).requester = (s.slot i).requester
      ∧ (takenSlot s p r i).dest = (s.slot i).dest
      ∧ ((takenSlot s p r i).state ≠ .free → (s.slot i).state ≠ .free)
      ∧ ((takenSlot s p r i).state = .opened → (s.slot i).state = .opened) := by
    intro i
    rw [takenSlot]
    split
    · exact ⟨rfl, rfl, id, id⟩
    · split
      case isTrue hi => exact ⟨rfl, rfl, fun _ => by rw [hi.2]; nofun, nofun⟩
      case isFalse => exact ⟨rfl, rfl, id, id⟩
  refine ⟨fun q hq => ?_, fun i hi => ?_⟩
  · rw [state_acceptTake] at hq
    have hqp : q ≠ p := by
      rintro rfl
      obtain hon | hdr := connected_iff.mp hconnected
      · rw [hon] at hq; simp at hq
      · rw [hdr] at hq; simp at hq
    refine State.StationEmpty.of_frame (hclear q hq) (by rw [port_acceptTake_ne s r rest hqp])
      (by rw [port_acceptTake_ne s r rest hqp]) (by rw [acceptTake_pool]; exact heldWithin_takeUpChain _ _ hqp)
      fun i hi => ?_
    obtain ⟨hreq, hdest, hused, -⟩ := hstations i
    rw [slot_acceptTake] at hi ⊢
    exact ⟨hused hi, hreq, hdest⟩
  · obtain ⟨-, hdest, -, hstate⟩ := hstations i
    rw [slot_acceptTake] at hi ⊢
    rw [state_acceptTake, hdest]
    exact hopen i (hstate hi)

/-- A port that changes state, where neither half comes to speak of it: it is empty if it is not connected afterwards,
and ONLINE if an OPEN slot names it. -/
theorem disconnectedEmpty_changePortState {s : State} (h : DisconnectedEmpty s) (p : Station) {st : PortState}
    (hclear : st = .reset ∨ st = .offline → s.StationEmpty p)
    (hopen : st = .online ∨ ∀ i, (s.slot i).state = .opened → (s.slot i).dest ≠ p) :
    DisconnectedEmpty (s.changePortState p st) := by
  obtain ⟨hc, ho⟩ := disconnectedEmpty_iff.mp h
  have hstate : ∀ q, ((s.changePortState p st).port q).state = if q = p then st else (s.port q).state := by
    intro q
    rw [port_changePortState]
    by_cases hq : q = p
    · rw [if_pos hq, if_pos hq]
    · rw [if_neg hq, if_neg hq]
      split <;> rfl
  have hview : ∀ q, ((s.changePortState p st).port q).view = (s.port q).view := by
    intro q
    rw [port_changePortState]
    split_ifs <;> rfl
  refine ⟨fun q hq => ?_, fun i hi => ?_⟩
  · have hempty : s.StationEmpty q := by
      rw [hstate] at hq
      split at hq
      case isTrue hqp => exact hqp ▸ hclear hq
      case isFalse => exact hc q hq
    exact hempty.of_frame (inbox_changePortState s p st q) (hview q) (.refl _ q) fun i hi => ⟨hi, rfl, rfl⟩
  · rw [changePortState_slot] at hi ⊢
    rw [hstate]
    split
    case isTrue hd => exact hopen.resolve_right fun hno => hno i hi hd
    case isFalse => exact ho i hi

/-! ## LEAVE, drain completion, teardown (R127, R130, R133) -/

/-- A LEAVE answers every OPEN slot that names the station, so that the port may be DRAINING. -/
theorem disconnectedEmpty_leave {s : State} (h : DisconnectedEmpty s) (hr : RequestsMatchOpen s) (p : Station) :
    DisconnectedEmpty ((s.changePortState p .draining).answerUntaken (s.port p).untaken) := by
  obtain ⟨hclear, hopen⟩ := disconnectedEmpty_iff.mp h
  have hstate : ∀ q, ((s.changePortState p .draining).port q).state
      = if q = p then .draining else (s.port q).state := by
    intro q
    rw [port_changePortState]
    by_cases hq : q = p
    · rw [if_pos hq, if_pos hq]
    · rw [if_neg hq, if_neg hq]
      split <;> rfl
  refine ⟨?_, fun i hi => ?_⟩
  · refine answerUntaken_keeps DisconnectedClear _ (fun q hq => ?_) fun u i hu => disconnectedClear_endExchange hu i _
    rw [hstate] at hq
    split at hq
    · simp at hq
    · refine State.StationEmpty.of_frame (hclear q hq) (inbox_changePortState s p _ q) ?_ (.refl _ q)
        fun i hi => ⟨hi, rfl, rfl⟩
      rw [port_changePortState]
      split_ifs <;> rfl
  · rw [slot_answerUntaken, changePortState_slot] at hi ⊢
    split at hi
    · cases hi
    case isFalse hnot =>
      have hopened : (s.slot i).state ≠ .free := by rw [hi]; nofun
      have hdest : (s.slot i).dest ≠ p := fun hd => hnot ⟨hr.mem_untaken_slots.mpr ⟨hi, hd⟩, hopened⟩
      rw [if_neg hnot, state_answerUntaken, hstate, if_neg hdest]
      exact hopen i hi

/-- The drain condition, with the release of what the station holds, is the empty condition of an OFFLINE port. -/
theorem disconnectedEmpty_drainCompleted {s : State} (h : DisconnectedEmpty s) (hr : RequestsMatchOpen s) {p : Station}
    (hd : s.drained p = true) : DisconnectedEmpty (s.drainCompleted p) := by
  obtain ⟨hdraining, hcount, htaken, hinbox⟩ := drained_iff.mp hd
  have hopened : ∀ i, (s.slot i).state = .opened → (s.slot i).dest ≠ p := by
    intro i hi hdest
    have hone := hr.1 i p
    rw [requestsFor_of_nil hinbox, if_pos ⟨hi, hdest⟩] at hone
    cases hone
  rw [drainCompleted_eq hd]
  have hbefore : DisconnectedEmpty ((s.setPool (s.pool.releaseHeld p)).modPort p fun q => { q with view := none }) := by
    obtain ⟨hclear, hopen⟩ := disconnectedEmpty_iff.mp h
    have hstate : ∀ q, (((s.setPool (s.pool.releaseHeld p)).modPort p fun q => { q with view := none }).port q).state
        = (s.port q).state := by
      intro q
      rw [port_modPort]
      split <;> rfl
    refine ⟨fun q hq => ?_, fun i hi => ?_⟩
    · rw [hstate] at hq
      have hqp : q ≠ p := by rintro rfl; rw [hdraining] at hq; simp at hq
      refine State.StationEmpty.of_frame (hclear q hq) ?_ ?_ (fun b hb => (releaseHeld_held hb).1)
        fun i hi => ⟨hi, rfl, rfl⟩
      · rw [port_modPort_ne _ _ hqp]; rfl
      · rw [port_modPort_ne _ _ hqp]; rfl
    · rw [hstate]
      exact hopen i hi
  refine disconnectedEmpty_changePortState hbefore p (fun _ => ?_) (.inr hopened)
  refine ⟨?_, ?_, heldCount_releaseHeld s.pool p, fun i hi => ⟨fun hreq => ?_, fun hdest => ?_⟩⟩
  · rw [port_modPort_self]; exact hinbox
  · rw [port_modPort_self]
  · have hrequested : (s.slot i).requestedBy p = true := requestedBy_iff.mpr ⟨hi, hreq⟩
    rw [requesterCount_zero hcount i] at hrequested
    cases hrequested
  · cases hs : (s.slot i).state with
    | free => exact hi hs
    | opened => exact hopened i hs hdest
    | taken => exact htaken i hs hdest

/-- Step 1 of a teardown leaves no slot that names the station; steps 2 to 4 empty the rest of it. -/
theorem disconnectedEmpty_tornDown {s : State} (h : DisconnectedEmpty s) (p : Station) :
    DisconnectedEmpty (s.tornDown p) := by
  have htorn : DisconnectedEmpty (s.tearSlots p) :=
    tearSlots_keeps DisconnectedEmpty p h (fun u i hu _ _ => disconnectedEmpty_endExchange hu i _)
      fun u i hu _ _ _ => disconnectedEmpty_endExchange hu i _
  obtain ⟨hclear, hopen⟩ := disconnectedEmpty_iff.mp htorn
  have hunnamed := tearSlots_unnamed s p
  have hother : ∀ q, q ≠ p → ((s.tornDown p).port q).state = ((s.tearSlots p).port q).state
      ∧ ((s.tornDown p).port q).inbox = ((s.tearSlots p).port q).inbox
      ∧ ((s.tornDown p).port q).view = ((s.tearSlots p).port q).view := by
    intro q hq
    rw [port_tornDown, if_neg hq]
    generalize s.tearSlots p = u
    split <;> exact ⟨rfl, rfl, rfl⟩
  have hheld : ∀ q, (s.tearSlots p).pool.HeldWithin (s.tornDown p).pool q := by
    intro q b hb
    rw [tornDown_pool] at hb
    revert hb
    generalize s.tearSlots p = u
    intro hb
    refine foldl_keeps (fun pool : Pool => (pool.desc b).place = .held q → (u.pool.desc b).place = .held q) id
      (fun pool r _ hpool hr => hpool (discard_held hr)) (releaseHeld_held hb).1
  refine ⟨fun q hq => ?_, fun i hi => ?_⟩
  · by_cases hqp : q = p
    · subst hqp
      refine ⟨by rw [inbox_tornDown, if_pos rfl], by rw [port_tornDown, if_pos rfl, toReset_view], ?_, fun i hi => ?_⟩
      · rw [tornDown_pool]
        exact heldCount_releaseHeld _ q
      · rw [tornDown_slot] at hi ⊢
        exact (hunnamed i).resolve_left hi
    · obtain ⟨hstate, hinbox, hview⟩ := hother q hqp
      rw [hstate] at hq
      exact State.StationEmpty.of_frame (hclear q hq) hinbox hview (hheld q) fun i hi => by
        rw [tornDown_slot] at hi ⊢
        exact ⟨hi, rfl, rfl⟩
  · rw [tornDown_slot] at hi ⊢
    obtain hfree | ⟨-, hne⟩ := hunnamed i
    · rw [hfree] at hi
      cases hi
    · rw [(hother _ hne).1]
      exact hopen i hi

/-- With every slot FREE, every inbox and view empty and no buffer HELD, every station is empty. -/
theorem disconnectedEmpty_masterCleared (s : State) : DisconnectedEmpty s.masterCleared := by
  have hfree : ∀ i, (s.masterCleared.slot i).state = .free := fun i => by rw [slot_masterCleared]; rfl
  refine ⟨fun p _ => ⟨by rw [port_masterCleared, toReset_inbox], by rw [port_masterCleared, toReset_view], ?_,
    fun i hi => absurd (hfree i) hi⟩, fun i hi => ?_⟩
  · refine heldCount_eq_zero.mpr fun b => ?_
    simp [Pool.resetOver, Pool.desc, Descriptor.reset]
  · rw [hfree] at hi
    cases hi

end Sys2Proof.Machine
end

section
/-! PROOFS. Every step keeps the link of REQUEST records and OPEN slots, the quiet of a port in RESET and the empty
condition of a port that is not connected (sections 3.2, 8.1, 8.3, 9.1): the three halves together, effect by effect. -/

namespace Sys2Proof.Machine

/-- What O58 speaks of. -/
def LinkedQuietEmpty (s : State) : Prop := RequestsMatchOpen s ∧ ResetPortsQuiet s ∧ DisconnectedEmpty s

/-- A port in RESET is quiet. -/
theorem LinkedQuietEmpty.quiet {s : State} (h : LinkedQuietEmpty s) {q : Station} (hreset : (s.port q).state = .reset) :
    ((s.port q).access = .idle ∨ (s.port q).access = .abandoned) ∧ (s.port q).enables = 0 := by
  obtain ⟨-, ⟨hquiet, -⟩, -⟩ := h
  exact hquiet q hreset

/-- Ports are outside RESET only while the part runs. -/
theorem LinkedQuietEmpty.running {s : State} (h : LinkedQuietEmpty s) {p : Station} (hp : (s.port p).state ≠ .reset) :
    s.phase = .running := by
  obtain ⟨-, hquiet, -⟩ := h
  exact hquiet.running hp

/-- A station whose port is in RESET or OFFLINE is empty. -/
theorem LinkedQuietEmpty.stationEmpty {s : State} (h : LinkedQuietEmpty s) {p : Station}
    (hp : (s.port p).state = .reset ∨ (s.port p).state = .offline) : s.StationEmpty p := by
  obtain ⟨-, -, hempty, -⟩ := h
  exact hempty p hp

/-- Effects that leave slots, phase, and of every port the state, the inbox, the view and the quiet of RESET, and that
make no buffer HELD by a station that is not connected. -/
theorem LinkedQuietEmpty.of_same {s t : State} (h : LinkedQuietEmpty s) (hslots : t.slots = s.slots)
    (hphase : t.phase = s.phase)
    (hports : ∀ q, (t.port q).state = (s.port q).state ∧ (t.port q).inbox = (s.port q).inbox
      ∧ (t.port q).view = (s.port q).view)
    (hquiet : ∀ q, (s.port q).state = .reset →
      ((t.port q).access = .idle ∨ (t.port q).access = .abandoned) ∧ (t.port q).enables = 0)
    (hheld : ∀ q, (s.port q).state = .reset ∨ (s.port q).state = .offline → s.pool.HeldWithin t.pool q) :
    LinkedQuietEmpty t := by
  obtain ⟨hr, hq, hd⟩ := h
  have hslot : ∀ i, t.slot i = s.slot i := fun i => by rw [State.slot, hslots]; rfl
  have hinbox : ∀ q, (t.port q).inbox = (s.port q).inbox := fun q => by
    obtain ⟨-, hinbox, -⟩ := hports q
    exact hinbox
  refine ⟨hr.of_same hslot hinbox, ⟨fun q hreset => ?_, fun hrun q => ?_⟩, hd.of_same hslot hports hheld⟩
  · exact hquiet q ((hports q).1 ▸ hreset)
  · rw [(hports q).1]
    exact hq.2 (hphase ▸ hrun) q

/-- Effects on the pool alone. -/
theorem LinkedQuietEmpty.setPool {s : State} (h : LinkedQuietEmpty s) {pool : Pool}
    (hheld : ∀ q, (s.port q).state = .reset ∨ (s.port q).state = .offline → s.pool.HeldWithin pool q) :
    LinkedQuietEmpty (s.setPool pool) :=
  h.of_same rfl rfl (fun _ => ⟨rfl, rfl, rfl⟩) (fun _ => h.quiet) hheld

/-- Changes of one port's registers and tables. -/
theorem LinkedQuietEmpty.modPort {s : State} (h : LinkedQuietEmpty s) {p : Station} {f : Port → Port}
    (hstate : (f (s.port p)).state = (s.port p).state) (haccess : (f (s.port p)).access = (s.port p).access)
    (hview : (f (s.port p)).view = (s.port p).view) (hinbox : (f (s.port p)).inbox = (s.port p).inbox)
    (henables : (s.port p).state = .reset → (f (s.port p)).enables = (s.port p).enables) :
    LinkedQuietEmpty (s.modPort p f) := by
  refine h.of_same rfl rfl (fun q => ?_) (fun q hreset => ?_) fun q _ => .refl _ q
  · rw [port_modPort]
    split
    case isTrue hq => rw [hq]; exact ⟨hstate, hinbox, hview⟩
    case isFalse => exact ⟨rfl, rfl, rfl⟩
  · have hquiet := h.quiet hreset
    rw [port_modPort]
    split
    case isTrue hq => subst hq; rwa [haccess, henables hreset]
    case isFalse => exact hquiet

/-- No access waits at a port in RESET, and what cuts one off leaves the port IDLE or ABANDONED (R142). -/
theorem LinkedQuietEmpty.withAccess {s : State} (h : LinkedQuietEmpty s) {p : Station} {a : AccessState}
    (ha : (s.port p).state ≠ .reset ∨ a = .idle ∨ a = .abandoned
      ∨ ∃ b e e', (s.port p).access = .pending b e ∧ a = .pending b e') : LinkedQuietEmpty (s.withAccess p a) := by
  refine h.of_same rfl rfl (fun q => ?_) (fun q hreset => ?_) fun q _ => .refl _ q
  · rw [port_modPort]
    split <;> exact ⟨rfl, rfl, rfl⟩
  · obtain ⟨haccess, henables⟩ := h.quiet hreset
    rw [port_modPort]
    split
    case isFalse => exact ⟨haccess, henables⟩
    case isTrue hq =>
      subst hq
      refine ⟨?_, henables⟩
      obtain hout | hidle | habandoned | ⟨b, e, e', hpending, -⟩ := ha
      · exact absurd hreset hout
      · exact .inl hidle
      · exact .inr habandoned
      · rw [hpending] at haccess
        simp at haccess

theorem LinkedQuietEmpty.endExchange {s : State} (h : LinkedQuietEmpty s) (i : SlotNo) (e : Ending) :
    LinkedQuietEmpty (s.endExchange i e) := by
  obtain ⟨hr, hq, hd⟩ := h
  exact ⟨requestsMatchOpen_endExchange hr i e, resetPortsQuiet_endExchange hq i e, disconnectedEmpty_endExchange hd i e⟩

/-- A connected station is none of those that must hold no buffer. -/
theorem ne_of_connected {s : State} {p q : Station} (hp : (s.port p).connected = true)
    (hq : (s.port q).state = .reset ∨ (s.port q).state = .offline) : q ≠ p := by
  rintro rfl
  obtain hon | hdraining := connected_iff.mp hp
  · rw [hon] at hq; simp at hq
  · rw [hdraining] at hq; simp at hq

/-- A port that takes up a new state: REQUEST records and OPEN slots do not speak of it. -/
theorem LinkedQuietEmpty.changePortState {s : State} (h : LinkedQuietEmpty s) (hp : s.phase = .running) (p : Station)
    {st : PortState} (hst : st ≠ .reset) (hclear : st = .reset ∨ st = .offline → s.StationEmpty p)
    (hopen : st = .online ∨ ∀ i, (s.slot i).state = .opened → (s.slot i).dest ≠ p) :
    LinkedQuietEmpty (s.changePortState p st) := by
  obtain ⟨hr, hq, hd⟩ := h
  exact ⟨hr.of_same (fun _ => rfl) (inbox_changePortState s p st), resetPortsQuiet_changePortState hq hp p hst,
    disconnectedEmpty_changePortState hd p hclear hopen⟩

/-- At the end of the pass every port is in RESET, so that every station is empty. -/
theorem linkedQuietEmpty_portsLeaveReset {s : State} (h : LinkedQuietEmpty s) (hp : s.phase = .initPass) :
    LinkedQuietEmpty { s.portsLeaveReset with phase := .running } := by
  obtain ⟨hr, hq, hd⟩ := h
  have hreset := hq.2 (by rw [hp]; nofun)
  have hport : ∀ q, (State.port { s.portsLeaveReset with phase := .running } q)
      = if (s.port q).resetInput then s.port q else { s.port q with state := .offline } := port_portsLeaveReset s
  have hnone : ∀ i, (s.slot i).state = .free := fun i => by
    by_contra hi
    obtain ⟨hempty, -⟩ := hd
    obtain ⟨-, -, -, hnamed⟩ := hempty (s.slot i).requester (.inl (hreset _))
    obtain ⟨hrequester, -⟩ := hnamed i hi
    exact hrequester rfl
  refine ⟨hr.of_same (fun _ => rfl) (inbox_portsLeaveReset s), hq.of_running rfl fun q hqr => ?_, fun q _ => ?_,
    fun i hi => ?_⟩
  · rw [hport] at hqr ⊢
    split at hqr
    case isTrue hin => rw [if_pos hin]; exact ⟨rfl, rfl, rfl⟩
    case isFalse => cases hqr
  · refine State.StationEmpty.of_frame (hd.1 q (.inl (hreset q))) (inbox_portsLeaveReset s q) ?_ (.refl _ q)
      fun i hi => ⟨hi, rfl, rfl⟩
    rw [hport]
    split <;> rfl
  · exact absurd (hnone i) (by rw [show (s.slot i).state = .opened from hi]; nofun)

/-- Master reset leaves slots and inboxes clear, and every port in RESET with its access cut off. -/
theorem linkedQuietEmpty_masterCleared (s : State) : LinkedQuietEmpty s.masterCleared := by
  refine ⟨requestsMatchOpen_of_clear (fun i => by rw [slot_masterCleared]; rfl)
    fun p => by rw [port_masterCleared, toReset_inbox], ⟨fun p _ => ?_, fun _ p => ?_⟩,
    disconnectedEmpty_masterCleared s⟩
  · rw [port_masterCleared, toReset_access, toReset_enables]
    exact ⟨abandonAccess_cases _, rfl⟩
  · rw [port_masterCleared, toReset_state]

theorem linkedQuietEmpty_kept : Kept LinkedQuietEmpty where
  queue _ _ h := h
  access _ _ _ h ha := h.withAccess ha
  registers s p q h hq := by
    obtain ⟨hstate, haccess, hview, hinbox, -, -, henables⟩ := hq
    exact h.modPort (p := p) (f := fun _ => q) hstate haccess hview hinbox henables
  post s p plan h hok := by
    obtain ⟨hr, hq, hd⟩ := h
    exact ⟨requestsMatchOpen_acceptPost hr hok,
      hq.of_ports (acceptPost_phase s p plan) fun q => .inl (by rw [port_acceptPost]; exact ⟨rfl, rfl, rfl⟩),
      disconnectedEmpty_acceptPost hd hok⟩
  reply _ _ _ h _ := h.endExchange _ _
  cancel _ _ _ i h _ _ := h.endExchange i _
  notify s p ps set v h _ _ _ hpass := by
    obtain ⟨hr, hq, hd⟩ := h
    obtain ⟨-, -, -, hphase⟩ := placeNotices_rest s (s.noticeRecord p v ps.words) (membersOf set)
    refine ⟨requestsMatchOpen_placeNotices hr rfl set, hq.of_ports hphase fun q => .inl ?_,
      disconnectedEmpty_placeNotices hd _ hpass⟩
    rw [port_placeNotices _ _ (membersOf_nodup set)]
    exact ⟨rfl, rfl, rfl⟩
  take s p r rest h hconnected hinbox := by
    obtain ⟨hr, hq, hd⟩ := h
    refine ⟨requestsMatchOpen_acceptTake hr hinbox, hq.of_ports (acceptTake_phase s p r rest) fun q => .inl ?_,
      disconnectedEmpty_acceptTake hd r rest hconnected⟩
    by_cases hqp : q = p
    · rw [hqp, port_acceptTake_self]
      exact ⟨rfl, rfl, rfl⟩
    · rw [port_acceptTake_ne s r rest hqp]
      exact ⟨rfl, rfl, rfl⟩
  acquire _ _ n h hc _ _ _ _ := h.setPool fun _ hq => heldWithin_acquire _ n (ne_of_connected hc hq)
  release _ _ b h _ _ := h.setPool fun _ _ _ hc => discard_held (c := some b) hc
  append _ _ a b h _ _ _ _ _ := h.setPool fun q _ => heldWithin_join _ a b q
  scrub _ p b rest h _ _ _ := h.setPool fun q _ => heldWithin_startScrub _ p b rest q
  setRoute _ _ _ _ h hp _ := h.modPort rfl rfl rfl rfl fun hr => absurd hr hp
  setAdmit _ _ _ _ h hp _ := h.modPort rfl rfl rfl rfl fun hr => absurd hr hp
  join s p h hoff := h.changePortState (h.running (p := p) (by rw [hoff]; nofun)) p nofun (by simp) (.inl rfl)
  leave s p h hon := by
    obtain ⟨hr, hq, hd⟩ := h
    have hrun := hq.running (p := p) (by rw [hon]; nofun)
    refine ⟨?_, ?_, disconnectedEmpty_leave hd hr p⟩
    · exact answerUntaken_keeps _ _ (hr.of_same (fun _ => rfl) (inbox_changePortState s p _))
        fun _ i hu => requestsMatchOpen_endExchange hu i _
    · exact answerUntaken_keeps _ _ (resetPortsQuiet_changePortState hq hrun p nofun)
        fun _ i hu => resetPortsQuiet_endExchange hu i _
  parity _ _ b h _ := h.setPool fun q _ => heldWithin_markDamaged _ b q
  memory _ _ _ _ h := h.setPool fun _ _ _ hc => hc
  ticked _ h hp := ticked_keeps _ hp h fun _ i hu _ => hu.endExchange i _
  expiry _ i h _ := h.endExchange i _
  scrubDone _ _ _ h _ _ := h.setPool fun _ _ _ hc => finishScrub_held hc
  drained s p h hd := by
    obtain ⟨hr, hq, he⟩ := h
    exact ⟨hr.of_same (drainCompleted_slot s p) (inbox_drainCompleted hd), resetPortsQuiet_drainCompleted hq hd,
      disconnectedEmpty_drainCompleted he hr hd⟩
  teardown _ p h _ := by
    obtain ⟨hr, hq, he⟩ := h
    exact ⟨requestsMatchOpen_tornDown hr p, resetPortsQuiet_tornDown hq p, disconnectedEmpty_tornDown he p⟩
  leaveReset s p h hreset hrun := by
    have hempty := h.stationEmpty (.inl hreset)
    obtain ⟨-, -, -, hslots⟩ := id hempty
    exact h.changePortState hrun p nofun (fun _ => hempty)
      (.inr fun i hi => (hslots i (by rw [hi]; nofun)).2)
  masterReset s _ := linkedQuietEmpty_masterCleared s
  masterResetEnded s straps h hp := by
    obtain ⟨hr, hq, he⟩ := h
    simp only [State.masterResetEnded, hp]
    exact ⟨hr, ⟨hq.1, fun _ => hq.2 (by rw [hp]; nofun)⟩, he⟩
  portsLeaveReset _ h hp := linkedQuietEmpty_portsLeaveReset h hp

/-- Settles O58: a REQUEST record comes and goes with its slot, a port leaves RESET only while the part runs, and a port
that stops being connected has been emptied. -/
theorem stepKeepsRequestLinkAndDisconnection : Obligations.StepKeepsRequestLinkAndDisconnection :=
  fun _ _ hr hq hd hstep => linkedQuietEmpty_kept.step (Inv := LinkedQuietEmpty) ⟨hr, hq, hd⟩ hstep

end Sys2Proof.Machine
end

section
/-! PROOFS. Chains through the pool's operations (sections 5.1, 5.3): a chain as a linked list, and that giving back,
transfer, ACQUIRE, APPEND and scrubbing leave every chain whole and no two of them with a common buffer (R79). -/

namespace Sys2Proof.Machine

/-! ## Linked lists -/

/-- From `b` the links lead through these buffers in this order, and the last of them links to `stop`. -/
def Pool.LinksTo (pool : Pool) : BufferNo → List BufferNo → Option BufferNo → Prop
  | b, [], stop => (pool.desc b).next = stop
  | b, c :: rest, stop => (pool.desc b).next = some c ∧ pool.LinksTo c rest stop

/-- A walk with fuel to spare follows the links to their end. -/
theorem Pool.LinksTo.walk_eq {pool : Pool} {b : BufferNo} {rest : List BufferNo} (h : pool.LinksTo b rest none)
    {n : Nat} (hn : rest.length < n) : pool.walk n b = b :: rest := by
  induction rest generalizing b n with
  | nil =>
    obtain ⟨m, rfl⟩ := Nat.exists_eq_succ_of_ne_zero (Nat.pos_iff_ne_zero.mp hn)
    have hstop : (pool.desc b).next = none := h
    simp [Pool.walk, hstop]
  | cons c rest ih =>
    obtain ⟨m, rfl⟩ := Nat.exists_eq_succ_of_ne_zero (Nat.ne_zero_of_lt hn)
    obtain ⟨hnext, hrest⟩ := h
    simp [Pool.walk, hnext, ih hrest (Nat.lt_of_succ_lt_succ hn)]

/-- A walk that ends before its fuel does has met the end of the links. -/
theorem linksTo_of_walk {pool : Pool} {n : Nat} {b : BufferNo} (h : (pool.walk n b).length < n) :
    ∃ rest, pool.walk n b = b :: rest ∧ pool.LinksTo b rest none := by
  induction n generalizing b with
  | zero => cases h
  | succ n ih =>
    cases hnext : (pool.desc b).next with
    | none => exact ⟨[], by simp [Pool.walk, hnext], hnext⟩
    | some c =>
      have hwalk : pool.walk (n + 1) b = b :: pool.walk n c := by simp [Pool.walk, hnext]
      rw [hwalk] at h ⊢
      obtain ⟨rest, hrest, hlinks⟩ := ih (Nat.lt_of_succ_lt_succ h)
      exact ⟨c :: rest, by rw [hrest], hnext, hlinks⟩

/-- Links read alike lead alike. -/
theorem Pool.LinksTo.congr {pool pool' : Pool} {b : BufferNo} {rest : List BufferNo} {stop : Option BufferNo}
    (h : pool.LinksTo b rest stop) (hsame : ∀ c ∈ b :: rest, (pool'.desc c).next = (pool.desc c).next) :
    pool'.LinksTo b rest stop := by
  induction rest generalizing b with
  | nil => exact (hsame b List.mem_cons_self).trans h
  | cons c rest ih =>
    exact ⟨(hsame b List.mem_cons_self).trans h.1, ih h.2 fun d hd => hsame d (List.mem_cons_of_mem _ hd)⟩

/-- The buffer that a buffer on the way links to is on the way, or is where it stops. -/
theorem Pool.LinksTo.next_mem {pool : Pool} {b c d : BufferNo} {rest : List BufferNo} {stop : Option BufferNo}
    (h : pool.LinksTo b rest stop) (hc : c ∈ b :: rest) (hd : (pool.desc c).next = some d) :
    d ∈ rest ∨ stop = some d := by
  induction rest generalizing b with
  | nil =>
    obtain rfl := List.mem_singleton.mp hc
    exact .inr (h.symm.trans hd)
  | cons e rest ih =>
    obtain ⟨hnext, hrest⟩ := h
    obtain rfl | hc := List.mem_cons.mp hc
    · exact .inl (by rw [Option.some.inj (hd.symm.trans hnext)]; exact List.mem_cons_self)
    · exact (ih hrest hc).imp_left (List.mem_cons_of_mem _)

/-- A buffer on the way, past its start, is linked to by one on the way. -/
theorem Pool.LinksTo.exists_link {pool : Pool} {b c : BufferNo} {rest : List BufferNo} {stop : Option BufferNo}
    (h : pool.LinksTo b rest stop) (hc : c ∈ rest) : ∃ d ∈ b :: rest, (pool.desc d).next = some c := by
  induction rest generalizing b with
  | nil => cases hc
  | cons e rest ih =>
    obtain ⟨hnext, hrest⟩ := h
    obtain rfl | hc := List.mem_cons.mp hc
    · exact ⟨b, List.mem_cons_self, hnext⟩
    · obtain ⟨d, hd, hlink⟩ := ih hrest hc
      exact ⟨d, List.mem_cons_of_mem _ hd, hlink⟩

/-- Two ways, the second from where the first stops, are one. -/
theorem Pool.LinksTo.append {pool : Pool} {b c : BufferNo} {rest rest' : List BufferNo} {stop : Option BufferNo}
    (h : pool.LinksTo b rest (some c)) (k : pool.LinksTo c rest' stop) :
    pool.LinksTo b (rest ++ c :: rest') stop := by
  induction rest generalizing b with
  | nil => exact ⟨h, k⟩
  | cons d rest ih => exact ⟨h.1, ih h.2⟩

/-- The last buffer on the way links to where it stops. -/
theorem Pool.LinksTo.last_next {pool : Pool} {b : BufferNo} {rest : List BufferNo} {stop : Option BufferNo}
    (h : pool.LinksTo b rest stop) : (pool.desc ((b :: rest).getLastD b)).next = stop := by
  induction rest generalizing b with
  | nil => exact h
  | cons c rest ih => exact ih h.2

/-- Where only the last buffer's link changes, the way is the same and stops where that link leads. -/
theorem Pool.LinksTo.of_last {pool pool' : Pool} {b : BufferNo} {rest : List BufferNo}
    {stop stop' : Option BufferNo} (h : pool.LinksTo b rest stop) (hn : (b :: rest).Nodup)
    (hlast : (pool'.desc ((b :: rest).getLastD b)).next = stop')
    (hsame : ∀ c ∈ b :: rest, c ≠ (b :: rest).getLastD b → (pool'.desc c).next = (pool.desc c).next) :
    pool'.LinksTo b rest stop' := by
  induction rest generalizing b with
  | nil => exact hlast
  | cons c rest ih =>
    have hb : b ≠ (c :: rest).getLastD c := by
      rintro hb
      refine (List.nodup_cons.mp hn).1 ?_
      rw [hb, List.getLastD_cons]
      exact List.getLastD_mem_cons ..
    have hgl : (b :: c :: rest).getLastD b = (c :: rest).getLastD c := rfl
    rw [hgl] at hlast hsame
    exact ⟨(hsame b List.mem_cons_self hb).trans h.1,
      ih h.2 (List.nodup_cons.mp hn).2 hlast fun d hd => hsame d (List.mem_cons_of_mem _ hd)⟩

/-- A list in which each buffer links to the one behind it. -/
theorem linksTo_of_getElem {pool : Pool} {b : BufferNo} {rest : List BufferNo}
    (h : ∀ k (hk : k < (b :: rest).length), (pool.desc (b :: rest)[k]).next = (b :: rest)[k + 1]?) :
    pool.LinksTo b rest none := by
  induction rest generalizing b with
  | nil => exact h 0 Nat.one_pos
  | cons c rest ih => exact ⟨h 0 (Nat.succ_pos _), ih fun k hk => h (k + 1) (Nat.succ_lt_succ hk)⟩

/-! ## Chains of heads (R79) -/

/-- The chain of a head is the way its links lead. -/
theorem ChainsSound.linksTo {pool : Pool} (hc : ChainsSound pool) {h : BufferNo} (hh : (pool.desc h).head = true) :
    ∃ rest, pool.chain h = h :: rest ∧ pool.LinksTo h rest none := by
  obtain ⟨-, -, hheads, -⟩ := hc
  obtain ⟨-, hlen⟩ := hheads h hh
  exact linksTo_of_walk (Nat.lt_of_le_of_lt hlen (by decide))

/-- A link stays within a chain. -/
theorem ChainsSound.mem_chain_iff_of_next {pool : Pool} (hc : ChainsSound pool) {h b c : BufferNo}
    (hh : (pool.desc h).head = true) (hn : (pool.desc b).next = some c) : b ∈ pool.chain h ↔ c ∈ pool.chain h := by
  obtain ⟨rest, hchain, hlinks⟩ := hc.linksTo hh
  obtain ⟨hlinked, hinj, -⟩ := hc
  rw [hchain]
  constructor
  · intro hb
    obtain hc | hstop := hlinks.next_mem hb hn
    · exact List.mem_cons_of_mem _ hc
    · cases hstop
  · intro hmem
    obtain rfl | hmem := List.mem_cons.mp hmem
    · rw [(hlinked b c hn).2.2] at hh
      cases hh
    · obtain ⟨d, hd, hlink⟩ := hlinks.exists_link hmem
      rwa [hinj b d c hn hlink]

/-- A buffer outside all chains links to nothing and is no head. -/
theorem ChainsSound.of_not_inChain {pool : Pool} (hc : ChainsSound pool) {b : BufferNo}
    (hb : (pool.desc b).place.inChain = false) : (pool.desc b).next = none ∧ (pool.desc b).head = false := by
  obtain ⟨hlinked, -, hheads, -⟩ := hc
  constructor
  · cases hn : (pool.desc b).next with
    | none => rfl
    | some c =>
      rw [(hlinked b c hn).1] at hb
      cases hb
  · cases hh : (pool.desc b).head with
    | false => rfl
    | true =>
      rw [(hheads b hh).1] at hb
      cases hb

/-- Every buffer of the chain of a head stands in a chain. -/
theorem ChainsSound.inChain_of_mem {pool : Pool} (hc : ChainsSound pool) {h b : BufferNo}
    (hh : (pool.desc h).head = true) (hb : b ∈ pool.chain h) : (pool.desc b).place.inChain = true := by
  obtain ⟨-, -, hheads, -⟩ := id hc
  obtain ⟨hin, -⟩ := hheads h hh
  rw [hc.place_of_mem_chain hb]
  exact hin

/-! ## Changes that leave the links -/

/-- Where links and heads stay, and no buffer of a chain changes its place. -/
theorem ChainsSound.of_links {pool pool' : Pool} (hc : ChainsSound pool)
    (hsame : ∀ b, (pool'.desc b).next = (pool.desc b).next ∧ (pool'.desc b).head = (pool.desc b).head)
    (hplace : ∀ b, (pool'.desc b).place = (pool.desc b).place
      ∨ (pool.desc b).place.inChain = false ∧ (pool'.desc b).place.inChain = false) : ChainsSound pool' := by
  obtain ⟨hlinked, hinj, hheads, hin⟩ := hc
  have hchain : ∀ b, pool'.chain b = pool.chain b := fun b => chain_congr fun c _ => (hsame c).1
  have hkept : ∀ b, (pool.desc b).place.inChain = true → (pool'.desc b).place = (pool.desc b).place := by
    intro b hb
    obtain heq | ⟨hnot, -⟩ := hplace b
    · exact heq
    · rw [hnot] at hb
      cases hb
  refine ⟨fun b c hn => ?_, fun a b c ha hb => ?_, fun b hb => ?_, fun b hb => ?_⟩
  · rw [(hsame b).1] at hn
    obtain ⟨hb, hsamePlace, hhead⟩ := hlinked b c hn
    rw [hkept b hb, hkept c (hsamePlace ▸ hb), (hsame c).2]
    exact ⟨hb, hsamePlace, hhead⟩
  · exact hinj a b c ((hsame a).1 ▸ ha) ((hsame b).1 ▸ hb)
  · obtain ⟨hbin, hlen⟩ := hheads b ((hsame b).2 ▸ hb)
    rw [hkept b hbin, hchain]
    exact ⟨hbin, hlen⟩
  · have hbin : (pool.desc b).place.inChain = true := by
      obtain heq | ⟨-, hnot⟩ := hplace b
      · rwa [← heq]
      · rw [hnot] at hb
        cases hb
    obtain ⟨h, hh, hmem⟩ := hin b hbin
    exact ⟨h, (hsame h).2.trans hh, (hchain h).symm ▸ hmem⟩

/-- One chain goes as a whole to another place in which chains stand (R91). -/
theorem ChainsSound.moved {pool pool' : Pool} (hc : ChainsSound pool) {h : BufferNo} {place : Place}
    (hh : (pool.desc h).head = true) (hm : pool.Moved pool' (pool.chain h) place) (hplace : place.inChain = true) :
    ChainsSound pool' := by
  obtain ⟨hdesc, -⟩ := hm
  have hsame : ∀ b, (pool'.desc b).next = (pool.desc b).next ∧ (pool'.desc b).head = (pool.desc b).head := by
    intro b
    rw [hdesc]
    split <;> exact ⟨rfl, rfl⟩
  have hpl : ∀ b, (pool'.desc b).place = if b ∈ pool.chain h then place else (pool.desc b).place := by
    intro b
    rw [hdesc]
    split <;> rfl
  have hinChain : ∀ b, (pool'.desc b).place.inChain = (pool.desc b).place.inChain := by
    intro b
    rw [hpl]
    split
    case isTrue hb => rw [hplace, hc.inChain_of_mem hh hb]
    case isFalse => rfl
  have hchain : ∀ b, pool'.chain b = pool.chain b := fun b => chain_congr fun c _ => (hsame c).1
  obtain ⟨hlinked, hinj, hheads, hin⟩ := id hc
  refine ⟨fun b c hn => ?_, fun a b c ha hb => ?_, fun b hb => ?_, fun b hb => ?_⟩
  · rw [(hsame b).1] at hn
    obtain ⟨hb, hsamePlace, hhead⟩ := hlinked b c hn
    refine ⟨(hinChain b).trans hb, ?_, (hsame c).2.trans hhead⟩
    rw [hpl, hpl, hsamePlace]
    exact if_congr (hc.mem_chain_iff_of_next hh hn).symm rfl rfl
  · exact hinj a b c ((hsame a).1 ▸ ha) ((hsame b).1 ▸ hb)
  · rw [hinChain, hchain]
    exact hheads b ((hsame b).2 ▸ hb)
  · obtain ⟨g, hg, hmem⟩ := hin b (hinChain b ▸ hb)
    exact ⟨g, (hsame g).2.trans hg, (hchain g).symm ▸ hmem⟩

/-! ## Giving back whole chains (R85, R92, R93) -/

/-- Whole chains are given back: every other chain stands as it was. -/
theorem ChainsSound.returned {pool pool' : Pool} (hc : ChainsSound pool) {hs : List BufferNo}
    (hh : ∀ h ∈ hs, (pool.desc h).head = true) (hr : pool.Returned pool' (hs.flatMap pool.chain)) :
    ChainsSound pool' := by
  have hback : ∀ b ∈ hs.flatMap pool.chain, (pool'.desc b).place.inChain = false
      ∧ (pool'.desc b).next = none ∧ (pool'.desc b).head = false := by
    intro b hb
    obtain ⟨hdesc, -⟩ := hr
    rw [hdesc, if_pos hb]
    refine ⟨?_, rfl, rfl⟩
    show Place.inChain (if _ then _ else _) = false
    split <;> rfl
  have hkept : ∀ b, b ∉ hs.flatMap pool.chain → pool'.desc b = pool.desc b := fun b hb => hr.desc_of_notMem hb
  have hclosed : ∀ b c, (pool.desc b).next = some c → b ∉ hs.flatMap pool.chain → c ∉ hs.flatMap pool.chain := by
    intro b c hn hb hcmem
    obtain ⟨h, hmem, hcm⟩ := List.mem_flatMap.mp hcmem
    exact hb (List.mem_flatMap.mpr ⟨h, hmem, (hc.mem_chain_iff_of_next (hh h hmem) hn).mpr hcm⟩)
  have hdisjoint : ∀ h b, (pool.desc h).head = true → b ∈ pool.chain h → b ∈ hs.flatMap pool.chain → h ∈ hs := by
    intro h b hhead hb hbs
    obtain ⟨g, hg, hbg⟩ := List.mem_flatMap.mp hbs
    rwa [hc.head_unique hhead (hh g hg) hb hbg]
  have hchain : ∀ h, (pool.desc h).head = true → h ∉ hs → pool'.chain h = pool.chain h :=
    fun h hhead hnot => hr.chain_eq fun b hb hbs => hnot (hdisjoint h b hhead hb hbs)
  have hheadKept : ∀ h, (pool.desc h).head = true → h ∉ hs → pool'.desc h = pool.desc h :=
    fun h hhead hnot => hkept h fun hbs => hnot (hdisjoint h h hhead (mem_chain_self pool h) hbs)
  obtain ⟨hlinked, hinj, hheads, hin⟩ := id hc
  have hout : ∀ b, (pool'.desc b).place.inChain = true ∨ (∃ c, (pool'.desc b).next = some c)
      ∨ (pool'.desc b).head = true → b ∉ hs.flatMap pool.chain := by
    intro b hb hbs
    obtain ⟨hpl, hnext, hhead⟩ := hback b hbs
    obtain hb | ⟨c, hb⟩ | hb := hb
    · rw [hpl] at hb; cases hb
    · rw [hnext] at hb; cases hb
    · rw [hhead] at hb; cases hb
  refine ⟨fun b c hn => ?_, fun a b c ha hb => ?_, fun b hb => ?_, fun b hb => ?_⟩
  · have hb := hout b (.inr (.inl ⟨c, hn⟩))
    rw [hkept b hb] at hn ⊢
    rw [hkept c (hclosed b c hn hb)]
    exact hlinked b c hn
  · have hao := hout a (.inr (.inl ⟨c, ha⟩))
    have hbo := hout b (.inr (.inl ⟨c, hb⟩))
    rw [hkept a hao] at ha
    rw [hkept b hbo] at hb
    exact hinj a b c ha hb
  · have hbo := hout b (.inr (.inr hb))
    rw [hkept b hbo] at hb ⊢
    have hnot : b ∉ hs := fun hmem => hbo (List.mem_flatMap.mpr ⟨b, hmem, mem_chain_self pool b⟩)
    rw [hchain b hb hnot]
    exact hheads b hb
  · have hbo := hout b (.inl hb)
    rw [hkept b hbo] at hb
    obtain ⟨h, hhead, hmem⟩ := hin b hb
    have hnot : h ∉ hs := fun hmemhs => hbo (List.mem_flatMap.mpr ⟨h, hmemhs, hmem⟩)
    exact ⟨h, by rw [hheadKept h hhead hnot]; exact hhead, by rw [hchain h hhead hnot]; exact hmem⟩

/-- The chain of a head goes back whole. -/
theorem ChainsSound.returned_giveBackChain {pool : Pool} (hc : ChainsSound pool) {h : BufferNo}
    (hh : (pool.desc h).head = true) : pool.Returned (pool.giveBackChain h) (pool.chain h) :=
  returned_foldl_giveBack (hc.chain_nodup hh) fun _ hb => hc.inChain_of_mem hh hb

theorem chainsSound_giveBackChain {pool : Pool} (hc : ChainsSound pool) {h : BufferNo}
    (hh : (pool.desc h).head = true) : ChainsSound (pool.giveBackChain h) :=
  hc.returned (hs := [h]) (by simpa using hh) (by simpa using hc.returned_giveBackChain hh)

theorem mem_heldHeads {pool : Pool} {p : Station} {h : BufferNo} :
    h ∈ pool.heldHeads p ↔ (pool.desc h).place = .held p ∧ (pool.desc h).head = true := by
  simp [Pool.heldHeads, Pool.holds]

/-- The chains of the heads that a station holds are exactly the buffers it holds. -/
theorem ChainsSound.mem_heldChains {pool : Pool} (hc : ChainsSound pool) {p : Station} (b : BufferNo) :
    b ∈ (pool.heldHeads p).flatMap pool.chain ↔ (pool.desc b).place = .held p := by
  rw [List.mem_flatMap]
  constructor
  · rintro ⟨h, hmem, hb⟩
    rw [hc.place_of_mem_chain hb]
    exact (mem_heldHeads.mp hmem).1
  · intro hb
    obtain ⟨-, -, -, hin⟩ := id hc
    obtain ⟨h, hh, hmem⟩ := hin b (by rw [hb]; rfl)
    exact ⟨h, mem_heldHeads.mpr ⟨(hc.place_of_mem_chain hmem).symm.trans hb, hh⟩, hmem⟩

/-- Where chains are sound, what a station holds goes back chain by chain (R93). -/
theorem ChainsSound.returned_releaseHeld {pool : Pool} (hc : ChainsSound pool) (p : Station) :
    pool.Returned (pool.releaseHeld p) ((pool.heldHeads p).flatMap pool.chain) :=
  Machine.returned_releaseHeld
    (hc.chains_nodup ((List.nodup_finRange 256).filter _) fun _ h => (mem_heldHeads.mp h).2) hc.mem_heldChains

theorem chainsSound_releaseHeld {pool : Pool} (hc : ChainsSound pool) (p : Station) :
    ChainsSound (pool.releaseHeld p) :=
  hc.returned (fun _ h => (mem_heldHeads.mp h).2) (hc.returned_releaseHeld p)

end Sys2Proof.Machine
end

section
/-! PROOFS. ACQUIRE, APPEND, scrubbing and a damaged flag leave chains sound (sections 5.1, 5.3, 5.7). -/

namespace Sys2Proof.Machine

/-! ## ACQUIRE (R81) -/

/-- The buffers of a new chain link as the list says. -/
theorem linksTo_linkChain (p : Station) (isHead : Bool) {b : BufferNo} {rest : List BufferNo} (pool : Pool)
    (hn : (b :: rest).Nodup) : (Pool.linkChain p isHead (b :: rest) pool).LinksTo b rest none :=
  linksTo_of_getElem fun k hk => (linkChain_links p isHead (b :: rest) pool hn k hk).1

/-- Where different buffers outside all chains become one chain, at most 8 of them, the chains stay sound. -/
theorem chainsSound_linkChain {pool : Pool} (hc : ChainsSound pool) (p : Station) {l : List BufferNo} (hn : l.Nodup)
    (hlen : l.length ≤ Config.maxChain) (hout : ∀ b ∈ l, (pool.desc b).place.inChain = false) :
    ChainsSound (Pool.linkChain p true l pool) := by
  obtain _ | ⟨x, rest⟩ := l
  · exact hc
  have hnew : ∀ k (hk : k < (x :: rest).length),
      (Pool.linkChain p true (x :: rest) pool).desc (x :: rest)[k]
        = ⟨.held p, (x :: rest)[k + 1]?, decide (k = 0), (pool.desc (x :: rest)[k]).damaged⟩ := by
    intro k hk
    rw [desc_linkChain p true pool hn hk, Bool.and_true]
  have hold : ∀ b, b ∉ x :: rest → (Pool.linkChain p true (x :: rest) pool).desc b = pool.desc b :=
    fun b hb => linkChain_other p true (x :: rest) pool hb
  have hlinks := linksTo_linkChain p true pool hn
  have hchain : (Pool.linkChain p true (x :: rest) pool).chain x = x :: rest :=
    hlinks.walk_eq (Nat.lt_of_lt_of_le (Nat.lt_of_succ_le hlen) (by decide))
  have hnotOld : ∀ b, (pool.desc b).place.inChain = true → b ∉ x :: rest := by
    intro b hb hmem
    rw [hout b hmem] at hb
    cases hb
  obtain ⟨hlinked, hinj, hheads, hin⟩ := id hc
  have hoff : ∀ b c, b ∉ x :: rest → (pool.desc b).next = some c → c ∉ x :: rest := by
    intro b c _ hbc
    obtain ⟨hb, hplace, -⟩ := hlinked b c hbc
    exact hnotOld c (hplace ▸ hb)
  have hoffChain : ∀ h, (pool.desc h).head = true →
      (Pool.linkChain p true (x :: rest) pool).chain h = pool.chain h :=
    fun h hh => chain_congr fun c hcm => by rw [hold c (hnotOld c (hc.inChain_of_mem hh hcm))]
  have hsucc : ∀ b c, b ∈ x :: rest → ((Pool.linkChain p true (x :: rest) pool).desc b).next = some c →
      ∃ k, ∃ hk : k < (x :: rest).length, (x :: rest)[k] = b ∧ (x :: rest)[k + 1]? = some c := by
    intro b c hb hbc
    obtain ⟨k, hk, rfl⟩ := List.getElem_of_mem hb
    rw [hnew k hk] at hbc
    exact ⟨k, hk, rfl, hbc⟩
  refine ⟨fun b c hbc => ?_, fun a b c ha hb => ?_, fun b hb => ?_, fun b hb => ?_⟩
  · by_cases hmem : b ∈ x :: rest
    · obtain ⟨k, hk, rfl, hcat⟩ := hsucc b c hmem hbc
      obtain ⟨hk', rfl⟩ := List.getElem?_eq_some_iff.mp hcat
      rw [hnew k hk, hnew (k + 1) hk']
      exact ⟨rfl, rfl, rfl⟩
    · rw [hold b hmem] at hbc ⊢
      rw [hold c (hoff b c hmem hbc)]
      exact hlinked b c hbc
  · by_cases hamem : a ∈ x :: rest <;> by_cases hbmem : b ∈ x :: rest
    · obtain ⟨k, hk, rfl, hkc⟩ := hsucc a c hamem ha
      obtain ⟨j, hj, rfl, hjc⟩ := hsucc b c hbmem hb
      obtain ⟨hk', hkc⟩ := List.getElem?_eq_some_iff.mp hkc
      obtain ⟨hj', hjc⟩ := List.getElem?_eq_some_iff.mp hjc
      have hsame : k + 1 = j + 1 := (hn.getElem_inj_iff).mp (hkc.trans hjc.symm)
      obtain rfl := Nat.succ.inj hsame
      rfl
    · obtain ⟨k, hk, -, hkc⟩ := hsucc a c hamem ha
      rw [hold b hbmem] at hb
      exact absurd (List.mem_of_getElem? hkc) (hoff b c hbmem hb)
    · obtain ⟨k, hk, -, hkc⟩ := hsucc b c hbmem hb
      rw [hold a hamem] at ha
      exact absurd (List.mem_of_getElem? hkc) (hoff a c hamem ha)
    · rw [hold a hamem] at ha
      rw [hold b hbmem] at hb
      exact hinj a b c ha hb
  · by_cases hmem : b ∈ x :: rest
    · obtain ⟨k, hk, rfl⟩ := List.getElem_of_mem hmem
      rw [hnew k hk] at hb ⊢
      obtain rfl : k = 0 := by simpa using hb
      refine ⟨rfl, ?_⟩
      rw [List.getElem_cons_zero, hchain]
      exact hlen
    · rw [hold b hmem] at hb ⊢
      rw [hoffChain b hb]
      exact hheads b hb
  · by_cases hmem : b ∈ x :: rest
    · refine ⟨x, ?_, hchain.symm ▸ hmem⟩
      have hx := hnew 0 (Nat.succ_pos _)
      rw [List.getElem_cons_zero] at hx
      rw [hx]
      rfl
    · rw [hold b hmem] at hb
      obtain ⟨h, hh, hbh⟩ := hin b hb
      refine ⟨h, ?_, (hoffChain h hh).symm ▸ hbh⟩
      rw [hold h (hnotOld h (hheads h hh).1)]
      exact hh

/-! ## APPEND (R84) -/

/-- The chain of a head is not empty and ends in a buffer that links to nothing. -/
theorem ChainsSound.chain_last {pool : Pool} (hc : ChainsSound pool) {a : BufferNo} (ha : (pool.desc a).head = true) :
    (pool.chain a).getLastD a ∈ pool.chain a ∧ (pool.desc ((pool.chain a).getLastD a)).next = none := by
  obtain ⟨rest, hchain, hlinks⟩ := hc.linksTo ha
  have hmem : (a :: rest).getLastD a ∈ a :: rest := by
    rw [List.getLastD_cons]
    exact List.getLastD_mem_cons ..
  rw [hchain]
  exact ⟨hmem, hlinks.last_next⟩

/-- Joining sets the link of the first chain's last buffer and clears the second head's flag. -/
theorem desc_join {pool : Pool} (hc : ChainsSound pool) {a b : BufferNo} (ha : (pool.desc a).head = true)
    (hb : (pool.desc b).head = true) (hne : a ≠ b) (x : BufferNo) :
    (pool.chain a).getLastD a ≠ b ∧
    (pool.join a b).desc x
      = if x = b then { pool.desc b with head := false }
        else if x = (pool.chain a).getLastD a then { pool.desc x with next := some b }
        else pool.desc x := by
  obtain ⟨hmem, -⟩ := hc.chain_last ha
  have hlast : (pool.chain a).getLastD a ≠ b := fun h =>
    hne (hc.head_unique ha hb (h ▸ hmem) (mem_chain_self pool b))
  refine ⟨hlast, ?_⟩
  rw [Pool.join, desc_setDesc, desc_setDesc, desc_setDesc, if_neg (Ne.symm hlast)]
  split
  · rfl
  · split
    case isTrue hx => rw [hx]
    case isFalse => rfl

/-- Two whole chains in one place, of at most 8 buffers together, become one whole chain. -/
theorem chainsSound_join {pool : Pool} (hc : ChainsSound pool) {a b : BufferNo} (ha : (pool.desc a).head = true)
    (hb : (pool.desc b).head = true) (hplace : (pool.desc a).place = (pool.desc b).place) (hne : a ≠ b)
    (hlen : (pool.chain a).length + (pool.chain b).length ≤ Config.maxChain) : ChainsSound (pool.join a b) := by
  have hdesc := fun x => (desc_join hc ha hb hne x).2
  have hlast := (desc_join hc ha hb hne a).1
  obtain ⟨hlastMem, hlastNext⟩ := hc.chain_last ha
  generalize hL : (pool.chain a).getLastD a = last at hdesc hlast hlastMem hlastNext
  have hnext : ∀ x, ((pool.join a b).desc x).next = if x = last then some b else (pool.desc x).next := by
    intro x
    rw [hdesc]
    by_cases hxb : x = b
    · rw [if_pos hxb, if_neg (fun h => hlast (h.symm.trans hxb)), hxb]
    · rw [if_neg hxb]
      split <;> rfl
  have hhead : ∀ x, ((pool.join a b).desc x).head = if x = b then false else (pool.desc x).head := by
    intro x
    rw [hdesc]
    split
    · rfl
    · split <;> rfl
  have hpl : ∀ x, ((pool.join a b).desc x).place = (pool.desc x).place := fun x => (join_places pool a b x).1
  obtain ⟨hlinked, hinj, hheads, hin⟩ := id hc
  obtain ⟨restA, hchainA, hlinksA⟩ := hc.linksTo ha
  obtain ⟨restB, hchainB, hlinksB⟩ := hc.linksTo hb
  have hnotB : ∀ x ∈ pool.chain b, x ≠ last := by
    rintro x hx rfl
    exact hne (hc.head_unique ha hb hlastMem hx)
  have hjoined : (pool.join a b).chain a = pool.chain a ++ pool.chain b := by
    have hfirst : (pool.join a b).LinksTo a restA (some b) := by
      refine hlinksA.of_last (hchainA ▸ hc.chain_nodup ha) ?_ fun c _ hcl => ?_
      · rw [← hchainA, hL, hnext, if_pos rfl]
      · rw [← hchainA, hL] at hcl
        rw [hnext, if_neg hcl]
    have hsecond : (pool.join a b).LinksTo b restB none :=
      hlinksB.congr fun c hcm => by rw [hnext, if_neg (hnotB c (hchainB ▸ hcm))]
    rw [hchainA, hchainB]
    refine (hfirst.append hsecond).walk_eq ?_
    rw [hchainA, hchainB] at hlen
    simp only [List.length_cons, List.length_append, Config.maxChain] at hlen ⊢
    omega
  have hother : ∀ h, (pool.desc h).head = true → h ≠ a → (pool.join a b).chain h = pool.chain h := by
    intro h hh hha
    refine chain_congr fun c hcm => ?_
    rw [hnext, if_neg]
    rintro rfl
    exact hha (hc.head_unique hh ha hcm hlastMem)
  have hheadA : ((pool.join a b).desc a).head = true := by rw [hhead, if_neg hne, ha]
  refine ⟨fun x c hxc => ?_, fun x y c hx hy => ?_, fun h hh => ?_, fun x hx => ?_⟩
  · rw [hpl, hpl, hhead]
    rw [hnext] at hxc
    split at hxc
    case isTrue hxl =>
      cases hxc
      have hsame : (pool.desc x).place = (pool.desc a).place := hc.place_of_mem_chain (hxl ▸ hlastMem)
      exact ⟨by rw [hsame]; exact (hheads a ha).1, by rw [hsame, hplace], if_pos rfl⟩
    case isFalse =>
      obtain ⟨hxin, hsame, hch⟩ := hlinked x c hxc
      refine ⟨hxin, hsame, ?_⟩
      split
      · rfl
      · exact hch
  · rw [hnext] at hx hy
    split at hx <;> split at hy
    case isTrue.isTrue hxl hyl => rw [hxl, hyl]
    case isTrue.isFalse => cases hx; exact absurd hy (hc.head_unlinked hb)
    case isFalse.isTrue => cases hy; exact absurd hx (hc.head_unlinked hb)
    case isFalse.isFalse => exact hinj x y c hx hy
  · rw [hhead] at hh
    split at hh
    · cases hh
    · rw [hpl]
      refine ⟨(hheads h hh).1, ?_⟩
      by_cases hha : h = a
      · rw [hha, hjoined, List.length_append]
        exact hlen
      · rw [hother h hh hha]
        exact (hheads h hh).2
  · rw [hpl] at hx
    obtain ⟨h, hh, hxh⟩ := hin x hx
    by_cases hhb : h = b
    · exact ⟨a, hheadA, by rw [hjoined]; exact List.mem_append_right _ (hhb ▸ hxh)⟩
    · refine ⟨h, by rw [hhead, if_neg hhb]; exact hh, ?_⟩
      by_cases hha : h = a
      · rw [hha, hjoined]
        exact List.mem_append_left _ (hha ▸ hxh)
      · rwa [hother h hh hha]

/-! ## Scrubbing and damage (R89, R96, R97) -/

/-- One buffer outside all chains gets a descriptor outside all chains. -/
theorem ChainsSound.setOutside {pool pool' : Pool} (hc : ChainsSound pool) {b : BufferNo} {d : Descriptor}
    (hdesc : ∀ x, pool'.desc x = (pool.setDesc b d).desc x) (hb : (pool.desc b).place.inChain = false)
    (hd : d.place.inChain = false) (hnext : d.next = none) (hhead : d.head = false) : ChainsSound pool' := by
  obtain ⟨hbn, hbh⟩ := hc.of_not_inChain hb
  refine hc.of_links (fun x => ?_) fun x => ?_
  · rw [hdesc, desc_setDesc]
    split
    case isTrue hx => rw [hx, hbn, hbh]; exact ⟨hnext, hhead⟩
    case isFalse => exact ⟨rfl, rfl⟩
  · rw [hdesc, desc_setDesc]
    split
    case isTrue hx => rw [hx]; exact .inr ⟨hb, hd⟩
    case isFalse => exact .inl rfl

theorem chainsSound_markDamaged {pool : Pool} (hc : ChainsSound pool) (b : BufferNo) :
    ChainsSound (pool.setDesc b { pool.desc b with damaged := true }) := by
  refine hc.of_links (fun x => ?_) fun x => .inl ?_
  · rw [desc_setDesc]
    split
    case isTrue hx => rw [hx]; exact ⟨rfl, rfl⟩
    case isFalse => exact ⟨rfl, rfl⟩
  · rw [desc_setDesc]
    split
    case isTrue hx => rw [hx]
    case isFalse => rfl

end Sys2Proof.Machine
end

section
/-! PROOFS. Each operation of the pool beside the number of inbox records that carry each chain, and how those numbers
change with the inboxes (sections 3.4, 5.1, 5.3). -/

namespace Sys2Proof.Machine

/-! ## A pool and the chains that are carried -/

/-- The chains are sound, and `n b` records carry the chain headed by `b`: one where it is ATTACHED (R77, R79). -/
def Pool.CarriesChains (pool : Pool) (n : BufferNo → Nat) : Prop :=
  ChainsSound pool ∧ ∀ b, n b = if (pool.desc b).place = .attached ∧ (pool.desc b).head = true then 1 else 0

/-- The pool is sound, and its chains are carried so. -/
def Pool.Carries (pool : Pool) (n : BufferNo → Nat) : Prop := PoolSound pool ∧ pool.CarriesChains n

/-- How often a record with this chain carries the chain headed by `b`. -/
def carriedBy (c : Option BufferNo) (b : BufferNo) : Nat := if c = some b then 1 else 0

theorem carriedBy_self (b : BufferNo) : carriedBy (some b) b = 1 := if_pos rfl

theorem carriedBy_ne {h b : BufferNo} (hb : b ≠ h) : carriedBy (some h) b = 0 :=
  if_neg fun e => hb (Option.some.inj e).symm

theorem carriedBy_none (b : BufferNo) : carriedBy none b = 0 := if_neg (by nofun)

/-- A chain that is carried is ATTACHED, and named by its head. -/
theorem Pool.CarriesChains.attached {pool : Pool} {n : BufferNo → Nat} (h : pool.CarriesChains n) {b : BufferNo}
    (hb : n b ≠ 0) : (pool.desc b).place = .attached ∧ (pool.desc b).head = true := by
  obtain ⟨-, hn⟩ := h
  by_contra hnot
  exact hb ((hn b).trans (if_neg hnot))

theorem Pool.CarriesChains.attached_of_carried {pool : Pool} {n n' : BufferNo → Nat} {h : BufferNo}
    (hp : pool.CarriesChains n) (hn : ∀ b, n b = n' b + carriedBy (some h) b) :
    (pool.desc h).place = .attached ∧ (pool.desc h).head = true :=
  hp.attached (by rw [hn, carriedBy_self]; exact Nat.succ_ne_zero _)

/-- In the chain of a head there is no other head. -/
theorem ChainsSound.eq_of_head_mem {pool : Pool} (hc : ChainsSound pool) {h b : BufferNo}
    (hh : (pool.desc h).head = true) (hb : b ∈ pool.chain h) (hbh : (pool.desc b).head = true) : b = h :=
  hc.head_unique hbh hh (mem_chain_self pool b) hb

/-- Operations that make no chain ATTACHED and take none that is. -/
theorem Pool.Carries.of_sound {pool pool' : Pool} {n : BufferNo → Nat} (h : pool.Carries n) (hs : PoolSound pool')
    (hc : ChainsSound pool')
    (hsame : ∀ b, ((pool'.desc b).place = .attached ∧ (pool'.desc b).head = true)
      ↔ ((pool.desc b).place = .attached ∧ (pool.desc b).head = true)) : pool'.Carries n := by
  obtain ⟨-, -, hn⟩ := h
  exact ⟨hs, hc, fun b => (hn b).trans (if_congr (hsame b).symm rfl rfl)⟩

/-- Where every buffer that changes was not ATTACHED and is not. -/
theorem Pool.Carries.of_unattached {pool pool' : Pool} {n : BufferNo → Nat} (h : pool.Carries n) (hs : PoolSound pool')
    (hc : ChainsSound pool')
    (hsame : ∀ b, pool'.desc b = pool.desc b
      ∨ (pool.desc b).place ≠ .attached ∧ (pool'.desc b).place ≠ .attached) : pool'.Carries n :=
  h.of_sound hs hc fun b => by
    obtain heq | ⟨hold, hnew⟩ := hsame b
    · rw [heq]
    · exact iff_of_false (fun k => hnew k.1) fun k => hold k.1

/-- One chain that was carried once is carried no more, and no buffer of it is ATTACHED. -/
theorem Pool.CarriesChains.dropped {pool pool' : Pool} {n n' : BufferNo → Nat} {h : BufferNo}
    (hp : pool.CarriesChains n) (hn : ∀ b, n b = n' b + carriedBy (some h) b) (hc : ChainsSound pool')
    (hoff : ∀ b ∈ pool.chain h, (pool'.desc b).place ≠ .attached)
    (hsame : ∀ b, b ∉ pool.chain h → pool'.desc b = pool.desc b) : pool'.CarriesChains n' := by
  have hhead := hp.attached_of_carried hn
  obtain ⟨hchains, hcount⟩ := hp
  refine ⟨hc, fun b => ?_⟩
  have hb := hcount b
  rw [hn] at hb
  by_cases hmem : b ∈ pool.chain h
  · rw [if_neg fun k => hoff b hmem k.1]
    by_cases hbh : b = h
    · subst hbh
      rw [carriedBy_self, if_pos hhead] at hb
      exact Nat.succ.inj hb
    · rw [if_neg fun k => hbh (hchains.eq_of_head_mem hhead.2 hmem k.2)] at hb
      exact (Nat.add_eq_zero_iff.mp hb).1
  · have hbh : b ≠ h := by rintro rfl; exact hmem (mem_chain_self pool b)
    rw [hsame b hmem, ← hb, carriedBy_ne hbh, Nat.add_zero]

/-- The discard of a carried chain (R92). -/
theorem Pool.CarriesChains.discard {pool : Pool} {n n' : BufferNo → Nat} {c : Option BufferNo}
    (hp : pool.CarriesChains n) (hn : ∀ b, n b = n' b + carriedBy c b) : (pool.discard c).CarriesChains n' := by
  cases c with
  | none =>
    have hsame : n = n' := funext fun b => by rw [hn, carriedBy_none, Nat.add_zero]
    exact hsame ▸ hp
  | some h =>
    obtain ⟨-, hhead⟩ := hp.attached_of_carried hn
    obtain ⟨hc, -⟩ := id hp
    have hback := hc.returned_giveBackChain hhead
    refine hp.dropped hn (chainsSound_giveBackChain hc hhead) (fun b hb => ?_) fun b hb => hback.desc_of_notMem hb
    obtain ⟨hdesc, -⟩ := hback
    rw [show (pool.discard (some h)).desc b = _ from hdesc b, if_pos hb]
    show (if _ then _ else _) ≠ Place.attached
    split <;> nofun

theorem Pool.Carries.discard {pool : Pool} {n n' : BufferNo → Nat} {c : Option BufferNo} (hp : pool.Carries n)
    (hn : ∀ b, n b = n' b + carriedBy c b) : (pool.discard c).Carries n' := by
  obtain ⟨hs, hcarries⟩ := hp
  exact ⟨poolSound_discard hs c, hcarries.discard hn⟩

/-- The discard of the chains of records, one after the other (R56). -/
theorem Pool.Carries.discardAll {l : List Record} {pool : Pool} {n n' : BufferNo → Nat} (hp : pool.Carries n)
    (hn : ∀ b, n b = n' b + l.countP fun r => decide (r.chain = some b)) :
    (l.foldl (fun pool r => pool.discard r.chain) pool).Carries n' := by
  induction l generalizing pool n with
  | nil => exact (funext hn : n = n') ▸ hp
  | cons r l ih =>
    refine ih (n := fun b => n' b + l.countP fun r => decide (r.chain = some b)) (hp.discard fun b => ?_) fun _ => rfl
    rw [hn, List.countP_cons, Nat.add_assoc, carriedBy]
    simp only [decide_eq_true_eq]

/-- The chain of a taken record is taken up (R91). -/
theorem Pool.Carries.takeUp {pool : Pool} {n n' : BufferNo → Nat} {c : Option BufferNo} (hp : pool.Carries n)
    (p : Station) (hn : ∀ b, n b = n' b + carriedBy c b) : (pool.takeUpChain p c).Carries n' := by
  cases c with
  | none =>
    have hsame : n = n' := funext fun b => by rw [hn, carriedBy_none, Nat.add_zero]
    exact hsame ▸ hp
  | some h =>
    obtain ⟨hs, hcarries⟩ := hp
    obtain ⟨hplace, hhead⟩ := hcarries.attached_of_carried hn
    obtain ⟨hc, -⟩ := id hcarries
    have hmoved := moved_takeUpChain (c := some h) p fun b hb => (hc.place_of_mem_chain hb).trans hplace
    refine ⟨poolSound_takeUpChain hs p (some h),
      hcarries.dropped hn (hc.moved hhead hmoved rfl) (fun b hb => ?_) fun b hb => ?_⟩
    · rw [hmoved.1, if_pos (show b ∈ pool.chainOf (some h) from hb)]
      nofun
    · rw [hmoved.1, if_neg (show b ∉ pool.chainOf (some h) from hb)]

/-- What the checks of POST and REPLY say of a chain (R25): a whole chain HELD by one station, without damage. -/
def Pool.Sendable (pool : Pool) (c : Option BufferNo) : Prop :=
  ∀ h, c = some h → (pool.desc h).head = true ∧ (∃ p, ∀ b ∈ pool.chain h, (pool.desc b).place = .held p)
    ∧ ∀ b ∈ pool.chain h, (pool.desc b).damaged = false

theorem sendable_none (pool : Pool) : pool.Sendable none := nofun

theorem sendable_of_checks {pool : Pool} {p : Station} {pl : Payload} (hfits : pool.payloadFits p pl = true)
    (hdamaged : pool.payloadDamaged pl = false) : pool.Sendable pl.chain := by
  intro h hh
  refine ⟨?_, ⟨p, fun b hb => held_of_payloadFits hfits b (mem_chainOf.mpr ⟨h, hh, hb⟩)⟩,
    payloadDamaged_false hdamaged hh⟩
  simp only [Pool.payloadFits, hh, Pool.chainFits, Bool.and_eq_true] at hfits
  obtain ⟨⟨⟨-, hhead⟩, -⟩, -⟩ := hfits
  exact hhead

/-- The chain of a sent payload is attached, and one record more carries it (R91). -/
theorem Pool.Carries.attach {pool : Pool} {n n' : BufferNo → Nat} {c : Option BufferNo} (hp : pool.Carries n)
    (hsend : pool.Sendable c) (hn : ∀ b, n' b = n b + carriedBy c b) : (pool.attachChain c).Carries n' := by
  cases c with
  | none =>
    have hsame : n' = n := funext fun b => by rw [hn, carriedBy_none, Nat.add_zero]
    exact hsame ▸ hp
  | some h =>
    obtain ⟨hhead, ⟨p, hheld⟩, hclear⟩ := hsend h rfl
    obtain ⟨hs, hc, hcount⟩ := hp
    have hmoved := moved_attachChain (c := some h) hheld
    refine ⟨poolSound_foldl_attach hs hclear, hc.moved hhead hmoved rfl, fun b => ?_⟩
    rw [hn, hmoved.1]
    by_cases hb : b ∈ pool.chain h
    · have hzero : n b = 0 := by
        rw [hcount, hheld b hb]
        exact if_neg fun k => nomatch k.1
      rw [hzero, if_pos (show b ∈ pool.chainOf (some h) from hb)]
      by_cases hbh : b = h
      · rw [hbh, carriedBy_self, if_pos ⟨rfl, hhead⟩]
      · rw [carriedBy_ne hbh, if_neg fun k => hbh (hc.eq_of_head_mem hhead hb k.2)]
    · have hbh : b ≠ h := by rintro rfl; exact hb (mem_chain_self pool b)
      rw [hcount, if_neg (show b ∉ pool.chainOf (some h) from hb), carriedBy_ne hbh, Nat.add_zero]

/-- A chain that a station holds is given back (R85). -/
theorem Pool.Carries.release {pool : Pool} {n : BufferNo → Nat} (hp : pool.Carries n) {p : Station} {h : BufferNo}
    (hh : pool.isHeldHead p h = true) : (pool.giveBackChain h).Carries n := by
  obtain ⟨hplace, hhead⟩ := isHeldHead_iff.mp hh
  obtain ⟨hs, hc, -⟩ := id hp
  have hback := hc.returned_giveBackChain hhead
  refine hp.of_unattached (poolSound_giveBackChain hs h) (chainsSound_giveBackChain hc hhead) fun b => ?_
  by_cases hb : b ∈ pool.chain h
  · right
    rw [hc.place_of_mem_chain hb, hplace, hback.1, if_pos hb]
    refine ⟨nofun, ?_⟩
    show (if _ then _ else _) ≠ Place.attached
    split <;> nofun
  · exact .inl (hback.desc_of_notMem hb)

/-- All that a station holds is given back (R93). -/
theorem Pool.Carries.releaseHeld {pool : Pool} {n : BufferNo → Nat} (hp : pool.Carries n) (p : Station) :
    (pool.releaseHeld p).Carries n := by
  obtain ⟨hs, hc, -⟩ := id hp
  have hback := hc.returned_releaseHeld p
  refine hp.of_unattached (poolSound_releaseHeld hs p) (chainsSound_releaseHeld hc p) fun b => ?_
  by_cases hb : b ∈ (pool.heldHeads p).flatMap pool.chain
  · right
    rw [(hc.mem_heldChains b).mp hb, hback.1, if_pos hb]
    refine ⟨nofun, ?_⟩
    show (if _ then _ else _) ≠ Place.attached
    split <;> nofun
  · exact .inl (hback.desc_of_notMem hb)

/-- Free buffers become one chain HELD by a station (R81). -/
theorem Pool.Carries.acquire {pool : Pool} {n : BufferNo → Nat} (hp : pool.Carries n) (p : Station) {k : Nat}
    (hk : k ≤ Config.maxChain) : (pool.acquire p k).Carries n := by
  obtain ⟨hs, hc, -⟩ := id hp
  obtain ⟨hfree, -, hplace, -⟩ := id hs
  have hfreePlace : ∀ b ∈ pool.free.take k, (pool.desc b).place = .free :=
    fun b hb => (hplace b).mp (List.mem_of_mem_take hb)
  have hlen : (pool.free.take k).length ≤ Config.maxChain := (List.length_take_le k pool.free).trans hk
  refine hp.of_unattached (poolSound_acquire hs p k) ?_ fun b => ?_
  · refine chainsSound_linkChain (pool := { pool with free := pool.free.drop k })
      (hc.of_links (fun _ => ⟨rfl, rfl⟩) fun _ => .inl rfl) p
      (hfree.sublist (List.take_sublist ..)) hlen fun b hb => ?_
    have hplaceb := hfreePlace b hb
    exact congrArg Place.inChain hplaceb
  · rw [Pool.acquire]
    by_cases hb : b ∈ pool.free.take k
    · right
      rw [hfreePlace b hb, (linkChain_mem p true _ _ hb).1]
      exact ⟨nofun, nofun⟩
    · exact .inl (linkChain_other p true _ _ hb)

/-- Two chains that a station holds become one (R84). -/
theorem Pool.Carries.join {pool : Pool} {n : BufferNo → Nat} (hp : pool.Carries n) {p : Station} {a b : BufferNo}
    (hne : a ≠ b) (ha : pool.isHeldHead p a = true) (hb : pool.isHeldHead p b = true)
    (hlen : (pool.chain a).length + (pool.chain b).length ≤ Config.maxChain) : (pool.join a b).Carries n := by
  obtain ⟨haplace, hahead⟩ := isHeldHead_iff.mp ha
  obtain ⟨hbplace, hbhead⟩ := isHeldHead_iff.mp hb
  obtain ⟨hs, hc, -⟩ := id hp
  refine hp.of_sound (poolSound_join hs a b)
    (chainsSound_join hc hahead hbhead (haplace.trans hbplace.symm) hne hlen) fun x => ?_
  rw [(join_places pool a b x).1, (desc_join hc hahead hbhead hne x).2]
  refine and_congr_right fun hx => ?_
  have hxb : x ≠ b := by rintro rfl; rw [hbplace] at hx; cases hx
  rw [if_neg hxb]
  split <;> rfl

/-- A HELD buffer is found damaged (R89). -/
theorem Pool.Carries.markDamaged {pool : Pool} {n : BufferNo → Nat} (hp : pool.Carries n) {p : Station} {b : BufferNo}
    (hb : pool.holds p b = true) : (pool.setDesc b { pool.desc b with damaged := true }).Carries n := by
  obtain ⟨hs, hc, -⟩ := id hp
  refine hp.of_sound (poolSound_markDamaged hs hb) (chainsSound_markDamaged hc b) fun x => ?_
  rw [desc_setDesc]
  split
  case isTrue hx => rw [hx]
  case isFalse => rfl

/-- A buffer outside all chains gets a descriptor outside all chains. -/
theorem Pool.Carries.setOutside {pool pool' : Pool} {n : BufferNo → Nat} (hp : pool.Carries n) (hs : PoolSound pool')
    {b : BufferNo} {d : Descriptor} (hdesc : ∀ x, pool'.desc x = (pool.setDesc b d).desc x)
    (hb : (pool.desc b).place.inChain = false) (hd : d.place.inChain = false) (hnext : d.next = none)
    (hhead : d.head = false) : pool'.Carries n := by
  obtain ⟨-, hc, -⟩ := id hp
  refine hp.of_unattached hs (hc.setOutside hdesc hb hd hnext hhead) fun x => ?_
  have hnot : ∀ pl : Place, pl.inChain = false → pl ≠ .attached := by rintro _ h rfl; cases h
  rw [hdesc, desc_setDesc]
  split
  case isTrue hx => rw [hx]; exact .inr ⟨hnot _ hb, hnot _ hd⟩
  case isFalse => exact .inl rfl

/-- The head of the damaged list enters the engine (R96). -/
theorem Pool.Carries.startScrub {pool : Pool} {n : BufferNo → Nat} (hp : pool.Carries n) {p : Station} {b : BufferNo}
    {rest : List BufferNo} (hl : pool.damaged = b :: rest) (hbusy : pool.scrub.busy = false) :
    (pool.startScrub p b rest).Carries n := by
  obtain ⟨hs, hc, -⟩ := id hp
  obtain ⟨-, -, -, hlist, -⟩ := id hs
  have hb : (pool.desc b).place.inChain = false := by
    rw [(hlist b).mp (hl ▸ List.mem_cons_self)]
    rfl
  obtain ⟨hnext, hhead⟩ := hc.of_not_inChain hb
  exact hp.setOutside (poolSound_startScrub hs hl hbusy) (d := { pool.desc b with place := .scrubbing })
    (fun _ => rfl) hb rfl hnext hhead

/-- The buffer in the engine leaves it, free or retired (R97). -/
theorem Pool.Carries.finishScrub {pool : Pool} {n : BufferNo → Nat} (hp : pool.Carries n) {b : BufferNo}
    (hbusy : pool.scrub.busy = true) (hbuf : pool.scrub.buffer = some b) (readBack : Vector MemWord 32) :
    (pool.finishScrub b readBack).Carries n := by
  obtain ⟨hs, -, -⟩ := id hp
  have hsound := poolSound_finishScrub hs hbusy hbuf readBack
  obtain ⟨-, -, -, -, hengine, -⟩ := id hs
  have hb : (pool.desc b).place.inChain = false := by
    rw [(hengine b).mpr ⟨hbusy, hbuf⟩]
    rfl
  obtain ⟨-, heq⟩ | ⟨-, heq⟩ := finishScrub_cases pool b readBack
  · rw [heq] at hsound ⊢
    exact hp.setOutside hsound (d := ⟨.free, none, false, false⟩) (fun _ => rfl) hb rfl rfl rfl
  · rw [heq] at hsound ⊢
    exact hp.setOutside hsound (d := ⟨.retired, none, false, true⟩) (fun _ => rfl) hb rfl rfl rfl

/-- The reset condition: every buffer FREE, and no chain carried (R99). -/
theorem carries_resetOver (m : Memory) : (Pool.resetOver m).Carries fun _ => 0 := by
  have hdesc : ∀ b, (Pool.resetOver m).desc b = Descriptor.reset := fun b => by
    simp [Pool.resetOver, Pool.desc]
  refine ⟨poolSound_resetOver m, ⟨fun b c hn => ?_, fun a b c ha => ?_, fun b hb => ?_, fun b hb => ?_⟩, fun b => ?_⟩
  · rw [hdesc] at hn; cases hn
  · rw [hdesc] at ha; cases ha
  · rw [hdesc] at hb; cases hb
  · rw [hdesc] at hb; cases hb
  · rw [hdesc]
    rfl

/-! ## Carriers (R77, R79) -/

/-- How many records of a list carry the chain headed by `b`. -/
def chainsIn (l : List Record) (b : BufferNo) : Nat := l.countP fun r => decide (r.chain = some b)

theorem chainsIn_append_singleton (l : List Record) (r : Record) (b : BufferNo) :
    chainsIn (l ++ [r]) b = chainsIn l b + carriedBy r.chain b := by
  simp [chainsIn, carriedBy, List.countP_append, List.countP_singleton]

theorem chainsIn_cons (r : Record) (l : List Record) (b : BufferNo) :
    chainsIn (r :: l) b = chainsIn l b + carriedBy r.chain b := by
  simp [chainsIn, carriedBy, List.countP_cons]

/-- The carriers of a chain, as a sum over the stations. -/
theorem carriers_eq_sum (s : State) (b : BufferNo) : s.carriers b = ∑ q, chainsIn (s.port q).inbox b := by
  have hall : List.finRange 4 = [0, 1, 2, 3] := rfl
  simp only [State.carriers, hall, List.map_cons, List.map_nil, List.sum_cons, List.sum_nil, Fin.sum_univ_four,
    chainsIn]
  omega

theorem carriers_congr {s t : State} (h : ∀ q, (t.port q).inbox = (s.port q).inbox) : t.carriers = s.carriers := by
  funext b
  simp only [carriers_eq_sum, h]

/-- Where one inbox loses carriers and one gains some, the carriers change by as much. -/
theorem carriers_shift {s t : State} {b : BufferNo} (d r : Station) {lost gained : Nat}
    (h : ∀ q, chainsIn (t.port q).inbox b + (if q = d then lost else 0)
      = chainsIn (s.port q).inbox b + if q = r then gained else 0) :
    t.carriers b + lost = s.carriers b + gained := by
  have hsum := Finset.sum_congr (rfl : (Finset.univ : Finset Station) = _) fun q _ => h q
  simpa [Finset.sum_add_distrib, ← carriers_eq_sum] using hsum

end Sys2Proof.Machine
end

section
/-! PROOFS. O57, effect by effect: what each command and event does to the inboxes, beside what it does to the pool
(sections 3.4, 5.1, 5.3). -/

namespace Sys2Proof.Machine

/-- What O57 speaks of: the pool and its chains are sound, and each ATTACHED chain is carried once. -/
def Whereabouts (s : State) : Prop := s.pool.Carries s.carriers

/-- Where no inbox changes and the pool's operation leaves what is carried. -/
theorem Whereabouts.of_inboxes {s t : State} (h : t.pool.Carries s.carriers)
    (hi : ∀ q, (t.port q).inbox = (s.port q).inbox) : Whereabouts t := by
  unfold Whereabouts
  rwa [carriers_congr hi]

theorem Whereabouts.of_same {s t : State} (h : Whereabouts s) (hp : t.pool = s.pool)
    (hi : ∀ q, (t.port q).inbox = (s.port q).inbox) : Whereabouts t :=
  .of_inboxes (hp ▸ h) hi

/-- The memory words have no part in where the buffers are. -/
theorem Pool.Carries.withMem {pool : Pool} {n : BufferNo → Nat} (h : pool.Carries n) (m : Memory) :
    ({ pool with mem := m } : Pool).Carries n := by
  obtain ⟨hs, hc, hn⟩ := h
  exact ⟨poolSound_withMem hs m, hc.of_links (fun _ => ⟨rfl, rfl⟩) fun _ => .inl rfl, hn⟩

/-! ## Endings (R13, R91, R92) -/

/-- The record that a withdrawal takes out carries its chain no more. -/
theorem chainsIn_withoutRequest (x : XNum) (l : List Record) (b : BufferNo) :
    chainsIn (withoutRequest x l) b
      + carriedBy ((l.find? fun r => decide (r.requestOf = some x)).bind Record.chain) b = chainsIn l b := by
  induction l with
  | nil => rfl
  | cons r l ih =>
    by_cases hr : r.requestOf = some x
    · rw [withoutRequest, List.eraseP_cons_of_pos (by simpa using hr), List.find?_cons_of_pos (by simpa using hr),
        Option.bind_some, chainsIn_cons]
    · rw [withoutRequest, List.eraseP_cons_of_neg (by simpa using hr), List.find?_cons_of_neg (by simpa using hr),
        chainsIn_cons, chainsIn_cons, Nat.add_right_comm, ← ih]
      rfl

theorem carriers_endWithdraw (s : State) (i : SlotNo) (b : BufferNo) :
    (s.endWithdraw i).carriers b + carriedBy (endedChain s i) b = s.carriers b := by
  refine carriers_shift (s := s) (gained := 0) (s.slot i).dest 0 fun q => ?_
  rw [port_endWithdraw, ite_self, Nat.add_zero]
  cases hstate : (s.slot i).state with
  | opened =>
    by_cases hq : q = (s.slot i).dest
    · simp only [hq, true_and, if_true, endedChain, hstate, Port.findRequest]
      exact chainsIn_withoutRequest ..
    · simp [hq]
  | free => simp [endedChain, hstate, carriedBy_none]
  | taken => simp [endedChain, hstate, carriedBy_none]

theorem outcomeRecord_chain (e : Ending) (sl : Slot) (x : XNum) (now : Tick) :
    (e.outcomeRecord sl x now).bind Record.chain = e.chain := by
  cases e <;> rfl

theorem carriers_endOutcome (s : State) (i : SlotNo) (e : Ending) (b : BufferNo) :
    (s.endOutcome i e).carriers b = s.carriers b + carriedBy e.chain b := by
  refine carriers_shift (lost := 0) 0 (s.slot i).requester fun q => ?_
  rw [port_endOutcome, ite_self, Nat.add_zero, ← outcomeRecord_chain e (s.slot i) (s.xnum i) s.tickCount]
  split
  · cases e.outcomeRecord (s.slot i) (s.xnum i) s.tickCount with
    | none => simp [carriedBy_none]
    | some r => exact chainsIn_append_singleton ..
  · simp

/-- An ending withdraws one chain and discards it, and attaches one for the record it places. -/
theorem Whereabouts.endExchange {s : State} (h : Whereabouts s) (i : SlotNo) (e : Ending)
    (hsend : (s.pool.discard (endedChain s i)).Sendable e.chain) : Whereabouts (s.endExchange i e) := by
  by_cases hi : (s.slot i).state = .free
  · rwa [endExchange_of_free e hi]
  · have hwithdrawn : (s.endWithdraw i).pool.Carries (s.endWithdraw i).carriers := by
      rw [endWithdraw_pool]
      exact Pool.Carries.discard h fun b => (carriers_endWithdraw s i b).symm
    have hended : ((s.endWithdraw i).endOutcome i e).pool.Carries ((s.endWithdraw i).endOutcome i e).carriers := by
      rw [endOutcome_pool]
      exact hwithdrawn.attach (by rwa [endWithdraw_pool]) (carriers_endOutcome _ i e)
    rw [endExchange_of_used e hi, State.freeSlot]
    refine Whereabouts.of_same hended (endJournals_pool ..) fun q => ?_
    rw [port_setSlot, port_endJournals]

theorem Whereabouts.lapse {s : State} (h : Whereabouts s) (i : SlotNo) (kind : Lapse) :
    Whereabouts (s.endExchange i (.lapsed kind)) := h.endExchange i _ (sendable_none _)

/-! ## POST, NOTIFY and TAKE (R28, R41, R53) -/

theorem Whereabouts.acceptPost {s : State} (h : Whereabouts s) {p : Station} {plan : PostPlan}
    (hok : s.postCheck p = .ok plan) : Whereabouts (s.acceptPost p plan) := by
  obtain ⟨-, -, -, hfits, hdamaged, -⟩ := postCheck_ok hok
  refine Pool.Carries.attach h (sendable_of_checks hfits hdamaged) fun b => ?_
  refine carriers_shift (lost := 0) 0 plan.dest fun q => ?_
  rw [port_acceptPost, ite_self, Nat.add_zero]
  show chainsIn (if q = plan.dest then (s.port q).inbox ++ [s.postRecord p plan] else (s.port q).inbox) b = _
  split
  · exact chainsIn_append_singleton ..
  · rfl

/-- Records without a chain carry none. -/
theorem Whereabouts.placeNotices {s : State} (h : Whereabouts s) {r : Record} (hr : r.chain = none)
    (set : StationSet) : Whereabouts (s.placeNotices r (membersOf set)) := by
  have hcarriers : (s.placeNotices r (membersOf set)).carriers = s.carriers := by
    funext b
    simp only [carriers_eq_sum]
    refine Finset.sum_congr rfl fun q _ => ?_
    rw [port_placeNotices s r (membersOf_nodup set)]
    split
    · rw [chainsIn_append_singleton, hr, carriedBy_none, Nat.add_zero]
    · rfl
  unfold Whereabouts
  rwa [hcarriers, placeNotices_pool]

theorem Whereabouts.acceptTake {s : State} (h : Whereabouts s) {p : Station} {r : Record} {rest : List Record}
    (hinbox : (s.port p).inbox = r :: rest) : Whereabouts (s.acceptTake p r rest) := by
  unfold Whereabouts
  rw [acceptTake_pool]
  refine Pool.Carries.takeUp h p fun b => ?_
  refine (carriers_shift (s := s) (gained := 0) p 0 fun q => ?_).symm
  rw [ite_self, Nat.add_zero]
  by_cases hq : q = p
  · rw [if_pos hq, hq, port_acceptTake_self, hinbox, chainsIn_cons]
  · rw [if_neg hq, port_acceptTake_ne s r rest hq, Nat.add_zero]

/-! ## Teardown (R133) -/

theorem carriers_discardInbox (s : State) (p : Station) (b : BufferNo) :
    (s.discardInbox p).carriers b + chainsIn (s.port p).inbox b = s.carriers b := by
  refine carriers_shift (s := s) (gained := 0) p 0 fun q => ?_
  rw [ite_self, Nat.add_zero, port_discardInbox]
  split
  case isTrue hq => rw [hq]; exact Nat.zero_add _
  case isFalse => rfl

theorem Whereabouts.discardInbox {s : State} (h : Whereabouts s) (p : Station) : Whereabouts (s.discardInbox p) := by
  unfold Whereabouts
  rw [discardInbox_pool]
  exact Pool.Carries.discardAll h fun b => (carriers_discardInbox s p b).symm

/-- A port is cleared whose inbox is empty, and its held buffers go back. -/
theorem Whereabouts.tearPort {s : State} (h : Whereabouts s) {p : Station} (hempty : (s.port p).inbox = []) :
    Whereabouts (s.tearPort p) := by
  refine .of_inboxes (Pool.Carries.releaseHeld h p) fun q => ?_
  rw [port_tearPort]
  split_ifs with hq
  · rw [toReset_inbox, hq, hempty]
  · rfl
  · rfl

theorem Whereabouts.tornDown {s : State} (h : Whereabouts s) (p : Station) : Whereabouts (s.tornDown p) := by
  have hslots : Whereabouts (s.tearSlots p) :=
    tearSlots_keeps Whereabouts p h (fun _ i hu _ _ => hu.endExchange i _ (sendable_none _))
      fun _ i hu _ _ _ => hu.lapse i _
  unfold State.tornDown
  generalize s.tearSlots p = u at hslots ⊢
  refine (hslots.discardInbox p).tearPort ?_
  rw [port_discardInbox, if_pos rfl]

/-! ## Every step -/

theorem whereabouts_masterCleared (s : State) : Whereabouts s.masterCleared := by
  have hnone : s.masterCleared.carriers = fun _ => 0 := by
    funext b
    rw [carriers_eq_sum]
    refine Finset.sum_eq_zero fun q _ => ?_
    rw [port_masterCleared]
    rfl
  unfold Whereabouts
  rw [hnone]
  exact carries_resetOver _

theorem whereabouts_kept : Kept Whereabouts where
  queue _ _ h := h
  access s p a h _ := h.of_same rfl fun q => by rw [port_modPort]; split <;> rfl
  registers s p q h hq := by
    obtain ⟨-, -, -, hinbox, -⟩ := hq
    refine h.of_same rfl fun r => ?_
    rw [port_setPort]
    split
    case isTrue hr => rw [hr]; exact hinbox
    case isFalse => rfl
  post _ _ _ h hok := h.acceptPost hok
  reply s p ps h hok := by
    obtain ⟨-, -, hmatches, hfits, hdamaged⟩ := replyCheck_ok hok
    obtain ⟨htaken, -⟩ := replyMatches_iff.mp hmatches
    have hwithdrawn : endedChain s ps.x.slot = none := by rw [endedChain, htaken]
    refine h.endExchange _ _ ?_
    rw [hwithdrawn]
    exact sendable_of_checks hfits hdamaged
  cancel _ _ _ i h _ _ := h.lapse i _
  notify _ _ _ set _ h _ _ _ _ := h.placeNotices rfl set
  take _ _ _ _ h _ hinbox := h.acceptTake hinbox
  acquire _ p _ h _ _ hk _ _ := Pool.Carries.acquire h p hk
  release _ _ _ h _ hh := Pool.Carries.release h hh
  append _ _ _ _ h _ hne ha hb hlen := Pool.Carries.join h hne ha hb hlen
  scrub _ _ _ _ h _ hl hbusy := Pool.Carries.startScrub h hl hbusy
  setRoute s p v e h _ _ := h.of_same rfl fun q => by rw [State.setRoute, port_modPort]; split <;> rfl
  setAdmit s p v set h _ _ := h.of_same rfl fun q => by rw [State.setAdmit, port_modPort]; split <;> rfl
  join s p h _ := h.of_same rfl fun q => inbox_changePortState s p _ q
  leave s p h _ := answerUntaken_keeps _ _ (h.of_same rfl fun q => inbox_changePortState s p _ q)
    fun _ i hu => hu.lapse i _
  parity s p b h hb := by
    refine Pool.Carries.markDamaged h (p := p) ?_
    unfold State.permitted at hb
    split at hb
    · cases hb
    · split at hb
      case isTrue hheld => cases hb; exact hheld
      case isFalse => cases hb
  memory _ _ _ _ h := Pool.Carries.withMem h _
  ticked _ h hp := ticked_keeps _ hp h fun _ i hu _ => hu.lapse i _
  expiry _ i h _ := h.lapse i _
  scrubDone _ _ rb h hbusy hbuf := Pool.Carries.finishScrub h hbusy hbuf rb
  drained s p h hd := by
    refine .of_inboxes (s := s) ?_ (inbox_drainCompleted hd)
    rw [drainCompleted_pool hd]
    exact Pool.Carries.releaseHeld h p
  teardown _ p h _ := h.tornDown p
  leaveReset s p h _ _ := h.of_same rfl fun q => inbox_changePortState s p _ q
  masterReset s _ := whereabouts_masterCleared s
  masterResetEnded s straps h hp := by
    simp only [State.masterResetEnded, hp]
    exact Pool.Carries.withMem h _
  portsLeaveReset s h _ := h.of_same rfl (inbox_portsLeaveReset s)

/-- Settles O57: each operation of the pool keeps it sound, and takes chains into ATTACHED and out of it as the effect
that uses it gives a record a chain and takes one from it. -/
theorem stepKeepsBufferWhereabouts : Obligations.StepKeepsBufferWhereabouts :=
  fun _ _ hs hc hn hstep => whereabouts_kept.step (Inv := Whereabouts) ⟨hs, hc, hn⟩ hstep

end Sys2Proof.Machine
end

section
/-! PROOFS. The access cycle (section 9.1): how an access begins, is taken, answered and ended, and what the block does
while its queue is empty. -/

namespace Sys2Proof.Machine

/-! ## Steps -/

/-- Settles O1: the definition of a step on a queue with a front. -/
theorem stepRunsFrontCommand : Obligations.StepRunsFrontCommand := fun _ _ _ => rfl

/-- Each row of the dispatch goes on. -/
theorem exec_goesOn (c : Instr) (s : State) : ∃ t, exec c s = .next t := by
  cases c <;> exact ⟨_, rfl⟩

/-- Settles O3: an empty queue idles, and each command or event at the front goes on. -/
theorem everyStepGoesOn : Obligations.EveryStepGoesOn := by
  intro s
  unfold StepGoesOn step
  cases s.pending with
  | nil => exact ⟨_, rfl⟩
  | cons c rest => exact exec_goesOn c _

/-! ## Beginning (R140, R141) -/

theorem mayBegin_iff {q : Port} :
    q.mayBegin = true ↔ q.access = .idle ∧ q.state ≠ .reset ∧ q.lines.asserted = true := by
  simp [Port.mayBegin, and_assoc]

/-- What a window read shows stays where the ports differ in bus lines, timing and access only. -/
theorem readWord_of_bus {s t : State}
    (hport : ∀ r, t.port r = { s.port r with
      lines := (t.port r).lines, readTiming := (t.port r).readTiming, access := (t.port r).access })
    (hslots : t.slots = s.slots) (hpool : t.pool = s.pool) (hcount : t.tickCount = s.tickCount) (q : Station) :
    t.readWord q = s.readWord q := by
  funext address
  unfold State.readWord State.headWord State.bufferWindowWord State.portStateWord
  rw [hport q, hport 0, hport 1, hport 2, hport 3, hpool, hcount, requesterCount_congr hslots]
  rfl

/-- The access state that an IDLE port outside RESET has once its lines have been looked at. -/
def SettlesTo (s : State) (p : Station) (a : AccessState) : Prop :=
  ((s.port p).lines.asserted = false → a = .idle)
  ∧ ((s.port p).lines.asserted = true → BeginsFrom (s.port p).lines (s.port p).readTiming (s.readWord p) a)

/-- An IDLE port outside RESET begins an access exactly where its lines ask for one. -/
theorem settle_settlesTo {s : State} {p : Station} (hidle : (s.port p).access = .idle)
    (hreset : (s.port p).state ≠ .reset) : ∃ a, s.settle p = s.withAccess p a ∧ SettlesTo s p a := by
  cases hlines : (s.port p).lines.asserted with
  | false =>
    have hnot : (s.port p).mayBegin = false := by
      rw [← Bool.not_eq_true, mayBegin_iff]
      rintro ⟨-, -, h⟩
      rw [hlines] at h
      cases h
    refine ⟨.idle, ?_, fun _ => rfl, fun h => absurd (hlines.symm.trans h) Bool.false_ne_true⟩
    rw [settle_of_not_mayBegin hnot, ← hidle, withAccess_self]
  | true =>
    exact ⟨_, settle_of_mayBegin (mayBegin_iff.mpr ⟨hidle, hreset, hlines⟩),
      fun h => absurd (h.symm.trans hlines) Bool.false_ne_true, fun _ => beginState_beginsFrom s p⟩

/-- In RESET, or while an access is under way, no access begins. -/
theorem settle_of_busy {s : State} {p : Station} (h : (s.port p).state = .reset ∨ (s.port p).access ≠ .idle) :
    s.settle p = s := by
  refine settle_of_not_mayBegin (Bool.eq_false_iff.mpr fun hbegin => ?_)
  obtain ⟨hidle, hreset, -⟩ := mayBegin_iff.mp hbegin
  exact h.elim hreset fun hbusy => hbusy hidle

/-- Settles O7: the lines and the timing are recorded, and the port then begins from them or is left alone. -/
theorem accessBegins : Obligations.AccessBegins := by
  intro s p lines timing hasserted
  have hexec : exec (.accessBegin p lines timing) s
      = .next ((s.modPort p fun q => { q with lines := lines, readTiming := timing }).settle p) := by
    simp only [exec, execAccessBegin, hasserted, if_true]
  have hport : (s.modPort p fun q => { q with lines := lines, readTiming := timing }).port p
      = { s.port p with lines := lines, readTiming := timing } := port_modPort_self ..
  have hword : (s.modPort p fun q => { q with lines := lines, readTiming := timing }).readWord p = s.readWord p := by
    refine readWord_of_bus (fun r => ?_) (modPort_slots ..) (modPort_pool ..) (modPort_tickCount ..) p
    by_cases hr : r = p
    · rw [hr, port_modPort_self]
    · rw [port_modPort_ne _ _ hr]
  rw [hexec]
  by_cases hbegins : (s.port p).state ≠ .reset ∧ (s.port p).access = .idle
  · obtain ⟨hreset, hidle⟩ := hbegins
    obtain ⟨a, ha, -, hfrom⟩ :=
      settle_settlesTo (s := s.modPort p fun q => { q with lines := lines, readTiming := timing }) (p := p)
        (by rw [hport]; exact hidle) (by rw [hport]; exact hreset)
    rw [hport, hword] at hfrom
    refine ⟨a, ?_, fun _ _ => hfrom hasserted, fun h => (h.elim hreset fun hbusy => hbusy hidle).elim⟩
    rw [ha, State.withAccess, modPort_modPort]
  · have hbusy : (s.port p).state = .reset ∨ (s.port p).access ≠ .idle := by
      rwa [ne_eq, Classical.not_and_iff_not_or_not, not_not] at hbegins
    refine ⟨_, ?_, fun hreset hidle => (hbegins ⟨hreset, hidle⟩).elim, fun _ => rfl⟩
    have hsame : (s.modPort p fun q => { q with lines := lines, readTiming := timing }).settle p
        = s.modPort p fun q => { q with lines := lines, readTiming := timing } :=
      settle_of_busy (by rw [hport]; exact hbusy)
    rw [hsame]
    refine congrArg _ (modPort_congr ?_)
    rfl

/-! ## Ending (R140, R141) -/

/-- A port with no access PENDING is IDLE once the strobe or the select line is negated. -/
theorem ended_of_not_pending {q : Port} (lines : BusLines) (hnot : ∀ a early, q.access ≠ .pending a early) :
    q.ended lines = { q with lines := lines, access := .idle } := by
  unfold Port.ended
  split
  case h_1 a early haccess => exact absurd haccess (hnot a early)
  case h_4 haccess => rw [← haccess]
  all_goals rfl

/-- Settles O8: the port is IDLE with the new lines, and neither output is driven for an IDLE port. -/
theorem accessEnds : Obligations.AccessEnds := by
  intro s p lines hnegated hnot
  have hexec : exec (.accessEnd p lines) s
      = .next (s.modPort p fun q => { q with lines := lines, access := .idle }) := by
    simp only [exec, execAccessEnd, hnegated, Bool.false_eq_true, if_false]
    exact congrArg _ (modPort_congr (ended_of_not_pending lines hnot))
  refine ⟨_, hexec, rfl, ?_, ?_⟩
  · rw [port_modPort_self, Port.ready]
    split <;> simp
  · rw [port_modPort_self]
    rfl

/-- Settles O9: of a PENDING access the negation is noted. -/
theorem accessEndsEarly : Obligations.AccessEndsEarly := by
  intro s p lines a early hnegated hpending
  have hended : (s.port p).endedEarly lines = { s.port p with lines := lines, access := .pending a true } := by
    simp only [Port.endedEarly, hpending]
  simp only [exec, execAccessEndedEarly, hnegated, Bool.false_eq_true, if_false]
  exact congrArg _ (modPort_congr hended)

/-! ## Taking (R140-R142) -/

/-- Settles O6: without such an access PENDING outside RESET there is nothing to take. -/
theorem accessNotTakenChangesNothing : Obligations.AccessNotTakenChangesNothing := by
  intro s c p hrow hnot
  obtain ⟨f, hexec, -⟩ := exec_of_takenAt hrow
  have hnone : (s.port p).taking (takes c) = none := by
    by_contra hsome
    obtain ⟨a, ha⟩ := Option.ne_none_iff_exists'.mp hsome
    obtain ⟨hreset, htakes, early, hpending⟩ := taking_eq_some.mp ha
    obtain hr | hclass := hnot
    · exact hreset hr
    · rw [hclass a early hpending] at htakes
      cases htakes
  rw [hexec]
  simp only [State.takeAccess, hnone]

/-- A row that finds its access waiting has its effect, and then the port is answered. -/
theorem exec_of_waiting {s : State} {c : Instr} {p : Station} {a : Access} {early : Bool} (hrow : takenAt c = some p)
    (htakes : takes c a = true) (hreset : (s.port p).state ≠ .reset) (hpending : (s.port p).access = .pending a early) :
    ∃ r, RowEffect s c p a r ∧ exec c s = .next (r.1.answer p r.2) := by
  obtain ⟨f, hexec, heffect⟩ := exec_of_takenAt hrow
  refine ⟨f a s, heffect s a htakes, ?_⟩
  rw [hexec, takeAccess_of_taking (taking_eq_some.mpr ⟨hreset, htakes, early, hpending⟩)]

theorem outputsFollowAccess (q : Port) : q.OutputsFollowAccess := by
  refine ⟨fun hsel => ?_, fun hsel ⟨d, hd⟩ => ?_, fun hsel hnot => ?_, fun w => ?_⟩
  · simp [Port.ready, hsel]
  · simp [Port.ready, hsel, hd]
  · cases haccess : q.access with
    | answered d => exact absurd haccess (hnot d)
    | idle => simp [Port.ready, hsel, haccess]
    | pending a early => simp [Port.ready, hsel, haccess]
    | abandoned => simp [Port.ready, hsel, haccess]
  · cases haccess : q.access <;> simp [Port.dataLines, haccess]

/-- Settles O4: the row's effect leaves the port waiting, so that the answer makes it ANSWERED with what is driven. -/
theorem takenAccessIsAnswered : Obligations.TakenAccessIsAnswered := by
  refine ⟨outputsFollowAccess, fun s c p a hrow htakes hreset hpending => ?_⟩
  obtain ⟨⟨u, d⟩, ⟨hbus, -, hanswers⟩, hexec⟩ := exec_of_waiting hrow htakes hreset hpending
  rw [answer_of_pending (hbus.access.trans hpending)] at hexec
  have hport : (u.withAccess p (.answered d)).port p = { u.port p with access := .answered d } := port_modPort_self ..
  refine ⟨_, d, hexec, ?_, fun hselect => ?_, ?_, fun address ha => ?_, fun address w ha => ?_⟩
  · rw [hport]
  · obtain ⟨-, hready, -⟩ := outputsFollowAccess ((u.withAccess p (.answered d)).port p)
    exact hready (by rw [hport]; exact (congrArg BusLines.select hbus.lines).trans hselect) ⟨d, by rw [hport]⟩
  · rw [hport]
    rfl
  · subst ha
    exact hanswers
  · subst ha
    exact hanswers

/-- An access that was ended early leaves a port that begins anew where its lines ask for it. -/
theorem answer_settlesTo {s : State} {p : Station} {a : Access} {d : Option Word} (hreset : (s.port p).state ≠ .reset)
    (hpending : (s.port p).access = .pending a true) :
    ∃ st, s.answer p d = s.withAccess p st ∧ SettlesTo s p st := by
  have hport : (s.withAccess p .idle).port p = { s.port p with access := .idle } := port_modPort_self ..
  have hword : (s.withAccess p .idle).readWord p = s.readWord p :=
    funext fun address => readWord_withAccess s p p .idle address
  obtain ⟨st, hst, hto⟩ := settle_settlesTo (s := s.withAccess p .idle) (p := p) (by rw [hport])
    (by rw [hport]; exact hreset)
  refine ⟨st, ?_, ?_⟩
  · rw [answer_of_ended hpending, hst, State.withAccess, modPort_modPort]
  · unfold SettlesTo at hto
    rwa [hport, hword] at hto

/-- Settles O5: the row's effect leaves lines and timing, and the answer settles the port from them. -/
theorem earlyEndedAccessGivesNoReady : Obligations.EarlyEndedAccessGivesNoReady := by
  intro s c p a hrow htakes hreset hpending
  obtain ⟨⟨u, d⟩, ⟨hbus, -, -⟩, hexec⟩ := exec_of_waiting hrow htakes hreset hpending
  obtain ⟨st, hst, hidle, hbegins⟩ := answer_settlesTo (d := d) (hbus.outside hreset) (hbus.access.trans hpending)
  have hword : (u.withAccess p st).readWord p = u.readWord p :=
    funext fun address => readWord_withAccess u p p st address
  rw [hbus.lines] at hidle hbegins
  rw [hbus.timing] at hbegins
  refine ⟨_, hexec, ?_⟩
  rw [hst, port_modPort_self, hword]
  exact ⟨hidle, hbegins⟩

/-! ## Port after port -/

/-- An operation that changes the access state of one port, as that port and its window say. -/
structure SettlesPort (op : State → Station → State) : Prop where
  access : ∀ s p, ∃ a, op s p = s.withAccess p a
  own : ∀ s u p, u.port p = s.port p → u.readWord p = s.readWord p → (op u p).port p = (op s p).port p

/-- Done at different ports in turn, it does at each what it does there alone. -/
theorem SettlesPort.foldl_eq {op : State → Station → State} (hop : SettlesPort op) {l : List Station} (hl : l.Nodup)
    (s : State) : l.foldl op s = s.mapPorts fun p q => if p ∈ l then (op s p).port p else q := by
  induction l generalizing s with
  | nil => exact State.ext_of_ports (fun p => by simp) rfl rfl rfl rfl rfl rfl
  | cons p rest ih =>
    obtain ⟨hp, hrest⟩ := List.nodup_cons.mp hl
    obtain ⟨a, ha⟩ := hop.access s p
    rw [List.foldl_cons, ih hrest]
    have hother : ∀ q ∈ rest, (op (op s p) q).port q = (op s q).port q := by
      intro q hq
      have hne : q ≠ p := by rintro rfl; exact hp hq
      refine hop.own _ _ q ?_ ?_
      · rw [ha, port_modPort_ne _ _ hne]
      · rw [ha]
        exact funext fun address => readWord_withAccess s p q a address
    refine State.ext_of_ports (fun q => ?_) ?_ ?_ ?_ ?_ ?_ ?_
    · rw [port_mapPorts, port_mapPorts]
      by_cases hq : q ∈ rest
      · rw [if_pos hq, if_pos (List.mem_cons_of_mem _ hq), hother q hq]
      · rw [if_neg hq]
        by_cases hqp : q = p
        · rw [hqp, if_pos List.mem_cons_self]
        · rw [if_neg (by simp [hqp, hq]), ha, port_modPort_ne _ _ hqp]
    all_goals rw [ha]; rfl

/-- Done at all four ports. -/
theorem SettlesPort.foldl_all {op : State → Station → State} (hop : SettlesPort op) (s : State) :
    (List.finRange 4).foldl op s = s.mapPorts fun p _ => (op s p).port p := by
  simp only [hop.foldl_eq (List.nodup_finRange 4), List.mem_finRange, if_true]

theorem port_settle_congr {s u : State} {p : Station} (hport : u.port p = s.port p)
    (hword : u.readWord p = s.readWord p) : (u.settle p).port p = (s.settle p).port p := by
  have hbegin : u.beginState p = s.beginState p := by
    unfold State.beginState
    rw [hport, hword]
  unfold State.settle
  rw [hport, hbegin]
  split
  · rw [port_modPort_self, port_modPort_self, hport]
  · exact hport

theorem settlesPort_settle : SettlesPort State.settle := ⟨settle_changes_access, fun _ _ _ => port_settle_congr⟩

theorem port_answer_congr {s u : State} {p : Station} (hport : u.port p = s.port p)
    (hword : u.readWord p = s.readWord p) (d : Option Word) : (u.answer p d).port p = (s.answer p d).port p := by
  unfold State.answer
  rw [hport]
  split
  · rw [port_modPort_self, port_modPort_self, hport]
  · refine port_settle_congr (by rw [port_modPort_self, port_modPort_self, hport]) (funext fun address => ?_)
    rw [readWord_withAccess, readWord_withAccess, hword]
  all_goals exact hport

/-! ## An empty queue (R143) -/

/-- Where a read without a row of its own waits, it is answered with the word addressed. -/
theorem takePlainRead_of_waiting {s : State} {p : Station} {a : Addr} {early : Bool}
    (hreset : (s.port p).state ≠ .reset) (hpending : (s.port p).access = .pending (.read a) early)
    (hplain : plainRead a = true) : s.takePlainRead p = s.answer p (some (s.readWord p a)) := by
  unfold State.takePlainRead
  rw [takeAccess_of_taking (taking_eq_some.mpr ⟨hreset, hplain, early, hpending⟩)]

theorem takePlainRead_of_none {s : State} {p : Station}
    (h : ∀ a early, (s.port p).access = .pending (.read a) early → plainRead a = true → (s.port p).state = .reset) :
    s.takePlainRead p = s := by
  unfold State.takePlainRead
  obtain ⟨-, heq⟩ | ⟨a, st, htaking, -⟩ := takeAccess_cases s p _ _
  · exact heq
  · obtain ⟨hreset, hplain, early, hpending⟩ := taking_eq_some.mp htaking
    cases a with
    | read address => exact absurd (h address early hpending hplain) hreset
    | write address w => cases hplain

theorem settlesPort_takePlainRead : SettlesPort State.takePlainRead := by
  refine ⟨takePlainRead_changes_access, fun s u p hport hword => ?_⟩
  by_cases hwaits : ∃ a early, (s.port p).access = .pending (.read a) early ∧ plainRead a = true
      ∧ (s.port p).state ≠ .reset
  · obtain ⟨a, early, hpending, hplain, hreset⟩ := hwaits
    rw [takePlainRead_of_waiting hreset hpending hplain,
      takePlainRead_of_waiting (by rwa [hport]) (by rwa [hport]) hplain, hword]
    exact port_answer_congr hport hword _
  · have hnone : ∀ a early, (s.port p).access = .pending (.read a) early → plainRead a = true →
        (s.port p).state = .reset := by
      intro a early hpending hplain
      by_contra hreset
      exact hwaits ⟨a, early, hpending, hplain, hreset⟩
    rw [takePlainRead_of_none hnone, takePlainRead_of_none (by rwa [hport])]
    exact hport

/-- A step on an empty queue takes the waiting reads port by port. -/
theorem idle_eq (s : State) : s.idle = s.mapPorts fun p _ => (s.takePlainRead p).port p :=
  settlesPort_takePlainRead.foldl_all s

theorem plainRead_iff (a : Addr) : plainRead a = true ↔ a.toNat ≠ 0x006 ∧ ¬ (0x040 ≤ a.toNat ∧ a.toNat < 0x060) := by
  have htick : a ≠ tickLowAddress ↔ a.toNat ≠ 0x006 := by
    rw [ne_eq, ← BitVec.toNat_inj]
    rfl
  rw [plainRead, Bool.and_eq_true, decide_eq_true_eq, htick, bufferOffset]
  refine and_congr_right fun _ => ?_
  split <;> simp_all

/-- Settles O2: idling is the taking of the waiting reads port by port, and at each port the read is answered. -/
theorem emptyQueueTakesWaitingReads : Obligations.EmptyQueueTakesWaitingReads := by
  refine ⟨plainRead_iff, fun s hqueue => ?_⟩
  have hstep : step s = .next s.idle := by simp only [step, hqueue]
  refine ⟨s.idle, hstep, by rw [idle_eq]; rfl, fun p => ?_⟩
  have hport : s.idle.port p = (s.takePlainRead p).port p := by rw [idle_eq, port_mapPorts]
  rw [hport]
  refine ⟨?_, fun a hreset hpending hplain => ?_, fun a hreset hpending hplain => ?_, fun hnone => ?_⟩
  · obtain ⟨a, ha⟩ := takePlainRead_changes_access s p
    rw [ha, port_modPort_self]
  · rw [takePlainRead_of_waiting hreset hpending hplain, answer_of_pending hpending, port_modPort_self]
  · obtain ⟨st, hst, hto⟩ := answer_settlesTo (d := some (s.readWord p a)) hreset hpending
    rw [takePlainRead_of_waiting hreset hpending hplain, hst, port_modPort_self]
    exact hto
  · rw [takePlainRead_of_none hnone]

end Sys2Proof.Machine
end

section
/-! PROOFS. Single events: the ending of an exchange and EXPIRY (sections 1.4, 6.1), a permitted read (section 5.2), the
completion of a scrub (section 5.7) and the end of the initialisation pass (section 8.6). -/

namespace Sys2Proof.Machine

/-! ## Endings (R13-R16) -/

/-- Settles O16: the four steps of an ending, for each thing that an ender can give it. -/
theorem endingDoesItsFourSteps : Obligations.EndingDoesItsFourSteps := fun _ _ hused hdiffer =>
  ⟨fun st ws len chain => endsExchange_endExchange (.reply st ws len chain) hused hdiffer,
    fun kind => endsExchange_endExchange (.lapsed kind) hused hdiffer,
    endsExchange_endExchange .silent hused hdiffer⟩

/-- The record that a withdrawal finds is the first of its exchange. -/
theorem endedChain_of_opened {s : State} {i : SlotNo} {ahead behind : List Record} {r : Record}
    (hopen : (s.slot i).state = .opened) (hinbox : (s.port (s.slot i).dest).inbox = ahead ++ r :: behind)
    (hr : r.requestOf = some (s.xnum i)) (hahead : ∀ r' ∈ ahead, r'.requestOf ≠ some (s.xnum i)) :
    endedChain s i = r.chain := by
  have hnone : ahead.find? (fun r => decide (r.requestOf = some (s.xnum i))) = none :=
    List.find?_eq_none.mpr fun r' hr' => by simpa using hahead r' hr'
  simp only [endedChain, hopen, Port.findRequest, hinbox, List.find?_append, hnone, Option.none_or]
  rw [List.find?_cons_of_pos (by simpa using hr)]
  rfl

/-- Settles O17: of the pool, an ending without a reply discards the chain of the record it withdraws. -/
theorem endingDiscardsWithdrawnChain : Obligations.EndingDiscardsWithdrawnChain := by
  intro s i e hchain
  refine ⟨fun htaken => ?_, fun ahead behind r hopen hinbox hr hahead hnodup hattached => ?_⟩
  · rw [endExchange_pool_of_taken e htaken, hchain]
    rfl
  · have hpool : (s.endExchange i e).pool = (s.pool.chainOf r.chain).foldl Pool.giveBack s.pool := by
      rw [endExchange_pool e (by simp [hopen]), endedChain_of_opened hopen hinbox hr hahead, hchain, ← discard_eq]
      rfl
    rw [hpool]
    exact returned_foldl_giveBack hnodup fun b hb => by rw [hattached b hb]; rfl

/-- Settles O38: EXPIRY ends a slot exactly where it is due. -/
theorem expiryEndsDueSlot : Obligations.ExpiryEndsDueSlot := by
  intro s i
  have hexec : exec (.expiry i) s = .next (s.expireIfDue i) := rfl
  rw [hexec]
  obtain ⟨hsame, hnot⟩ | ⟨hdue, hends⟩ := expireIfDue_cases s i
  · rw [hsame]
    refine ⟨fun hused hdeadline _ => ?_, fun _ => rfl⟩
    rw [due_iff.mpr ⟨hused, hdeadline⟩] at hnot
    cases hnot
  · obtain ⟨hused, hdeadline⟩ := due_iff.mp hdue
    rw [hends]
    exact ⟨fun _ _ hdiffer => ⟨_, rfl, rfl, endsExchange_endExchange (.lapsed .expired) hused hdiffer⟩,
      fun hnot => absurd hdeadline (hnot.resolve_left hused)⟩

/-! ## Permitted reads (R87, R89) -/

theorem bufferWindowWord_of_permitted {s : State} {p : Station} {b : BufferNo} (w : Offset)
    (hselect : (s.port p).windowSelect = some b) (hheld : (s.pool.desc b).place = .held p) :
    s.bufferWindowWord p w = (Memory.read s.pool.mem (wordAddress b w)).data := by
  simp [State.bufferWindowWord, hselect, Pool.holds, hheld]

theorem access_bufferRead (s : State) (p : Station) (w : Offset) :
    ((s.bufferRead p w).port p).access = (s.port p).access :=
  (rowEffect_bufferRead (c := .bufferWindowRead p) (a := .read 0) (d := some 0) nofun ⟨_, rfl⟩).bus.access

/-- Settles O33: the read is permitted, so that its effect is decided by the parity of the word read. -/
theorem permittedReadChecksParity : Obligations.PermittedReadChecksParity := by
  intro s p w b hawaits hselect hheld
  have hexec := exec_bufferWindowRead_of_awaits hawaits
  rw [bufferWindowWord_of_permitted w hselect hheld] at hexec
  refine ⟨_, hexec, drives_answer _ (access_bufferRead s p w), fun hgood => ?_, fun hbad => ?_⟩
  · have heffect : s.bufferRead p w = s := by
      simp only [State.bufferRead, permitted_of_held hselect hheld]
      exact if_pos hgood
    rw [heffect]
    exact portBecomes_answer ..
  · have heffect : s.bufferRead p w = s.parityFault p b w := by
      simp only [State.bufferRead, permitted_of_held hselect hheld]
      exact if_neg (Bool.eq_false_iff.mp hbad)
    rw [heffect]
    have hport := portBecomes_of_modPort (portBecomes_answer (s.parityFault p b w) p
      (some (Memory.read s.pool.mem (wordAddress b w)).data))
    simp only [recordFault_eq, id_eq] at hport
    exact hport

/-! ## SCRUB_COMPLETION (R97) -/

theorem scrubPasses_iff {readBack : Vector MemWord 32} :
    scrubPasses readBack = true ↔ ∀ w : Offset, readBack[w] = ⟨0, true⟩ := by
  rw [scrubPasses, List.all_eq_true]
  exact ⟨fun h w => of_decide_eq_true (h w (List.mem_finRange w)), fun h w _ => decide_eq_true (h w)⟩

theorem port_latchScrub (s : State) (p q : Station) :
    (s.latchScrub p).port q
      = if q = p ∧ (s.port q).connected = true then { s.port q with scrubCause := true } else s.port q := by
  rw [State.latchScrub, port_modPort]
  by_cases hq : q = p
  · rw [if_pos hq]
    exact if_congr (by simp [hq]) rfl rfl
  · rw [if_neg hq, if_neg fun h => hq h.1]

/-- The completion of the scrub of buffer `b`. -/
theorem scrubCompleted_of_busy {s : State} {b : BufferNo} (readBack : Vector MemWord 32)
    (hbusy : s.pool.scrub.busy = true) (hbuffer : s.pool.scrub.buffer = some b) :
    s.scrubCompleted readBack
      = (s.setPool (s.pool.finishScrub b readBack)).latchScrub s.pool.scrub.issuer := by
  simp only [State.scrubCompleted, hbusy, hbuffer, if_true]

/-- Whichever way it ends, a scrub sets one descriptor and one buffer's words. -/
theorem finishScrub_keeps (pool : Pool) (b : BufferNo) (readBack : Vector MemWord 32) :
    (∀ c, c ≠ b → (pool.finishScrub b readBack).desc c = pool.desc c)
    ∧ (pool.finishScrub b readBack).damaged = pool.damaged
    ∧ (pool.finishScrub b readBack).mem = Memory.writeBuffer pool.mem b readBack := by
  have hcases := finishScrub_cases pool b readBack
  generalize Memory.writeBuffer pool.mem b readBack = mem at hcases ⊢
  obtain ⟨-, heq⟩ | ⟨-, heq⟩ := hcases
  · rw [heq]
    exact ⟨fun c hc => desc_setDesc_ne pool ⟨.free, none, false, false⟩ hc, rfl, rfl⟩
  · rw [heq]
    exact ⟨fun c hc => desc_setDesc_ne pool ⟨.retired, none, false, true⟩ hc, rfl, rfl⟩

/-- Settles O30: an idle engine has no scrub to end; a busy one frees or retires its buffer by the words read back. -/
theorem scrubCompletionFreesOrRetires : Obligations.ScrubCompletionFreesOrRetires := by
  intro s readBack
  have hexec : exec (.scrubCompletion readBack) s = .next (s.scrubCompleted readBack) := rfl
  rw [hexec]
  refine ⟨fun hidle => ?_, fun b hbusy hbuffer => ⟨_, rfl, ?_⟩⟩
  · rw [State.scrubCompleted, if_neg (Bool.eq_false_iff.mp hidle)]
  rw [scrubCompleted_of_busy readBack hbusy hbuffer]
  have hpool : ((s.setPool (s.pool.finishScrub b readBack)).latchScrub s.pool.scrub.issuer).pool
      = s.pool.finishScrub b readBack := rfl
  obtain ⟨hother, hdamaged, hmem⟩ := finishScrub_keeps s.pool b readBack
  rw [hpool]
  refine ⟨fun hclean => ?_, fun ⟨w, hw⟩ => ?_, hother, hdamaged, fun hm c w => ?_, fun q => ?_, rfl, rfl, rfl, rfl, rfl⟩
  · obtain ⟨-, heq⟩ | ⟨hfails, -⟩ := finishScrub_cases s.pool b readBack
    · rw [heq]
      exact ⟨desc_setDesc_self .., rfl, rfl⟩
    · rw [scrubPasses_iff.mpr hclean] at hfails
      cases hfails
  · obtain ⟨hpasses, -⟩ | ⟨-, heq⟩ := finishScrub_cases s.pool b readBack
    · exact absurd (scrubPasses_iff.mp hpasses w) hw
    · rw [heq]
      exact ⟨desc_setDesc_self .., rfl, rfl⟩
  · rw [hmem]
    exact Memory.read_writeBuffer hm c w
  · exact port_latchScrub ..

/-! ## END_OF_INITIALISATION_PASS (R137, R142) -/

/-- The part at the end of its pass, before the waiting accesses begin. -/
def State.started (s : State) : State := { s.portsLeaveReset with phase := .running }

theorem port_started (s : State) (p : Station) :
    s.started.port p = if (s.port p).resetInput then s.port p else { s.port p with state := .offline } :=
  port_portsLeaveReset s p

/-- In the pass, the ports leave RESET and each begins what waits at it. -/
theorem passEnded_eq {s : State} (h : s.phase = .initPass) :
    s.passEnded = s.started.mapPorts fun p _ => (s.started.settle p).port p := by
  simp only [State.passEnded, h]
  exact settlesPort_settle.foldl_all s.started

theorem passEnded_of_not_pass {s : State} (h : s.phase ≠ .initPass) : s.passEnded = s := by
  unfold State.passEnded
  split
  · contradiction
  · rfl
  · rfl

/-- What the window shows is as it was before the waiting accesses began. -/
theorem readWord_passEnded {s : State} (h : s.phase = .initPass) (p : Station) :
    s.passEnded.readWord p = s.started.readWord p := by
  rw [passEnded_eq h]
  refine readWord_of_bus (fun r => ?_) (mapPorts_slots ..) (mapPorts_pool ..) (mapPorts_tickCount ..) p
  rw [port_mapPorts]
  obtain ⟨a, ha⟩ := settle_changes_access s.started r
  rw [ha, port_modPort_self]

/-- Settles O46: in the pass the ports without an asserted reset input become OFFLINE and settle; at any other time
nothing happens. -/
theorem endOfPassStartsPart : Obligations.EndOfPassStartsPart := by
  intro s
  refine ⟨fun hphase hreset => ?_, fun hphase => congrArg _ (passEnded_of_not_pass hphase)⟩
  have hport : ∀ p, s.passEnded.port p = (s.started.settle p).port p := fun p => by
    rw [passEnded_eq hphase, port_mapPorts]
  refine ⟨s.passEnded, rfl, by rw [passEnded_eq hphase]; rfl, fun p hinput => ?_, fun p hinput => ?_⟩
  · have hsame : s.started.port p = s.port p := by rw [port_started, if_pos hinput]
    rw [hport, settle_of_busy (.inl (by rw [hsame]; exact hreset p)), hsame]
  · have hoffline : s.started.port p = { s.port p with state := .offline } := by
      rw [port_started, if_neg (Bool.eq_false_iff.mp hinput)]
    rw [readWord_passEnded hphase, hport]
    by_cases hidle : (s.port p).access = .idle
    · obtain ⟨a, ha, hquiet, hbegins⟩ := settle_settlesTo (s := s.started) (p := p) (by rw [hoffline]; exact hidle)
        (by rw [hoffline]; exact nofun)
      rw [hoffline] at hquiet hbegins
      rw [ha, port_modPort_self, hoffline]
      exact ⟨rfl, fun h => (hquiet (h.resolve_right fun hbusy => hbusy hidle)).trans hidle.symm,
        fun _ hlines => hbegins hlines⟩
    · rw [settle_of_busy (.inr (by rw [hoffline]; exact hidle)), hoffline]
      exact ⟨rfl, fun _ => rfl, fun h => absurd h hidle⟩

end Sys2Proof.Machine
end

section
/-! PROOFS. Journal records (sections 7.1, 7.2), the remaining window accesses (sections 5.2, 6.1, 9.1, 9.3), bad parity
(section 5.1), and resets (sections 8.5, 8.6). -/

namespace Sys2Proof.Machine

/-! ## Journals (R112, R115) -/

theorem entry_setEntry (j : Journal) (r r' : JournalRef) (e : JournalEntry) :
    (j.setEntry r e).entry r' = if r' = r then e else j.entry r' := by
  obtain ⟨area, index⟩ := r
  obtain ⟨area', index'⟩ := r'
  cases area <;> cases area' <;>
    simp [Journal.entry, Journal.setEntry, Vector.getElem_set, Fin.ext_iff, eq_comm (a := index.val)]

/-- Writing a record leaves the current area and both positions. -/
theorem setEntry_rest (j : Journal) (r : JournalRef) (e : JournalEntry) :
    (j.setEntry r e).current = j.current ∧ (j.setEntry r e).nextA = j.nextA ∧ (j.setEntry r e).nextB = j.nextB := by
  unfold Journal.setEntry
  split <;> exact ⟨rfl, rfl, rfl⟩

theorem nextRef_setEntry (j : Journal) (r : JournalRef) (e : JournalEntry) : (j.setEntry r e).nextRef = j.nextRef := by
  obtain ⟨hcurrent, hnextA, hnextB⟩ := setEntry_rest j r e
  unfold Journal.nextRef
  rw [hcurrent, hnextA, hnextB]

/-- Advancing the position leaves every record and the current area, and the other area's position. -/
theorem advance_rest (j : Journal) :
    (∀ r, j.advance.entry r = j.entry r) ∧ j.advance.current = j.current
    ∧ (j.current = .a → j.advance.nextB = j.nextB) ∧ (j.current = .b → j.advance.nextA = j.nextA) := by
  unfold Journal.advance
  cases hcurrent : j.current with
  | a => exact ⟨fun _ => rfl, rfl, fun _ => rfl, nofun⟩
  | b => exact ⟨fun _ => rfl, rfl, nofun, fun _ => rfl⟩

/-- A position goes from 31 to 0. -/
theorem position_succ (k : Position) : (k + 1).val = if k.val = 31 then 0 else k.val + 1 := by
  rw [Fin.val_add]
  split <;> omega

theorem nextRef_advance (j : Journal) :
    j.advance.nextRef.index.val = if j.nextRef.index.val = 31 then 0 else j.nextRef.index.val + 1 := by
  unfold Journal.advance Journal.nextRef
  cases hcurrent : j.current with
  | a => exact position_succ j.nextA
  | b => exact position_succ j.nextB

/-- Settles O21: an opening writes at the next position, and then advances it. -/
theorem journalOpeningWritesNextPosition : Obligations.JournalOpeningWritesNextPosition := by
  intro j h
  obtain ⟨hentry, hcurrent, hnextB, hnextA⟩ := advance_rest (j.setEntry j.nextRef (.opened h))
  obtain ⟨hcurrent', hnextA', hnextB'⟩ := setEntry_rest j j.nextRef (.opened h)
  rw [hcurrent', hnextB'] at hnextB
  rw [hcurrent', hnextA'] at hnextA
  unfold Journal.opening
  refine ⟨?_, fun r hr => ?_, hcurrent.trans hcurrent', ?_, hnextB, hnextA⟩
  · rw [hentry, entry_setEntry, if_pos rfl]
  · rw [hentry, entry_setEntry, if_neg hr]
  · rw [nextRef_advance, nextRef_setEntry]

/-- Settles O22: a close is a write of the record at its reference, where that is OPEN and carries the number. -/
theorem journalCloseWritesOwnOpenRecord : Obligations.JournalCloseWritesOwnOpenRecord := by
  intro j r x c
  refine ⟨fun h hopen hx => ?_, fun hnot => ?_⟩
  · have hclosing : j.closing r x c = j.setEntry r (.closed h c) := by
      simp only [Journal.closing, hopen, hx, if_true]
    rw [hclosing, entry_setEntry, if_pos rfl]
    exact ⟨rfl, fun r' hr => by rw [entry_setEntry, if_neg hr], setEntry_rest ..⟩
  · unfold Journal.closing
    split
    case h_1 h hopen => exact if_neg (hnot h hopen)
    all_goals rfl

/-! ## Window accesses (R86, R103, R143, R144, R146) -/

/-- A waiting access of the wanted class whose effect is a change of its own port leaves that change. -/
theorem portBecomes_takeAccess {s : State} {p : Station} {a : Access} {wanted : Access → Bool}
    {effect : Access → State → State × Option Word} {g : Port → Port} {d : Option Word} (h : Awaits s p a)
    (hwanted : wanted a = true) (heffect : effect a s = (s.modPort p g, d)) :
    PortBecomes s (s.takeAccess p wanted effect) p g := by
  obtain ⟨hreset, hpending⟩ := h
  rw [takeAccess_of_taking (taking_eq_some.mpr ⟨hreset, hwanted, hpending⟩), heffect]
  exact portBecomes_of_modPort (f := id) (portBecomes_answer (s.modPort p g) p d)

theorem selects_iff {w : Word} : selects (.write 0x00E w) = true ↔ w ≠ 0xFFFE := by
  rw [selects, Bool.and_eq_true, decide_eq_true_iff, decide_eq_true_iff]
  exact and_iff_right rfl

/-- Settles O32: a value below 256 is a buffer number and no greater one is; the step value has a row of its own. -/
theorem windowSelectTakesOrSteps : Obligations.WindowSelectTakesOrSteps := by
  intro s p w hawaits
  refine ⟨fun b hb => ⟨_, rfl, ?_⟩, fun hbig hnot => ⟨_, rfl, ?_⟩, fun hstep => ⟨_, s.steppedSelect p, rfl, ?_, ?_, ?_⟩⟩
  · have hfield : bufferField w = some b := fieldBelow_eq_some.mpr hb
    refine portBecomes_takeAccess hawaits (selects_iff.mpr ?_) (by simp only [writtenWord, hfield]; rfl)
    rintro rfl
    have hlt := b.isLt
    rw [← hb] at hlt
    exact absurd hlt (by decide)
  · have hfield : bufferField w = none := bufferField_eq_none.mpr hbig
    exact portBecomes_takeAccess hawaits (selects_iff.mpr hnot) (by simp only [writtenWord, hfield]; rfl)
  · exact portBecomes_takeAccess hawaits (by rw [hstep]; rfl) rfl
  · intro b hselect hheld
    simp [State.steppedSelect, hselect, Pool.holds, hheld]
  · intro hnone
    unfold State.steppedSelect
    split
    · rfl
    case h_2 b hselect => exact if_neg (by simp [Pool.holds, hnone b hselect])

/-- Settles O36: the effect is a change of the holding word, and the answer drives the low half. -/
theorem tickLowReadLatchesHighHalf : Obligations.TickLowReadLatchesHighHalf := by
  intro s p hawaits
  have hwanted : decide (Access.read (0x006 : Addr) = .read tickLowAddress) = true := rfl
  obtain ⟨hreset, hpending⟩ := id hawaits
  refine ⟨_, rfl, ?_, ?_⟩
  · rw [takeAccess_of_taking (a := .read 0x006) (taking_eq_some.mpr ⟨hreset, hwanted, hpending⟩), ← tickLow_eq]
    exact drives_answer _ (by rw [port_modPort_self])
  · rw [← tickHigh_eq]
    exact portBecomes_takeAccess hawaits hwanted rfl

/-- Settles O47: the codes that are not 1 to 16 are those of no command. -/
theorem undefinedCommandIsRefused : Obligations.UndefinedCommandIsRefused := fun _ _ _ hawaits hw =>
  exec_badCommand_of_awaits hawaits (isCommandCode_eq_false.mpr hw)

theorem parameterIndex_eq_some {a : Addr} {k : Fin 16} : parameterIndex a = some k ↔ a.toNat = 0x10 + k.val := by
  unfold parameterIndex
  split
  case isTrue h =>
    rw [Option.some.injEq, Fin.ext_iff, Fin.val_ofNat, Nat.mod_eq_of_lt (by omega)]
    omega
  case isFalse h => exact iff_of_false nofun (by omega)

theorem parameterIndex_eq_none {a : Addr} : parameterIndex a = none ↔ a.toNat < 0x10 ∨ 0x20 ≤ a.toNat := by
  unfold parameterIndex
  split
  · exact iff_of_false nofun (by omega)
  · exact iff_of_true rfl (by omega)

/-- The writes that WINDOW_WORD_WRITE takes, by the number of the address. -/
theorem plainWrite_iff {a : Addr} : plainWrite a = true ↔
    a.toNat ≠ 0 ∧ a.toNat ≠ 2 ∧ a.toNat ≠ 3 ∧ a.toNat ≠ 0xE ∧ ¬ (0x40 ≤ a.toNat ∧ a.toNat < 0x60) := by
  have haddress : ∀ b : Addr, a = b ↔ a.toNat = b.toNat := fun b => BitVec.toNat_inj.symm
  have hoffset : (bufferOffset a).isNone = true ↔ ¬ (0x40 ≤ a.toNat ∧ a.toNat < 0x60) := by
    unfold bufferOffset
    split <;> simp_all
  simp only [plainWrite, Bool.and_eq_true, decide_eq_true_eq, ne_eq, haddress, hoffset, and_assoc]
  rfl

/-- Settles O48: what is written is a parameter word, or no word that the port stores. -/
theorem windowWordWriteStoresParameter : Obligations.WindowWordWriteStoresParameter := by
  intro s p w
  refine ⟨fun k hawaits => ⟨_, rfl, ?_⟩, fun address hawaits haddress => ⟨_, rfl, ?_⟩⟩
  · have hnat : (BitVec.ofNat 11 (0x10 + k.val)).toNat = 0x10 + k.val := by
      rw [BitVec.toNat_ofNat, Nat.mod_eq_of_lt (by omega)]
    refine portBecomes_takeAccess (d := none) hawaits (plainWrite_iff.mpr (by omega)) ?_
    simp only [State.writeWord, parameterIndex_eq_some.mpr hnat]
  · have hindex : parameterIndex address = none := parameterIndex_eq_none.mpr (by omega)
    refine portBecomes_takeAccess (d := none) hawaits (plainWrite_iff.mpr (by omega)) ?_
    simp only [State.writeWord, hindex]
    rw [modPort_id s p rfl]

/-! ## Bad parity (R75) -/

/-- Settles O31: BAD_PARITY writes one word of memory. -/
theorem badParityChangesOneWord : Obligations.BadParityChangesOneWord := fun _ b w d =>
  ⟨_, rfl, fun hm c o => Memory.read_write_wordAddress hm ⟨d, false⟩ b c w o⟩

/-! ## Release of station reset (R135, R142) -/

/-- Settles O43: outside RESET, or where the part does not run, only the input changes; else the port becomes OFFLINE
and settles. -/
theorem releaseTakesPortOffline : Obligations.ReleaseTakesPortOffline := by
  intro s p
  have hexec : exec (.stationResetReleased p) s = .next ((s.setResetInput p false).leaveReset p) := rfl
  have hstate : ((s.setResetInput p false).port p).state = (s.port p).state := by
    rw [State.setResetInput, port_modPort_self]
  rw [hexec]
  refine ⟨fun hreset hrun => ?_, fun hnot => ?_⟩
  · have hleave : (s.setResetInput p false).leaveReset p
        = ((s.setResetInput p false).changePortState p .offline).settle p := if_pos ⟨hstate.trans hreset, hrun⟩
    rw [hleave, State.setResetInput, changePortState_modPort]
    have hlatched : (s.mapPorts (peerLatched p)).port p = s.port p := by simp [peerLatched]
    generalize hu : ((s.mapPorts (peerLatched p)).modPort p fun q => { q with state := .offline, resetInput := false })
      = u
    have hport : u.port p = { s.port p with state := .offline, resetInput := false } := by
      rw [← hu, port_modPort_self, hlatched]
    have hbecomes : PortBecomes (s.mapPorts (peerLatched p)) (u.settle p) p
        fun q => { q with state := .offline, resetInput := false } := by
      have hsettle : PortBecomes u (u.settle p) p id := settle_changes_access u p
      rw [← hu] at hsettle ⊢
      exact portBecomes_of_modPort hsettle
    refine ⟨_, rfl, hbecomes, ?_⟩
    by_cases hidle : (s.port p).access = .idle
    · obtain ⟨a, ha, hquiet, hbegins⟩ := settle_settlesTo (s := u) (p := p) (by rw [hport]; exact hidle)
        (by rw [hport]; exact nofun)
      have hword : (u.withAccess p a).readWord p = u.readWord p :=
        funext fun address => readWord_withAccess u p p a address
      rw [hport] at hquiet hbegins
      rw [ha, port_modPort_self, hword]
      exact ⟨fun h => (hquiet (h.resolve_right fun hbusy => hbusy hidle)).trans hidle.symm,
        fun _ hlines => hbegins hlines⟩
    · have hsame : u.settle p = u := settle_of_busy (.inr (by rw [hport]; exact hidle))
      rw [hsame, hport]
      exact ⟨fun _ => rfl, fun h => absurd h hidle⟩
  · refine congrArg _ (if_neg ?_)
    rintro ⟨hreset, hrun⟩
    exact hnot.elim (fun h => h (hstate.symm.trans hreset)) fun h => h hrun

/-! ## Master reset (R136, R137) -/

/-- A port without an access has none to cut off; another is ABANDONED while its lines ask for it still (R142). -/
theorem abandonAccess_eq (q : Port) :
    (q.access = .idle → q.abandonAccess = .idle)
    ∧ (q.access ≠ .idle → q.lines.asserted = true → q.abandonAccess = .abandoned)
    ∧ (q.access ≠ .idle → q.lines.asserted = false → q.abandonAccess = .idle) := by
  unfold Port.abandonAccess
  cases q.access with
  | idle => exact ⟨fun _ => rfl, fun h => absurd rfl h, fun h => absurd rfl h⟩
  | pending a early => exact ⟨nofun, fun _ h => if_pos h, fun _ h => if_neg (Bool.eq_false_iff.mp h)⟩
  | answered d => exact ⟨nofun, fun _ h => if_pos h, fun _ h => if_neg (Bool.eq_false_iff.mp h)⟩
  | abandoned => exact ⟨nofun, fun _ h => if_pos h, fun _ h => if_neg (Bool.eq_false_iff.mp h)⟩

/-- Settles O44: what master reset leaves, item by item. -/
theorem masterResetClearsPart : Obligations.MasterResetClearsPart := by
  intro s
  have haccess : ∀ p, (s.masterCleared.port p).access = (s.port p).abandonAccess := fun p => by
    rw [port_masterCleared, toReset_access]
  refine ⟨s.masterCleared, rfl, rfl, rfl, slot_masterCleared s, fun b => ?_, ?_, rfl, rfl, rfl, fun p => ?_,
    fun p => ?_, fun p => ?_, fun p => ?_, rfl, rfl⟩
  · simp [Pool.resetOver, Pool.desc, Descriptor.reset]
  · simp only [masterCleared_pool, Pool.resetOver]
  · rw [port_masterCleared]
    rfl
  all_goals
    rw [haccess]
    obtain ⟨hidle, habandoned, hnegated⟩ := abandonAccess_eq (s.port p)
    assumption

/-- Settles O45: the pass begins with all words 0, where master reset was asserted. -/
theorem masterResetEndSamplesStraps : Obligations.MasterResetEndSamplesStraps := by
  intro s straps
  have hexec : exec (.masterResetEnds straps) s = .next (s.masterResetEnded straps) := rfl
  rw [hexec]
  refine ⟨fun hphase => ⟨_, rfl, ?_⟩, fun hphase => congrArg _ ?_⟩
  · simp only [State.masterResetEnded, hphase]
    exact ⟨trivial, fun _ => rfl⟩
  · unfold State.masterResetEnded
    split
    · contradiction
    · rfl
    · rfl

/-- The state after reset is one that master reset leaves. -/
theorem masterCleared_reset : State.reset.masterCleared = State.reset := by
  have hport : ∀ p, State.reset.port p = Port.cleared := fun p => by simp [State.reset, State.port]
  refine State.ext_of_ports (fun p => ?_) rfl rfl rfl rfl rfl rfl
  rw [port_masterCleared, hport]
  rfl

/-- Settles O53: a master reset establishes every invariant, and the state after reset is what one leaves. -/
theorem resetMeetsInvariants : Obligations.ResetMeetsInvariants := by
  obtain ⟨hslots, htables, hcaps⟩ := slotsTablesCaps_masterCleared State.reset
  obtain ⟨hroom, hdeadlines, -⟩ := roomDeadlinesTables_masterCleared State.reset
  obtain ⟨hpool, hchains, hcarried⟩ := whereabouts_masterCleared State.reset
  obtain ⟨hlinked, hquiet, hempty⟩ := linkedQuietEmpty_masterCleared State.reset
  rw [masterCleared_reset] at *
  exact ⟨memoryCanonical_reset, hslots, htables, hcaps, hroom, hdeadlines, hpool, hchains, hcarried, hlinked, hquiet,
    hempty⟩

end Sys2Proof.Machine
end

section
/-! PROOFS. What a station's window shows (chapter 12): packed words field by field, and each region of the map against
the table that lays it out. -/

namespace Sys2Proof.Machine

/-! ## Packed words -/

/-- A packed word is its lowest field with each further field added at its bit. -/
theorem pack_fields (n : Nat) (fields : List (Nat × Nat)) :
    pack ((n, 0) :: fields) = BitVec.ofNat 16 (fields.foldl (fun m f => m + 2 ^ f.2 * f.1) n) := by
  refine pack_eq ?_
  rw [List.map_cons, List.sum_cons, pow_zero, Nat.mul_one]
  induction fields generalizing n with
  | nil => rfl
  | cons f rest ih =>
    rw [List.map_cons, List.sum_cons, List.foldl_cons, ← ih, Nat.mul_comm f.1, Nat.add_assoc]

/-- The five causes stand at bits 0 to 4 of the cause word (Table 12.4). -/
theorem setWidth_causeBits (inbox journal peer scrub fault : Bool) :
    (causeBits inbox journal peer scrub fault).setWidth 16
      = BitVec.ofNat 16 (inbox.toNat + 2 ^ 1 * journal.toNat + 2 ^ 2 * peer.toNat + 2 ^ 3 * scrub.toNat
        + 2 ^ 4 * fault.toNat) := by
  decide +revert

theorem pendingCauses_shown (q : Port) :
    q.pendingCauses.setWidth 16
      = BitVec.ofNat 16 ((decide (q.inbox ≠ [])).toNat + 2 ^ 1 * q.journalCause.toNat + 2 ^ 2 * q.peerCause.toNat
        + 2 ^ 3 * q.scrubCause.toNat + 2 ^ 4 * (decide (q.fault ≠ none)).toNat) := by
  have hinbox : (!q.inbox.isEmpty) = decide (q.inbox ≠ []) := by cases q.inbox <;> simp
  have hfault : q.fault.isSome = decide (q.fault ≠ none) := by cases q.fault <;> simp
  rw [Port.pendingCauses, setWidth_causeBits, hinbox, hfault]

/-! ## Status words (Table 12.4) -/

theorem fault_shown {s : State} {p : Station} {f : FaultWord} (hf : (s.port p).fault = some f) :
    s.readWord p 0x004 = BitVec.ofNat 16
        ((match f.kind with | .access => 1 | .parity => 2) + 2 ^ 8 * f.offset.val + 2 ^ 15 * f.more.toNat)
      ∧ s.readWord p 0x005 = shownBuffer f.buffer := by
  refine ⟨(readWord_head s p (k := 4) (by decide)).trans ?_, (readWord_head s p (k := 5) (by decide)).trans ?_⟩
  · change (s.port p).faultWord = _
    rw [Port.faultWord, hf]
    exact pack_fields ..
  · change (s.port p).faultDetail = _
    rw [Port.faultDetail, hf]
    exact bufferWord_eq _

theorem no_fault_shown {s : State} {p : Station} (hf : (s.port p).fault = none) :
    s.readWord p 0x004 = 0 ∧ s.readWord p 0x005 = 0 := by
  have hword : (s.port p).faultWord = 0 := by rw [Port.faultWord, hf]
  have hdetail : (s.port p).faultDetail = 0 := by rw [Port.faultDetail, hf]
  exact ⟨(readWord_head s p (k := 4) (by decide)).trans hword, (readWord_head s p (k := 5) (by decide)).trans hdetail⟩

theorem showsStatusWords (s : State) (p : Station) : ShowsStatusWords s p :=
  ⟨(readWord_head s p (k := 0) (by decide)).trans (pack_fields ..),
    (readWord_head s p (k := 1) (by decide)).trans (pack_fields ..),
    (readWord_head s p (k := 2) (by decide)).trans (pendingCauses_shown _),
    readWord_head s p (k := 3) (by decide), no_fault_shown, fun _ => fault_shown,
    (readWord_head s p (k := 14) (by decide)).trans (bufferWord_eq _),
    (readWord_head s p (k := 15) (by decide)).trans (pack_fields ..),
    (readWord_scrub s p).trans (pack_fields ..)⟩

/-! ## The current record (Table 12.5) -/

theorem showsRecordFields {word : Nat → Word} {r : Record} (h : ∀ k, k < 16 → word k = viewWord (some r) k) {len : Nat}
    (hlen : r.lengthWord = BitVec.ofNat 16 len) :
    ShowsRecordFields word r.xnumWord r.tagWord r.statusWord r.words len r.chain := by
  refine ⟨h 3 (by decide), h 4 (by decide), h 5 (by decide), h 6 (by decide), fun k hk => ?_,
    (h 11 (by decide)).trans hlen, (h 12 (by decide)).trans (bufferWord_eq _)⟩
  have hword := h (7 + k) (by omega)
  interval_cases k <;> exact hword

theorem showsRecord {word : Nat → Word} {r : Record} (h : ∀ k, k < 16 → word k = viewWord (some r) k) :
    ShowsRecord word r := by
  have hkind := h 0 (by decide)
  refine ⟨h 1 (by decide), h 2 (by decide), (h 13 (by decide)).trans (tickLow_eq _),
    (h 14 (by decide)).trans (tickHigh_eq _), h 15 (by decide), ?_⟩
  obtain ⟨source, service, arrival, body⟩ := r
  cases body with
  | request x ws len chain => exact ⟨hkind, showsRecordFields h rfl⟩
  | notice ws => exact ⟨hkind, showsRecordFields h rfl⟩
  | reply x tag st ws len chain => exact ⟨hkind, showsRecordFields h rfl⟩
  | lapsed kind x tag =>
    refine ⟨?_, showsRecordFields h rfl⟩
    cases kind <;> exact hkind

/-! ## Routes and journal records (Tables 12.6, 12.7) -/

theorem showsRoute {word : Nat → Word} {e : RouteEntry} (h : ∀ k, k < 4 → word k = e.word k) : ShowsRoute word e := by
  have h0 := h 0 (by decide)
  have h1 := h 1 (by decide)
  have h2 := h 2 (by decide)
  have h3 := h 3 (by decide)
  cases e with
  | none => exact ⟨h0, h1, h2, h3⟩
  | request d v timeout m => exact ⟨h0.trans (pack_fields ..), h1, h2, h3⟩
  | notice set v => exact ⟨h0.trans (pack_fields ..), h1, h2, h3⟩

/-- The word with service, peer and role of a record, and the reply status of its close. -/
def JournalHead.roleWord (h : JournalHead) (status : Nat) : Word :=
  pack [(h.service.val, 0), (h.peer.val, 5), ((match h.role with | .requester _ => 0 | .responder => 1), 7),
    (status, 8)]

/-- The words of a record's opening, with the state, reply status and outcome that its close gives. -/
theorem showsJournalHead {word : Nat → Word} {h : JournalHead} {close : Option JournalClose}
    {state status outcome : Nat}
    (hwords : ∀ k, k < 8 → word k = journalRecordWord h close k)
    (hstate : journalRecordWord h close 0 = pack [(h.x.slot.val, 0), (state, 6), (h.x.gen.toNat, 8)])
    (hstatus : journalRecordWord h close 1 = h.roleWord status)
    (houtcome : journalRecordWord h close 3 = pack [(h.wordsOut.val, 0), (outcome, 9)]) :
    ShowsJournalHead word h state status outcome :=
  ⟨((hwords 0 (by decide)).trans hstate).trans (pack_fields ..),
    ((hwords 1 (by decide)).trans hstatus).trans (pack_fields ..), hwords 2 (by decide),
    ((hwords 3 (by decide)).trans houtcome).trans (pack_fields ..),
    (hwords 6 (by decide)).trans (tickLow_eq _), (hwords 7 (by decide)).trans (tickHigh_eq _)⟩

theorem journalRecordWord_of_open (h : JournalHead) :
    journalRecordWord h none 0 = pack [(h.x.slot.val, 0), (1, 6), (h.x.gen.toNat, 8)]
    ∧ journalRecordWord h none 1 = h.roleWord 0 ∧ journalRecordWord h none 3 = pack [(h.wordsOut.val, 0), (0, 9)] :=
  ⟨rfl, rfl, rfl⟩

theorem journalRecordWord_of_replied (h : JournalHead) (st : Status) (wordsIn : PayloadLen) (endTick : Tick) :
    journalRecordWord h (some ⟨.replied st, wordsIn, endTick⟩) 0
      = pack [(h.x.slot.val, 0), (2, 6), (h.x.gen.toNat, 8)]
    ∧ journalRecordWord h (some ⟨.replied st, wordsIn, endTick⟩) 1 = h.roleWord st.toNat
    ∧ journalRecordWord h (some ⟨.replied st, wordsIn, endTick⟩) 3 = pack [(h.wordsOut.val, 0), (1, 9)] :=
  ⟨rfl, rfl, rfl⟩

theorem journalRecordWord_of_lapsed (h : JournalHead) (kind : Lapse) (wordsIn : PayloadLen) (endTick : Tick) :
    journalRecordWord h (some ⟨.lapsed kind, wordsIn, endTick⟩) 0
      = pack [(h.x.slot.val, 0), (2, 6), (h.x.gen.toNat, 8)]
    ∧ journalRecordWord h (some ⟨.lapsed kind, wordsIn, endTick⟩) 1 = h.roleWord 0
    ∧ journalRecordWord h (some ⟨.lapsed kind, wordsIn, endTick⟩) 3
      = pack [(h.wordsOut.val, 0), ((JournalOutcome.lapsed kind).code, 9)] :=
  ⟨rfl, rfl, rfl⟩

theorem showsJournalEntry {word : Nat → Word} {e : JournalEntry} (h : ∀ k, k < 8 → word k = e.word k) :
    ShowsJournalEntry word e := by
  cases e with
  | empty => exact h
  | opened head =>
    have hwords : ∀ k, k < 8 → word k = journalRecordWord head none k := h
    obtain ⟨hstate, hrole, houtcome⟩ := journalRecordWord_of_open head
    exact ⟨showsJournalHead hwords hstate hrole houtcome, h 4 (by decide), h 5 (by decide)⟩
  | closed head c =>
    have hwords : ∀ k, k < 8 → word k = journalRecordWord head (some c) k := h
    refine ⟨?_, h 4 (by decide), (h 5 (by decide)).trans (tickLow_eq _)⟩
    obtain ⟨outcome, wordsIn, endTick⟩ := c
    cases outcome with
    | replied st =>
      obtain ⟨hstate, hrole, houtcome⟩ := journalRecordWord_of_replied head st wordsIn endTick
      exact showsJournalHead hwords hstate hrole houtcome
    | lapsed kind =>
      obtain ⟨hstate, hrole, houtcome⟩ := journalRecordWord_of_lapsed head kind wordsIn endTick
      cases kind <;> exact showsJournalHead hwords hstate hrole houtcome

/-! ## The window -/

theorem codesAsTabled : CodesAsTabled := ⟨by decide, by decide, by decide⟩

/-- A permitted read shows the stored word, a refused one 0. -/
theorem wordsFrom_buffer (s : State) (p : Station) (w : Offset) :
    s.wordsFrom p 0x040 w.val = s.bufferWindowWord p w := readWord_buffer s p w

/-- Settles O52: each region of the window map against its table. -/
theorem windowShowsStateAsItStands : Obligations.WindowShowsStateAsItStands := by
  refine ⟨codesAsTabled, fun s p => ⟨showsStatusWords s p, ?_⟩⟩
  refine ⟨readWord_head s p (k := 8) (by decide), readWord_head s p (k := 9) (by decide),
    readWord_head s p (k := 10) (by decide), readWord_head s p (k := 11) (by decide),
    readWord_head s p (k := 12) (by decide), readWord_head s p (k := 13) (by decide),
    (readWord_head s p (k := 6) (by decide)).trans (tickLow_eq _), readWord_head s p (k := 7) (by decide),
    fun k => ⟨readWord_param s p k, readWord_resultParam s p k⟩, fun hnone k => ?_, fun r hr => ?_,
    fun w b hselect hheld => ?_, fun w hrefused => ?_, fun v => ⟨?_, readWord_admit s p v⟩, fun k => ⟨?_, ?_⟩,
    fun address haddress => ?_⟩
  · rw [readWord_view s p k.isLt, hnone]
    rfl
  · exact showsRecord fun k hk => by rw [← hr]; exact readWord_view s p hk
  · rw [wordsFrom_buffer, bufferWindowWord_of_permitted w hselect hheld]
    rfl
  · rw [wordsFrom_buffer, bufferWindowWord_of_refused w (permitted_eq_none.mpr hrefused)]
  · exact showsRoute fun k hk => readWord_route s p v hk
  · exact showsJournalEntry fun k' hk => readWord_areaA s p k hk
  · exact showsJournalEntry fun k' hk => readWord_areaB s p k hk
  · rw [← BitVec.setWidth_eq address, ← BitVec.ofNat_toNat]
    exact readWord_unused s p address.isLt (by omega)

end Sys2Proof.Machine
end

section
/-! PROOFS. The pool through a teardown (sections 5.3, 5.6, 8.5): carried chains discarded one after the other, and then
what the station holds released, give the buffers back in one order. -/

namespace Sys2Proof.Machine

/-! ## Buffers outside all chains -/

/-- The buffer stands in no chain, with descriptor `d`. -/
def Pool.Outside (pool : Pool) (b : BufferNo) (d : Descriptor) : Prop :=
  pool.desc b = d ∧ d.place.inChain = false

theorem outside_giveBack {pool : Pool} {b : BufferNo} {d : Descriptor} (h : pool.Outside b d) (c : BufferNo) :
    (pool.giveBack c).Outside b d := by
  obtain ⟨hdesc, hout⟩ := h
  refine ⟨?_, hout⟩
  by_cases hbc : b = c
  · subst hbc
    obtain ⟨hsame, -⟩ | ⟨hin, -⟩ := giveBack_cases pool b
    · rw [hsame, hdesc]
    · rw [← hdesc, inChain_iff.mpr hin] at hout
      cases hout
  · rw [desc_giveBack_ne pool hbc, hdesc]

theorem outside_discard {pool : Pool} {b : BufferNo} {d : Descriptor} (h : pool.Outside b d) (c : Option BufferNo) :
    (pool.discard c).Outside b d := by
  rw [discard_eq]
  exact foldl_keeps (fun q : Pool => q.Outside b d) h fun q x _ hq => outside_giveBack hq x

theorem outside_releaseHeld {pool : Pool} {b : BufferNo} {d : Descriptor} (h : pool.Outside b d) (p : Station) :
    (pool.releaseHeld p).Outside b d := by
  refine foldl_keeps (fun q : Pool => q.Outside b d) ?_ fun q x _ hq => outside_giveBack hq x
  refine foldl_keeps (fun q : Pool => q.Outside b d) h fun q x _ hq => ?_
  exact foldl_keeps (fun q : Pool => q.Outside b d) hq fun q x _ hq => outside_giveBack hq x

/-! ## Discards of carried chains, one after the other (R92) -/

/-- A returned buffer stands in no chain. -/
theorem Pool.Returned.not_inChain {before after : Pool} {bs : List BufferNo} (h : before.Returned after bs)
    {b : BufferNo} (hb : b ∈ bs) : (after.desc b).place.inChain = false ∧ (after.desc b).head = false := by
  obtain ⟨hdesc, -⟩ := h
  rw [hdesc, if_pos hb]
  refine ⟨?_, rfl⟩
  show Place.inChain (if _ then _ else _) = false
  split <;> rfl

/-- Buffers that still stand in a chain are not among those returned before. -/
theorem Pool.Returned.trans_of_inChain {a b c : Pool} {xs ys : List BufferNo} (h : a.Returned b xs)
    (k : b.Returned c ys) (hin : ∀ y ∈ ys, (b.desc y).place.inChain = true) : a.Returned c (xs ++ ys) := by
  refine h.trans k fun y hy hx => ?_
  obtain ⟨hout, -⟩ := h.not_inChain hx
  rw [hin y hy] at hout
  cases hout

/-- ATTACHED buffers were given back in this order, and the chains of the heads that are left stand as they were. -/
structure Pool.Discarded (before after : Pool) (bs : List BufferNo) : Prop where
  returned : before.Returned after bs
  chains : ∀ h, (after.desc h).head = true → after.chain h = before.chain h
  attached : ∀ b ∈ bs, (before.desc b).place = .attached

theorem Pool.Discarded.refl (pool : Pool) : pool.Discarded pool [] := ⟨.refl pool, fun _ _ => rfl, nofun⟩

/-- One more carried chain is discarded. -/
theorem Pool.Discarded.discard {before pool : Pool} {xs : List BufferNo} {n n' : BufferNo → Nat}
    {c : Option BufferNo} (h : before.Discarded pool xs) (hp : pool.CarriesChains n)
    (hn : ∀ b, n b = n' b + carriedBy c b) : before.Discarded (pool.discard c) (xs ++ before.chainOf c) := by
  cases c with
  | none =>
    rw [show before.chainOf none = [] from rfl, List.append_nil]
    exact h
  | some x =>
    obtain ⟨hplace, hhead⟩ := hp.attached_of_carried hn
    obtain ⟨hc, -⟩ := hp
    obtain ⟨hreturned, hchains, hattached⟩ := h
    have hsame : before.chainOf (some x) = pool.chain x := (hchains x hhead).symm
    have hback : pool.Returned (pool.discard (some x)) (pool.chain x) := hc.returned_giveBackChain hhead
    rw [hsame]
    refine ⟨hreturned.trans_of_inChain hback fun y hy => hc.inChain_of_mem hhead hy, fun y hy => ?_, fun y hy => ?_⟩
    · have hnot : y ∉ pool.chain x := fun hmem => by
        rw [(hback.not_inChain hmem).2] at hy
        cases hy
      have hyhead : (pool.desc y).head = true := by rwa [hback.desc_of_notMem hnot] at hy
      rw [← hchains y hyhead]
      refine hback.chain_eq fun z hzy hzx => hnot ?_
      rw [hc.head_unique hyhead hhead hzy hzx]
      exact mem_chain_self pool x
    · obtain hx | hx := List.mem_append.mp hy
      · exact hattached y hx
      · have hleft : y ∉ xs := fun hmem => by
          obtain ⟨hout, -⟩ := hreturned.not_inChain hmem
          rw [hc.inChain_of_mem hhead hx] at hout
          cases hout
        rw [← hreturned.desc_of_notMem hleft, hc.place_of_mem_chain hx, hplace]

/-- A list of carried chains is discarded. -/
theorem Pool.Discarded.foldl {cs : List (Option BufferNo)} {before pool : Pool} {xs : List BufferNo}
    {n n' : BufferNo → Nat} (h : before.Discarded pool xs) (hp : pool.CarriesChains n)
    (hn : ∀ b, n b = n' b + (cs.map fun c => carriedBy c b).sum) :
    before.Discarded (cs.foldl Pool.discard pool) (xs ++ cs.flatMap before.chainOf)
      ∧ (cs.foldl Pool.discard pool).CarriesChains n' := by
  induction cs generalizing pool xs n with
  | nil =>
    have hsame : n = n' := funext hn
    rw [List.flatMap_nil, List.append_nil]
    exact ⟨h, hsame ▸ hp⟩
  | cons c rest ih =>
    have hstep : ∀ b, n b = n' b + (rest.map fun c => carriedBy c b).sum + carriedBy c b := fun b => by
      rw [hn, List.map_cons, List.sum_cons]
      omega
    rw [List.flatMap_cons, ← List.append_assoc]
    exact ih (h.discard hp hstep) (hp.discard hstep) fun b => rfl

/-- After the discards, what the station holds goes back as it stood before them. -/
theorem Pool.Discarded.releaseHeld {before pool : Pool} {xs : List BufferNo} (h : before.Discarded pool xs)
    (hc : ChainsSound pool) (p : Station) :
    before.Returned (pool.releaseHeld p) (xs ++ (before.heldHeads p).flatMap before.chain) := by
  obtain ⟨hreturned, hchains, hattached⟩ := h
  have hheads : pool.heldHeads p = before.heldHeads p := by
    refine List.filter_congr fun b _ => ?_
    by_cases hb : b ∈ xs
    · obtain ⟨hout, hhead⟩ := hreturned.not_inChain hb
      simp [Pool.holds, hattached b hb, hhead]
    · simp [Pool.holds, hreturned.desc_of_notMem hb]
  have hheld : (pool.heldHeads p).flatMap pool.chain = (before.heldHeads p).flatMap before.chain := by
    rw [← hheads]
    exact List.flatMap_congr fun x hx => hchains x (mem_heldHeads.mp hx).2
  rw [← hheld]
  refine hreturned.trans_of_inChain (hc.returned_releaseHeld p) fun y hy => ?_
  rw [(hc.mem_heldChains y).mp hy]
  rfl

/-! ## Endings without a reply -/

theorem carriers_endExchange {s : State} {i : SlotNo} {e : Ending} (he : e.chain = none) (b : BufferNo) :
    (s.endExchange i e).carriers b + carriedBy (endedChain s i) b = s.carriers b := by
  by_cases hi : (s.slot i).state = .free
  · rw [endExchange_of_free e hi, endedChain, hi]
    rfl
  · have hinbox : ∀ q, ((s.endExchange i e).port q).inbox = (((s.endWithdraw i).endOutcome i e).port q).inbox := by
      intro q
      rw [endExchange_of_used e hi, State.freeSlot, port_setSlot, port_endJournals]
    rw [carriers_congr hinbox, carriers_endOutcome, he, carriedBy_none, Nat.add_zero, carriers_endWithdraw]

/-- Endings of different slots take out, all together, the carriers of the chains they withdraw. -/
theorem carriers_foldl_endExchange {s : State} {l : List SlotNo} (hl : l.Nodup) {f : SlotNo → Ending}
    (hf : ∀ i, (f i).chain = none) (b : BufferNo) :
    (l.foldl (fun u i => u.endExchange i (f i)) s).carriers b + ((l.map (endedChain s)).map fun c => carriedBy c b).sum
      = s.carriers b := by
  induction l generalizing s with
  | nil => rfl
  | cons i rest ih =>
    obtain ⟨hi, hrest⟩ := List.nodup_cons.mp hl
    have hsame : rest.map (endedChain (s.endExchange i (f i))) = rest.map (endedChain s) :=
      List.map_congr_left fun j hj => endedChain_endExchange s _ fun hji => hi (hji ▸ hj)
    have hrest' := ih hrest (s := s.endExchange i (f i))
    rw [hsame] at hrest'
    have hone := carriers_endExchange (s := s) (i := i) (hf i) b
    rw [List.foldl_cons, List.map_cons, List.map_cons, List.sum_cons]
    omega

theorem chainsIn_eq_sum (l : List Record) (b : BufferNo) :
    chainsIn l b = ((l.map Record.chain).map fun c => carriedBy c b).sum := by
  induction l with
  | nil => rfl
  | cons r l ih => rw [chainsIn_cons, ih, List.map_cons, List.map_cons, List.sum_cons, Nat.add_comm]

end Sys2Proof.Machine
end

section
/-! PROOFS. TEARDOWN (section 8.5): the slots that name the station end one after the other, then its inbox, its buffers
and its port are cleared. -/

namespace Sys2Proof.Machine

/-! ## Lists in which at most one element is meant -/

section
variable {α : Type} {P : α → Bool} {l : List α}

theorem eraseP_eq_filter_of_countP_le_one (h : l.countP P ≤ 1) : l.eraseP P = l.filter fun a => !P a := by
  induction l with
  | nil => rfl
  | cons a rest ih =>
    rw [List.countP_cons] at h
    by_cases ha : P a = true
    · have hnone : rest.countP P = 0 := by rw [if_pos ha] at h; omega
      have hrest : rest.filter (fun a => !P a) = rest :=
        List.filter_eq_self.mpr fun b hb => by simpa using List.countP_eq_zero.mp hnone b hb
      rw [List.eraseP_cons_of_pos ha, List.filter_cons_of_neg (by simp [ha]), hrest]
    · rw [if_neg ha] at h
      rw [List.eraseP_cons_of_neg ha, List.filter_cons_of_pos (by simpa using ha), ih h]

theorem filter_eq_find?_of_countP_le_one (h : l.countP P ≤ 1) : l.filter P = (l.find? P).toList := by
  induction l with
  | nil => rfl
  | cons a rest ih =>
    rw [List.countP_cons] at h
    by_cases ha : P a = true
    · have hnone : rest.countP P = 0 := by rw [if_pos ha] at h; omega
      have hrest : rest.filter P = [] := List.filter_eq_nil_iff.mpr (List.countP_eq_zero.mp hnone)
      rw [List.filter_cons_of_pos ha, hrest, List.find?_cons_of_pos ha]
      rfl
    · rw [if_neg ha] at h
      rw [List.filter_cons_of_neg ha, List.find?_cons_of_neg ha, ih h]

/-- A value that one index of a list sets is set where that index stands in the list. -/
theorem foldl_set_eq {ι : Type} [DecidableEq ι] (j : ι) (v x : α) (is : List ι) :
    is.foldl (fun x i => if j = i then v else x) x = if j ∈ is then v else x := by
  induction is generalizing x with
  | nil => rfl
  | cons i rest ih =>
    rw [List.foldl_cons, ih]
    by_cases hrest : j ∈ rest
    · rw [if_pos hrest, if_pos (List.mem_cons_of_mem i hrest)]
    · rw [if_neg hrest]
      exact if_congr (by simp [hrest]) rfl rfl

end

/-! ## Endings of different slots -/

/-- What each ending does to one item of the state, read off the slots as they stand at the start, endings of different
slots do to it one after the other. -/
theorem foldl_endExchange_item {α : Type} {s : State} {f : SlotNo → Ending} (item : State → α) (change : α → SlotNo → α)
    (hstep : ∀ u i, u.slot i = s.slot i → u.tickCount = s.tickCount → (s.slot i).state ≠ .free →
      item (u.endExchange i (f i)) = change (item u) i)
    {l : List SlotNo} (hl : l.Nodup) (hused : ∀ i ∈ l, (s.slot i).state ≠ .free) {u : State}
    (hslot : ∀ i ∈ l, u.slot i = s.slot i) (hcount : u.tickCount = s.tickCount) :
    item (l.foldl (fun u i => u.endExchange i (f i)) u) = l.foldl change (item u) := by
  induction l generalizing u with
  | nil => rfl
  | cons i rest ih =>
    obtain ⟨hi, hrest⟩ := List.nodup_cons.mp hl
    rw [List.foldl_cons, List.foldl_cons,
      ← hstep u i (hslot i List.mem_cons_self) hcount (hused i List.mem_cons_self)]
    refine ih hrest (fun j hj => hused j (List.mem_cons_of_mem _ hj)) (fun j hj => ?_)
      ((endExchange_tickCount u i _).trans hcount)
    rw [slot_endExchange_ne _ fun hji : j = i => hi (hji ▸ hj), hslot j (List.mem_cons_of_mem _ hj)]

/-- How the teardown of station `p` ends the exchange in a slot that names it (R16, R133). -/
def State.tornEnding (s : State) (p : Station) (i : SlotNo) : Ending :=
  if (s.slot i).requester = p then .silent else .lapsed .peerGone

theorem tornEnding_chain (s : State) (p : Station) (i : SlotNo) : (s.tornEnding p i).chain = none := by
  unfold State.tornEnding
  split <;> rfl

theorem tornEnding_close (s : State) (p : Station) (i : SlotNo) (now : Tick) :
    (s.tornEnding p i).close now = ⟨.lapsed .peerGone, 0, now⟩ := by
  unfold State.tornEnding
  split <;> rfl

theorem namedSlotsEnded_eq (s : State) (p : Station) :
    s.namedSlotsEnded p = (s.slotsNaming p).foldl (fun u i => u.endExchange i (s.tornEnding p i)) s := rfl

theorem mem_slotsNaming {s : State} {p : Station} {i : SlotNo} : i ∈ s.slotsNaming p
    ↔ (s.slot i).state ≠ .free ∧ ((s.slot i).requester = p ∨ (s.slot i).dest = p) := by
  simp [State.slotsNaming]

theorem slotsNaming_nodup (s : State) (p : Station) : (s.slotsNaming p).Nodup := (List.nodup_finRange 48).filter _

/-- The endings of a teardown, on one item of the state. -/
theorem namedSlotsEnded_item {α : Type} {s : State} {p : Station} (item : State → α) (change : α → SlotNo → α)
    (hstep : ∀ u i, u.slot i = s.slot i → u.tickCount = s.tickCount → (s.slot i).state ≠ .free →
      item (u.endExchange i (s.tornEnding p i)) = change (item u) i) :
    item (s.namedSlotsEnded p) = (s.slotsNaming p).foldl change (item s) := by
  rw [namedSlotsEnded_eq]
  exact foldl_endExchange_item item change hstep (slotsNaming_nodup s p) (fun i hi => (mem_slotsNaming.mp hi).1)
    (fun _ _ => rfl) rfl

theorem slot_namedSlotsEnded (s : State) (p : Station) (j : SlotNo) :
    (s.namedSlotsEnded p).slot j
      = if (s.slot j).state ≠ .free ∧ ((s.slot j).requester = p ∨ (s.slot j).dest = p) then
          Slot.freeIn ((s.slot j).gen + 1)
        else s.slot j := by
  have hfold := namedSlotsEnded_item (s := s) (p := p) (fun u => u.slot j)
    (fun x i => if j = i then Slot.freeIn ((s.slot j).gen + 1) else x) fun u i hslot _ hused => by
      rw [slot_endExchange _ (by rwa [hslot]), hslot]
      by_cases hj : j = i
      · rw [if_pos hj, if_pos hj, hj]
      · rw [if_neg hj, if_neg hj]
  rw [hfold, foldl_set_eq]
  exact if_congr mem_slotsNaming rfl rfl

/-! ## Journals (R15, R16) -/

/-- At a station that stays, a teardown closes the record that its role names, with PEER_GONE. -/
theorem journal_namedSlotsEnded {s : State} (hs : SlotsSound s) {p q : Station} (hq : q ≠ p) :
    ((s.namedSlotsEnded p).port q).journal
      = (s.slotsNaming p).foldl
          (fun j i =>
            if (s.slot i).requester = q then
              j.closedAt (s.slot i).reqRef (s.xnum i) ⟨.lapsed .peerGone, 0, s.tickCount⟩
            else if (s.slot i).dest = q then
              j.closedAt (s.slot i).respRef (s.xnum i) ⟨.lapsed .peerGone, 0, s.tickCount⟩
            else j)
          (s.port q).journal := by
  refine namedSlotsEnded_item (fun u => (u.port q).journal) _ fun u i hslot hcount hused => ?_
  obtain ⟨-, hstations, -⟩ := hs i
  obtain ⟨hdiffer, -⟩ := hstations hused
  have hxnum : u.xnum i = s.xnum i := by rw [State.xnum, State.xnum, hslot]
  rw [port_endExchange _ (by rwa [hslot])]
  show endedJournal u i (s.tornEnding p i) q = _
  rw [endedJournal_eq_journalAfterEnding (by rwa [hslot]), State.journalAfterEnding, hslot, hxnum, hcount,
    tornEnding_close]
  by_cases hreq : (s.slot i).requester = q
  · have hending : s.tornEnding p i = .lapsed .peerGone := if_neg fun h => hq (hreq.symm.trans h)
    rw [if_pos hreq, if_pos hreq, hending]
    rfl
  · rw [if_neg hreq, if_neg hreq]

/-! ## Inboxes (R48, R49) -/

/-- What station `q` is told of the exchange in a slot. -/
def State.tornTold (s : State) (p q : Station) (i : SlotNo) : Option Record :=
  if q = (s.slot i).requester then (s.tornEnding p i).outcomeRecord (s.slot i) (s.xnum i) s.tickCount else none

/-- Withdrawal at station `q` of the request in a slot, where it is untaken. -/
def State.withdrawnAt (s : State) (q : Station) (l : List Record) (i : SlotNo) : List Record :=
  if (s.slot i).state = .opened ∧ q = (s.slot i).dest then withoutRequest (s.xnum i) l else l

theorem tornTold_requestOf {s : State} {p q : Station} {i : SlotNo} {r : Record} (h : s.tornTold p q i = some r) :
    r.requestOf = none := by
  unfold State.tornTold at h
  split at h
  · exact outcomeRecord_requestOf h
  · cases h

/-- What is no request stays where requests are withdrawn. -/
theorem withdrawnAt_append (s : State) (q : Station) (i : SlotNo) (l : List Record) {told : List Record}
    (h : ∀ r ∈ told, r.requestOf = none) : s.withdrawnAt q (l ++ told) i = s.withdrawnAt q l i ++ told := by
  unfold State.withdrawnAt
  split
  · unfold withoutRequest
    by_cases hany : ∃ r ∈ l, decide (r.requestOf = some (s.xnum i)) = true
    · obtain ⟨r, hr, hx⟩ := hany
      exact List.eraseP_append_left (p := fun r => decide (r.requestOf = some (s.xnum i))) hx told hr
    · rw [List.eraseP_append_right _ fun r hr hx => hany ⟨r, hr, hx⟩,
        List.eraseP_of_forall_not (l := told) fun r hr => by simp [h r hr],
        List.eraseP_of_forall_not fun r hr hx => hany ⟨r, hr, hx⟩]
  · rfl

/-- Withdrawals and outcomes, slot by slot: first all withdrawals, then all outcomes. -/
theorem foldl_withdrawnAt_told (s : State) (p q : Station) (is : List SlotNo) (l : List Record) :
    is.foldl (fun l i => s.withdrawnAt q l i ++ (s.tornTold p q i).toList) l
      = is.foldl (s.withdrawnAt q) l ++ is.filterMap (s.tornTold p q) := by
  suffices hgen : ∀ told : List Record, (∀ r ∈ told, r.requestOf = none) →
      is.foldl (fun l i => s.withdrawnAt q l i ++ (s.tornTold p q i).toList) (l ++ told)
        = is.foldl (s.withdrawnAt q) l ++ (told ++ is.filterMap (s.tornTold p q)) by
    simpa using hgen [] nofun
  induction is generalizing l with
  | nil => intro told _; simp
  | cons i rest ih =>
    intro told htold
    have hnew : ∀ r ∈ told ++ (s.tornTold p q i).toList, r.requestOf = none := by
      intro r hr
      obtain hr | hr := List.mem_append.mp hr
      · exact htold r hr
      · exact tornTold_requestOf (Option.mem_toList.mp hr)
    rw [List.foldl_cons, List.foldl_cons, withdrawnAt_append s q i l htold, List.append_assoc, ih _ _ hnew,
      List.append_assoc]
    cases htold' : s.tornTold p q i with
    | none => rw [List.filterMap_cons_none htold']; rfl
    | some r => rw [List.filterMap_cons_some htold']; rfl

/-- An inbox holds at most one REQUEST record of an exchange. -/
theorem RequestsMatchOpen.countP_le_one {s : State} (h : RequestsMatchOpen s) (q : Station) (i : SlotNo) :
    (s.port q).inbox.countP (fun r => decide (r.requestOf = some (s.xnum i))) ≤ 1 := by
  obtain ⟨hcount, -⟩ := h
  calc
    (s.port q).inbox.countP (fun r => decide (r.requestOf = some (s.xnum i))) ≤ requestsFor (s.port q) i := by
      refine List.countP_mono_left fun r _ hr => asksFor_eq_true.mpr ⟨s.xnum i, of_decide_eq_true hr, rfl⟩
    _ ≤ 1 := by
      rw [hcount]
      split <;> decide

/-- The exchange number of a REQUEST record is the one its slot has. -/
theorem RequestsMatchOpen.eq_xnum {s : State} (h : RequestsMatchOpen s) {q : Station} {r : Record} {x : XNum}
    (hr : r ∈ (s.port q).inbox) (hx : r.requestOf = some x) : x = s.xnum x.slot := by
  obtain ⟨-, hgen⟩ := h
  rw [State.xnum, ← hgen q r x hr hx]

/-- A withdrawal takes the requests of its exchange out of an inbox. -/
theorem withdrawnAt_eq_filter {s : State} (h : RequestsMatchOpen s) {q : Station} {l : List Record}
    (hl : l.Sublist (s.port q).inbox) (i : SlotNo) :
    s.withdrawnAt q l i = l.filter fun r => !decide (r.requestOf = some (s.xnum i)) := by
  unfold State.withdrawnAt
  split
  · exact eraseP_eq_filter_of_countP_le_one (hl.countP_le.trans (h.countP_le_one q i))
  case isFalse hnot =>
    refine (List.filter_eq_self.mpr fun r hr => ?_).symm
    rw [Bool.not_eq_true', decide_eq_false_iff_not]
    intro hx
    obtain ⟨hopen, hdest⟩ := h.opened_of_mem (hl.subset hr) hx
    exact hnot ⟨hopen, hdest.symm⟩

theorem foldl_withdrawnAt_eq_filter {s : State} (h : RequestsMatchOpen s) {q : Station} (is : List SlotNo)
    {l : List Record} (hl : l.Sublist (s.port q).inbox) :
    is.foldl (s.withdrawnAt q) l = l.filter fun r => decide (∀ i ∈ is, r.requestOf ≠ some (s.xnum i)) := by
  induction is generalizing l with
  | nil => simp
  | cons i rest ih =>
    rw [List.foldl_cons, withdrawnAt_eq_filter h hl, ih (List.filter_sublist.trans hl), List.filter_filter]
    refine List.filter_congr fun r _ => ?_
    rw [Bool.eq_iff_iff]
    simp [and_comm]

/-- The inbox of any station after step 1 of a teardown. -/
theorem inbox_namedSlotsEnded {s : State} (h : RequestsMatchOpen s) (p q : Station) :
    ((s.namedSlotsEnded p).port q).inbox
      = ((s.port q).inbox.filter fun r => decide (∀ i ∈ s.slotsNaming p, r.requestOf ≠ some (s.xnum i)))
        ++ (s.slotsNaming p).filterMap (s.tornTold p q) := by
  have hfold := namedSlotsEnded_item (s := s) (p := p) (fun u => (u.port q).inbox)
    (fun l i => s.withdrawnAt q l i ++ (s.tornTold p q i).toList) fun u i hslot hcount hused => by
      have hxnum : u.xnum i = s.xnum i := by rw [State.xnum, State.xnum, hslot]
      rw [port_endExchange _ (by rwa [hslot])]
      show endedInbox u i (s.tornEnding p i) q = _
      rw [endedInbox, hslot, hxnum, hcount, State.withdrawnAt, State.tornTold]
      congr 1
      split <;> rfl
  rw [hfold, foldl_withdrawnAt_told, foldl_withdrawnAt_eq_filter h _ (List.Sublist.refl _)]

/-- A REQUEST record is of a slot that names station `p` where its destination or its requester is `p`. -/
theorem RequestsMatchOpen.named_iff {s : State} (h : RequestsMatchOpen s) (p : Station) {q : Station} {r : Record}
    (hr : r ∈ (s.port q).inbox) :
    (∀ i ∈ s.slotsNaming p, r.requestOf ≠ some (s.xnum i))
      ↔ ∀ x, r.requestOf = some x → (s.slot x.slot).requester ≠ p ∧ q ≠ p := by
  constructor
  · intro hnot x hx
    obtain ⟨hopen, hdest⟩ := h.opened_of_mem hr hx
    have hunnamed : x.slot ∉ s.slotsNaming p := fun hmem =>
      hnot x.slot hmem (hx.trans (congrArg some (h.eq_xnum hr hx)))
    rw [mem_slotsNaming, hopen] at hunnamed
    exact ⟨fun hreq => hunnamed ⟨nofun, .inl hreq⟩, fun hqp => hunnamed ⟨nofun, .inr (hdest.trans hqp)⟩⟩
  · intro hall i hi hx
    obtain ⟨hreq, hqp⟩ := hall _ hx
    obtain ⟨-, hdest⟩ := h.opened_of_mem hr hx
    obtain ⟨-, hnamed⟩ := mem_slotsNaming.mp hi
    exact hnamed.elim hreq fun hd => hqp (hdest.symm.trans hd)

/-- Each station that stays loses the requests of the torn station and is told of those it had sent there. -/
theorem inbox_of_other {s : State} (h : RequestsMatchOpen s) {p q : Station} (hq : q ≠ p) :
    ((s.namedSlotsEnded p).port q).inbox
      = ((s.port q).inbox.filter fun r =>
          match r.requestOf with
          | none => true
          | some x => decide ((s.slot x.slot).requester ≠ p))
        ++ (List.finRange 48).filterMap fun i =>
          if (s.slot i).state ≠ .free ∧ (s.slot i).requester = q ∧ (s.slot i).dest = p then
            some ⟨p, (s.slot i).service, s.tickCount, .lapsed .peerGone (s.xnum i) (s.slot i).tag⟩
          else none := by
  rw [inbox_namedSlotsEnded h]
  congr 1
  · refine List.filter_congr fun r hr => ?_
    rw [Bool.eq_iff_iff, decide_eq_true_eq, h.named_iff p hr]
    cases r.requestOf with
    | none => simp
    | some x => simp [hq]
  · rw [State.slotsNaming, List.filterMap_filter]
    refine List.filterMap_congr fun i _ => ?_
    by_cases htold : (s.slot i).state ≠ .free ∧ (s.slot i).requester = q ∧ (s.slot i).dest = p
    · obtain ⟨hused, hreq, hdest⟩ := id htold
      have hending : s.tornEnding p i = .lapsed .peerGone := if_neg fun hp => hq (hreq.symm.trans hp)
      rw [if_pos htold, if_pos (decide_eq_true ⟨hused, .inr hdest⟩), State.tornTold, if_pos hreq.symm, hending, ← hdest]
      rfl
    · rw [if_neg htold]
      split
      case isFalse => rfl
      case isTrue hnamed =>
        obtain ⟨hused, hnamed⟩ := of_decide_eq_true hnamed
        refine if_neg fun hreq => htold ⟨hused, hreq.symm, hnamed.resolve_left fun hp => hq (hreq.trans hp)⟩

/-- The torn station keeps, until step 2, its records that are no requests. -/
theorem inbox_of_torn {s : State} (h : RequestsMatchOpen s) (p : Station) :
    ((s.namedSlotsEnded p).port p).inbox = (s.port p).inbox.filter fun r => decide (r.requestOf = none) := by
  have hnone : (s.slotsNaming p).filterMap (s.tornTold p p) = [] := by
    refine List.filterMap_eq_nil_iff.mpr fun i _ => ?_
    unfold State.tornTold
    split
    case isFalse => rfl
    case isTrue hreq =>
      have hending : s.tornEnding p i = .silent := if_pos hreq.symm
      rw [hending]
      rfl
  rw [inbox_namedSlotsEnded h, hnone, List.append_nil]
  refine List.filter_congr fun r hr => ?_
  rw [Bool.eq_iff_iff, decide_eq_true_eq, decide_eq_true_eq, h.named_iff p hr]
  cases r.requestOf <;> simp

/-! ## Buffers (R56, R92, R93) -/

/-- The chains that a teardown discards, in their order. -/
def State.tornChains (s : State) (p : Station) : List (Option BufferNo) :=
  (s.slotsNaming p).map (endedChain s)
  ++ ((s.port p).inbox.filter fun r => decide (r.requestOf = none)).map Record.chain

theorem pool_namedSlotsEnded (s : State) (p : Station) :
    (s.namedSlotsEnded p).pool = ((s.slotsNaming p).map (endedChain s)).foldl Pool.discard s.pool := by
  rw [namedSlotsEnded_eq]
  exact pool_foldl_endExchange (slotsNaming_nodup s p) (tornEnding_chain s p)

/-- The pool of a torn station's part: the inbox that step 1 leaves is discarded, and what is held released. -/
theorem tornDown_pool_eq (s : State) (p : Station) :
    (s.tornDown p).pool = ((((s.namedSlotsEnded p).port p).inbox.map Record.chain).foldl Pool.discard
      (((s.slotsNaming p).map (endedChain s)).foldl Pool.discard s.pool)).releaseHeld p := by
  have hpool := tornDown_pool s p
  rw [tearSlots_eq] at hpool
  rw [hpool, pool_namedSlotsEnded, List.foldl_map (f := Record.chain)]

/-- The records of an exchange in the destination's inbox are the one that its ending withdraws. -/
theorem chainOf_endedChain {s : State} (h : RequestsMatchOpen s) (i : SlotNo) :
    s.pool.chainOf (endedChain s i)
      = ((s.port (s.slot i).dest).inbox.filter fun r => decide (r.requestOf = some (s.xnum i))).flatMap fun r =>
          s.pool.chainOf r.chain := by
  rw [filter_eq_find?_of_countP_le_one (h.countP_le_one _ i)]
  cases hfound : (s.port (s.slot i).dest).inbox.find? (fun r => decide (r.requestOf = some (s.xnum i))) with
  | none =>
    have hnone : endedChain s i = none := by
      unfold endedChain
      split
      · rw [Port.findRequest, hfound]
        rfl
      · rfl
      · rfl
    rw [hnone]
    rfl
  | some r =>
    have hx : r.requestOf = some (s.xnum i) := by simpa using List.find?_some hfound
    obtain ⟨hopen, -⟩ := h.opened_of_mem (List.mem_of_find?_eq_some hfound) hx
    have hchain : endedChain s i = r.chain := by
      have hopen' : (s.slot i).state = .opened := hopen
      simp only [endedChain, hopen', Port.findRequest, hfound, Option.bind_some]
    rw [hchain]
    exact (List.flatMap_singleton ..).symm

/-- The buffers of these chains, and then those held, are the ones that a teardown gives back. -/
theorem buffersTornDown_eq {s : State} (h : RequestsMatchOpen s) (p : Station) :
    (s.tornChains p).flatMap s.pool.chainOf ++ (s.pool.heldHeads p).flatMap s.pool.chain = s.buffersTornDown p := by
  rw [State.tornChains, List.flatMap_append, List.flatMap_map, List.flatMap_map, State.buffersTornDown]
  congr 2
  exact List.flatMap_congr fun i _ => chainOf_endedChain h i

/-- What the endings withdraw and what the inbox holds then are carried by different records. -/
theorem carriers_tornChains {s : State} (h : RequestsMatchOpen s) (p : Station) (b : BufferNo) :
    s.carriers b = ((s.namedSlotsEnded p).discardInbox p).carriers b
      + ((s.tornChains p).map fun c => carriedBy c b).sum := by
  have hslots := carriers_foldl_endExchange (s := s) (slotsNaming_nodup s p) (tornEnding_chain s p) b
  rw [← namedSlotsEnded_eq] at hslots
  have hinbox := carriers_discardInbox (s.namedSlotsEnded p) p b
  rw [chainsIn_eq_sum, inbox_of_torn h] at hinbox
  rw [State.tornChains, List.map_append, List.sum_append]
  omega

/-- The buffers of a torn station go back in their order, and no other changes. -/
theorem returned_tornDown {s : State} (h : RequestsMatchOpen s) (hc : ChainsSound s.pool) (hcarried : ChainsCarried s)
    (p : Station) : s.pool.Returned (s.tornDown p).pool (s.buffersTornDown p)
      ∧ ∀ b ∈ s.buffersTornDown p, (s.pool.desc b).place = .attached ∨ (s.pool.desc b).place = .held p := by
  have hcarries : s.pool.CarriesChains s.carriers := ⟨hc, hcarried⟩
  obtain ⟨hdiscarded, hsound, -⟩ :=
    (Pool.Discarded.refl s.pool).foldl hcarries (carriers_tornChains h p)
  rw [List.nil_append] at hdiscarded
  have hpool : (s.tornDown p).pool = ((s.tornChains p).foldl Pool.discard s.pool).releaseHeld p := by
    rw [tornDown_pool_eq, inbox_of_torn h, ← List.foldl_append, State.tornChains]
  rw [hpool, ← buffersTornDown_eq h]
  refine ⟨hdiscarded.releaseHeld hsound p, fun b hb => ?_⟩
  obtain hb | hb := List.mem_append.mp hb
  · exact .inl (hdiscarded.attached b hb)
  · exact .inr ((hc.mem_heldChains b).mp hb)

/-- Whatever the state, a teardown leaves each buffer that stands in no chain. -/
theorem desc_tornDown_of_outside {s : State} {b : BufferNo} (p : Station)
    (hb : (s.pool.desc b).place.inChain = false) : (s.tornDown p).pool.desc b = s.pool.desc b := by
  have hout : (s.tornDown p).pool.Outside b (s.pool.desc b) := by
    rw [tornDown_pool_eq, ← List.foldl_append]
    refine outside_releaseHeld (foldl_keeps (fun q : Pool => q.Outside b (s.pool.desc b)) ⟨rfl, hb⟩ ?_) p
    exact fun q c _ hq => outside_discard hq c
  exact hout.1

theorem tornDown_scrub (s : State) (p : Station) : (s.tornDown p).pool.scrub = s.pool.scrub := by
  rw [tornDown_pool_eq, releaseHeld_scrub, ← List.foldl_append]
  exact foldl_keeps (fun q : Pool => q.scrub = s.pool.scrub) rfl fun q c _ hq => (discard_scrub q c).trans hq

/-! ## Ports (R133, R142) -/

/-- Of every port, the endings of a teardown change inbox and journal only. -/
theorem port_namedSlotsEnded (s : State) (p q : Station) :
    (s.namedSlotsEnded p).port q = { s.port q with
      inbox := ((s.namedSlotsEnded p).port q).inbox, journal := ((s.namedSlotsEnded p).port q).journal } := by
  rw [namedSlotsEnded_eq]
  refine foldl_keeps (fun u : State => u.port q = { s.port q with
    inbox := (u.port q).inbox, journal := (u.port q).journal }) rfl fun u i _ hu => ?_
  rw [port_endExchange_same, hu]

theorem port_tornDown_self (s : State) (p : Station) :
    (s.tornDown p).port p = { Port.cleared with
      resetInput := (s.port p).resetInput
      lines := (s.port p).lines
      readTiming := (s.port p).readTiming
      access := (s.port p).abandonAccess } := by
  have hport := port_tornDown s p p
  rw [if_pos rfl, tearSlots_eq, port_discardInbox, if_pos rfl, port_namedSlotsEnded] at hport
  exact hport

theorem port_tornDown_other (s : State) {p q : Station} (hq : q ≠ p) :
    (s.tornDown p).port q = peerLatched p q ((s.namedSlotsEnded p).port q) := by
  have hport := port_tornDown s p q
  rw [if_neg hq, tearSlots_eq] at hport
  rw [hport]
  exact (if_congr (by simp [hq]) rfl rfl).symm

theorem sameClock_tornDown (s : State) (p : Station) : SameClock s (s.tornDown p) := by
  have hslots : SameClock s (s.namedSlotsEnded p) := by
    rw [namedSlotsEnded_eq]
    refine foldl_keeps (SameClock s) ⟨rfl, rfl, rfl, rfl⟩ fun u i _ hu => ?_
    obtain ⟨hphase, hstrap, hcount, hpending⟩ := hu
    exact ⟨(endExchange_phase u i _).trans hphase, (endExchange_strap u i _).trans hstrap,
      (endExchange_tickCount u i _).trans hcount, (endExchange_pending u i _).trans hpending⟩
  unfold State.tornDown
  rw [tearSlots_eq]
  generalize s.namedSlotsEnded p = u at hslots ⊢
  exact hslots

/-! ## The row -/

/-- A port that stays has PEER latched, and of the rest its inbox and journal only may change. -/
theorem port_tornDown_frame (s : State) {p q : Station} (hq : q ≠ p) :
    (s.tornDown p).port q = { peerLatched p q (s.port q) with
      inbox := ((s.tornDown p).port q).inbox, journal := ((s.tornDown p).port q).journal } := by
  have hport := port_namedSlotsEnded s p q
  rw [port_tornDown_other s hq]
  generalize (s.namedSlotsEnded p).port q = x at hport ⊢
  rw [hport]
  unfold peerLatched
  split
  · rfl
  · rfl

/-- Latching PEER leaves inbox and journal. -/
theorem peerLatched_inbox_journal (p q : Station) (x : Port) :
    (peerLatched p q x).inbox = x.inbox ∧ (peerLatched p q x).journal = x.journal := by
  unfold peerLatched
  split <;> exact ⟨rfl, rfl⟩

/-- Settles O42: step 1 is the endings of the slots that name the station, read off item by item; steps 2 to 5 clear the
inbox, the buffers and the port. -/
theorem teardownClearsStation : Obligations.TeardownClearsStation := by
  intro s p
  have hexec : exec (.teardown p) s
      = .next ((if (s.port p).state = .reset then s else s.tornDown p).setResetInput p true) := rfl
  rw [hexec]
  refine ⟨fun hreset => by rw [if_pos hreset]; rfl, fun hrunning => ?_⟩
  rw [if_neg hrunning]
  have hself : ((s.tornDown p).setResetInput p true).port p = { (s.tornDown p).port p with resetInput := true } :=
    port_modPort_self ..
  have hother : ∀ q, q ≠ p → ((s.tornDown p).setResetInput p true).port q = (s.tornDown p).port q :=
    fun q hq => port_modPort_ne _ _ hq
  have hslots : ((s.tornDown p).setResetInput p true).slots = (s.namedSlotsEnded p).slots := by
    rw [State.setResetInput, modPort_slots, tornDown_slots, tearSlots_eq]
  have hslot : ∀ i, ((s.tornDown p).setResetInput p true).slot i = (s.namedSlotsEnded p).slot i := fun i => by
    rw [State.slot, hslots]
    rfl
  have hpool : ((s.tornDown p).setResetInput p true).pool = (s.tornDown p).pool := modPort_pool ..
  have hclock : SameClock s ((s.tornDown p).setResetInput p true) := by
    have htorn := sameClock_tornDown s p
    generalize s.tornDown p = u at htorn ⊢
    exact htorn
  obtain ⟨hidle, habandoned, hnegated⟩ := abandonAccess_eq (s.port p)
  refine ⟨_, (s.port p).abandonAccess, rfl, ?_⟩
  rw [hpool]
  refine ⟨hslots, fun i => (hslot i).trans (slot_namedSlotsEnded s p i), ?_, hidle,
    habandoned, hnegated, fun q hq => ?_, fun q hq => ?_, fun hsound q hq => ?_, fun _ hmatch q hq => ?_, ?_,
    fun _ hmatch hchains hcarried => ?_, fun b hb => desc_tornDown_of_outside p hb, tornDown_mem s p,
    tornDown_scrub s p, hclock⟩
  · rw [hself, port_tornDown_self]
  · rw [hother q hq, port_tornDown_other s hq]
  · rw [hother q hq]
    exact port_tornDown_frame s hq
  · rw [hother q hq, port_tornDown_other s hq, (peerLatched_inbox_journal ..).2]
    exact journal_namedSlotsEnded hsound hq
  · rw [hother q hq, port_tornDown_other s hq, (peerLatched_inbox_journal ..).1]
    exact inbox_of_other hmatch hq
  · rw [tornDown_pool]
    exact heldCount_releaseHeld _ p
  · obtain ⟨hreturned, hplaces⟩ := returned_tornDown hmatch hchains hcarried p
    refine ⟨hreturned, fun b q hq hheld => hreturned.desc_of_notMem fun hb => ?_⟩
    obtain hplace | hplace := hplaces b hb
    · rw [hheld] at hplace
      cases hplace
    · rw [hheld] at hplace
      exact hq (Place.held.inj hplace)

end Sys2Proof.Machine
end
